-- ==== Sys2Proof/Word.lean ====
section
/-! DEFINITION. The word types of HETC and the one arithmetic helper the spec names (00_scope.md R8, R9). -/

namespace Sys2Proof

/-- A 32-bit word: a symbol, a count, a weight, a register, a bus word (00_scope.md R6). -/
abbrev Word := BitVec 32

/-- One byte of the byte buffer (10_state.md R58). -/
abbrev Byte := BitVec 8

/-- A bus offset inside the block (20_memory.md R80). -/
abbrev Offset := BitVec 28

/-- `ceil_div(a, b)` of 00_scope.md R9, for `b >= 1`. -/
def ceilDiv (a b : Nat) : Nat := (a + b - 1) / b

end Sys2Proof
end

