-- ==== Sys2Proof/Config.lean ====
section
/-! DEFINITION. What an implementation fixes (00_scope.md R5, R6), and the free value the spec leaves open. -/

namespace Sys2Proof

/-- The four capacity parameters of 00_scope.md R5.
HETC_BASE and BUS_PROTOCOL are read by no rule and are not held (log entry 5). -/
structure Config where
  nText : Nat
  nSym  : Nat
  nBits : Nat
  nPath : Nat
  deriving DecidableEq, Repr

/-- `NODE_CAP` (00_scope.md R6). -/
def Config.nodeCap (c : Config) : Nat := 2 * c.nSym

/-- `CODE_CAP`: the longest code word the CMAP table can hold (00_scope.md R6). -/
def Config.codeCap (c : Config) : Nat := max 1 (c.nSym - 1)

/-- `CW`: words of code storage per CMAP entry (00_scope.md R6). -/
def Config.cw (c : Config) : Nat := ceilDiv c.codeCap 32

/-- `N_OUT` (00_scope.md R6). -/
def Config.nOut (c : Config) : Nat := c.nBits

/-- `N_BYTES` (00_scope.md R6). -/
def Config.nBytes (c : Config) : Nat := ceilDiv c.nBits 8

/-- `N_BITW`: words in the BITBUF and BYTEBUF windows (00_scope.md R6). -/
def Config.nBitw (c : Config) : Nat := ceilDiv c.nBits 32

/-- The reference configuration REF of 92_eei_decisions.md D4.
DESIGN CHOICE (log entry 1): `State.reset` is the block in this configuration; no statement rests on it. -/
def Config.ref : Config := { nText := 64, nSym := 8, nBits := 256, nPath := 16 }

/-- The draw of 92_eei_decisions.md D30: the word a Host read returns where the spec gives none.
It has no body, so no proof can lean on a value of it (log entry 4).
Its argument is the counter `draws` of the state, so each draw is free of every other. -/
opaque Config.freeWord : Nat → BitVec 32

end Sys2Proof
end

