-- ==== Sys2Proof/Syntax.lean ====
section
/-! DEFINITION. The sixteen commands of 30_encoding.md R122, one constructor per row of spec/opcode_table.json.
No command has an operand field (R120, R126), so no constructor has an argument. -/

namespace Sys2Proof

inductive Instr where
  | nop
  | freq
  | buildf
  | build
  | codemap
  | encode
  | pack
  | unpack
  | decode
  | tnew
  | tsetl
  | tsetr
  | tgetl
  | tgetr
  | tsetp
  | tgetp
  deriving DecidableEq, Repr

end Sys2Proof
end

