-- ==== Sys2Proof/WellFormed.lean ====
section
/-! DEFINITION. The checks a command word's fields and the capacity parameters must meet. -/

namespace Sys2Proof

/-- The two fields of a command word (30_encoding.md R120). -/
structure CommandFields where
  rsv    : BitVec 24
  opcode : BitVec 8
  deriving DecidableEq, Repr

/-- Check 1 of a command word: RSV must be 0 (30_encoding.md R120, R124). -/
def CommandFields.rsvZero (f : CommandFields) : Bool := f.rsv == 0

/-- Check 2 of a command word: OPCODE is none of the reserved 0x09 to 0x0F and 0x17 to 0xFF (30_encoding.md R124). -/
def CommandFields.assigned (f : CommandFields) : Bool :=
  decide (f.opcode.toNat ≤ 0x08) || (decide (0x10 ≤ f.opcode.toNat) && decide (f.opcode.toNat ≤ 0x16))

/-- The fields of a legal command word. -/
def CommandFields.wellFormed (f : CommandFields) : Bool := f.rsvZero && f.assigned

/-- Every command is well formed: it has no operand that could be out of range (30_encoding.md R120, R126). -/
def Instr.wellFormed (_ : Instr) : Bool := true

/-- The bounds of 00_scope.md R5 on the capacity parameters. -/
def Config.wellFormed (c : Config) : Bool :=
  decide (1 ≤ c.nText) && decide (c.nText ≤ 2 ^ 22) &&
  decide (1 ≤ c.nSym) && decide (c.nSym ≤ 4096) &&
  decide (8 ≤ c.nBits) && decide (c.nBits ≤ 2 ^ 22) &&
  decide (1 ≤ c.nPath) && decide (c.nPath ≤ 2 ^ 22)

end Sys2Proof
end

