-- ==== Sys2Proof/Decode.lean ====
section
/-! DEFINITION. Decoding a command word, total over all 2^32 words (30_encoding.md R123), and the encoder. -/

namespace Sys2Proof

/-- The field split of 30_encoding.md R120. -/
def splitCommand (c : Word) : CommandFields :=
  { rsv := c.extractLsb' 8 24, opcode := c.extractLsb' 0 8 }

/-- The word with these fields (30_encoding.md R120). -/
def joinCommand (f : CommandFields) : Word := f.rsv ++ f.opcode

/-- The opcode map of 30_encoding.md R122, read from opcode to command; every other opcode is reserved (R124). -/
def instrOfOpcode (op : BitVec 8) : Option Instr :=
  match op.toNat with
  | 0x00 => some .nop
  | 0x01 => some .freq
  | 0x02 => some .buildf
  | 0x03 => some .build
  | 0x04 => some .codemap
  | 0x05 => some .encode
  | 0x06 => some .pack
  | 0x07 => some .unpack
  | 0x08 => some .decode
  | 0x10 => some .tnew
  | 0x11 => some .tsetl
  | 0x12 => some .tsetr
  | 0x13 => some .tgetl
  | 0x14 => some .tgetr
  | 0x15 => some .tsetp
  | 0x16 => some .tgetp
  | _ => none

/-- What the decoder answers: a command, or `BAD(c)` (30_encoding.md R123). -/
inductive Decoded where
  | command (i : Instr)
  | bad (c : Word)
  deriving DecidableEq, Repr

/-- `decode(c)` of 30_encoding.md R123: RSV is looked at first, then OPCODE. -/
def decode (c : Word) : Decoded :=
  if (splitCommand c).rsvZero then
    match instrOfOpcode (splitCommand c).opcode with
    | some i => .command i
    | none => .bad c
  else .bad c

/-- The opcode map of 30_encoding.md R122, read from command to opcode. -/
def opcodeOf : Instr → BitVec 8
  | .nop => 0x00
  | .freq => 0x01
  | .buildf => 0x02
  | .build => 0x03
  | .codemap => 0x04
  | .encode => 0x05
  | .pack => 0x06
  | .unpack => 0x07
  | .decode => 0x08
  | .tnew => 0x10
  | .tsetl => 0x11
  | .tsetr => 0x12
  | .tgetl => 0x13
  | .tgetr => 0x14
  | .tsetp => 0x15
  | .tgetp => 0x16

/-- The command word of a command: RSV = 0 and its opcode (30_encoding.md R120, R122). -/
def encode (i : Instr) : Word := joinCommand { rsv := 0, opcode := opcodeOf i }

/-- The host's question about a row of the opcode table: the command of the word whose low `nbits` bits are `w`,
the bits above them zero. A command word is 32 bits (30_encoding.md R121), so a longer row is none. -/
def decodeTableWord (nbits w : Nat) : Option Instr :=
  if nbits ≤ 32 then
    match decode (BitVec.ofNat 32 (w % 2 ^ nbits)) with
    | .command i => some i
    | .bad _ => none
  else none

end Sys2Proof
end

