-- ==== Sys2Proof/Machine/State.lean ====
section
/-! DEFINITION. The state of HETC as plain data, the reasons a step can stop, and the state after hard reset. -/

namespace Sys2Proof.Machine

/-- A payload `(occ, symv, weight, sym)` (00_scope.md R11). -/
structure Payload where
  occ    : Bool
  symv   : Bool
  weight : Word
  sym    : Word
  deriving DecidableEq, Repr

/-- `NONE` (00_scope.md R11). -/
def Payload.none : Payload := { occ := false, symv := false, weight := 0, sym := 0 }

/-- One entry of the NODE arena (10_state.md R50). -/
structure Node where
  payload : Payload
  lv      : Bool
  rv      : Bool
  left    : Word
  right   : Word
  deriving DecidableEq, Repr

/-- One entry of the CMAP table (10_state.md R57); `code` holds the CODE_CAP bits code[0], code[1], ... -/
structure CmapEntry where
  sym  : Word
  len  : Word
  code : List Bool
  deriving DecidableEq, Repr

/-- A buffer as a sparse list of (index, element), indices strictly rising.
An index that is not listed holds an UNSPECIFIED element (20_memory.md R102): there is no value an unlisted index reads as. -/
abbrev Buf (α : Type) := List (Nat × α)

/-- Storage of HETC (10_state.md R50, R55 to R59), each buffer by its own element index (20_memory.md R80).
FREQ is two lists, because the Host writes an entry's two words apart (20_memory.md R87).
BIT is held bit by bit, because a command may write part of a BITBUF word; `byte` is a list of `Host.Cell`. -/
structure Memory where
  text      : Buf Word
  freqSym   : Buf Word
  freqCount : Buf Word
  node      : Buf Node
  cmap      : Buf CmapEntry
  bit       : Buf Bool
  byte      : List Host.Cell
  out       : Buf Word
  path      : Buf Word
  deriving DecidableEq, Repr

/-- Every element of every buffer unspecified (70_reset_and_hazards.md R360). -/
def Memory.unspecified : Memory :=
  { text := [], freqSym := [], freqCount := [], node := [], cmap := [], bit := [], byte := [], out := [], path := [] }

/-- What comes next from outside the Engine (00_scope.md R3): the Host's program and the interleaving, in order. -/
inductive HostEvent where
  /-- A Host read transaction `MemRead(off, size)` (20_memory.md R90). -/
  | read (off : Offset) (size : Nat)
  /-- A Host write transaction `MemWrite(off, size, value)` (20_memory.md R91). -/
  | write (off : Offset) (size : Nat) (value : Word)
  /-- `POLL` (30_encoding.md R132): STATUS is read until BUSY = 0.
  `latency` reads find BUSY = 1 before the Engine moves (70_reset_and_hazards.md R373). -/
  | poll (latency : Nat)
  /-- The Engine moves here (60_exceptions.md R331: the order is not specified, so the state says it). -/
  | engine
  /-- `rst_n` is asserted and released (70_reset_and_hazards.md R360). -/
  | hardReset
  deriving DecidableEq, Repr

/-- The response of a bus transaction (92_eei_decisions.md D2). -/
inductive Response where
  | okay
  | error
  deriving DecidableEq, Repr

/-- What the bus target port answered: the response and the read data (0 for a write: log entry 3). -/
structure BusAnswer where
  response : Response
  rdata    : Word
  deriving DecidableEq, Repr

/-- The state of the machine: the block's registers and buffers, and what stands outside it. -/
structure State where
  /-- The capacity parameters, as the constant CAP_* registers hold them (10_state.md R32). -/
  cfg       : Config
  /-- CTRL.IRQ_EN (10_state.md R34). -/
  irqEn     : Bool
  /-- CMDLATCH, empty exactly when STATUS.BUSY = 0 (10_state.md R61). -/
  cmdLatch  : Option Word
  /-- STATUS.DONE (10_state.md R38). -/
  done      : Bool
  /-- STATUS.OVR (10_state.md R40). -/
  ovr       : Bool
  /-- STATUS.TREE_OK (10_state.md R41). -/
  treeOk    : Bool
  /-- STATUS.MAP_OK (10_state.md R42). -/
  mapOk     : Bool
  /-- ERRCODE[7:0] (10_state.md R43). -/
  errCode   : BitVec 8
  /-- ERRINFO (10_state.md R43). -/
  errInfo   : Word
  /-- ERRPOS (10_state.md R43). -/
  errPos    : Word
  /-- TEXT_LEN (10_state.md R44). -/
  textLen   : Word
  /-- NSYM (10_state.md R45). -/
  nsym      : Word
  /-- BIT_COUNT (10_state.md R46). -/
  bitCount  : Word
  /-- BYTE_COUNT (10_state.md R47). -/
  byteCount : Word
  /-- OUT_LEN (10_state.md R48). -/
  outLen    : Word
  /-- NNODES (10_state.md R49). -/
  nnodes    : Word
  /-- ROOT (10_state.md R49). -/
  root      : Word
  /-- CMAP_COUNT (10_state.md R51). -/
  cmapCount : Word
  /-- PATH_LEN (10_state.md R52). -/
  pathLen   : Word
  /-- PAY_FLAGS[1:0]: bit 0 OCC, bit 1 SYMV (10_state.md R53). -/
  payFlags  : BitVec 2
  /-- PAY_WEIGHT (10_state.md R53). -/
  payWeight : Word
  /-- PAY_SYM (10_state.md R53). -/
  paySym    : Word
  /-- RES_FLAGS, RES_WEIGHT and RES_SYM (10_state.md R54). -/
  res       : Payload
  /-- The buffers and the node arena (10_state.md R50, R55 to R59). -/
  mem       : Memory
  /-- The Host's coming events, in issue order (20_memory.md R97; log entry 2). -/
  inbox     : List HostEvent
  /-- The answer to the latest bus transaction (log entry 3). -/
  resp      : Option BusAnswer
  /-- The model's own counter of draws (log entry 4). -/
  draws     : Nat
  deriving DecidableEq, Repr

/-- The buffers, for the reason of a fault (20_memory.md R102). -/
inductive Buffer where
  | text
  | freq
  | node
  | cmap
  | bit
  | byte
  | path
  deriving DecidableEq, Repr

/-- The reasons the machine stops. -/
inductive Fault where
  /-- Raised by a command that reads, as an operand, an element that is unspecified (20_memory.md R102: "the model
  should record a fault and give it no value"). Safe: the model stops where the hardware goes on with some value. -/
  | unspecifiedOperand (buffer : Buffer) (index : Nat)
  /-- Raised by CODEMAP and ENCODE when the walk from ROOT goes deeper than NNODES nodes, or the map does not fit the
  CMAP table: the arena is then no built tree, which no run reaches (00_scope.md R13, 42_construction.md R232).
  Safe: such a state has no meaning in the spec (log entry 6). -/
  | arenaNotATree
  deriving DecidableEq, Repr

/-- The reasons the machine gives no meaning. -/
inductive Refusal where
  /-- Raised by an arm of `exec` whose command has no meaning yet; there is none. Safe. -/
  | notModelled (mnemonic : String)
  deriving DecidableEq, Repr

/-- The block of configuration `c` right after hard reset: every register at its value of 10_state.md R60, every buffer
element unspecified (70_reset_and_hazards.md R360); no Host event waiting, no bus answer yet, no draw taken. -/
def State.resetWith (c : Config) : State :=
  { cfg := c, irqEn := false, cmdLatch := .none, done := false, ovr := false, treeOk := false, mapOk := false
    errCode := 0, errInfo := 0, errPos := 0
    textLen := 0, nsym := 0, bitCount := 0, byteCount := 0, outLen := 0
    nnodes := 0, root := 0, cmapCount := 0, pathLen := 0
    payFlags := 0, payWeight := 0, paySym := 0, res := Payload.none
    mem := Memory.unspecified, inbox := [], resp := .none, draws := 0 }

/-- The machine right after hard reset, in the reference configuration (log entry 1). -/
def State.reset : State := State.resetWith Config.ref

end Sys2Proof.Machine
end

