-- ==== Sys2Proof/Machine/Ops.lean ====
section
/-! DEFINITION. The named operations over buffers, nodes and the completion registers.
Completing a command with an error is one operation here: HETC has no other exception entry (60_exceptions.md R326). -/

namespace Sys2Proof.Machine

/-! ## Buffers -/

/-- One element of a buffer; `none` when it is unspecified (20_memory.md R83, R102). -/
def Buf.load {α : Type} : Buf α → Nat → Option α
  | [], _ => .none
  | (j, v) :: rest, i => if i = j then some v else Buf.load rest i

/-- Replaces one element and keeps the indices strictly rising (20_memory.md R83). -/
def Buf.store {α : Type} : Buf α → Nat → α → Buf α
  | [], i, v => [(i, v)]
  | (j, w) :: rest, i, v =>
    if i < j then (i, v) :: (j, w) :: rest
    else if i = j then (i, v) :: rest
    else (j, w) :: Buf.store rest i v

/-- Stores a sequence of elements at `i`, `i + 1`, and so on. -/
def Buf.storeAll {α : Type} : Buf α → Nat → List α → Buf α
  | b, _, [] => b
  | b, i, v :: vs => Buf.storeAll (Buf.store b i v) (i + 1) vs

/-- The `n` elements from `i` on, unspecified ones as `none`: an operand of 30_encoding.md R126, not yet read. -/
def Buf.slice {α : Type} (b : Buf α) : Nat → Nat → List (Option α)
  | _, 0 => []
  | i, n + 1 => Buf.load b i :: Buf.slice b (i + 1) n

/-- `havoc(X)`: every element of the buffer becomes unspecified (00_scope.md R10). -/
def Buf.havoc {α : Type} (_ : Buf α) : Buf α := []

/-- The indices rise strictly and every one is above `lo`, given as a bound not to be reached. -/
def Buf.rising {α : Type} : Nat → Buf α → Bool
  | _, [] => true
  | lo, (j, _) :: rest => decide (lo ≤ j) && Buf.rising (j + 1) rest

/-- The canonical form of a buffer: indices strictly rising (so equal contents are equal lists). -/
def Buf.wf {α : Type} (b : Buf α) : Bool := Buf.rising 0 b

/-- Every listed index is below the buffer's capacity. -/
def Buf.within {α : Type} (b : Buf α) (cap : Nat) : Bool := b.all fun c => decide (c.1 < cap)

/-- The canonical form of the whole storage. -/
def Memory.wf (m : Memory) : Bool :=
  Buf.wf m.text && Buf.wf m.freqSym && Buf.wf m.freqCount && Buf.wf m.node && Buf.wf m.cmap &&
  Buf.wf m.bit && Buf.wf m.byte && Buf.wf m.out && Buf.wf m.path

/-- No element outside a buffer's capacity is listed (00_scope.md R5, R6; 10_state.md R50, R55 to R59). -/
def Memory.within (m : Memory) (c : Config) : Bool :=
  Buf.within m.text c.nText && Buf.within m.freqSym c.nSym && Buf.within m.freqCount c.nSym &&
  Buf.within m.node c.nodeCap && Buf.within m.cmap c.nSym && Buf.within m.bit c.nBits &&
  Buf.within m.byte c.nBytes && Buf.within m.out c.nOut && Buf.within m.path c.nPath

/-! ## Errors and completion -/

/-- The error kinds of 60_exceptions.md R321. -/
inductive ErrorKind where
  | emptyInput
  | invalidDigit
  | emptyPath
  | outOfBounds
  | unknownSymbol
  | corruptStream
  | truncatedStream
  | overflow
  | noTree
  | notBuilt
  | badTable
  | badCommand
  deriving DecidableEq, Repr

/-- `code(E)` (60_exceptions.md R321). -/
def ErrorKind.code : ErrorKind → BitVec 8
  | .emptyInput => 0x01
  | .invalidDigit => 0x02
  | .emptyPath => 0x03
  | .outOfBounds => 0x04
  | .unknownSymbol => 0x05
  | .corruptStream => 0x06
  | .truncatedStream => 0x07
  | .overflow => 0x08
  | .noTree => 0x09
  | .notBuilt => 0x0A
  | .badTable => 0x0B
  | .badCommand => 0x0C

/-- `E(info, pos)` of `raise` (00_scope.md R10). -/
structure Err where
  kind : ErrorKind
  info : Word
  pos  : Word
  deriving DecidableEq, Repr

/-- The OVERFLOW resources of 60_exceptions.md R322. -/
inductive Resource where
  | text
  | sym
  | node
  | bits
  | path
  | weight
  deriving DecidableEq, Repr

/-- The resource ids of 60_exceptions.md R322. -/
def Resource.id : Resource → Word
  | .text => 1
  | .sym => 2
  | .node => 3
  | .bits => 4
  | .path => 5
  | .weight => 6

/-- OVERFLOW of a resource at a position (60_exceptions.md R322). The position is 0 but for FREQ's and BUILD's SYM. -/
def overflow (r : Resource) (pos : Nat) : Err :=
  { kind := .overflow, info := r.id, pos := BitVec.ofNat 32 pos }

/-- What a part of a command gives: a value, an error to raise, or a fault of the model. -/
inductive Res (α : Type) where
  | ok (a : α)
  | err (e : Err)
  | fault (f : Fault)
  deriving DecidableEq, Repr

/-- Applies a function to the value of a result. -/
def Res.map {α β : Type} (f : α → β) : Res α → Res β
  | .ok a => .ok (f a)
  | .err e => .err e
  | .fault r => .fault r

/-- The completion writes (40_command_interface.md R152): the error registers, CMDLATCH empty (so BUSY = 0), DONE = 1. -/
def State.complete (s : State) (code : BitVec 8) (info pos : Word) : State :=
  { s with errCode := code, errInfo := info, errPos := pos, cmdLatch := .none, done := true }

/-- `succeed` (00_scope.md R10, 40_command_interface.md R152). -/
def State.succeed (s : State) : State := s.complete 0 0 0

/-- `raise E(info, pos)` (00_scope.md R10, 60_exceptions.md R325, R326): the command completes with the error.
What else the error leaves is in the state it is applied to. -/
def State.raise (s : State) (e : Err) : State := s.complete e.kind.code e.info e.pos

/-! ## Payloads, nodes and the arena -/

/-- `norm(occ, symv, w, s)` (00_scope.md R11). -/
def norm (occ symv : Bool) (w s : Word) : Payload :=
  if occ = false then Payload.none
  else if symv = false then { occ := true, symv := false, weight := w, sym := 0 }
  else { occ := true, symv := true, weight := w, sym := s }

/-- An entry with this payload and no child (41_tree.md R181). -/
def Node.fresh (p : Payload) : Node := { payload := p, lv := false, rv := false, left := 0, right := 0 }

/-- The leaf of a symbol (42_construction.md R224 step 1). -/
def Node.leaf (weight sym : Word) : Node := Node.fresh { occ := true, symv := true, weight := weight, sym := sym }

/-- `child(k, d)`: digit 0 (`false`) is the left child, 1 (`true`) the right one (00_scope.md R12, R13). -/
def Node.child (n : Node) (d : Bool) : Option Word :=
  if d then (if n.rv then some n.right else .none) else (if n.lv then some n.left else .none)

/-- The field writes of `link` in the parent (41_tree.md R181). -/
def Node.setChild (n : Node) (d : Bool) (k : Word) : Node :=
  if d then { n with rv := true, right := k } else { n with lv := true, left := k }

/-- The entry a command reads; unspecified is a fault (20_memory.md R102). -/
def loadNode (arena : Buf Node) (k : Word) : Res Node :=
  match Buf.load arena k.toNat with
  | some n => .ok n
  | .none => .fault (.unspecifiedOperand .node k.toNat)

/-- `link(parent, d, k)` (41_tree.md R181). -/
def link (arena : Buf Node) (parent : Word) (d : Bool) (k : Word) : Res (Buf Node) :=
  (loadNode arena parent).map fun n => Buf.store arena parent.toNat (n.setChild d k)

/-- `alloc(p)` followed by `link(parent, d, k)`, with `k` = NNODES the new index (41_tree.md R181). -/
def allocLinked (arena : Buf Node) (nnodes parent : Word) (d : Bool) (p : Payload) : Res (Buf Node) :=
  link (Buf.store arena nnodes.toNat (Node.fresh p)) parent d nnodes

/-! ## Writing a buffer of the state -/

/-- The state with another FREQ table from entry 0 on; entries past its end keep their contents (42_construction.md R220). -/
def State.storeFreq (s : State) (t : List (Word × Word)) : State :=
  { s with
    nsym := BitVec.ofNat 32 t.length
    mem := { s.mem with
      freqSym := Buf.storeAll s.mem.freqSym 0 (t.map Prod.fst)
      freqCount := Buf.storeAll s.mem.freqCount 0 (t.map Prod.snd) } }

/-- NSYM <- 0 and havoc(FREQ) (42_construction.md R220, 60_exceptions.md R325). -/
def State.abandonFreq (s : State) : State :=
  { s with nsym := 0, mem := { s.mem with freqSym := Buf.havoc s.mem.freqSym, freqCount := Buf.havoc s.mem.freqCount } }

/-- BIT_COUNT <- 0 and havoc(BIT) (43_codemap_encode.md R260, 60_exceptions.md R325). -/
def State.abandonBits (s : State) : State :=
  { s with bitCount := 0, mem := { s.mem with bit := Buf.havoc s.mem.bit } }

/-- OUT_LEN <- 0 and havoc(OUT) (45_decode.md R300, 60_exceptions.md R325). -/
def State.abandonOut (s : State) : State :=
  { s with outLen := 0, mem := { s.mem with out := Buf.havoc s.mem.out } }

/-- The state with another arena and NNODES. -/
def State.storeArena (s : State) (arena : Buf Node) (nnodes : Word) : State :=
  { s with nnodes := nnodes, mem := { s.mem with node := arena } }

/-- The result registers (10_state.md R54). -/
def State.setRes (s : State) (p : Payload) : State := { s with res := p }

/-! ## Reset -/

/-- The buffers an aborted command makes unspecified (the table of 70_reset_and_hazards.md R362). -/
def abortHavoc (cmd : Decoded) (m : Memory) : Memory :=
  match cmd with
  | .command .freq => { m with freqSym := Buf.havoc m.freqSym, freqCount := Buf.havoc m.freqCount }
  | .command .buildf => { m with node := Buf.havoc m.node }
  | .command .tnew => { m with node := Buf.havoc m.node }
  | .command .tsetl => { m with node := Buf.havoc m.node }
  | .command .tsetr => { m with node := Buf.havoc m.node }
  | .command .tsetp => { m with node := Buf.havoc m.node }
  | .command .build =>
    { m with freqSym := Buf.havoc m.freqSym, freqCount := Buf.havoc m.freqCount, node := Buf.havoc m.node }
  | .command .codemap => { m with cmap := Buf.havoc m.cmap }
  | .command .encode => { m with bit := Buf.havoc m.bit, cmap := Buf.havoc m.cmap }
  | .command .pack => { m with byte := Buf.havoc m.byte }
  | .command .unpack => { m with bit := Buf.havoc m.bit }
  | .command .decode => { m with out := Buf.havoc m.out }
  | .command .nop => m
  | .command .tgetl => m
  | .command .tgetr => m
  | .command .tgetp => m
  | .bad _ => m

/-- Every register at its reset value of 10_state.md R60, over the given storage.
The Host's coming events, the latest bus answer and the counter of draws are no registers of the block and stay. -/
def State.resetRegisters (s : State) (m : Memory) : State :=
  { State.resetWith s.cfg with mem := m, inbox := s.inbox, resp := s.resp, draws := s.draws }

/-- Soft reset (70_reset_and_hazards.md R362). -/
def State.softReset (s : State) : State :=
  match s.cmdLatch with
  | some c => s.resetRegisters (abortHavoc (decode c) s.mem)
  | .none => s.resetRegisters s.mem

/-- Hard reset (70_reset_and_hazards.md R360). -/
def State.hardReset (s : State) : State := s.resetRegisters Memory.unspecified

end Sys2Proof.Machine
end

