-- ==== Sys2Proof/Machine/Flags.lean ====
section
/-! DEFINITION. The STATUS bits and the irq output, and the flag writes of the commands (10_state.md R36 to R42, R63). -/

namespace Sys2Proof.Machine

/-- STATUS.BUSY: a command is in flight exactly when CMDLATCH is not empty (10_state.md R37, R61). -/
def State.busy (s : State) : Bool := s.cmdLatch.isSome

/-- STATUS.ERR (10_state.md R39). -/
def State.err (s : State) : Bool := s.errCode != 0

/-- The STATUS word (10_state.md R36): bits 31:6 read 0. -/
def State.statusWord (s : State) : Word :=
  (0 : BitVec 26) ++ BitVec.ofBool s.mapOk ++ BitVec.ofBool s.treeOk ++ BitVec.ofBool s.ovr ++
    BitVec.ofBool s.err ++ BitVec.ofBool s.done ++ BitVec.ofBool s.busy

/-- The CTRL word: IRQ_EN, SRST reads 0, bits 31:2 read 0 (10_state.md R34). -/
def State.ctrlWord (s : State) : Word := (0 : BitVec 31) ++ BitVec.ofBool s.irqEn

/-- `irq = CTRL.IRQ_EN AND STATUS.DONE` (60_exceptions.md R330). -/
def State.irq (s : State) : Bool := s.irqEn && s.done

/-- The flags after an edit of the tree: TREE_OK <- 0, MAP_OK <- 0, CMAP_COUNT <- 0 (10_state.md R41, R42, R63). -/
def State.markEdited (s : State) : State := { s with treeOk := false, mapOk := false, cmapCount := 0 }

/-- The flags after a construction: TREE_OK <- 1, MAP_OK <- 0, CMAP_COUNT <- 0 (42_construction.md R223, 10_state.md R63). -/
def State.markBuilt (s : State) : State := { s with treeOk := true, mapOk := false, cmapCount := 0 }

/-- The flags after a map derivation: MAP_OK <- 1 (43_codemap_encode.md R251, 10_state.md R63). -/
def State.markMapped (s : State) (count : Nat) : State :=
  { s with mapOk := true, cmapCount := BitVec.ofNat 32 count }

end Sys2Proof.Machine
end

