-- ==== Sys2Proof/Machine/Bus.lean ====
section
/-! DEFINITION. The bus target port: the register page and windows, Host reads and Host writes
(10_state.md R31; 20_memory.md R80 to R94; 40_command_interface.md R151, R153, R154). -/

namespace Sys2Proof.Machine

/-- The registers of the register page (10_state.md R31). -/
inductive Reg where
  | id
  | version
  | capText
  | capSym
  | capBits
  | capPath
  | capNode
  | capCode
  | ctrl
  | cmd
  | status
  | errCode
  | errInfo
  | errPos
  | textLen
  | nsym
  | bitCount
  | byteCount
  | outLen
  | nnodes
  | root
  | cmapCount
  | pathLen
  | payFlags
  | payWeight
  | paySym
  | resFlags
  | resWeight
  | resSym
  deriving DecidableEq, Repr

/-- The register at an offset of the register page; `none` at an offset that holds none (10_state.md R31). -/
def Reg.ofOffset (o : Nat) : Option Reg :=
  match o with
  | 0x000 => some .id
  | 0x004 => some .version
  | 0x008 => some .capText
  | 0x00C => some .capSym
  | 0x010 => some .capBits
  | 0x014 => some .capPath
  | 0x018 => some .capNode
  | 0x01C => some .capCode
  | 0x020 => some .ctrl
  | 0x024 => some .cmd
  | 0x028 => some .status
  | 0x02C => some .errCode
  | 0x030 => some .errInfo
  | 0x034 => some .errPos
  | 0x040 => some .textLen
  | 0x044 => some .nsym
  | 0x048 => some .bitCount
  | 0x04C => some .byteCount
  | 0x050 => some .outLen
  | 0x054 => some .nnodes
  | 0x058 => some .root
  | 0x05C => some .cmapCount
  | 0x060 => some .pathLen
  | 0x064 => some .payFlags
  | 0x068 => some .payWeight
  | 0x06C => some .paySym
  | 0x070 => some .resFlags
  | 0x074 => some .resWeight
  | 0x078 => some .resSym
  | _ => .none

/-- The offset of a register (10_state.md R31). -/
def Reg.offset : Reg → Nat
  | .id => 0x000
  | .version => 0x004
  | .capText => 0x008
  | .capSym => 0x00C
  | .capBits => 0x010
  | .capPath => 0x014
  | .capNode => 0x018
  | .capCode => 0x01C
  | .ctrl => 0x020
  | .cmd => 0x024
  | .status => 0x028
  | .errCode => 0x02C
  | .errInfo => 0x030
  | .errPos => 0x034
  | .textLen => 0x040
  | .nsym => 0x044
  | .bitCount => 0x048
  | .byteCount => 0x04C
  | .outLen => 0x050
  | .nnodes => 0x054
  | .root => 0x058
  | .cmapCount => 0x05C
  | .pathLen => 0x060
  | .payFlags => 0x064
  | .payWeight => 0x068
  | .paySym => 0x06C
  | .resFlags => 0x070
  | .resWeight => 0x074
  | .resSym => 0x078

/-- The register word of a payload's two flag bits: bit 0 OCC, bit 1 SYMV (10_state.md R53, R54). -/
def flagsWord (occ symv : Bool) : Word := (0 : BitVec 30) ++ BitVec.ofBool symv ++ BitVec.ofBool occ

/-- The word a register reads as (10_state.md R31 to R54). -/
def State.readReg (s : State) : Reg → Word
  | .id => 0x48455443
  | .version => 0x00010000
  | .capText => BitVec.ofNat 32 s.cfg.nText
  | .capSym => BitVec.ofNat 32 s.cfg.nSym
  | .capBits => BitVec.ofNat 32 s.cfg.nBits
  | .capPath => BitVec.ofNat 32 s.cfg.nPath
  | .capNode => BitVec.ofNat 32 s.cfg.nodeCap
  | .capCode => BitVec.ofNat 32 s.cfg.codeCap
  | .ctrl => s.ctrlWord
  | .cmd => 0
  | .status => s.statusWord
  | .errCode => s.errCode.setWidth 32
  | .errInfo => s.errInfo
  | .errPos => s.errPos
  | .textLen => s.textLen
  | .nsym => s.nsym
  | .bitCount => s.bitCount
  | .byteCount => s.byteCount
  | .outLen => s.outLen
  | .nnodes => s.nnodes
  | .root => s.root
  | .cmapCount => s.cmapCount
  | .pathLen => s.pathLen
  | .payFlags => s.payFlags.setWidth 32
  | .payWeight => s.payWeight
  | .paySym => s.paySym
  | .resFlags => flagsWord s.res.occ s.res.symv
  | .resWeight => s.res.weight
  | .resSym => s.res.sym

/-- The registers a Host read finds a defined value in while BUSY = 1 (40_command_interface.md R154). -/
def Reg.readableWhileBusy : Reg → Bool
  | .id | .version | .capText | .capSym | .capBits | .capPath | .capNode | .capCode | .ctrl | .status => true
  | .cmd | .errCode | .errInfo | .errPos | .textLen | .nsym | .bitCount | .byteCount | .outLen | .nnodes | .root
  | .cmapCount | .pathLen | .payFlags | .payWeight | .paySym | .resFlags | .resWeight | .resSym => false

/-- A CTRL write: SRST = 1 resets, whatever else the word holds; else IRQ_EN takes bit 0
(10_state.md R34, 70_reset_and_hazards.md R362). -/
def State.writeCtrl (s : State) (v : Word) : State :=
  if v.getLsbD 1 then s.softReset else { s with irqEn := v.getLsbD 0 }

/-- A STATUS write: bit 1 set clears DONE, bit 3 set clears OVR (10_state.md R36). -/
def State.writeStatus (s : State) (v : Word) : State :=
  { s with done := s.done && !v.getLsbD 1, ovr := s.ovr && !v.getLsbD 3 }

/-- Acceptance of a command word (40_command_interface.md R151). -/
def State.accept (s : State) (c : Word) : State :=
  { s with cmdLatch := some c, done := false, errCode := 0, errInfo := 0, errPos := 0 }

/-- A write to a register while no command is in flight (20_memory.md R91, R93; 10_state.md R31). -/
def State.writeReg (s : State) (v : Word) : Reg → State
  | .ctrl => s.writeCtrl v
  | .status => s.writeStatus v
  | .cmd => s.accept v
  | .textLen => { s with textLen := v }
  | .nsym => { s with nsym := v }
  | .bitCount => { s with bitCount := v }
  | .pathLen => { s with pathLen := v }
  | .payFlags => { s with payFlags := v.setWidth 2 }
  | .payWeight => { s with payWeight := v }
  | .paySym => { s with paySym := v }
  | .id | .version | .capText | .capSym | .capBits | .capPath | .capNode | .capCode
  | .errCode | .errInfo | .errPos | .byteCount | .outLen | .nnodes | .root | .cmapCount
  | .resFlags | .resWeight | .resSym => s

/-- The windows of 20_memory.md R82. -/
inductive Window where
  | reg
  | text
  | freq
  | node
  | cmapSym
  | cmapLen
  | cmapCode
  | bitbuf
  | bytebuf
  | out
  | path
  deriving DecidableEq, Repr

/-- The window of a window number; 0xB to 0xF are none (20_memory.md R82). -/
def Window.ofIndex (win : Nat) : Option Window :=
  match win with
  | 0x0 => some .reg
  | 0x1 => some .text
  | 0x2 => some .freq
  | 0x3 => some .node
  | 0x4 => some .cmapSym
  | 0x5 => some .cmapLen
  | 0x6 => some .cmapCode
  | 0x7 => some .bitbuf
  | 0x8 => some .bytebuf
  | 0x9 => some .out
  | 0xA => some .path
  | _ => .none

/-- The limit (exclusive) of a window (20_memory.md R82). -/
def Window.limit (c : Config) : Window → Nat
  | .reg => 0x1000
  | .text => 4 * c.nText
  | .freq => 8 * c.nSym
  | .node => 32 * c.nodeCap
  | .cmapSym => 4 * c.nSym
  | .cmapLen => 4 * c.nSym
  | .cmapCode => 4 * c.nSym * c.cw
  | .bitbuf => 4 * c.nBitw
  | .bytebuf => 4 * c.nBitw
  | .out => 4 * c.nOut
  | .path => 4 * c.nPath

/-- `win = off[27:24]` (20_memory.md R81). -/
def windowOf (off : Offset) : Option Window := Window.ofIndex (off.extractLsb' 24 4).toNat

/-- `o = off[23:0]` (20_memory.md R81). -/
def inWindow (off : Offset) : Nat := (off.extractLsb' 0 24).toNat

/-- `ERROR_condition(off, size)` (20_memory.md R92). -/
def errorCondition (c : Config) (off : Offset) (size : Nat) : Bool :=
  size != 4 || off.extractLsb' 0 2 != 0 ||
  match windowOf off with
  | .none => true
  | some w => decide (w.limit c ≤ inWindow off)

/-- A word with some of its bits specified: `known` has a 1 where `value` is what the spec gives (20_memory.md R83). -/
structure Loaded where
  value : Word
  known : Word
  deriving DecidableEq, Repr

/-- A word every bit of which is specified. -/
def Loaded.all (v : Word) : Loaded := { value := v, known := BitVec.allOnes 32 }

/-- A word element of a buffer. -/
def Loaded.ofElement : Option Word → Loaded
  | some v => Loaded.all v
  | .none => { value := 0, known := 0 }

/-- The word whose bit 31-t is `f t` (20_memory.md R84, R85). -/
def wordMsbFirst (f : Nat → Bool) : Word :=
  (List.range 32).foldl (fun acc t => acc ||| (BitVec.ofBool (f t)).setWidth 32 <<< (31 - t)) 0

/-- The word whose bit 31-t is the single bit `f t`, unspecified where `f t` is `none`. -/
def Loaded.ofBits (f : Nat → Option Bool) : Loaded :=
  { value := wordMsbFirst fun t => (f t).getD false, known := wordMsbFirst fun t => (f t).isSome }

/-- BITBUF word `w` (20_memory.md R84): bits at N_BITS and above read 0. -/
def loadBitWord (c : Config) (b : Buf Bool) (w : Nat) : Loaded :=
  Loaded.ofBits fun t => if 32 * w + t < c.nBits then Buf.load b (32 * w + t) else some false

/-- BYTEBUF word `w` (20_memory.md R84): byte 4w+q is bits [31-8q : 24-8q], lanes at N_BYTES and above read 0. -/
def loadByteWord (c : Config) (b : Buf Byte) (w : Nat) : Loaded :=
  Loaded.ofBits fun t =>
    if 4 * w + t / 8 < c.nBytes then (Buf.load b (4 * w + t / 8)).map (·.getLsbD (7 - t % 8)) else some false

/-- Word `q` of a NODE entry (20_memory.md R86). Bits that read 0 in every entry are specified in an unspecified one too. -/
def loadNodeWord (n : Option Node) (q : Nat) : Loaded :=
  match q with
  | 0 =>
    match n with
    | some n => Loaded.all ((0 : BitVec 28) ++ BitVec.ofBool n.rv ++ BitVec.ofBool n.lv ++
        BitVec.ofBool n.payload.symv ++ BitVec.ofBool n.payload.occ)
    | .none => { value := 0, known := 0xFFFFFFF0 }
  | 1 => Loaded.ofElement (n.map (·.payload.weight))
  | 2 => Loaded.ofElement (n.map (·.payload.sym))
  | 3 => Loaded.ofElement (n.map (·.left))
  | 4 => Loaded.ofElement (n.map (·.right))
  | _ => Loaded.all 0

/-- CMAP_CODE word `w` of an entry (20_memory.md R85): bits at CODE_CAP and above read 0. -/
def loadCodeWord (c : Config) (e : Option CmapEntry) (w : Nat) : Loaded :=
  Loaded.ofBits fun t =>
    if 32 * w + t < c.codeCap then e.map (·.code.getD (32 * w + t) false) else some false

/-- The word at in-window offset `o` (20_memory.md R83; the register page: 10_state.md R31, RAZ offsets read 0). -/
def State.loadWord (s : State) (w : Window) (o : Nat) : Loaded :=
  match w with
  | .reg =>
    match Reg.ofOffset o with
    | some r => Loaded.all (s.readReg r)
    | .none => Loaded.all 0
  | .text => Loaded.ofElement (Buf.load s.mem.text (o / 4))
  | .freq => Loaded.ofElement
      (if o / 4 % 2 = 0 then Buf.load s.mem.freqSym (o / 8) else Buf.load s.mem.freqCount (o / 8))
  | .node => loadNodeWord (Buf.load s.mem.node (o / 32)) (o / 4 % 8)
  | .cmapSym => Loaded.ofElement ((Buf.load s.mem.cmap (o / 4)).map (·.sym))
  | .cmapLen => Loaded.ofElement ((Buf.load s.mem.cmap (o / 4)).map (·.len))
  | .cmapCode => loadCodeWord s.cfg (Buf.load s.mem.cmap (o / 4 / s.cfg.cw)) (o / 4 % s.cfg.cw)
  | .bitbuf => loadBitWord s.cfg s.mem.bit (o / 4)
  | .bytebuf => loadByteWord s.cfg s.mem.byte (o / 4)
  | .out => Loaded.ofElement (Buf.load s.mem.out (o / 4))
  | .path => Loaded.ofElement (Buf.load s.mem.path (o / 4))

/-- Whether a read while BUSY = 1 finds a defined value (40_command_interface.md R154). -/
def readableWhileBusy (w : Window) (o : Nat) : Bool :=
  match w with
  | .reg => match Reg.ofOffset o with | some r => r.readableWhileBusy | .none => false
  | .text | .freq | .node | .cmapSym | .cmapLen | .cmapCode | .bitbuf | .bytebuf | .out | .path => false

/-- A bus answer OKAY with this word; every bit that is not specified comes from a draw (20_memory.md R83, R102). -/
def State.answerWord (s : State) (l : Loaded) : State :=
  if l.known = BitVec.allOnes 32 then { s with resp := some { response := .okay, rdata := l.value } }
  else
    { s with
      resp := some { response := .okay, rdata := (l.value &&& l.known) ||| (Config.freeWord s.draws &&& ~~~l.known) }
      draws := s.draws + 1 }

/-- A bus answer ERROR, read data 0, no effect (20_memory.md R92). -/
def State.answerError (s : State) : State := { s with resp := some { response := .error, rdata := 0 } }

/-- A bus answer OKAY to a write. -/
def State.answerOkay (s : State) : State := { s with resp := some { response := .okay, rdata := 0 } }

/-- `MemRead(off, size)` (20_memory.md R90). -/
def State.busRead (s : State) (off : Offset) (size : Nat) : State :=
  if errorCondition s.cfg off size then s.answerError
  else
    match windowOf off with
    | .none => s.answerError
    | some w =>
      if s.busy && !readableWhileBusy w (inWindow off) then s.answerWord { value := 0, known := 0 }
      else s.answerWord (s.loadWord w (inWindow off))

/-- The bits of a word, bit 31 first (20_memory.md R84). -/
def bitsMsbFirst (v : Word) : List Bool := (List.range 32).map fun t => v.getLsbD (31 - t)

/-- The bytes of a word, bits 31:24 first (20_memory.md R84). -/
def bytesMsbFirst (v : Word) : List Byte := (List.range 4).map fun q => v.extractLsb' (24 - 8 * q) 8

/-- A write to in-window offset `o` while no command is in flight (20_memory.md R83, R84, R87, R91, R93):
read-only windows ignore it, and so do bits and lanes past N_BITS and N_BYTES. -/
def State.storeWord (s : State) (w : Window) (o : Nat) (v : Word) : State :=
  match w with
  | .reg => match Reg.ofOffset o with | some r => s.writeReg v r | .none => s
  | .text => { s with mem := { s.mem with text := Buf.store s.mem.text (o / 4) v } }
  | .freq =>
    if o / 4 % 2 = 0 then { s with mem := { s.mem with freqSym := Buf.store s.mem.freqSym (o / 8) v } }
    else { s with mem := { s.mem with freqCount := Buf.store s.mem.freqCount (o / 8) v } }
  | .bitbuf =>
    { s with mem := { s.mem with
        bit := Buf.storeAll s.mem.bit (32 * (o / 4)) ((bitsMsbFirst v).take (s.cfg.nBits - 32 * (o / 4))) } }
  | .bytebuf =>
    { s with mem := { s.mem with
        byte := Buf.storeAll s.mem.byte (4 * (o / 4)) ((bytesMsbFirst v).take (s.cfg.nBytes - 4 * (o / 4))) } }
  | .path => { s with mem := { s.mem with path := Buf.store s.mem.path (o / 4) v } }
  | .node | .cmapSym | .cmapLen | .cmapCode | .out => s

/-- Whether a write takes effect even while BUSY = 1: CTRL and STATUS (20_memory.md R91). -/
def writableWhileBusy (w : Window) (o : Nat) : Bool :=
  match w with
  | .reg => decide (o = Reg.offset .ctrl ∨ o = Reg.offset .status)
  | .text | .freq | .node | .cmapSym | .cmapLen | .cmapCode | .bitbuf | .bytebuf | .out | .path => false

/-- `MemWrite(off, size, v)` (20_memory.md R91). -/
def State.busWrite (s : State) (off : Offset) (size : Nat) (v : Word) : State :=
  if errorCondition s.cfg off size then s.answerError
  else
    match windowOf off with
    | .none => s.answerError
    | some w =>
      if s.busy && !writableWhileBusy w (inWindow off) then { s with ovr := true }.answerOkay
      else (s.storeWord w (inWindow off) v).answerOkay

end Sys2Proof.Machine
end

