-- ==== Sys2Proof/Machine/Operands.lean ====
section
/-! DEFINITION. The operand forms of 30_encoding.md R126: what a command reads, in the order the pseudocode reads it. -/

namespace Sys2Proof.Machine

/-- Reads a whole operand; its first unspecified element is a fault (20_memory.md R102).
`i` is the index of the first element. -/
def readAll {α : Type} (b : Buffer) : Nat → List (Option α) → Res (List α)
  | _, [] => .ok []
  | i, .none :: _ => .fault (.unspecifiedOperand b i)
  | i, some v :: rest => (readAll b (i + 1) rest).map (v :: ·)

/-- The text operand TEXT[0..TEXT_LEN-1] (30_encoding.md R126). -/
def State.textOperand (s : State) : List (Option Word) := Buf.slice s.mem.text 0 s.textLen.toNat

/-- The symbols of the table operand, FREQ[0..NSYM-1].sym (30_encoding.md R126). -/
def State.tableSyms (s : State) : List (Option Word) := Buf.slice s.mem.freqSym 0 s.nsym.toNat

/-- The counts of the table operand, FREQ[0..NSYM-1].count (30_encoding.md R126). -/
def State.tableCounts (s : State) : List (Option Word) := Buf.slice s.mem.freqCount 0 s.nsym.toNat

/-- The bit-sequence operand BIT[0..BIT_COUNT-1] (30_encoding.md R126). -/
def State.bitOperand (s : State) : List (Option Bool) := Buf.slice s.mem.bit 0 s.bitCount.toNat

/-- The packed operand BYTE[0..ceil_div(BIT_COUNT, 8)-1] (30_encoding.md R126). -/
def State.packedOperand (s : State) : List (Option Byte) := Buf.slice s.mem.byte 0 (ceilDiv s.bitCount.toNat 8)

/-- The digit words of the path operand PATH[0..PATH_LEN-1] (30_encoding.md R126). -/
def State.pathOperand (s : State) : List (Option Word) := Buf.slice s.mem.path 0 s.pathLen.toNat

/-- The code map CMAP[0..CMAP_COUNT-1] (10_state.md R57). -/
def State.mapOperand (s : State) : List (Option CmapEntry) := Buf.slice s.mem.cmap 0 s.cmapCount.toNat

/-- The payload operand PAY (10_state.md R53). -/
def State.pay (s : State) : Payload :=
  norm (s.payFlags.getLsbD 0) (s.payFlags.getLsbD 1) s.payWeight s.paySym

/-- The digit check of `check_path` from index `j` on: every word must be 0 or 1 (41_tree.md R187). -/
def checkDigits : Nat → List (Option Word) → Res (List Bool)
  | _, [] => .ok []
  | j, .none :: _ => .fault (.unspecifiedOperand .path j)
  | j, some w :: rest =>
    if w = 0 then (checkDigits (j + 1) rest).map (false :: ·)
    else if w = 1 then (checkDigits (j + 1) rest).map (true :: ·)
    else .err { kind := .invalidDigit, info := w, pos := BitVec.ofNat 32 j }

/-- `check_path(allow_empty)` (41_tree.md R187): the path operand as digits, or the error of its first failing check. -/
def State.checkPath (s : State) (allowEmpty : Bool) : Res (List Bool) :=
  if s.cfg.nPath < s.pathLen.toNat then .err (overflow .path 0)
  else if s.pathLen = 0 ∧ allowEmpty = false then .err { kind := .emptyPath, info := 0, pos := 0 }
  else checkDigits 0 s.pathOperand

/-- The node at a path from `cur`: the walk of 41_tree.md R189.
A missing child at step `j` is OUT_OF_BOUNDS with the digit and its index. -/
def nodeAt (arena : Buf Node) : Word → Nat → List Bool → Res Word
  | cur, _, [] => .ok cur
  | cur, j, d :: ds =>
    match loadNode arena cur with
    | .ok n =>
      match n.child d with
      | some c => nodeAt arena c (j + 1) ds
      | .none =>
        .err { kind := .outOfBounds, info := if d then 1 else 0, pos := BitVec.ofNat 32 j }
    | .err e => .err e
    | .fault f => .fault f

end Sys2Proof.Machine
end

