-- ==== Sys2Proof/Machine/CodeMap.lean ====
section
/-! DEFINITION. Code-map derivation and encoding (43_codemap_encode.md): CODEMAP, ENCODE. -/

namespace Sys2Proof.Machine

/-- A symbol and its bit path (00_scope.md R15). -/
abbrev Code := Word × List Bool

/-- What the walk records at a node reached by path `p` (43_codemap_encode.md R250). -/
def codeHere (n : Node) (p : List Bool) : List Code := if n.payload.symv then [(n.payload.sym, p)] else []

/-- What the walk pushes for a node: the left child on top of the right one (43_codemap_encode.md R250). -/
def pushChildren (n : Node) (p : List Bool) : List (Word × List Bool) :=
  (match n.child false with | some c => [(c, p ++ [false])] | .none => []) ++
  (match n.child true with | some c => [(c, p ++ [true])] | .none => [])

/-- The loop of `map_of()` over its stack (43_codemap_encode.md R250).
The first argument counts the pops that are left: a tree of NNODES entries is walked in at most NNODES pops (00_scope.md R13). -/
def mapWalk (arena : Buf Node) : Nat → List (Word × List Bool) → Res (List Code)
  | _, [] => .ok []
  | 0, _ :: _ => .fault .arenaNotATree
  | pops + 1, (k, p) :: stack =>
    match loadNode arena k with
    | .ok n => (mapWalk arena pops (pushChildren n p ++ stack)).map (codeHere n p ++ ·)
    | .err e => .err e
    | .fault f => .fault f

/-- `map_of()` (43_codemap_encode.md R250). -/
def State.mapOf (s : State) : Res (List Code) := mapWalk s.mem.node s.nnodes.toNat [(s.root, [])]

/-- The CODE_CAP bits of a code word: the path, then zeros (43_codemap_encode.md R251). -/
def padCode (codeCap : Nat) (p : List Bool) : List Bool := p ++ List.replicate (codeCap - p.length) false

/-- The CMAP entry of a code (43_codemap_encode.md R251). -/
def cmapEntry (codeCap : Nat) (m : Code) : CmapEntry :=
  { sym := m.1, len := BitVec.ofNat 32 m.2.length, code := padCode codeCap m.2 }

/-- Whether a map fits the CMAP table; a built tree's always does (42_construction.md R232). -/
def mapFits (c : Config) (m : List Code) : Bool :=
  decide (m.length ≤ c.nSym) && m.all fun x => decide (x.2.length ≤ c.codeCap)

/-- The writes of CODEMAP (43_codemap_encode.md R251); entries past the map keep their contents. -/
def State.storeMap (s : State) (m : List Code) : State :=
  { s with mem := { s.mem with cmap := Buf.storeAll s.mem.cmap 0 (m.map (cmapEntry s.cfg.codeCap)) } }.markMapped m.length

/-- CODEMAP's body after its check (43_codemap_encode.md R251). -/
def deriveMap (s : State) : Res State :=
  match s.mapOf with
  | .ok m => if mapFits s.cfg m then .ok (s.storeMap m) else .fault .arenaNotATree
  | .err e => .err e
  | .fault f => .fault f

/-- The error of a command that needs a built tree (10_state.md R41, 60_exceptions.md R323). -/
def notBuilt : Err := { kind := .notBuilt, info := 0, pos := 0 }

/-- CODEMAP (43_codemap_encode.md R251). -/
def execCodemap (s : State) : Host.Outcome State Fault Refusal :=
  if s.treeOk = false then .next (s.raise notBuilt)
  else
    match deriveMap s with
    | .ok s' => .next s'.succeed
    | .err e => .next (s.raise e)
    | .fault f => .fault f

/-- The code bits code[0..len-1] of an entry (10_state.md R57). -/
def CmapEntry.bits (e : CmapEntry) : List Bool := (List.range e.len.toNat).map fun t => e.code.getD t false

/-- `lookup(s)` from entry `e` on: the first entry of the symbol (43_codemap_encode.md R257). -/
def lookup (sym : Word) : Nat → List (Option CmapEntry) → Res (Option CmapEntry)
  | _, [] => .ok .none
  | e, .none :: _ => .fault (.unspecifiedOperand .cmap e)
  | e, some x :: rest => if x.sym = sym then .ok (some x) else lookup sym (e + 1) rest

/-- ENCODE's loop from text position `i` on, `c` bits made so far: the bits it appends (43_codemap_encode.md R260).
ERRPOS of OVERFLOW (BITS) is 0, as decision D17 rules by 60_exceptions.md R322, "OVERFLOW, every other case"; the pseudocode of
R260 and vector V3-7 have `i` there (DEDUCED, unsafe: log entry 16). -/
def encodeText (nBits : Nat) (map : List (Option CmapEntry)) : Nat → Nat → List (Option Word) → Res (List Bool)
  | _, _, [] => .ok []
  | i, _, .none :: _ => .fault (.unspecifiedOperand .text i)
  | i, c, some sym :: rest =>
    match lookup sym 0 map with
    | .ok (some x) =>
      if nBits < c + x.len.toNat then .err (overflow .bits 0)
      else (encodeText nBits map (i + 1) (c + x.len.toNat) rest).map (x.bits ++ ·)
    | .ok .none => .err { kind := .unknownSymbol, info := sym, pos := BitVec.ofNat 32 i }
    | .err e => .err e
    | .fault f => .fault f

/-- The state with a new bit sequence from BIT[0] on; later bits keep their contents (43_codemap_encode.md R260). -/
def State.storeBits (s : State) (bits : List Bool) : State :=
  { s with bitCount := BitVec.ofNat 32 bits.length, mem := { s.mem with bit := Buf.storeAll s.mem.bit 0 bits } }

/-- ENCODE once the map is there (43_codemap_encode.md R260). -/
def encodeWithMap (s : State) : Host.Outcome State Fault Refusal :=
  match encodeText s.cfg.nBits s.mapOperand 0 0 s.textOperand with
  | .ok bits => .next (s.storeBits bits).succeed
  | .err e => .next (s.abandonBits.raise e)
  | .fault f => .fault f

/-- ENCODE (43_codemap_encode.md R260): the map is derived first when MAP_OK = 0, and stays if the encoding fails. -/
def execEncode (s : State) : Host.Outcome State Fault Refusal :=
  if s.treeOk = false then .next (s.raise notBuilt)
  else if s.cfg.nText < s.textLen.toNat then .next (s.raise (overflow .text 0))
  else if s.mapOk then encodeWithMap s
  else
    match deriveMap s with
    | .ok s' => encodeWithMap s'
    | .err e => .next (s.raise e)
    | .fault f => .fault f

end Sys2Proof.Machine
end

