-- ==== Sys2Proof/Machine/Command.lean ====
section
/-! DEFINITION. NOP and the illegal command words (40_command_interface.md R156, R157). -/

namespace Sys2Proof.Machine

/-- NOP (40_command_interface.md R156): the completion writes and nothing else. -/
def execNop (s : State) : Host.Outcome State Fault Refusal := .next s.succeed

/-- An illegal command word `c` (40_command_interface.md R157): BAD_COMMAND(c, 0). -/
def execIllegal (c : Word) (s : State) : Host.Outcome State Fault Refusal :=
  .next (s.raise { kind := .badCommand, info := c, pos := 0 })

end Sys2Proof.Machine
end

