-- ==== Sys2Proof/Machine/Construction.lean ====
section
/-! DEFINITION. Frequency analysis and tree construction (42_construction.md): FREQ, BUILDF, BUILD. -/

namespace Sys2Proof.Machine

/-- A frequency table as (symbol, count) pairs in entry order (10_state.md R56). -/
abbrev Table := List (Word × Word)

/-- Adds one to the count of a symbol; `none` when the table has no entry of it (42_construction.md R220). -/
def countIn (sym : Word) : Table → Option Table
  | [] => .none
  | (x, c) :: rest => if x = sym then some ((x, c + 1) :: rest) else (countIn sym rest).map ((x, c) :: ·)

/-- FREQ's execution phase from text position `i` on, over the table made so far (42_construction.md R220). -/
def tally (nSym : Nat) : Nat → Table → List (Option Word) → Res Table
  | _, t, [] => .ok t
  | i, _, .none :: _ => .fault (.unspecifiedOperand .text i)
  | i, t, some sym :: rest =>
    match countIn sym t with
    | some t' => tally nSym (i + 1) t' rest
    | .none =>
      if t.length = nSym then .err (overflow .sym i)
      else tally nSym (i + 1) (t ++ [(sym, 1)]) rest

/-- FREQ (42_construction.md R220). -/
def execFreq (s : State) : Host.Outcome State Fault Refusal :=
  if s.cfg.nText < s.textLen.toNat then .next (s.raise (overflow .text 0))
  else
    match tally s.cfg.nSym 0 [] s.textOperand with
    | .ok t => .next (s.storeFreq t).succeed
    | .err e => .next (s.abandonFreq.raise e)
    | .fault f => .fault f

/-- The key of an item of the working collection: weight, then index (42_construction.md R222). -/
abbrev Key := Word × Nat

/-- The key order: lexicographic and unsigned (42_construction.md R222). -/
def Key.less (a b : Key) : Bool := decide (a.1 < b.1) || (a.1 == b.1 && decide (a.2 < b.2))

/-- The item of least key among a first one and a list. -/
def leastOf (k : Key) : List Key → Key
  | [] => k
  | x :: xs => leastOf (if Key.less x k then x else k) xs

/-- Removes the item of least key (42_construction.md R222, R224 step 3). -/
def takeLeast : List Key → Option (Key × List Key)
  | [] => .none
  | k :: ks => some (leastOf k ks, (k :: ks).erase (leastOf k ks))

/-- The node that combines the first removed item `a` and the second one `b` (42_construction.md R224 step 3). -/
def combined (a b : Key) : Node :=
  { payload := { occ := true, symv := false, weight := a.1 + b.1, sym := 0 }
    lv := true, rv := true, left := BitVec.ofNat 32 a.2, right := BitVec.ofNat 32 b.2 }

/-- The loop of construction: the internal nodes it makes, of indices `next`, `next + 1`, and so on
(42_construction.md R224 step 3). The first argument counts the rounds that are left. -/
def combineAll : Nat → List Key → Nat → List Node
  | 0, _, _ => []
  | rounds + 1, q, next =>
    match takeLeast q with
    | .none => []
    | some (a, q1) =>
      match takeLeast q1 with
      | .none => []
      | some (b, q2) => combined a b :: combineAll rounds (q2 ++ [(a.1 + b.1, next)]) (next + 1)

/-- The leaves of a table: NODE[j] is the leaf of FREQ[j] (42_construction.md R222, R224 step 1). -/
def leavesOf (t : Table) : List Node := t.map fun e => Node.leaf e.2 e.1

/-- The working collection at the start: every leaf with its weight and index (42_construction.md R224 step 2). -/
def firstKeys (t : Table) : List Key := (t.map Prod.snd).zip (List.range t.length)

/-- The nodes a construction writes from NODE[0] on: `construct(n)` (42_construction.md R224), and for one entry
`construct_one()` (42_construction.md R225). -/
def builtNodes (t : Table) : List Node :=
  match t with
  | [(sym, count)] =>
    [Node.leaf count sym,
     { payload := { occ := true, symv := false, weight := count, sym := 0 }, lv := true, rv := false, left := 0, right := 0 }]
  | _ => leavesOf t ++ combineAll (t.length - 1) (firstKeys t) t.length

/-- BUILDF's body after its checks (42_construction.md R223): the nodes, ROOT the last one, NNODES, the flags.
Entries past the new nodes keep their contents. -/
def State.construct (s : State) (t : Table) : State :=
  { s.storeArena (Buf.storeAll s.mem.node 0 (builtNodes t)) (BitVec.ofNat 32 (builtNodes t).length) with
    root := BitVec.ofNat 32 ((builtNodes t).length - 1) }.markBuilt

/-- BUILDF's check for a repeated symbol from entry `j` on, `seen` the symbols before it (42_construction.md R223). -/
def checkDistinct : Nat → List Word → List (Option Word) → Res (List Word)
  | _, seen, [] => .ok seen
  | j, _, .none :: _ => .fault (.unspecifiedOperand .freq j)
  | j, seen, some sym :: rest =>
    if sym ∈ seen then .err { kind := .badTable, info := sym, pos := BitVec.ofNat 32 j }
    else checkDistinct (j + 1) (seen ++ [sym]) rest

/-- The total of the counts, on unbounded numbers (42_construction.md R223, 00_scope.md R9). -/
def totalCount (counts : List Word) : Nat := (counts.map BitVec.toNat).sum

/-- The table BUILDF builds from, or the error of its operand checks (42_construction.md R223). -/
def State.checkedTable (s : State) : Res Table :=
  match checkDistinct 0 [] s.tableSyms with
  | .ok syms =>
    match readAll .freq 0 s.tableCounts with
    | .ok counts => if 0xFFFFFFFF < totalCount counts then .err (overflow .weight 0) else .ok (syms.zip counts)
    | .err e => .err e
    | .fault f => .fault f
  | .err e => .err e
  | .fault f => .fault f

/-- BUILDF (42_construction.md R223). -/
def execBuildf (s : State) : Host.Outcome State Fault Refusal :=
  if s.nsym = 0 then .next (s.raise { kind := .emptyInput, info := 0, pos := 0 })
  else if s.cfg.nSym < s.nsym.toNat then .next (s.raise (overflow .sym 0))
  else
    match s.checkedTable with
    | .ok t => .next (s.construct t).succeed
    | .err e => .next (s.raise e)
    | .fault f => .fault f

/-- BUILD (42_construction.md R226). -/
def execBuild (s : State) : Host.Outcome State Fault Refusal :=
  if s.cfg.nText < s.textLen.toNat then .next (s.raise (overflow .text 0))
  else if s.textLen = 0 then .next (s.raise { kind := .emptyInput, info := 0, pos := 0 })
  else
    match tally s.cfg.nSym 0 [] s.textOperand with
    | .ok t => .next ((s.storeFreq t).construct t).succeed
    | .err e => .next (s.abandonFreq.raise e)
    | .fault f => .fault f

end Sys2Proof.Machine
end

