-- ==== Sys2Proof/Machine/Decoding.lean ====
section
/-! DEFINITION. Decoding (45_decode.md): DECODE. -/

namespace Sys2Proof.Machine

/-- DECODE's loop from bit `i` on (45_decode.md R300): the cursor `k`, the first bit `start` of the current code word,
the symbols to come. -/
def decodeBits (arena : Buf Node) (root : Word) : Word → Nat → Nat → List (Option Bool) → Res (List Word)
  | k, start, i, [] =>
    if k = root then .ok []
    else .err { kind := .truncatedStream, info := BitVec.ofNat 32 (i - start), pos := BitVec.ofNat 32 start }
  | _, _, i, .none :: _ => .fault (.unspecifiedOperand .bit i)
  | k, start, i, some b :: rest =>
    match loadNode arena k with
    | .ok n =>
      match n.child b with
      | .none => .err { kind := .corruptStream, info := if b then 1 else 0, pos := BitVec.ofNat 32 i }
      | some c =>
        match loadNode arena c with
        | .ok m =>
          if m.payload.symv then (decodeBits arena root root (i + 1) (i + 1) rest).map (m.payload.sym :: ·)
          else decodeBits arena root c start (i + 1) rest
        | .err e => .err e
        | .fault f => .fault f
    | .err e => .err e
    | .fault f => .fault f

/-- DECODE (45_decode.md R300); OUT entries past OUT_LEN keep their contents. -/
def execDecode (s : State) : Host.Outcome State Fault Refusal :=
  if s.treeOk = false then .next (s.raise notBuilt)
  else if s.cfg.nBits < s.bitCount.toNat then .next (s.raise (overflow .bits 0))
  else
    match decodeBits s.mem.node s.root s.root 0 0 s.bitOperand with
    | .ok text =>
      .next { s with
        outLen := BitVec.ofNat 32 text.length
        mem := { s.mem with out := Buf.storeAll s.mem.out 0 text } }.succeed
    | .err e => .next (s.abandonOut.raise e)
    | .fault f => .fault f

end Sys2Proof.Machine
end

