-- ==== Sys2Proof/Machine/Pack.lean ====
section
/-! DEFINITION. Bit-stream pack and unpack (44_pack.md): PACK, UNPACK. -/

namespace Sys2Proof.Machine

/-- The number whose binary digits, most significant first, are `bits`. -/
def bitsToNat (bits : List Bool) : Nat := bits.foldl (fun a b => 2 * a + b.toNat) 0

/-- Byte `j` of a packed bit sequence: bit 7-q is stream bit 8j+q, 0 past the end (44_pack.md R280). -/
def packedByte (bits : List Bool) (j : Nat) : Byte :=
  BitVec.ofNat 8 (bitsToNat ((List.range 8).map fun q => bits.getD (8 * j + q) false))

/-- The bytes PACK writes from BYTE[0] on: the packed ones, then zeros to the end of the last BYTEBUF word
as far as the buffer goes (44_pack.md R280). -/
def packedBytes (nBytes : Nat) (bits : List Bool) : List Byte :=
  let nb := ceilDiv bits.length 8
  (List.range nb).map (packedByte bits) ++ List.replicate (min (4 * ceilDiv nb 4) nBytes - nb) 0

/-- PACK (44_pack.md R280). -/
def execPack (s : State) : Host.Outcome State Fault Refusal :=
  if s.cfg.nBits < s.bitCount.toNat then .next (s.raise (overflow .bits 0))
  else
    match readAll .bit 0 s.bitOperand with
    | .ok bits =>
      .next { s with
        byteCount := BitVec.ofNat 32 (ceilDiv s.bitCount.toNat 8)
        mem := { s.mem with byte := Buf.storeAll s.mem.byte 0 (packedBytes s.cfg.nBytes bits) } }.succeed
    | .err e => .next (s.raise e)
    | .fault f => .fault f

/-- The first `n` bits of a byte sequence: stream bit `i` is bit 7-(i mod 8) of byte i div 8 (44_pack.md R282). -/
def unpackedBits (bytes : List Byte) (n : Nat) : List Bool :=
  (List.range n).map fun i => (bytes.getD (i / 8) 0).getLsbD (7 - i % 8)

/-- UNPACK (44_pack.md R282). -/
def execUnpack (s : State) : Host.Outcome State Fault Refusal :=
  if s.cfg.nBits < s.bitCount.toNat then .next (s.raise (overflow .bits 0))
  else
    match readAll .byte 0 s.packedOperand with
    | .ok bytes =>
      .next { s with
        mem := { s.mem with bit := Buf.storeAll s.mem.bit 0 (unpackedBits bytes s.bitCount.toNat) } }.succeed
    | .err e => .next (s.raise e)
    | .fault f => .fault f

end Sys2Proof.Machine
end

