-- ==== Sys2Proof/Machine/Tree.lean ====
section
/-! DEFINITION. The addressable binary tree commands (41_tree.md). -/

namespace Sys2Proof.Machine

/-- The error of a tree access with no tree (41_tree.md R180). -/
def noTree : Err := { kind := .noTree, info := 0, pos := 0 }

/-- TNEW (41_tree.md R182). -/
def execTnew (s : State) : Host.Outcome State Fault Refusal :=
  .next ({ s.storeArena (Buf.store s.mem.node 0 (Node.fresh s.pay)) 1 with root := 0 }).markEdited.succeed

/-- TSETL (`d = false`) and TSETR (`d = true`) (41_tree.md R183, R184). -/
def setRootChild (d : Bool) (s : State) : Host.Outcome State Fault Refusal :=
  if s.nnodes = 0 then .next (s.raise noTree)
  else if s.nnodes.toNat = s.cfg.nodeCap then .next (s.raise (overflow .node 0))
  else
    match allocLinked s.mem.node s.nnodes s.root d s.pay with
    | .ok arena => .next (s.storeArena arena (s.nnodes + 1)).markEdited.succeed
    | .err e => .next (s.raise e)
    | .fault f => .fault f

/-- TSETL (41_tree.md R183). -/
def execTsetl (s : State) : Host.Outcome State Fault Refusal := setRootChild false s

/-- TSETR (41_tree.md R184). -/
def execTsetr (s : State) : Host.Outcome State Fault Refusal := setRootChild true s

/-- The payload a get command returns for a child of ROOT: `NONE` when it is absent (41_tree.md R185, R186). -/
def rootChildPayload (arena : Buf Node) (root : Word) (d : Bool) : Res Payload :=
  match loadNode arena root with
  | .ok n =>
    match n.child d with
    | some c => (loadNode arena c).map Node.payload
    | .none => .ok Payload.none
  | .err e => .err e
  | .fault f => .fault f

/-- A get command's end: RES is the payload, or NONE with the error (41_tree.md R185, R186, R189). -/
def State.answerGet (s : State) : Res Payload → Host.Outcome State Fault Refusal
  | .ok p => .next (s.setRes p).succeed
  | .err e => .next ((s.setRes Payload.none).raise e)
  | .fault f => .fault f

/-- TGETL (`d = false`) and TGETR (`d = true`) (41_tree.md R185, R186). -/
def getRootChild (d : Bool) (s : State) : Host.Outcome State Fault Refusal :=
  if s.nnodes = 0 then s.answerGet (.err noTree)
  else s.answerGet (rootChildPayload s.mem.node s.root d)

/-- TGETL (41_tree.md R185). -/
def execTgetl (s : State) : Host.Outcome State Fault Refusal := getRootChild false s

/-- TGETR (41_tree.md R186). -/
def execTgetr (s : State) : Host.Outcome State Fault Refusal := getRootChild true s

/-- The number `m` of nodes TSETP has to create: the digits from the first missing child on (41_tree.md R188). -/
def missingNodes (arena : Buf Node) : Word → List Bool → Res Nat
  | _, [] => .ok 0
  | cur, d :: ds =>
    match loadNode arena cur with
    | .ok n =>
      match n.child d with
      | some c => missingNodes arena c ds
      | .none => .ok (ds.length + 1)
    | .err e => .err e
    | .fault f => .fault f

/-- The second walk of TSETP: it descends, creating an empty node for each missing child (41_tree.md R188).
The result is the arena, NNODES and the node at the path's end. -/
def descendCreate : Buf Node → Word → Word → List Bool → Res (Buf Node × Word × Word)
  | arena, nnodes, cur, [] => .ok (arena, nnodes, cur)
  | arena, nnodes, cur, d :: ds =>
    match loadNode arena cur with
    | .ok n =>
      match n.child d with
      | some c => descendCreate arena nnodes c ds
      | .none =>
        match allocLinked arena nnodes cur d Payload.none with
        | .ok arena' => descendCreate arena' (nnodes + 1) nnodes ds
        | .err e => .err e
        | .fault f => .fault f
    | .err e => .err e
    | .fault f => .fault f

/-- `NODE[cur].payload <- p`, the links kept (41_tree.md R188). -/
def setPayload (arena : Buf Node) (cur : Word) (p : Payload) : Res (Buf Node) :=
  (loadNode arena cur).map fun n => Buf.store arena cur.toNat { n with payload := p }

/-- TSETP's writes once every check has passed (41_tree.md R188). -/
def writeAtPath (s : State) (digits : List Bool) : Res (Buf Node × Word) :=
  match descendCreate s.mem.node s.nnodes s.root digits with
  | .ok (arena, nnodes, cur) => (setPayload arena cur s.pay).map (·, nnodes)
  | .err e => .err e
  | .fault f => .fault f

/-- TSETP (41_tree.md R188): NO_TREE, then the path checks, then OVERFLOW NODE, then the writes. -/
def execTsetp (s : State) : Host.Outcome State Fault Refusal :=
  if s.nnodes = 0 then .next (s.raise noTree)
  else
    match s.checkPath false with
    | .ok digits =>
      match missingNodes s.mem.node s.root digits with
      | .ok m =>
        if s.cfg.nodeCap < s.nnodes.toNat + m then .next (s.raise (overflow .node 0))
        else
          match writeAtPath s digits with
          | .ok (arena, nnodes) => .next (s.storeArena arena nnodes).markEdited.succeed
          | .err e => .next (s.raise e)
          | .fault f => .fault f
      | .err e => .next (s.raise e)
      | .fault f => .fault f
    | .err e => .next (s.raise e)
    | .fault f => .fault f

/-- The payload at the end of a path from ROOT (41_tree.md R189). -/
def payloadAt (s : State) (digits : List Bool) : Res Payload :=
  match nodeAt s.mem.node s.root 0 digits with
  | .ok cur => (loadNode s.mem.node cur).map Node.payload
  | .err e => .err e
  | .fault f => .fault f

/-- TGETP (41_tree.md R189): NO_TREE, then the path checks, then OUT_OF_BOUNDS at the first missing child. -/
def execTgetp (s : State) : Host.Outcome State Fault Refusal :=
  if s.nnodes = 0 then s.answerGet (.err noTree)
  else
    match s.checkPath true with
    | .ok digits => s.answerGet (payloadAt s digits)
    | .err e => s.answerGet (.err e)
    | .fault f => .fault f

end Sys2Proof.Machine
end

