-- ==== Sys2Proof/Machine/Dispatch.lean ====
section
/-! DEFINITION. One arm per command of 30_encoding.md R122: the Engine's completion step of that command. -/

namespace Sys2Proof.Machine

def exec (i : Instr) (s : State) : Host.Outcome State Fault Refusal :=
  match i with
  | .nop => Sys2Proof.Machine.execNop s
  | .freq => Sys2Proof.Machine.execFreq s
  | .buildf => Sys2Proof.Machine.execBuildf s
  | .build => Sys2Proof.Machine.execBuild s
  | .codemap => Sys2Proof.Machine.execCodemap s
  | .encode => Sys2Proof.Machine.execEncode s
  | .pack => Sys2Proof.Machine.execPack s
  | .unpack => Sys2Proof.Machine.execUnpack s
  | .decode => Sys2Proof.Machine.execDecode s
  | .tnew => Sys2Proof.Machine.execTnew s
  | .tsetl => Sys2Proof.Machine.execTsetl s
  | .tsetr => Sys2Proof.Machine.execTsetr s
  | .tgetl => Sys2Proof.Machine.execTgetl s
  | .tgetr => Sys2Proof.Machine.execTgetr s
  | .tsetp => Sys2Proof.Machine.execTsetp s
  | .tgetp => Sys2Proof.Machine.execTgetp s

end Sys2Proof.Machine
end

