-- ==== Sys2Proof/Machine/Engine.lean ====
section
/-! DEFINITION. The two agents' turns: the Engine's completion step, and one event of the Host
(40_command_interface.md R150, R152; 30_encoding.md R132; 60_exceptions.md R331). -/

namespace Sys2Proof.Machine

/-- The Engine's turn (40_command_interface.md R152): it completes the command in CMDLATCH.
With none in flight it is idle and all state persists (60_exceptions.md R340). -/
def engineTurn (s : State) : Host.Outcome State Fault Refusal :=
  match s.cmdLatch with
  | .none => .next s
  | some c =>
    match decode c with
    | .command i => exec i s
    | .bad c => execIllegal c s

/-- The offset of STATUS, which POLL reads (30_encoding.md R132). -/
def statusOffset : Offset := BitVec.ofNat 28 (Reg.offset .status)

/-- POLL (30_encoding.md R132): STATUS is read; the loop ends when BUSY = 0.
While BUSY = 1 it goes on: `latency` more reads, then the Engine moves. -/
def pollTurn (s : State) (latency : Nat) : Host.Outcome State Fault Refusal :=
  if s.busy then
    match latency with
    | 0 => engineTurn { s with inbox := .poll 0 :: s.inbox }
    | n + 1 => .next ({ s with inbox := .poll n :: s.inbox }.busRead statusOffset 4)
  else .next (s.busRead statusOffset 4)

/-- One event, already taken from the inbox of `s`. -/
def eventTurn (s : State) : HostEvent → Host.Outcome State Fault Refusal
  | .read off size => .next (s.busRead off size)
  | .write off size v => .next (s.busWrite off size v)
  | .poll latency => pollTurn s latency
  | .engine => engineTurn s
  | .hardReset => .next s.hardReset

/-- Places a command word where the next step takes it: in CMDLATCH, the Engine's turn next.
The word is `w` with the bits from `nbits` on zero. -/
def State.latchCommand (s : State) (nbits w : Nat) : State :=
  { s with cmdLatch := some (BitVec.ofNat 32 (w % 2 ^ nbits)), inbox := .engine :: s.inbox }

end Sys2Proof.Machine
end

