-- ==== Sys2Proof/Machine/Step.lean ====
section
/-! DEFINITION. One step: the next event of the inbox, or the Engine's turn when there is none. -/

namespace Sys2Proof.Machine

/-- One step of the machine. The order of the two agents is in `inbox` (20_memory.md R97, 60_exceptions.md R331). -/
def step (s : State) : Host.Outcome State Fault Refusal :=
  match s.inbox with
  | [] => engineTurn s
  | e :: rest => eventTurn { s with inbox := rest } e

/-- The state whose next step runs the command word `w` (log entry 7). -/
def State.withFetchWord (s : State) (nbits w : Nat) : State := s.latchCommand nbits w

end Sys2Proof.Machine
end

