-- ==== Sys2Proof/Safety.lean ====
section
/-! DEFINITION. What the claims speak of: the abstract Huffman tree an arena holds, the invariant of the machine, and when
a command's operands are written. -/

namespace Sys2Proof.Machine

/-! ## Trees -/

/-- A binary tree whose leaves carry a weight and a symbol and whose other nodes carry a weight
and have both children (42_construction.md R228, for n >= 2). -/
inductive HTree where
  | leaf (weight sym : Word)
  | fork (weight : Word) (l r : HTree)
  deriving DecidableEq, Repr

/-- The weight at the root of a tree. -/
def HTree.weight : HTree → Word
  | .leaf w _ => w
  | .fork w _ _ => w

/-- The leaves as (symbol, weight), from left to right. -/
def HTree.entries : HTree → List (Word × Word)
  | .leaf w s => [(s, w)]
  | .fork _ l r => l.entries ++ r.entries

/-- The number of nodes. -/
def HTree.size : HTree → Nat
  | .leaf _ _ => 1
  | .fork _ l r => l.size + r.size + 1

/-- Every internal weight is the sum of its children's weights, with no wrap (42_construction.md R228, R233). -/
def HTree.sums : HTree → Prop
  | .leaf _ _ => True
  | .fork w l r => w.toNat = l.weight.toNat + r.weight.toNat ∧ l.sums ∧ r.sums

/-- The symbols with their paths, left before right, below a node reached by path `p` (00_scope.md R12, R15). -/
def HTree.codes : HTree → List Bool → List (Word × List Bool)
  | .leaf _ s, p => [(s, p)]
  | .fork _ l r, p => l.codes (p ++ [false]) ++ r.codes (p ++ [true])

/-- The arena holds the tree at index `k` (10_state.md R50, 42_construction.md R224). -/
def HTree.heldAt (arena : Buf Node) : HTree → Word → Prop
  | .leaf w s, k => Buf.load arena k.toNat = some (Node.leaf w s)
  | .fork w l r, k => ∃ a b : Word,
      Buf.load arena k.toNat = some { payload := ⟨true, false, w, 0⟩, lv := true, rv := true, left := a, right := b } ∧
      l.heldAt arena a ∧ r.heldAt arena b

/-- A built tree: the degenerate one of one symbol (42_construction.md R225), or a fork of two trees (R224). -/
inductive Built where
  | single (weight sym : Word)
  | forked (weight : Word) (l r : HTree)
  deriving DecidableEq, Repr

/-- The weight at the root. -/
def Built.weight : Built → Word
  | .single w _ => w
  | .forked w _ _ => w

/-- The leaves as (symbol, weight), from left to right. -/
def Built.entries : Built → List (Word × Word)
  | .single w s => [(s, w)]
  | .forked w l r => (HTree.fork w l r).entries

/-- The number of nodes. -/
def Built.size : Built → Nat
  | .single _ _ => 2
  | .forked w l r => (HTree.fork w l r).size

/-- The internal weights are sums, and no two leaves carry the same symbol (42_construction.md R228, R223). -/
def Built.sound (t : Built) : Prop :=
  (match t with | .single _ _ => True | .forked w l r => (HTree.fork w l r).sums) ∧ (t.entries.map Prod.fst).Nodup

/-- The code map of the tree, in left-to-right order (43_codemap_encode.md R252). -/
def Built.codes : Built → List (Word × List Bool)
  | .single _ s => [(s, [false])]
  | .forked w l r => (HTree.fork w l r).codes []

/-- The arena holds the built tree at ROOT (42_construction.md R224, R225). -/
def Built.heldAt (arena : Buf Node) (root : Word) : Built → Prop
  | .single w s => ∃ a : Word,
      Buf.load arena root.toNat = some { payload := ⟨true, false, w, 0⟩, lv := true, rv := false, left := a, right := 0 } ∧
      Buf.load arena a.toNat = some (Node.leaf w s)
  | .forked w l r => (HTree.fork w l r).heldAt arena root

/-! ## The invariant -/

/-- A payload equal to its own normalisation (00_scope.md R11). -/
def Payload.normal (p : Payload) : Bool := norm p.occ p.symv p.weight p.sym == p

/-- Payload normalised, 0 in a meaningless link field (10_state.md R50). -/
def Node.canonical (n : Node) : Bool := n.payload.normal && (n.lv || n.left == 0) && (n.rv || n.right == 0)

/-- `k`'s child by digit `d` is `c` (00_scope.md R13). -/
def childIs (arena : Buf Node) (k : Nat) (d : Bool) (c : Word) : Prop :=
  ∃ n, Buf.load arena k = some n ∧ n.child d = some c

/-- The entries below NNODES are a forest in which ROOT is nobody's child:
so each node reachable from ROOT has exactly one parent, and no cycle is reachable (00_scope.md R13). -/
structure ArenaOk (arena : Buf Node) (nnodes : Nat) (root : Word) : Prop where
  /-- Every allocated entry is specified. -/
  specified : ∀ k, k < nnodes → (Buf.load arena k).isSome
  /-- Every link of an allocated entry leads to an allocated entry that is not ROOT. -/
  links : ∀ k d c, k < nnodes → childIs arena k d c → c.toNat < nnodes ∧ c ≠ root
  /-- No entry is the child of two. -/
  oneParent : ∀ k k' d d' c, k < nnodes → k' < nnodes → childIs arena k d c → childIs arena k' d' c → k = k' ∧ d = d'

/-- The tree in the arena is a built tree of NNODES nodes, and while MAP_OK = 1 the CMAP table holds its code map
(10_state.md R41, R42). -/
def State.holdsBuilt (s : State) (t : Built) : Prop :=
  t.sound ∧ t.heldAt s.mem.node s.root ∧ t.size = s.nnodes.toNat ∧
  (s.mapOk = true → s.mapOperand = t.codes.map fun m => some (cmapEntry s.cfg.codeCap m))

/-- The invariant of the machine: it holds after reset, and every step keeps it. -/
structure State.Inv (s : State) : Prop where
  /-- The capacities meet 00_scope.md R5. -/
  config : s.cfg.wellFormed = true
  /-- The storage is in its canonical form. -/
  canonical : s.mem.wf = true
  /-- No element past a buffer's capacity is listed. -/
  within : s.mem.within s.cfg = true
  /-- NNODES <= NODE_CAP (10_state.md R49). -/
  nodesFit : s.nnodes.toNat ≤ s.cfg.nodeCap
  /-- NNODES >= 1 implies ROOT < NNODES (10_state.md R49). -/
  rootFits : s.nnodes ≠ 0 → s.root.toNat < s.nnodes.toNat
  /-- The arena below NNODES is a forest (00_scope.md R13). -/
  arena : ArenaOk s.mem.node s.nnodes.toNat s.root
  /-- Every specified entry has its meaningless fields 0 (10_state.md R50). -/
  nodes : ∀ k n, Buf.load s.mem.node k = some n → n.canonical = true
  /-- TREE_OK = 1 implies a built tree, MAP_OK = 1 its code map (10_state.md R41, R42). -/
  built : s.treeOk = true → ∃ t : Built, s.holdsBuilt t
  /-- MAP_OK = 1 implies TREE_OK = 1 (10_state.md R42). -/
  mapNeedsTree : s.mapOk = true → s.treeOk = true
  /-- CMAP_COUNT = 0 whenever MAP_OK = 0 (10_state.md R51). -/
  countNeedsMap : s.mapOk = false → s.cmapCount = 0
  /-- RES always holds a normalised payload (10_state.md R54). -/
  resNormal : s.res.normal = true
  /-- Codes 0x0D to 0xFF are never written (60_exceptions.md R321). -/
  errLegal : s.errCode.toNat ≤ 0x0C

/-! ## Tables, paths and contents -/

/-- A frequency table of a text in first-seen order (42_construction.md R221). -/
structure FirstSeenTable (ts : List Word) (t : Table) : Prop where
  distinct : (t.map Prod.fst).Nodup
  symbols : ∀ x, x ∈ t.map Prod.fst ↔ x ∈ ts
  counts : ∀ e ∈ t, e.2.toNat = ts.count e.1
  order : (t.map Prod.fst).Pairwise fun a b => ts.idxOf a < ts.idxOf b
  total : (t.map fun e => e.2.toNat).sum = ts.length

/-- Following the path from `k` ends at `c`: `node_at` of 00_scope.md R13. -/
def PathTo (arena : Buf Node) : Word → List Bool → Word → Prop
  | k, [], c => k = c
  | k, d :: ds, c => ∃ k', childIs arena k.toNat d k' ∧ PathTo arena k' ds c

/-- The payload of an entry; `none` where the entry is unspecified. -/
def payloadOf (arena : Buf Node) (k : Word) : Option Payload := (Buf.load arena k.toNat).map Node.payload

/-- Tree equality (41_tree.md R190): the same children present and absent at every level, and equal payloads at every
corresponding node. It is a predicate of the specification, and no command. -/
def TreesEqual (A : Buf Node) (a : Word) (B : Buf Node) (b : Word) : Prop :=
  ∀ ds, (∀ c, PathTo A a ds c → ∃ c', PathTo B b ds c' ∧ payloadOf A c = payloadOf B c') ∧
    ∀ c', PathTo B b ds c' → ∃ c, PathTo A a ds c

/-- The digit words of a path (10_state.md R59). -/
def digitWords (ds : List Bool) : List Word := ds.map fun d => if d then 1 else 0

/-- The buffer holds these elements from index 0 on. -/
def Buf.holds {α : Type} (b : Buf α) (vs : List α) : Prop := ∀ j (h : j < vs.length), Buf.load b j = some vs[j]

/-! ## Operands -/

/-- Every element of a buffer from index 0 up to `n` is specified. -/
def Buf.specified {α : Type} (b : Buf α) (n : Nat) : Prop := ∀ i, i < n → (Buf.load b i).isSome

/-- The operand buffers of a command are written as far as its length registers reach (30_encoding.md R122, R126).
A length register above its capacity needs nothing: the command then raises OVERFLOW before it reads. -/
def OperandsWritten (s : State) : Instr → Prop
  | .freq | .build | .encode => s.textLen.toNat ≤ s.cfg.nText → Buf.specified s.mem.text s.textLen.toNat
  | .buildf => s.nsym.toNat ≤ s.cfg.nSym →
      Buf.specified s.mem.freqSym s.nsym.toNat ∧ Buf.specified s.mem.freqCount s.nsym.toNat
  | .pack | .decode => s.bitCount.toNat ≤ s.cfg.nBits → Buf.specified s.mem.bit s.bitCount.toNat
  | .unpack => s.bitCount.toNat ≤ s.cfg.nBits → Buf.specified s.mem.byte (ceilDiv s.bitCount.toNat 8)
  | .tsetp | .tgetp => s.pathLen.toNat ≤ s.cfg.nPath → Buf.specified s.mem.path s.pathLen.toNat
  | .nop | .codemap | .tnew | .tsetl | .tsetr | .tgetl | .tgetr => True

end Sys2Proof.Machine
end

