-- ==== Sys2Proof/Certificates/Slice0/Obligations.lean ====
section
/-! DEFINITION. The statements for the provers, drawn from the numbered rules of spec/. -/

namespace Sys2Proof.Claims

open Sys2Proof.Machine

/-! ## Words the statements share -/

/-- The buffer holds the operand: `vs` from index 0 on, and the length register counts `vs`. -/
def Operand {α : Type} (b : Buf α) (len : Word) (vs : List α) : Prop :=
  vs.length = len.toNat ∧ Buf.holds b vs

/-- Completion with success and no other change (40_command_interface.md R152). -/
def succeeded (s : State) : State :=
  { s with cmdLatch := .none, done := true, errCode := 0, errInfo := 0, errPos := 0 }

/-- Completion with an error and no other change (40_command_interface.md R152, 60_exceptions.md R325). -/
def failed (s : State) (code : BitVec 8) (info pos : Word) : State :=
  { s with cmdLatch := .none, done := true, errCode := code, errInfo := info, errPos := pos }

/-- `window(off)` and the in-window offset as numbers (20_memory.md R81). -/
def win (off : Offset) : Nat := off.toNat / 2 ^ 24

/-- The in-window offset as a number (20_memory.md R81). -/
def ofs (off : Offset) : Nat := off.toNat % 2 ^ 24

/-- The limits of 20_memory.md R82, by window number; 0 for the windows that are none. -/
def limit (c : Config) : Nat → Nat
  | 0x0 => 0x1000
  | 0x1 => 4 * c.nText
  | 0x2 => 8 * c.nSym
  | 0x3 => 32 * (2 * c.nSym)
  | 0x4 => 4 * c.nSym
  | 0x5 => 4 * c.nSym
  | 0x6 => 4 * c.nSym * ((max 1 (c.nSym - 1) + 31) / 32)
  | 0x7 => 4 * ((c.nBits + 31) / 32)
  | 0x8 => 4 * ((c.nBits + 31) / 32)
  | 0x9 => 4 * c.nBits
  | 0xA => 4 * c.nPath
  | _ => 0

/-- `ERROR_condition(off, size)` in the words of 20_memory.md R92. -/
def BadAccess (c : Config) (off : Offset) (size : Nat) : Prop :=
  size ≠ 4 ∨ off.toNat % 4 ≠ 0 ∨ 0xB ≤ win off ∨ (win off = 0 ∧ 0x1000 ≤ ofs off) ∨
  (1 ≤ win off ∧ win off ≤ 0xA ∧ limit c (win off) ≤ ofs off)

/-- The offsets readable with a defined value while BUSY = 1: ID, VERSION, CAP_*, CTRL, STATUS (40_command_interface.md R154). -/
def readableOffsets : List Nat := [0x000, 0x004, 0x008, 0x00C, 0x010, 0x014, 0x018, 0x01C, 0x020, 0x028]

/-- A read answers OKAY with the word `d` and takes one draw (log entry 4); nothing else changes (20_memory.md R90, R102). -/
def Drew (s : State) (off : Offset) (d : Word) : Prop :=
  s.busRead off 4 = { s with resp := some { response := .okay, rdata := d }, draws := s.draws + 1 }

/-- A write of `v` answers OKAY and leaves the state `t` but for that answer (20_memory.md R91). -/
def Wrote (s : State) (off : Offset) (v : Word) (t : State) : Prop :=
  ∃ d, s.busWrite off 4 v = { t with resp := some { response := .okay, rdata := d } }

/-- The register page: offset and the word a read gives (10_state.md R31), for a block with no command in flight. -/
def registerWords (s : State) : List (Nat × Word) :=
  [(0x000, 0x48455443), (0x004, 0x00010000),
   (0x008, BitVec.ofNat 32 s.cfg.nText), (0x00C, BitVec.ofNat 32 s.cfg.nSym),
   (0x010, BitVec.ofNat 32 s.cfg.nBits), (0x014, BitVec.ofNat 32 s.cfg.nPath),
   (0x018, BitVec.ofNat 32 (2 * s.cfg.nSym)), (0x01C, BitVec.ofNat 32 (max 1 (s.cfg.nSym - 1))),
   (0x020, if s.irqEn then 1 else 0), (0x024, 0), (0x028, s.statusWord),
   (0x02C, s.errCode.setWidth 32), (0x030, s.errInfo), (0x034, s.errPos),
   (0x040, s.textLen), (0x044, s.nsym), (0x048, s.bitCount), (0x04C, s.byteCount), (0x050, s.outLen),
   (0x054, s.nnodes), (0x058, s.root), (0x05C, s.cmapCount), (0x060, s.pathLen),
   (0x064, s.payFlags.setWidth 32), (0x068, s.payWeight), (0x06C, s.paySym),
   (0x070, (if s.res.occ then 1 else 0) + (if s.res.symv then 2 else 0)), (0x074, s.res.weight), (0x078, s.res.sym)]

/-- The working collection at round `r` of a construction from `n` leaves: every index below `n + r` that no node
made in the rounds before has as a child (42_construction.md R224 steps 2 and 3). -/
def InCollection (arena : Buf Node) (n r k : Nat) : Prop :=
  k < n + r ∧ ∀ r' d c, r' < r → childIs arena (n + r') d c → c.toNat ≠ k

/-- The weight of an entry; 0 where it is unspecified. -/
def weightOf (arena : Buf Node) (k : Nat) : Nat := ((Buf.load arena k).map fun n => n.payload.weight.toNat).getD 0

/-- The key order (weight, index) of 42_construction.md R222. -/
def KeyBefore (arena : Buf Node) (x y : Nat) : Prop :=
  weightOf arena x < weightOf arena y ∨ (weightOf arena x = weightOf arena y ∧ x < y)

/-- `a` is removed first and `b` second in round `r` (42_construction.md R224 step 3). -/
def RemovedInRound (arena : Buf Node) (n r a b : Nat) : Prop :=
  InCollection arena n r a ∧ InCollection arena n r b ∧ a ≠ b ∧
  (∀ x, InCollection arena n r x → x ≠ a → KeyBefore arena a x) ∧
  (∀ x, InCollection arena n r x → x ≠ a → x ≠ b → KeyBefore arena b x)

/-- The symbols of `ts` have the code words `ps` in the code map of `T`, one for one. -/
def Spelled (T : Built) (ts : List Word) (ps : List (List Bool)) : Prop :=
  ts.length = ps.length ∧ ∀ e ∈ ts.zip ps, e ∈ T.codes

/-- Lexicographic order of code words, 0 before 1 (43_codemap_encode.md R252). -/
def LexBefore : List Bool → List Bool → Prop
  | [], [] => False
  | [], _ :: _ => True
  | _ :: _, [] => False
  | a :: as, b :: bs => (a = false ∧ b = true) ∨ (a = b ∧ LexBefore as bs)

end Sys2Proof.Claims

open Sys2Proof Sys2Proof.Machine Sys2Proof.Claims

/-! ## Decoding -/

/-- The sixteen command words of 30_encoding.md R122, and the illegal words of V9 (95_test_vectors.md). -/
def Obligations.CommandWordsDecode : Prop :=
  decode 0x00000000 = .command .nop ∧ decode 0x00000001 = .command .freq ∧ decode 0x00000002 = .command .buildf ∧
  decode 0x00000003 = .command .build ∧ decode 0x00000004 = .command .codemap ∧ decode 0x00000005 = .command .encode ∧
  decode 0x00000006 = .command .pack ∧ decode 0x00000007 = .command .unpack ∧ decode 0x00000008 = .command .decode ∧
  decode 0x00000010 = .command .tnew ∧ decode 0x00000011 = .command .tsetl ∧ decode 0x00000012 = .command .tsetr ∧
  decode 0x00000013 = .command .tgetl ∧ decode 0x00000014 = .command .tgetr ∧ decode 0x00000015 = .command .tsetp ∧
  decode 0x00000016 = .command .tgetp ∧
  decode 0x000000FF = .bad 0x000000FF ∧ decode 0x00000100 = .bad 0x00000100 ∧ decode 0x00000009 = .bad 0x00000009

/-- Decoding gives back every encoded command (30_encoding.md R120, R122, R123). -/
def Obligations.DecodeEncodeRoundTrip : Prop :=
  ∀ i : Instr, i.wellFormed = true → decode (encode i) = .command i

/-- 30_encoding.md R123: a word is a command exactly when RSV = 0 and OPCODE is that command's, and BAD otherwise.
A BAD word in CMDLATCH completes with BAD_COMMAND and ERRINFO = the word. -/
def Obligations.DecodeIsTotalAndExact : Prop :=
  (∀ (c : Word) (i : Instr), decode c = .command i ↔ c.toNat / 256 = 0 ∧ c.toNat % 256 = (opcodeOf i).toNat) ∧
  (∀ c : Word, decode c = .bad c ↔
    c.toNat / 256 ≠ 0 ∨ (0x09 ≤ c.toNat % 256 ∧ c.toNat % 256 ≤ 0x0F) ∨ 0x17 ≤ c.toNat % 256) ∧
  (∀ (s : State) (c : Word), s.cmdLatch = some c → decode c = .bad c →
    ∃ t, engineTurn s = .next t ∧ t.cmdLatch = .none ∧ t.errCode = 0x0C ∧ t.errInfo = c)

/-! ## The Engine's turn -/

/-- 40_command_interface.md R157: an illegal word completes with BAD_COMMAND and changes nothing else. -/
def Obligations.IllegalWordCompletesWithBadCommand : Prop :=
  ∀ (s : State) (c : Word), s.cmdLatch = some c →
    c.toNat / 256 ≠ 0 ∨ (0x09 ≤ c.toNat % 256 ∧ c.toNat % 256 ≤ 0x0F) ∨ 0x17 ≤ c.toNat % 256 →
    engineTurn s = .next (failed s 0x0C c 0)

/-- A step at which the Engine moves is `exec` of the decoded command in CMDLATCH; with none in flight it changes nothing
(40_command_interface.md R152, 60_exceptions.md R340). With an illegal word there, the step completes it with BAD_COMMAND and
changes nothing else (R157). The Engine moves on an empty inbox, at an `engine` entry, and at
a `poll` entry whose reads are used up: that these entries order the two agents is the model's choice (log entry 2).
A command word placed by `withFetchWord` is run by the very next step (log entry 7).
A step at which the Host moves is its transaction on the state with the rest of the inbox: the read, the write, the hard
reset, or POLL's read of STATUS, which ends POLL when BUSY = 0 and is repeated while BUSY = 1 (20_memory.md R90, R91;
70_reset_and_hazards.md R360; 30_encoding.md R132). -/
def Obligations.StepRunsTheLatchedCommand : Prop :=
  (∀ (s : State) (c : Word) (i : Instr), s.cmdLatch = some c → decode c = .command i →
    (s.inbox = [] → step s = exec i s) ∧
    (∀ rest, s.inbox = .engine :: rest → step s = exec i { s with inbox := rest }) ∧
    (∀ rest, s.inbox = .poll 0 :: rest → step s = exec i s)) ∧
  (∀ (s : State) (c : Word), s.cmdLatch = some c → decode c = .bad c →
    (s.inbox = [] → step s = .next (failed s 0x0C c 0)) ∧
    (∀ rest, s.inbox = .engine :: rest → step s = .next (failed { s with inbox := rest } 0x0C c 0)) ∧
    (∀ rest, s.inbox = .poll 0 :: rest → step s = .next (failed s 0x0C c 0))) ∧
  (∀ s : State, s.cmdLatch = .none →
    (s.inbox = [] → step s = .next s) ∧
    (∀ rest, s.inbox = .engine :: rest → step s = .next { s with inbox := rest })) ∧
  (∀ (s : State) (i : Instr),
    step (s.withFetchWord 32 (encode i).toNat) = exec i { s with cmdLatch := some (encode i) }) ∧
  (∀ (s : State) (rest : List HostEvent),
    (∀ off size, s.inbox = .read off size :: rest → step s = .next ({ s with inbox := rest }.busRead off size)) ∧
    (∀ off size v, s.inbox = .write off size v :: rest → step s = .next ({ s with inbox := rest }.busWrite off size v)) ∧
    (s.inbox = .hardReset :: rest → step s = .next { s with inbox := rest }.hardReset) ∧
    (∀ k, s.inbox = .poll k :: rest → s.busy = false → step s = .next ({ s with inbox := rest }.busRead 0x028 4)) ∧
    (∀ k, s.inbox = .poll (k + 1) :: rest → s.busy = true →
      step s = .next ({ s with inbox := .poll k :: rest }.busRead 0x028 4)))

/-- 30_encoding.md R132: POLL reads STATUS until it finds BUSY = 0, and 70_reset_and_hazards.md R373: it ends.
From every state of the invariant whose command's operands are written, a `poll` of latency `k` ends after `k + 2` steps.
The latency is part of the model's `poll` entry (log entry 2). -/
def Obligations.PollEndsWithCommandComplete : Prop :=
  ∀ (s : State) (k : Nat) (rest : List HostEvent) (c : Word), s.Inv → s.inbox = .poll k :: rest →
    s.cmdLatch = some c → (∀ i, decode c = .command i → OperandsWritten s i) →
    ∃ t, Host.Core.run Sys2Proof.core (k + 2) s = .next t ∧
      t.inbox = rest ∧ t.busy = false ∧ t.done = true ∧ t.resp = some { response := .okay, rdata := t.statusWord }

/-- 40_command_interface.md R152: what every command leaves at its completion, and that no command writes what the Host
alone writes or what stands outside the block (10_state.md R44, R52, R53, R55, R59, R34, R40). -/
def Obligations.CompletionWritesAndHostSideFrame : Prop :=
  ∀ (i : Instr) (s t : State), exec i s = .next t →
    t.cmdLatch = .none ∧ t.busy = false ∧ t.done = true ∧ t.errCode.toNat ≤ 0x0C ∧
    (t.errCode = 0 → t.errInfo = 0 ∧ t.errPos = 0) ∧
    t.cfg = s.cfg ∧ t.irqEn = s.irqEn ∧ t.ovr = s.ovr ∧ t.textLen = s.textLen ∧ t.pathLen = s.pathLen ∧
    t.payFlags = s.payFlags ∧ t.payWeight = s.payWeight ∧ t.paySym = s.paySym ∧
    t.mem.text = s.mem.text ∧ t.mem.path = s.mem.path ∧
    t.inbox = s.inbox ∧ t.resp = s.resp ∧ t.draws = s.draws

/-- 40_command_interface.md R159: under the invariant, a command whose operands are written always completes. -/
def Obligations.EveryCommandCompletes : Prop :=
  ∀ (i : Instr) (s : State), s.Inv → OperandsWritten s i → ∃ t, exec i s = .next t

/-- 40_command_interface.md R156: NOP completes with success and changes nothing beyond the completion writes. -/
def Obligations.NopOnlyCompletes : Prop :=
  ∀ s : State, exec .nop s = .next
    { s with cmdLatch := .none, done := true, errCode := 0, errInfo := 0, errPos := 0 }

/-- 60_exceptions.md R330: the interrupt is the level IRQ_EN AND DONE, so a completion raises it exactly when it is
enabled, acceptance lowers it, and so does a STATUS write with bit 1 set. -/
def Obligations.IrqIsEnabledDone : Prop :=
  (∀ s : State, s.irq = (s.irqEn && s.done)) ∧
  (∀ (i : Instr) (s t : State), exec i s = .next t → t.irq = s.irqEn) ∧
  (∀ (s : State) (c : Word), s.cmdLatch = .none → (s.busWrite 0x024 4 c).irq = false) ∧
  (∀ (s : State) (v : Word), v.getLsbD 1 = true → (s.busWrite 0x028 4 v).irq = false) ∧
  (∀ s : State, s.hardReset.irq = false ∧ s.softReset.irq = false)

/-! ## Invariant -/

/-- 10_state.md R60: after hard reset the invariant holds, for every configuration the parameters' bounds admit, and so for
`State.reset`, whose configuration is the model's choice (log entry 1). -/
def Obligations.ResetMeetsInvariant : Prop :=
  State.reset.Inv ∧ ∀ c : Config, c.wellFormed = true → (State.resetWith c).Inv

/-- Every step keeps the invariant (00_scope.md R13; 10_state.md R41, R42, R49, R50, R51, R54; 60_exceptions.md R321). -/
def Obligations.StepKeepsInvariant : Prop :=
  ∀ s t : State, s.Inv → step s = .next t → t.Inv

/-! ## Errors and frames -/

/-- 60_exceptions.md R325, R323: the length and tree checks of every command that has them, as the error each reports.
Each leaves everything but the completion registers as it was; a get command also sets RES to NONE. -/
def Obligations.FirstChecksReportTheirError : Prop :=
  (∀ (s : State) (i : Instr), i = .freq ∨ i = .build → s.cfg.nText < s.textLen.toNat →
    exec i s = .next (failed s 0x08 1 0)) ∧
  (∀ s : State, s.textLen = 0 → exec .build s = .next (failed s 0x01 0 0)) ∧
  (∀ s : State, s.nsym = 0 → exec .buildf s = .next (failed s 0x01 0 0)) ∧
  (∀ s : State, s.cfg.nSym < s.nsym.toNat → exec .buildf s = .next (failed s 0x08 2 0)) ∧
  (∀ (s : State) (i : Instr), i = .codemap ∨ i = .encode ∨ i = .decode → s.treeOk = false →
    exec i s = .next (failed s 0x0A 0 0)) ∧
  (∀ s : State, s.treeOk = true → s.cfg.nText < s.textLen.toNat → exec .encode s = .next (failed s 0x08 1 0)) ∧
  (∀ (s : State) (i : Instr), i = .pack ∨ i = .unpack → s.cfg.nBits < s.bitCount.toNat →
    exec i s = .next (failed s 0x08 4 0)) ∧
  (∀ s : State, s.treeOk = true → s.cfg.nBits < s.bitCount.toNat → exec .decode s = .next (failed s 0x08 4 0)) ∧
  (∀ (s : State) (i : Instr), i = .tsetl ∨ i = .tsetr ∨ i = .tsetp → s.nnodes = 0 →
    exec i s = .next (failed s 0x09 0 0)) ∧
  (∀ (s : State) (i : Instr), i = .tgetl ∨ i = .tgetr ∨ i = .tgetp → s.nnodes = 0 →
    exec i s = .next (failed { s with res := Payload.none } 0x09 0 0)) ∧
  (∀ (s : State) (i : Instr), i = .tsetl ∨ i = .tsetr → s.nnodes ≠ 0 → s.nnodes.toNat = s.cfg.nodeCap →
    exec i s = .next (failed s 0x08 3 0)) ∧
  (∀ s : State, s.nnodes ≠ 0 → s.cfg.nPath < s.pathLen.toNat →
    exec .tsetp s = .next (failed s 0x08 5 0) ∧
    exec .tgetp s = .next (failed { s with res := Payload.none } 0x08 5 0)) ∧
  (∀ s : State, s.nnodes ≠ 0 → s.pathLen = 0 → exec .tsetp s = .next (failed s 0x03 0 0))

/-- 60_exceptions.md R325: what a failed command leaves, command by command.
For ENCODE's execution phase `m` is the state with the derived map, which stays. -/
def Obligations.FailedCommandEffects : Prop :=
  ∀ (i : Instr) (s t : State), exec i s = .next t → t.errCode ≠ 0 →
    match i with
    | .nop | .tnew => False
    | .buildf | .codemap | .pack | .unpack | .tsetl | .tsetr | .tsetp => t = failed s t.errCode t.errInfo t.errPos
    | .tgetl | .tgetr | .tgetp => t = failed { s with res := Payload.none } t.errCode t.errInfo t.errPos
    | .freq | .build =>
      if t.errCode = 0x08 ∧ t.errInfo = 2 then
        t = failed { s with nsym := 0, mem := { s.mem with freqSym := [], freqCount := [] } } 0x08 2 t.errPos
      else t = failed s t.errCode t.errInfo t.errPos
    | .encode =>
      if t.errCode = 0x05 ∨ (t.errCode = 0x08 ∧ t.errInfo = 4) then
        ∃ m, (s.mapOk = true → m = s) ∧ (s.mapOk = false → exec .codemap s = .next (succeeded m)) ∧
          t = failed { m with bitCount := 0, mem := { m.mem with bit := [] } } t.errCode t.errInfo t.errPos
      else t = failed s t.errCode t.errInfo t.errPos
    | .decode =>
      if t.errCode = 0x06 ∨ t.errCode = 0x07 then
        t = failed { s with outLen := 0, mem := { s.mem with out := [] } } t.errCode t.errInfo t.errPos
      else t = failed s t.errCode t.errInfo t.errPos

/-- 41_tree.md R191: TGETL, TGETR and TGETP change nothing but RES and the completion registers. -/
def Obligations.FrameOfGetCommands : Prop :=
  ∀ (i : Instr) (s t : State), i = .tgetl ∨ i = .tgetr ∨ i = .tgetp → exec i s = .next t →
    t = failed { s with res := t.res } t.errCode t.errInfo t.errPos

/-- Frame of TNEW, TSETL, TSETR and TSETP (41_tree.md R182 to R188): besides the completion registers they write NODE, NNODES,
ROOT (TNEW only), TREE_OK, MAP_OK and CMAP_COUNT.
In NODE, TNEW writes entry 0; TSETL and TSETR write the new entry NNODES and the entry ROOT.
TSETP writes the entries from the old to the new NNODES, and the last node of the path that existed before. -/
def Obligations.FrameOfTreeEdits : Prop :=
  ∀ (i : Instr) (s t : State), i = .tnew ∨ i = .tsetl ∨ i = .tsetr ∨ i = .tsetp → exec i s = .next t →
    t = failed { s with mem := { s.mem with node := t.mem.node }, nnodes := t.nnodes, root := t.root, treeOk := t.treeOk, mapOk := t.mapOk, cmapCount := t.cmapCount } t.errCode t.errInfo t.errPos ∧
    (i ≠ .tnew → t.root = s.root) ∧
    (i = .tnew → ∀ k, k ≠ 0 → Buf.load t.mem.node k = Buf.load s.mem.node k) ∧
    (i = .tsetl ∨ i = .tsetr → ∀ k, k ≠ s.nnodes.toNat → k ≠ s.root.toNat →
      Buf.load t.mem.node k = Buf.load s.mem.node k) ∧
    (i = .tsetp → ∀ ds m a, s.checkPath false = .ok ds →
      missingNodes s.mem.node s.root ds = .ok m →
      nodeAt s.mem.node s.root 0 (ds.take (ds.length - m)) = .ok a →
      s.cfg.nodeCap < 2 ^ 32 →
      ∀ k, k ≠ a.toNat → ¬ (s.nnodes.toNat ≤ k ∧ k < s.nnodes.toNat + m) →
        Buf.load t.mem.node k = Buf.load s.mem.node k)

/-- Frame of FREQ, BUILDF and BUILD (42_construction.md R220, R223, R226): besides the completion registers FREQ writes the FREQ
table and NSYM, BUILDF writes NODE, NNODES, ROOT, TREE_OK, MAP_OK and CMAP_COUNT, BUILD both.
On success FREQ entries at NSYM and above, and NODE entries past the new nodes, keep their contents. -/
def Obligations.FrameOfConstruction : Prop :=
  ∀ (i : Instr) (s t : State), i = .freq ∨ i = .buildf ∨ i = .build → s.cfg.wellFormed = true → exec i s = .next t →
    t = failed { s with
        nsym := t.nsym, nnodes := t.nnodes, root := t.root, treeOk := t.treeOk, mapOk := t.mapOk
        cmapCount := t.cmapCount
        mem := { s.mem with freqSym := t.mem.freqSym, freqCount := t.mem.freqCount, node := t.mem.node } }
      t.errCode t.errInfo t.errPos ∧
    (i = .freq → t.nnodes = s.nnodes ∧ t.root = s.root ∧ t.treeOk = s.treeOk ∧ t.mapOk = s.mapOk ∧
      t.cmapCount = s.cmapCount ∧ t.mem.node = s.mem.node) ∧
    (i = .buildf → t.nsym = s.nsym ∧ t.mem.freqSym = s.mem.freqSym ∧ t.mem.freqCount = s.mem.freqCount) ∧
    (t.errCode = 0 → ∀ j, t.nsym.toNat ≤ j →
      Buf.load t.mem.freqSym j = Buf.load s.mem.freqSym j ∧ Buf.load t.mem.freqCount j = Buf.load s.mem.freqCount j) ∧
    (t.errCode = 0 → ∀ k, t.nnodes.toNat ≤ k → i ≠ .freq → Buf.load t.mem.node k = Buf.load s.mem.node k)

/-- Frame of CODEMAP and ENCODE (43_codemap_encode.md R251, R260): besides the completion registers CODEMAP writes CMAP,
CMAP_COUNT and MAP_OK; ENCODE also BIT and BIT_COUNT, and CMAP, CMAP_COUNT and MAP_OK only when MAP_OK was 0.
On success CMAP entries at CMAP_COUNT and above, and BIT elements at BIT_COUNT and above, keep their contents. -/
def Obligations.FrameOfMapAndEncode : Prop :=
  ∀ (i : Instr) (s t : State), i = .codemap ∨ i = .encode → s.cfg.wellFormed = true → exec i s = .next t →
    t = failed { s with
        mapOk := t.mapOk, cmapCount := t.cmapCount, bitCount := t.bitCount
        mem := { s.mem with cmap := t.mem.cmap, bit := t.mem.bit } } t.errCode t.errInfo t.errPos ∧
    (i = .codemap → t.bitCount = s.bitCount ∧ t.mem.bit = s.mem.bit) ∧
    (i = .encode → s.mapOk = true → t.mapOk = s.mapOk ∧ t.cmapCount = s.cmapCount ∧ t.mem.cmap = s.mem.cmap) ∧
    (i = .codemap ∨ s.mapOk = false → t.mapOk = true → ∀ e, t.cmapCount.toNat ≤ e → Buf.load t.mem.cmap e = Buf.load s.mem.cmap e) ∧
    (i = .encode → t.errCode = 0 → ∀ j, t.bitCount.toNat ≤ j → Buf.load t.mem.bit j = Buf.load s.mem.bit j)

/-- Frame of PACK, UNPACK and DECODE (44_pack.md R280, R282; 45_decode.md R300): besides the completion registers PACK writes
BYTE and BYTE_COUNT, UNPACK writes BIT, DECODE writes OUT and OUT_LEN.
On success BYTE elements past the last packed word, BIT elements at BIT_COUNT and above, and OUT elements at OUT_LEN and
above keep their contents. -/
def Obligations.FrameOfStreamCommands : Prop :=
  (∀ s t : State, exec .pack s = .next t →
    t = failed { s with byteCount := t.byteCount, mem := { s.mem with byte := t.mem.byte } } t.errCode t.errInfo t.errPos ∧
    ∀ j, 4 * ((s.bitCount.toNat + 31) / 32) ≤ j → Buf.load t.mem.byte j = Buf.load s.mem.byte j) ∧
  (∀ s t : State, exec .unpack s = .next t →
    t = failed { s with mem := { s.mem with bit := t.mem.bit } } t.errCode t.errInfo t.errPos ∧
    ∀ j, s.bitCount.toNat ≤ j → Buf.load t.mem.bit j = Buf.load s.mem.bit j) ∧
  (∀ s t : State, exec .decode s = .next t →
    t = failed { s with outLen := t.outLen, mem := { s.mem with out := t.mem.out } } t.errCode t.errInfo t.errPos ∧
    (t.errCode = 0 → ∀ j, t.outLen.toNat ≤ j → Buf.load t.mem.out j = Buf.load s.mem.out j))

/-- 20_memory.md R102: a command that reads an unspecified element as an operand is a fault, at the first such element.
FREQ, BUILD and ENCODE read TEXT until they fail, BUILDF reads FREQ, DECODE and PACK read BIT, UNPACK reads BYTE, TSETP and
TGETP read PATH. That BUILDF reads every symbol before the first count is the model's choice (log entry 12). -/
def Obligations.UnspecifiedOperandIsFault : Prop :=
  (∀ (s : State) (vs : List Bool), s.bitCount.toNat ≤ s.cfg.nBits → vs.length < s.bitCount.toNat →
    Buf.holds s.mem.bit vs → Buf.load s.mem.bit vs.length = .none →
    exec .pack s = .fault (.unspecifiedOperand .bit vs.length)) ∧
  (∀ (s : State) (vs : List Byte), s.bitCount.toNat ≤ s.cfg.nBits → vs.length < (s.bitCount.toNat + 7) / 8 →
    Buf.holds s.mem.byte vs → Buf.load s.mem.byte vs.length = .none →
    exec .unpack s = .fault (.unspecifiedOperand .byte vs.length)) ∧
  (∀ (s : State) (i : Instr) (ds : List Bool), i = .tsetp ∨ i = .tgetp → s.nnodes ≠ 0 →
    s.pathLen.toNat ≤ s.cfg.nPath → ds.length < s.pathLen.toNat →
    Buf.holds s.mem.path (digitWords ds) → Buf.load s.mem.path ds.length = .none →
    exec i s = .fault (.unspecifiedOperand .path ds.length)) ∧
  (∀ (s : State) (i : Instr) (ts : List Word), i = .freq ∨ i = .build → s.textLen.toNat ≤ s.cfg.nText →
    ts.length < s.textLen.toNat → Buf.holds s.mem.text ts → ts.dedup.length ≤ s.cfg.nSym →
    Buf.load s.mem.text ts.length = .none →
    exec i s = .fault (.unspecifiedOperand .text ts.length)) ∧
  (∀ (s : State) (T : Built) (ts : List Word) (ps : List (List Bool)), s.Inv → s.treeOk = true → s.holdsBuilt T →
    s.textLen.toNat ≤ s.cfg.nText → ts.length < s.textLen.toNat → Buf.holds s.mem.text ts → Spelled T ts ps →
    ps.flatten.length ≤ s.cfg.nBits → Buf.load s.mem.text ts.length = .none →
    exec .encode s = .fault (.unspecifiedOperand .text ts.length)) ∧
  (∀ (s : State) (xs : List Word), s.nsym ≠ 0 → s.nsym.toNat ≤ s.cfg.nSym → Buf.holds s.mem.freqSym xs → xs.Nodup →
    (xs.length < s.nsym.toNat → Buf.load s.mem.freqSym xs.length = .none →
      exec .buildf s = .fault (.unspecifiedOperand .freq xs.length)) ∧
    (∀ cs : List Word, xs.length = s.nsym.toNat → cs.length < s.nsym.toNat → Buf.holds s.mem.freqCount cs →
      Buf.load s.mem.freqCount cs.length = .none →
      exec .buildf s = .fault (.unspecifiedOperand .freq cs.length))) ∧
  (∀ (s : State) (T : Built) (ts : List Word) (ps : List (List Bool)) (x : Word) (p q : List Bool), s.Inv →
    s.treeOk = true → s.holdsBuilt T → s.bitCount.toNat ≤ s.cfg.nBits → Spelled T ts ps → (x, p ++ q) ∈ T.codes →
    q ≠ [] → (ps.flatten ++ p).length < s.bitCount.toNat → Buf.holds s.mem.bit (ps.flatten ++ p) →
    Buf.load s.mem.bit (ps.flatten ++ p).length = .none →
    exec .decode s = .fault (.unspecifiedOperand .bit (ps.flatten ++ p).length))

/-! ## Tree commands -/

/-- 10_state.md R53 and 41_tree.md R182: TNEW makes NODE[0] a childless node with the normalised payload operand, the only
node of the tree, and clears the map and tree flags. -/
def Obligations.TnewMakesTheRoot : Prop :=
  ∀ s : State, ∃ t, exec .tnew s = .next t ∧
    Buf.load t.mem.node 0 = some
      { payload :=
          if s.payFlags.getLsbD 0 = false then ⟨false, false, 0, 0⟩
          else if s.payFlags.getLsbD 1 = false then ⟨true, false, s.payWeight, 0⟩
          else ⟨true, true, s.payWeight, s.paySym⟩
        lv := false, rv := false, left := 0, right := 0 } ∧
    t.root = 0 ∧ t.nnodes = 1 ∧ t.treeOk = false ∧ t.mapOk = false ∧ t.cmapCount = 0 ∧ t.errCode = 0

/-- 41_tree.md R183, R184: TSETL and TSETR allocate a fresh leaf with the payload operand at index NNODES and link it to ROOT,
whatever child was there; ROOT's payload and other child stay. -/
def Obligations.SetChildAllocatesAndLinks : Prop :=
  ∀ (s : State) (n : Node) (d : Bool), s.nnodes ≠ 0 → s.nnodes.toNat ≠ s.cfg.nodeCap →
    s.root.toNat < s.nnodes.toNat → Buf.load s.mem.node s.root.toNat = some n →
    ∃ t, exec (if d then .tsetr else .tsetl) s = .next t ∧
      Buf.load t.mem.node s.nnodes.toNat =
        some { payload := s.pay, lv := false, rv := false, left := 0, right := 0 } ∧
      Buf.load t.mem.node s.root.toNat =
        some (if d then { n with rv := true, right := s.nnodes } else { n with lv := true, left := s.nnodes }) ∧
      t.nnodes = s.nnodes + 1 ∧ t.root = s.root ∧
      t.treeOk = false ∧ t.mapOk = false ∧ t.cmapCount = 0 ∧ t.errCode = 0

/-- 41_tree.md R185, R186: TGETL and TGETR return the payload of ROOT's child, NONE when it is absent; no error. -/
def Obligations.GetChildReturnsPayload : Prop :=
  ∀ (s : State) (n : Node) (d : Bool), s.nnodes ≠ 0 → Buf.load s.mem.node s.root.toNat = some n →
    ((if d then n.rv else n.lv) = false →
      exec (if d then .tgetr else .tgetl) s = .next (succeeded { s with res := ⟨false, false, 0, 0⟩ })) ∧
    (∀ m, (if d then n.rv else n.lv) = true →
      Buf.load s.mem.node (if d then n.right else n.left).toNat = some m →
      exec (if d then .tgetr else .tgetl) s = .next (succeeded { s with res := m.payload }))

/-- 41_tree.md R187: the path checks, in their order, before any node is touched: OVERFLOW PATH, EMPTY_PATH (TSETP only), the first
bad digit. TGETP sets RES to NONE. -/
def Obligations.PathChecksInOrder : Prop :=
  ∀ s : State, s.nnodes ≠ 0 →
    (s.cfg.nPath < s.pathLen.toNat →
      exec .tsetp s = .next (failed s 0x08 5 0) ∧
      exec .tgetp s = .next (failed { s with res := Payload.none } 0x08 5 0)) ∧
    (s.pathLen = 0 → exec .tsetp s = .next (failed s 0x03 0 0)) ∧
    (∀ (ds : List Bool) (w : Word), s.pathLen.toNat ≤ s.cfg.nPath → ds.length < s.pathLen.toNat →
      Buf.holds s.mem.path (digitWords ds) → Buf.load s.mem.path ds.length = some w → w ≠ 0 → w ≠ 1 →
      exec .tsetp s = .next (failed s 0x02 w (BitVec.ofNat 32 ds.length)) ∧
      exec .tgetp s = .next (failed { s with res := Payload.none } 0x02 w (BitVec.ofNat 32 ds.length)))

/-- 41_tree.md R189: TGETP returns the payload at the path's end (the empty path is the root), or OUT_OF_BOUNDS at the first
missing child with its digit and step. -/
def Obligations.TgetpFollowsThePath : Prop :=
  ∀ (s : State) (ds : List Bool), s.nnodes ≠ 0 → s.pathLen.toNat ≤ s.cfg.nPath →
    Operand s.mem.path s.pathLen (digitWords ds) →
    (∀ k n, PathTo s.mem.node s.root ds k → Buf.load s.mem.node k.toNat = some n →
      exec .tgetp s = .next (succeeded { s with res := n.payload })) ∧
    (∀ pre d post k n, ds = pre ++ d :: post → PathTo s.mem.node s.root pre k →
      Buf.load s.mem.node k.toNat = some n → n.child d = .none →
      exec .tgetp s = .next (failed { s with res := Payload.none } 0x04 (if d then 1 else 0)
        (BitVec.ofNat 32 pre.length)))

/-- 41_tree.md R188: TSETP follows the part `pre` of the path that exists, to node `a`, and creates one node for each later
step, at consecutive indices, empty but for the last, which takes the payload operand.
With nothing to create the payload of `a` alone changes. Too few free entries is OVERFLOW NODE. -/
def Obligations.TsetpCreatesThePath : Prop :=
  ∀ (s : State) (pre post : List Bool) (a : Word) (n : Node), s.Inv → s.nnodes ≠ 0 →
    s.pathLen.toNat ≤ s.cfg.nPath → Operand s.mem.path s.pathLen (digitWords (pre ++ post)) → pre ++ post ≠ [] →
    PathTo s.mem.node s.root pre a → Buf.load s.mem.node a.toNat = some n →
    (∀ d rest, post = d :: rest → n.child d = .none) →
    (s.cfg.nodeCap < s.nnodes.toNat + post.length → exec .tsetp s = .next (failed s 0x08 3 0)) ∧
    (s.nnodes.toNat + post.length ≤ s.cfg.nodeCap →
      ∃ t, exec .tsetp s = .next t ∧ t.errCode = 0 ∧
        t.nnodes.toNat = s.nnodes.toNat + post.length ∧ t.root = s.root ∧
        t.treeOk = false ∧ t.mapOk = false ∧ t.cmapCount = 0 ∧
        (post = [] → Buf.load t.mem.node a.toNat = some { n with payload := s.pay }) ∧
        (∀ d rest, post = d :: rest →
          Buf.load t.mem.node a.toNat = some
            (if d then { n with rv := true, right := s.nnodes } else { n with lv := true, left := s.nnodes })) ∧
        (∀ j (h : j + 1 < post.length), Buf.load t.mem.node (s.nnodes.toNat + j) = some
            (if post[j + 1] then ⟨⟨false, false, 0, 0⟩, false, true, 0, BitVec.ofNat 32 (s.nnodes.toNat + j + 1)⟩
             else ⟨⟨false, false, 0, 0⟩, true, false, BitVec.ofNat 32 (s.nnodes.toNat + j + 1), 0⟩)) ∧
        (post ≠ [] → Buf.load t.mem.node (s.nnodes.toNat + post.length - 1) =
            some ⟨s.pay, false, false, 0, 0⟩))

/-- 41_tree.md R191: the laws of the tree commands, from every state of the invariant. -/
def Obligations.TreeCommandLaws : Prop :=
  (∀ (s t : State) (d : Bool), s.Inv → exec (if d then .tsetr else .tsetl) s = .next t → t.errCode = 0 →
    exec (if d then .tgetr else .tgetl) t = .next (succeeded { t with res := s.pay })) ∧
  (∀ s t : State, s.Inv → exec .tsetp s = .next t → t.errCode = 0 →
    exec .tgetp t = .next (succeeded { t with res := s.pay }) ∧
    ∀ l : Word, l.toNat < t.pathLen.toNat → ∃ u, exec .tgetp { t with pathLen := l } = .next u ∧ u.errCode = 0) ∧
  (∀ (i : Instr) (s t : State), i = .tgetl ∨ i = .tgetr ∨ i = .tgetp → exec i s = .next t →
    t = failed { s with res := t.res } t.errCode t.errInfo t.errPos) ∧
  (∀ (i : Instr) (s t : State), i = .tsetl ∨ i = .tsetr ∨ i = .tsetp → exec i s = .next t → t.errCode ≠ 0 →
    t.mem.node = s.mem.node ∧ t.root = s.root ∧ t.nnodes = s.nnodes ∧ t.treeOk = s.treeOk ∧ t.mapOk = s.mapOk)

/-! ## Construction -/

/-- 42_construction.md R220, R221: FREQ on a written text with at most N_SYM distinct symbols completes with the
first-seen frequency table; an empty text gives the empty table. -/
def Obligations.FreqMakesFirstSeenTable : Prop :=
  ∀ (s : State) (ts : List Word), Operand s.mem.text s.textLen ts → s.textLen.toNat ≤ s.cfg.nText →
    ts.dedup.length ≤ s.cfg.nSym →
    ∃ (t : State) (f : Table), exec .freq s = .next t ∧ t.errCode = 0 ∧ FirstSeenTable ts f ∧
      t.nsym.toNat = f.length ∧ Buf.holds t.mem.freqSym (f.map Prod.fst) ∧ Buf.holds t.mem.freqCount (f.map Prod.snd)

/-- 42_construction.md R220, R226: FREQ and BUILD raise OVERFLOW SYM at the first text position whose symbol would be
distinct symbol number N_SYM + 1; later positions are not read. NSYM becomes 0 and FREQ unspecified. -/
def Obligations.TooManySymbolsOverflow : Prop :=
  ∀ (s : State) (i : Instr) (ts : List Word) (x : Word), i = .freq ∨ i = .build →
    s.textLen.toNat ≤ s.cfg.nText → ts.length < s.textLen.toNat → Buf.holds s.mem.text (ts ++ [x]) →
    ts.dedup.length = s.cfg.nSym → x ∉ ts →
    exec i s = .next (failed { s with nsym := 0, mem := { s.mem with freqSym := [], freqCount := [] } }
      0x08 2 (BitVec.ofNat 32 ts.length))

/-- 42_construction.md R226, R232: BUILD completes, and is FREQ followed by BUILDF: BUILDF's checks cannot fail there. -/
def Obligations.BuildIsFreqThenBuildf : Prop :=
  (∀ s t : State, s.cfg.wellFormed = true → exec .freq s = .next t → t.errCode = 0 → s.textLen ≠ 0 →
    exec .build s = exec .buildf t) ∧
  (∀ (s : State) (ts : List Word), s.cfg.wellFormed = true → Operand s.mem.text s.textLen ts → ts ≠ [] →
    s.textLen.toNat ≤ s.cfg.nText → ts.dedup.length ≤ s.cfg.nSym →
    ∃ t u, exec .freq s = .next t ∧ t.errCode = 0 ∧ exec .build s = .next u ∧ exec .buildf t = .next u ∧
      u.errCode = 0 ∧ u.treeOk = true ∧ u.mapOk = false ∧ u.cmapCount = 0)

/-- 42_construction.md R223: BUILDF's operand checks: BAD_TABLE at the first repeated symbol, then OVERFLOW WEIGHT. -/
def Obligations.BuildfOperandChecks : Prop :=
  ∀ s : State, s.nsym ≠ 0 → s.nsym.toNat ≤ s.cfg.nSym →
    (∀ (xs : List Word) (x : Word), xs.length < s.nsym.toNat → Buf.holds s.mem.freqSym (xs ++ [x]) →
      xs.Nodup → x ∈ xs → exec .buildf s = .next (failed s 0x0B x (BitVec.ofNat 32 xs.length))) ∧
    (∀ f : Table, f.length = s.nsym.toNat → Buf.holds s.mem.freqSym (f.map Prod.fst) →
      Buf.holds s.mem.freqCount (f.map Prod.snd) → (f.map Prod.fst).Nodup →
      0xFFFFFFFF < (f.map fun e => e.2.toNat).sum → exec .buildf s = .next (failed s 0x08 6 0))

/-- 42_construction.md R222 to R225: BUILDF on a legal table completes with the tree of `construct(n)`: leaf `j` at NODE[j], and
in each round the two items of least key, the first removed on the left; for one entry the degenerate tree. -/
def Obligations.BuildfConstructsByLeastKeys : Prop :=
  ∀ (s : State) (f : Table), s.cfg.wellFormed = true → f ≠ [] → f.length = s.nsym.toNat → f.length ≤ s.cfg.nSym →
    Buf.holds s.mem.freqSym (f.map Prod.fst) → Buf.holds s.mem.freqCount (f.map Prod.snd) → (f.map Prod.fst).Nodup →
    (f.map fun e => e.2.toNat).sum ≤ 0xFFFFFFFF →
    ∃ t, exec .buildf s = .next t ∧ t.errCode = 0 ∧ t.treeOk = true ∧ t.mapOk = false ∧ t.cmapCount = 0 ∧
      (∀ j (h : j < f.length), Buf.load t.mem.node j = some ⟨⟨true, true, f[j].2, f[j].1⟩, false, false, 0, 0⟩) ∧
      (∀ e, f = [e] → t.root = 1 ∧ t.nnodes = 2 ∧
        Buf.load t.mem.node 1 = some ⟨⟨true, false, e.2, 0⟩, true, false, 0, 0⟩) ∧
      (2 ≤ f.length → t.root.toNat = 2 * f.length - 2 ∧ t.nnodes.toNat = 2 * f.length - 1 ∧
        ∀ r, r < f.length - 1 → ∃ a b, RemovedInRound t.mem.node f.length r a b ∧
          Buf.load t.mem.node (f.length + r) = some
            ⟨⟨true, false, BitVec.ofNat 32 (weightOf t.mem.node a + weightOf t.mem.node b), 0⟩,
              true, true, BitVec.ofNat 32 a, BitVec.ofNat 32 b⟩ ∧
          weightOf t.mem.node a + weightOf t.mem.node b < 2 ^ 32)

/-- 42_construction.md R228: the shape of a built tree, after BUILDF or BUILD, with n = NSYM.
ROOT is one of the nodes from n on, which carry no symbol. -/
def Obligations.BuiltTreeShape : Prop :=
  ∀ (i : Instr) (s t : State), s.Inv → i = .buildf ∨ i = .build → exec i s = .next t → t.errCode = 0 →
    (∀ k, k < t.nnodes.toNat → ∃ ds c, PathTo t.mem.node t.root ds c ∧ c.toNat = k) ∧
    (∀ ds c, PathTo t.mem.node t.root ds c → c.toNat < t.nnodes.toNat) ∧
    (∀ k, k < t.nsym.toNat → ∃ n, Buf.load t.mem.node k = some n ∧ n.payload.occ = true ∧ n.payload.symv = true ∧
      n.lv = false ∧ n.rv = false) ∧
    (t.nsym.toNat ≤ t.root.toNat ∧ t.root.toNat < t.nnodes.toNat) ∧
    (∀ k, t.nsym.toNat ≤ k → k < t.nnodes.toNat → ∃ n, Buf.load t.mem.node k = some n ∧ n.payload.symv = false ∧
      n.lv = true ∧ (n.rv = true ↔ 2 ≤ t.nsym.toNat) ∧
      n.payload.weight.toNat = weightOf t.mem.node n.left.toNat +
        (if n.rv then weightOf t.mem.node n.right.toNat else 0)) ∧
    (∃ f : Table, f.length = t.nsym.toNat ∧ Buf.holds t.mem.freqSym (f.map Prod.fst) ∧
      Buf.holds t.mem.freqCount (f.map Prod.snd) ∧
      weightOf t.mem.node t.root.toNat = (f.map fun e => e.2.toNat).sum) ∧
    (i = .build → weightOf t.mem.node t.root.toNat = s.textLen.toNat)

/-- 42_construction.md R227: construction is deterministic in its operand: the same nodes, ROOT and NNODES, and so equal trees
in the sense of 41_tree.md R190. -/
def Obligations.ConstructionIsDeterministic : Prop :=
  (∀ (s s' t t' : State) (ts : List Word), s.cfg = s'.cfg → s.cfg.wellFormed = true →
    Operand s.mem.text s.textLen ts → Operand s'.mem.text s'.textLen ts →
    exec .build s = .next t → exec .build s' = .next t' → t.errCode = 0 → t'.errCode = 0 →
    t.root = t'.root ∧ t.nnodes = t'.nnodes ∧
      (∀ k, k < t.nnodes.toNat → Buf.load t.mem.node k = Buf.load t'.mem.node k) ∧
      TreesEqual t.mem.node t.root t'.mem.node t'.root) ∧
  (∀ (s s' t t' : State) (f : Table), s.cfg = s'.cfg → s.cfg.wellFormed = true →
    f.length = s.nsym.toNat → f.length = s'.nsym.toNat →
    Buf.holds s.mem.freqSym (f.map Prod.fst) → Buf.holds s.mem.freqCount (f.map Prod.snd) →
    Buf.holds s'.mem.freqSym (f.map Prod.fst) → Buf.holds s'.mem.freqCount (f.map Prod.snd) →
    exec .buildf s = .next t → exec .buildf s' = .next t' → t.errCode = 0 → t'.errCode = 0 →
    t.root = t'.root ∧ t.nnodes = t'.nnodes ∧
      (∀ k, k < t.nnodes.toNat → Buf.load t.mem.node k = Buf.load t'.mem.node k) ∧
      TreesEqual t.mem.node t.root t'.mem.node t'.root)

/-! ## Code map and encoding -/

/-- 43_codemap_encode.md R251, R250: CODEMAP on a built tree writes its code map, in left-to-right order. -/
def Obligations.CodemapWritesTheMap : Prop :=
  ∀ (s : State) (T : Built), s.Inv → s.treeOk = true → s.holdsBuilt T →
    ∃ t, exec .codemap s = .next t ∧ t.errCode = 0 ∧ t.mapOk = true ∧ t.treeOk = true ∧
      t.cmapCount.toNat = T.codes.length ∧
      Buf.holds t.mem.cmap (T.codes.map fun e =>
        { sym := e.1, len := BitVec.ofNat 32 e.2.length
          code := e.2 ++ List.replicate (s.cfg.codeCap - e.2.length) false })

/-- 43_codemap_encode.md R254, R256: while MAP_OK = 1, so after CODEMAP on a built tree, every code word has at least one bit and
none is a prefix of another. Besides, every code word has at most CODE_CAP bits and zeros after its end, code words
increase strictly from entry to entry, and no symbol has two. -/
def Obligations.CodeWordsArePrefixFree : Prop :=
  ∀ s : State, s.Inv → s.mapOk = true → ∀ e, e < s.cmapCount.toNat →
    ∃ x, Buf.load s.mem.cmap e = some x ∧ 1 ≤ x.len.toNat ∧ x.len.toNat ≤ s.cfg.codeCap ∧
      x.code.length = s.cfg.codeCap ∧ (∀ t, x.len.toNat ≤ t → x.code.getD t false = false) ∧
      ∀ e', e' < s.cmapCount.toNat → e ≠ e' → ∃ y, Buf.load s.mem.cmap e' = some y ∧
        ¬ x.code.take x.len.toNat <+: y.code.take y.len.toNat ∧ x.sym ≠ y.sym ∧
        (e < e' → LexBefore (x.code.take x.len.toNat) (y.code.take y.len.toNat))

/-- 43_codemap_encode.md R253: TGETP at a code word of the map returns an occupied payload that carries the entry's symbol and its
weight in the built tree. After a BUILDF or BUILD and CODEMAP, that weight is the symbol's count in the FREQ table. -/
def Obligations.CodeWordLeadsToItsSymbol : Prop :=
  (∀ (s : State) (T : Built) (e : Nat) (x : CmapEntry), s.Inv → s.mapOk = true → s.holdsBuilt T →
    e < s.cmapCount.toNat → Buf.load s.mem.cmap e = some x → s.pathLen = x.len → s.pathLen.toNat ≤ s.cfg.nPath →
    Buf.holds s.mem.path (digitWords (x.code.take x.len.toNat)) →
    ∃ w, (x.sym, w) ∈ T.entries ∧ exec .tgetp s = .next (succeeded { s with res := ⟨true, true, w, x.sym⟩ })) ∧
  (∀ (i : Instr) (s t u : State) (f : Table) (e : Nat) (x : CmapEntry) (path : Buf Word), s.Inv →
    i = .buildf ∨ i = .build → exec i s = .next t → t.errCode = 0 → f.length = t.nsym.toNat →
    Buf.holds t.mem.freqSym (f.map Prod.fst) → Buf.holds t.mem.freqCount (f.map Prod.snd) →
    exec .codemap t = .next u → e < u.cmapCount.toNat → Buf.load u.mem.cmap e = some x → x.len.toNat ≤ u.cfg.nPath →
    Buf.holds path (digitWords (x.code.take x.len.toNat)) →
    ∃ w, (x.sym, w) ∈ f ∧ exec .tgetp { u with pathLen := x.len, mem := { u.mem with path := path } } =
      .next (succeeded { u with
        pathLen := x.len, mem := { u.mem with path := path }, res := ⟨true, true, w, x.sym⟩ }))

/-- 43_codemap_encode.md R260, R261: ENCODE of a written text whose symbols all have code words completes with their
concatenation when it fits; the map is there afterwards. -/
def Obligations.EncodeConcatenatesCodeWords : Prop :=
  ∀ (s : State) (T : Built) (ts : List Word) (ps : List (List Bool)), s.Inv → s.treeOk = true → s.holdsBuilt T →
    Operand s.mem.text s.textLen ts → s.textLen.toNat ≤ s.cfg.nText → Spelled T ts ps →
    ps.flatten.length ≤ s.cfg.nBits →
    ∃ t, exec .encode s = .next t ∧ t.errCode = 0 ∧ t.bitCount.toNat = ps.flatten.length ∧
      Buf.holds t.mem.bit ps.flatten ∧ t.mapOk = true ∧ t.treeOk = true ∧ t.holdsBuilt T

/-- 43_codemap_encode.md R260, R262: ENCODE reports the first symbol with no code word as UNKNOWN_SYMBOL, and the first code word
that would pass N_BITS as OVERFLOW BITS; later positions are not read. BIT_COUNT becomes 0, BIT unspecified, and the map stays.
That ERRPOS of OVERFLOW BITS is 0, as 60_exceptions.md R322 says, and not the text position, as R260's pseudocode says, is the
model's reading of decision D17 (log entry 16). -/
def Obligations.EncodeReportsFirstFailure : Prop :=
  ∀ (s : State) (T : Built) (ts : List Word) (ps : List (List Bool)) (x : Word), s.Inv → s.treeOk = true →
    s.holdsBuilt T → s.textLen.toNat ≤ s.cfg.nText → ts.length < s.textLen.toNat →
    Buf.holds s.mem.text (ts ++ [x]) → Spelled T ts ps → ps.flatten.length ≤ s.cfg.nBits →
    ((∀ p, (x, p) ∉ T.codes) →
      ∃ t, exec .encode s = .next t ∧ t.errCode = 0x05 ∧ t.errInfo = x ∧ t.errPos.toNat = ts.length ∧
        t.bitCount = 0 ∧ t.mem.bit = [] ∧ t.mapOk = true ∧ t.holdsBuilt T) ∧
    (∀ p, (x, p) ∈ T.codes → s.cfg.nBits < ps.flatten.length + p.length →
      ∃ t, exec .encode s = .next t ∧ t.errCode = 0x08 ∧ t.errInfo = 4 ∧ t.errPos = 0 ∧
        t.bitCount = 0 ∧ t.mem.bit = [] ∧ t.mapOk = true ∧ t.holdsBuilt T)

/-- 43_codemap_encode.md R260: with MAP_OK = 0, ENCODE does what CODEMAP followed by ENCODE does. -/
def Obligations.EncodeDerivesTheMap : Prop :=
  ∀ s t : State, s.mapOk = false → s.textLen.toNat ≤ s.cfg.nText → exec .codemap s = .next t → t.errCode = 0 →
    exec .encode s = exec .encode t

/-! ## Pack, unpack, decode -/

/-- 44_pack.md R280, R281: PACK of a written bit sequence completes with its bytes, most significant bit first, zero-padded, the
rest of the last word zero; BIT and BIT_COUNT stay. -/
def Obligations.PackGroupsBitsIntoBytes : Prop :=
  ∀ (s : State) (bits : List Bool), Operand s.mem.bit s.bitCount bits → s.bitCount.toNat ≤ s.cfg.nBits →
    ∃ t, exec .pack s = .next t ∧ t.errCode = 0 ∧ t.mem.bit = s.mem.bit ∧ t.bitCount = s.bitCount ∧
      t.byteCount.toNat = (bits.length + 7) / 8 ∧
      (∀ j, j < (bits.length + 7) / 8 → ∃ b, Buf.load t.mem.byte j = some b ∧
        ∀ q, q < 8 → b.getLsbD (7 - q) = bits.getD (8 * j + q) false) ∧
      (∀ j, (bits.length + 7) / 8 ≤ j → j < 4 * ((bits.length + 31) / 32) → j < (s.cfg.nBits + 7) / 8 →
        Buf.load t.mem.byte j = some 0)

/-- 44_pack.md R282: UNPACK of written bytes completes with the first BIT_COUNT bits, most significant bit of each byte first;
BIT_COUNT, BYTE and BYTE_COUNT stay, and the padding bits do not matter. -/
def Obligations.UnpackSpreadsBytesIntoBits : Prop :=
  ∀ (s : State) (bytes : List Byte), bytes.length = (s.bitCount.toNat + 7) / 8 → Buf.holds s.mem.byte bytes →
    s.bitCount.toNat ≤ s.cfg.nBits →
    ∃ t, exec .unpack s = .next t ∧ t.errCode = 0 ∧ t.mem.byte = s.mem.byte ∧ t.bitCount = s.bitCount ∧
      t.byteCount = s.byteCount ∧
      ∀ i, i < s.bitCount.toNat → Buf.load t.mem.bit i = some ((bytes.getD (i / 8) 0).getLsbD (7 - i % 8))

/-- 44_pack.md R283: UNPACK of the bytes PACK made, in the same block or another that has these bytes and the bit count, whatever
its other bytes, writes the bits PACK read.
PACK after UNPACK remakes the same bytes but for the padding bits, which become 0. -/
def Obligations.UnpackUndoesPack : Prop :=
  (∀ (s : State) (bits : List Bool), Operand s.mem.bit s.bitCount bits → s.bitCount.toNat ≤ s.cfg.nBits →
    ∃ t, exec .pack s = .next t ∧ t.errCode = 0 ∧
      ∀ r : State, r.bitCount = s.bitCount →
        (∀ j, j < (s.bitCount.toNat + 7) / 8 → Buf.load r.mem.byte j = Buf.load t.mem.byte j) →
        s.bitCount.toNat ≤ r.cfg.nBits →
        ∃ u, exec .unpack r = .next u ∧ u.errCode = 0 ∧ Operand u.mem.bit u.bitCount bits) ∧
  (∀ (s : State) (bytes : List Byte), bytes.length = (s.bitCount.toNat + 7) / 8 → Buf.holds s.mem.byte bytes →
    s.bitCount.toNat ≤ s.cfg.nBits →
    ∃ t u, exec .unpack s = .next t ∧ exec .pack t = .next u ∧ u.errCode = 0 ∧
      ∀ j (h : j < bytes.length), ∃ b, Buf.load u.mem.byte j = some b ∧
        ∀ q, q < 8 → b.getLsbD (7 - q) = (decide (8 * j + q < s.bitCount.toNat) && bytes[j].getLsbD (7 - q)))

/-- 45_decode.md R300, R301: DECODE of a concatenation of code words of the built tree completes with their symbols. -/
def Obligations.DecodeReadsCodeWords : Prop :=
  ∀ (s : State) (T : Built) (ts : List Word) (ps : List (List Bool)), s.Inv → s.treeOk = true → s.holdsBuilt T →
    Spelled T ts ps → Operand s.mem.bit s.bitCount ps.flatten → s.bitCount.toNat ≤ s.cfg.nBits →
    ∃ t, exec .decode s = .next t ∧ t.errCode = 0 ∧ t.outLen.toNat = ts.length ∧ Buf.holds t.mem.out ts

/-- 45_decode.md R304: code words followed by a non-empty proper prefix of one are TRUNCATED_STREAM, at the first bit of the
incomplete code word and with the number of its bits. -/
def Obligations.TrailingPrefixIsTruncated : Prop :=
  ∀ (s : State) (T : Built) (ts : List Word) (ps : List (List Bool)) (x : Word) (p q : List Bool),
    s.Inv → s.treeOk = true → s.holdsBuilt T → Spelled T ts ps → (x, p ++ q) ∈ T.codes → p ≠ [] → q ≠ [] →
    Operand s.mem.bit s.bitCount (ps.flatten ++ p) → s.bitCount.toNat ≤ s.cfg.nBits →
    exec .decode s = .next (failed { s with outLen := 0, mem := { s.mem with out := [] } } 0x07
      (BitVec.ofNat 32 p.length) (BitVec.ofNat 32 ps.flatten.length))

/-- 45_decode.md R302: CORRUPT_STREAM happens only on the degenerate tree, at the first bit that is 1, and always there;
no other bit raises it. -/
def Obligations.CorruptStreamOnlyOnDegenerateTree : Prop :=
  (∀ (s t : State) (w : Word) (l r : HTree), s.Inv → s.treeOk = true → s.holdsBuilt (.forked w l r) →
    exec .decode s = .next t → t.errCode ≠ 0x06) ∧
  (∀ (s : State) (w x : Word) (k : Nat), s.Inv → s.treeOk = true → s.holdsBuilt (.single w x) →
    s.bitCount.toNat ≤ s.cfg.nBits → k < s.bitCount.toNat → Buf.holds s.mem.bit (List.replicate k false ++ [true]) →
    exec .decode s = .next (failed { s with outLen := 0, mem := { s.mem with out := [] } } 0x06 1
      (BitVec.ofNat 32 k))) ∧
  (∀ (s t : State) (w x : Word), s.Inv → s.treeOk = true → s.holdsBuilt (.single w x) →
    exec .decode s = .next t → t.errCode = 0x06 → t.errInfo = 1 ∧ Buf.load s.mem.bit t.errPos.toNat = some true)

/-- 45_decode.md R303: the round-trip law, on one block, with and without PACK and UNPACK.
ENCODE can fail only by OVERFLOW BITS, and only where the encoded length passes N_BITS. -/
def Obligations.EncodeDecodeRoundTrip : Prop :=
  ∀ (s : State) (ts : List Word), s.Inv → Operand s.mem.text s.textLen ts → ts ≠ [] →
    s.textLen.toNat ≤ s.cfg.nText → ts.dedup.length ≤ s.cfg.nSym →
    ∃ s1 T ps s2, exec .build s = .next s1 ∧ s1.errCode = 0 ∧ s1.holdsBuilt T ∧ Spelled T ts ps ∧
      exec .encode s1 = .next s2 ∧
      (s.cfg.nBits < ps.flatten.length → s2.errCode = 0x08 ∧ s2.errInfo = 4) ∧
      (ps.flatten.length ≤ s.cfg.nBits →
        s2.errCode = 0 ∧
        (∃ s3, exec .decode s2 = .next s3 ∧ s3.errCode = 0 ∧ Operand s3.mem.out s3.outLen ts) ∧
        ∃ s3 s4 s5, exec .pack s2 = .next s3 ∧ s3.errCode = 0 ∧ exec .unpack s3 = .next s4 ∧ s4.errCode = 0 ∧
          exec .decode s4 = .next s5 ∧ s5.errCode = 0 ∧ Operand s5.mem.out s5.outLen ts)

/-- 45_decode.md R303, 70_reset_and_hazards.md R371: a second block that gets the same table in the same order, the packed bytes
and the bit count decodes what the first block encoded, whatever its other bytes. -/
def Obligations.SecondBlockDecodesTheStream : Prop :=
  ∀ (s r s1 s2 s3 r1 : State) (ts : List Word) (bytes : List Host.Cell), s.Inv → r.Inv → r.cfg = s.cfg →
    Operand s.mem.text s.textLen ts → exec .build s = .next s1 → s1.errCode = 0 →
    exec .encode s1 = .next s2 → s2.errCode = 0 → exec .pack s2 = .next s3 → s3.errCode = 0 →
    r.nsym = s3.nsym →
    (∀ j, j < s3.nsym.toNat → Buf.load r.mem.freqSym j = Buf.load s3.mem.freqSym j ∧
      Buf.load r.mem.freqCount j = Buf.load s3.mem.freqCount j) →
    exec .buildf r = .next r1 →
    (∀ j, j < (s3.bitCount.toNat + 7) / 8 → Buf.load bytes j = Buf.load s3.mem.byte j) →
    ∃ r2 r3, exec .unpack { r1 with bitCount := s3.bitCount, mem := { r1.mem with byte := bytes } } = .next r2 ∧
      exec .decode r2 = .next r3 ∧ r3.errCode = 0 ∧ Operand r3.mem.out r3.outLen ts

/-! ## The bus -/

/-- 20_memory.md R92: a bad access gets response ERROR and read data 0 and changes nothing; every other access gets OKAY. -/
def Obligations.BadAccessHasNoEffect : Prop :=
  ∀ (s : State) (off : Offset) (size : Nat) (v : Word),
    (BadAccess s.cfg off size →
      s.busRead off size = { s with resp := some { response := .error, rdata := 0 } } ∧
      s.busWrite off size v = { s with resp := some { response := .error, rdata := 0 } }) ∧
    (¬ BadAccess s.cfg off size →
      (∃ d, (s.busRead off size).resp = some { response := .okay, rdata := d }) ∧
      ∃ d, (s.busWrite off size v).resp = some { response := .okay, rdata := d })

/-- 20_memory.md R90, R94: a read changes nothing but the bus answer (and the model's counter of draws: log entry 4). -/
def Obligations.ReadHasNoSideEffect : Prop :=
  ∀ (s : State) (off : Offset) (size : Nat), ∃ r d,
    s.busRead off size = { s with resp := some r, draws := d } ∧ s.draws ≤ d

/-- 10_state.md R31, R32: each register reads as the map says while no command is in flight, the reserved offsets of the page read
0, and ID, VERSION, CAP_*, CTRL and STATUS read the same while one is. -/
def Obligations.RegisterPageReads : Prop :=
  ∀ s : State,
    (s.busy = false → ∀ e ∈ registerWords s,
      s.busRead (BitVec.ofNat 28 e.1) 4 = { s with resp := some { response := .okay, rdata := e.2 } }) ∧
    (s.busy = false → ∀ o, o < 0x1000 → o % 4 = 0 → o ∉ (registerWords s).map Prod.fst →
      s.busRead (BitVec.ofNat 28 o) 4 = { s with resp := some { response := .okay, rdata := 0 } }) ∧
    (∀ e ∈ registerWords s, e.1 ∈ readableOffsets →
      s.busRead (BitVec.ofNat 28 e.1) 4 = { s with resp := some { response := .okay, rdata := e.2 } })

/-- 40_command_interface.md R154: while BUSY = 1, a read of a mapped offset other than ID, VERSION, CAP_*, CTRL and STATUS gets
OKAY and a draw (log entry 4). -/
def Obligations.ReadWhileBusyIsADraw : Prop :=
  ∀ (s : State) (off : Offset), s.busy = true → ¬ BadAccess s.cfg off 4 → off.toNat ∉ readableOffsets →
    s.busRead off 4 =
      { s with resp := some { response := .okay, rdata := Config.freeWord s.draws }, draws := s.draws + 1 }

/-- 40_command_interface.md R153: while BUSY = 1, a write to anything other than CTRL and STATUS only sets OVR.
A write that gets an ERROR response does not set it. -/
def Obligations.WriteWhileBusyOnlySetsOvr : Prop :=
  (∀ (s : State) (off : Offset) (v : Word), s.busy = true → ¬ BadAccess s.cfg off 4 → off.toNat ≠ 0x020 →
    off.toNat ≠ 0x028 →
    ∃ d, s.busWrite off 4 v = { s with ovr := true, resp := some { response := .okay, rdata := d } }) ∧
  (∀ (s : State) (off : Offset) (size : Nat) (v : Word), s.busy = true → BadAccess s.cfg off size →
    (s.busWrite off size v).ovr = s.ovr ∧ (s.busWrite off size v).resp = some { response := .error, rdata := 0 })

/-- 40_command_interface.md R151: a CMD write while BUSY = 0 accepts the word, legal or not. -/
def Obligations.CommandAcceptance : Prop :=
  ∀ (s : State) (c : Word), s.busy = false →
    ∃ d, s.busWrite 0x024 4 c =
      { s with cmdLatch := some c, done := false, errCode := 0, errInfo := 0, errPos := 0
               resp := some { response := .okay, rdata := d } }

/-- 10_state.md R36, R39: the STATUS word, bit by bit, and a STATUS write, which clears DONE by bit 1 and OVR by bit 3 and
nothing else, also while BUSY = 1. -/
def Obligations.StatusBitsAndClears : Prop :=
  ∀ (s : State),
    (s.statusWord.getLsbD 0 = s.busy ∧ s.statusWord.getLsbD 1 = s.done ∧
      s.statusWord.getLsbD 2 = decide (s.errCode ≠ 0) ∧ s.statusWord.getLsbD 3 = s.ovr ∧
      s.statusWord.getLsbD 4 = s.treeOk ∧ s.statusWord.getLsbD 5 = s.mapOk ∧
      ∀ b, 6 ≤ b → s.statusWord.getLsbD b = false) ∧
    ∀ v : Word, ∃ d, s.busWrite 0x028 4 v =
      { s with done := if v.getLsbD 1 then false else s.done
               ovr := if v.getLsbD 3 then false else s.ovr
               resp := some { response := .okay, rdata := d } }

/-- 10_state.md R34 and 70_reset_and_hazards.md R362: a CTRL write with SRST = 0 sets IRQ_EN; with SRST = 1 it resets every register
and keeps every buffer, but for those the command in CMDLATCH writes, which become unspecified. Both also while BUSY = 1.
That the Host's coming events and the counter of draws stay is the model's choice (log entries 2 and 4). -/
def Obligations.CtrlWriteAndSoftReset : Prop :=
  ∀ (s : State) (v : Word),
    (v.getLsbD 1 = false → ∃ d, s.busWrite 0x020 4 v =
      { s with irqEn := v.getLsbD 0, resp := some { response := .okay, rdata := d } }) ∧
    (v.getLsbD 1 = true → ∃ (m : Memory) (d : Word), s.busWrite 0x020 4 v =
      { State.resetWith s.cfg with
        mem := m, inbox := s.inbox, draws := s.draws, resp := some { response := .okay, rdata := d } } ∧
      (s.cmdLatch = .none → m = s.mem) ∧
      ∀ c, s.cmdLatch = some c →
        m.text = s.mem.text ∧ m.path = s.mem.path ∧
        (m.freqSym = if decode c ∈ [.command .freq, .command .build] then [] else s.mem.freqSym) ∧
        (m.freqCount = if decode c ∈ [.command .freq, .command .build] then [] else s.mem.freqCount) ∧
        (m.node = if decode c ∈ [.command .buildf, .command .build, .command .tnew, .command .tsetl, .command .tsetr,
          .command .tsetp] then [] else s.mem.node) ∧
        (m.cmap = if decode c ∈ [.command .codemap, .command .encode] then [] else s.mem.cmap) ∧
        (m.bit = if decode c ∈ [.command .encode, .command .unpack] then [] else s.mem.bit) ∧
        (m.byte = if decode c ∈ [.command .pack] then [] else s.mem.byte) ∧
        (m.out = if decode c ∈ [.command .decode] then [] else s.mem.out))

/-- 70_reset_and_hazards.md R360 and 10_state.md R60: hard reset sets every register to its reset value, empties CMDLATCH and makes
every buffer element unspecified.
That the Host's coming events stay is the model's choice (log entry 2). -/
def Obligations.HardResetValues : Prop :=
  ∀ (s : State) (rest : List HostEvent), s.inbox = .hardReset :: rest → ∃ t, step s = .next t ∧
    t.cfg = s.cfg ∧ t.inbox = rest ∧ t.ctrlWord = 0 ∧ t.statusWord = 0 ∧ t.irq = false ∧ t.cmdLatch = .none ∧
    t.errCode = 0 ∧ t.errInfo = 0 ∧ t.errPos = 0 ∧ t.textLen = 0 ∧ t.nsym = 0 ∧ t.bitCount = 0 ∧ t.byteCount = 0 ∧
    t.outLen = 0 ∧ t.nnodes = 0 ∧ t.root = 0 ∧ t.cmapCount = 0 ∧ t.pathLen = 0 ∧ t.payFlags = 0 ∧ t.payWeight = 0 ∧
    t.paySym = 0 ∧ t.res = ⟨false, false, 0, 0⟩ ∧
    ∀ i, Buf.load t.mem.text i = .none ∧ Buf.load t.mem.freqSym i = .none ∧ Buf.load t.mem.freqCount i = .none ∧
      Buf.load t.mem.node i = .none ∧ Buf.load t.mem.cmap i = .none ∧ Buf.load t.mem.bit i = .none ∧
      Buf.load t.mem.byte i = .none ∧ Buf.load t.mem.out i = .none ∧ Buf.load t.mem.path i = .none

/-- 20_memory.md R83, R84, R87, R91 and 10_state.md R31: while BUSY = 0, a read after a write to a read-write window or operand
register gives the written word, for the bits that are stored.
The write stores that word's elements and changes nothing else: no other register, buffer or element. So BIT and BYTE are separate
storage (10_state.md R58), and a write to FREQ changes no tree and one to TEXT no map (70_reset_and_hazards.md R369). -/
def Obligations.ReadAfterWriteGivesTheWord : Prop :=
  ∀ (s : State) (off : Offset) (v : Word), s.busy = false → ¬ BadAccess s.cfg off 4 →
    (win off = 0x1 ∨ win off = 0x2 ∨ win off = 0xA ∨
      off.toNat ∈ [0x040, 0x044, 0x048, 0x060, 0x068, 0x06C] →
      ((s.busWrite off 4 v).busRead off 4).resp = some { response := .okay, rdata := v }) ∧
    (off.toNat = 0x064 → ((s.busWrite off 4 v).busRead off 4).resp = some { response := .okay, rdata := v &&& 3 }) ∧
    (win off = 0x7 → ∃ d, ((s.busWrite off 4 v).busRead off 4).resp = some { response := .okay, rdata := d } ∧
      ∀ t, t < 32 → d.getLsbD (31 - t) = (decide (32 * (ofs off / 4) + t < s.cfg.nBits) && v.getLsbD (31 - t))) ∧
    (win off = 0x8 → ∃ d, ((s.busWrite off 4 v).busRead off 4).resp = some { response := .okay, rdata := d } ∧
      ∀ t, t < 32 → d.getLsbD (31 - t) =
        (decide (4 * (ofs off / 4) + t / 8 < (s.cfg.nBits + 7) / 8) && v.getLsbD (31 - t))) ∧
    (off.toNat = 0x040 → Wrote s off v { s with textLen := v }) ∧
    (off.toNat = 0x044 → Wrote s off v { s with nsym := v }) ∧
    (off.toNat = 0x048 → Wrote s off v { s with bitCount := v }) ∧
    (off.toNat = 0x060 → Wrote s off v { s with pathLen := v }) ∧
    (off.toNat = 0x064 → Wrote s off v { s with payFlags := v.setWidth 2 }) ∧
    (off.toNat = 0x068 → Wrote s off v { s with payWeight := v }) ∧
    (off.toNat = 0x06C → Wrote s off v { s with paySym := v }) ∧
    (∀ i, win off = 0x1 → ofs off = 4 * i → ∃ b, Wrote s off v { s with mem := { s.mem with text := b } } ∧
      ∀ k, Buf.load b k = if k = i then some v else Buf.load s.mem.text k) ∧
    (∀ j, win off = 0x2 → ofs off = 8 * j → ∃ b, Wrote s off v { s with mem := { s.mem with freqSym := b } } ∧
      ∀ k, Buf.load b k = if k = j then some v else Buf.load s.mem.freqSym k) ∧
    (∀ j, win off = 0x2 → ofs off = 8 * j + 4 → ∃ b, Wrote s off v { s with mem := { s.mem with freqCount := b } } ∧
      ∀ k, Buf.load b k = if k = j then some v else Buf.load s.mem.freqCount k) ∧
    (∀ w, win off = 0x7 → ofs off = 4 * w → ∃ b, Wrote s off v { s with mem := { s.mem with bit := b } } ∧
      ∀ k, Buf.load b k =
        if k / 32 = w ∧ k < s.cfg.nBits then some (v.getLsbD (31 - k % 32)) else Buf.load s.mem.bit k) ∧
    (∀ w, win off = 0x8 → ofs off = 4 * w → ∃ b, Wrote s off v { s with mem := { s.mem with byte := b } } ∧
      ∀ k, Buf.load b k =
        if k / 4 = w ∧ k < (s.cfg.nBits + 7) / 8 then some (v.extractLsb' (24 - 8 * (k % 4)) 8) else Buf.load s.mem.byte k) ∧
    (∀ j, win off = 0xA → ofs off = 4 * j → ∃ b, Wrote s off v { s with mem := { s.mem with path := b } } ∧
      ∀ k, Buf.load b k = if k = j then some v else Buf.load s.mem.path k)

/-- 20_memory.md R93: a write to a read-only register, a reserved offset of the register page or a read-only window is
ignored with response OKAY; while BUSY = 1 it also sets OVR. -/
def Obligations.ReadOnlyWriteIsIgnored : Prop :=
  ∀ (s : State) (off : Offset) (v : Word), ¬ BadAccess s.cfg off 4 →
    win off ∈ [0x3, 0x4, 0x5, 0x6, 0x9] ∨
      (win off = 0 ∧ ofs off ∉ [0x020, 0x024, 0x028, 0x040, 0x044, 0x048, 0x060, 0x064, 0x068, 0x06C]) →
    ∃ d, s.busWrite off 4 v =
      { s with ovr := if s.busy then true else s.ovr, resp := some { response := .okay, rdata := d } }

/-- 20_memory.md R83, R87: the words of the TEXT, OUT, PATH and FREQ windows, FREQ's symbol first and its count second.
20_memory.md R84, R85, R86: stream bit `i` sits in BITBUF word `i / 32` at bit `31 - i % 32`, byte `j` in BYTEBUF word `j / 4` at
bits `31 - 8 (j % 4)` down; the words of a NODE entry and of a CMAP entry. A draw for a bit the spec gives no value for
leaves the specified bits of the word alone.
20_memory.md R102: the read of an unspecified element is a draw (log entry 4): the whole word, or in BITBUF and BYTEBUF the
unspecified bits of it; that the bits that read 0 in every NODE and CMAP entry do so in an unspecified one is log entry 9. -/
def Obligations.WindowWordLayouts : Prop :=
  ∀ s : State, s.busy = false →
    (∀ (off : Offset) (i : Nat) (b : Bool), win off = 0x7 → ofs off = 4 * (i / 32) → i < s.cfg.nBits →
      Buf.load s.mem.bit i = some b → ∃ d, (s.busRead off 4).resp = some { response := .okay, rdata := d } ∧
        d.getLsbD (31 - i % 32) = b) ∧
    (∀ (off : Offset) (j : Nat) (b : Byte), win off = 0x8 → ofs off = 4 * (j / 4) → j < s.cfg.nBytes →
      Buf.load s.mem.byte j = some b → ∃ d, (s.busRead off 4).resp = some { response := .okay, rdata := d } ∧
        ∀ q, q < 8 → d.getLsbD (31 - 8 * (j % 4) - q) = b.getLsbD (7 - q)) ∧
    (∀ (off : Offset) (k q : Nat) (n : Node), win off = 0x3 → ofs off = 32 * k + 4 * q → q < 8 → k < s.cfg.nodeCap →
      Buf.load s.mem.node k = some n →
      (s.busRead off 4).resp = some { response := .okay, rdata :=
        if q = 0 then (if n.payload.occ then 1 else 0) + (if n.payload.symv then 2 else 0) + (if n.lv then 4 else 0) +
          (if n.rv then 8 else 0)
        else if q = 1 then n.payload.weight else if q = 2 then n.payload.sym else if q = 3 then n.left
        else if q = 4 then n.right else 0 }) ∧
    (∀ (off : Offset) (e : Nat) (x : CmapEntry), Buf.load s.mem.cmap e = some x → e < s.cfg.nSym →
      (win off = 0x4 → ofs off = 4 * e → (s.busRead off 4).resp = some { response := .okay, rdata := x.sym }) ∧
      (win off = 0x5 → ofs off = 4 * e → (s.busRead off 4).resp = some { response := .okay, rdata := x.len }) ∧
      (∀ w, win off = 0x6 → w < s.cfg.cw → ofs off = 4 * (e * s.cfg.cw + w) →
        ∃ d, (s.busRead off 4).resp = some { response := .okay, rdata := d } ∧
          ∀ t, t < 32 → d.getLsbD (31 - t) =
            (decide (32 * w + t < s.cfg.codeCap) && x.code.getD (32 * w + t) false))) ∧
    (∀ (off : Offset) (i : Nat) (v : Word), win off = 0x1 → ofs off = 4 * i → i < s.cfg.nText →
      Buf.load s.mem.text i = some v → (s.busRead off 4).resp = some { response := .okay, rdata := v }) ∧
    (∀ (off : Offset) (j : Nat) (v : Word), win off = 0x2 → ofs off = 8 * j → j < s.cfg.nSym →
      Buf.load s.mem.freqSym j = some v → (s.busRead off 4).resp = some { response := .okay, rdata := v }) ∧
    (∀ (off : Offset) (j : Nat) (v : Word), win off = 0x2 → ofs off = 8 * j + 4 → j < s.cfg.nSym →
      Buf.load s.mem.freqCount j = some v → (s.busRead off 4).resp = some { response := .okay, rdata := v }) ∧
    (∀ (off : Offset) (k : Nat) (v : Word), win off = 0x9 → ofs off = 4 * k → k < s.cfg.nOut →
      Buf.load s.mem.out k = some v → (s.busRead off 4).resp = some { response := .okay, rdata := v }) ∧
    (∀ (off : Offset) (j : Nat) (v : Word), win off = 0xA → ofs off = 4 * j → j < s.cfg.nPath →
      Buf.load s.mem.path j = some v → (s.busRead off 4).resp = some { response := .okay, rdata := v }) ∧
    (∀ (off : Offset) (i : Nat), win off = 0x7 → ofs off = 4 * (i / 32) → i < s.cfg.nBits → Buf.load s.mem.bit i = .none →
      ∃ d, Drew s off d ∧ d.getLsbD (31 - i % 32) = (Config.freeWord s.draws).getLsbD (31 - i % 32)) ∧
    (∀ (off : Offset) (j : Nat), win off = 0x8 → ofs off = 4 * (j / 4) → j < s.cfg.nBytes → Buf.load s.mem.byte j = .none →
      ∃ d, Drew s off d ∧ ∀ q, q < 8 →
        d.getLsbD (31 - 8 * (j % 4) - q) = (Config.freeWord s.draws).getLsbD (31 - 8 * (j % 4) - q)) ∧
    (∀ (off : Offset) (k q : Nat), win off = 0x3 → ofs off = 32 * k + 4 * q → q < 8 → k < s.cfg.nodeCap →
      Buf.load s.mem.node k = .none →
      (q = 0 → Drew s off (Config.freeWord s.draws &&& 0xF)) ∧
      (1 ≤ q ∧ q ≤ 4 → Drew s off (Config.freeWord s.draws)) ∧
      (5 ≤ q → (s.busRead off 4).resp = some { response := .okay, rdata := 0 })) ∧
    (∀ (off : Offset) (e : Nat), e < s.cfg.nSym → Buf.load s.mem.cmap e = .none →
      (win off = 0x4 ∨ win off = 0x5 → ofs off = 4 * e → Drew s off (Config.freeWord s.draws)) ∧
      (∀ w, win off = 0x6 → w < s.cfg.cw → ofs off = 4 * (e * s.cfg.cw + w) →
        ∃ d, Drew s off d ∧ ∀ t, t < 32 → d.getLsbD (31 - t) =
          (decide (32 * w + t < s.cfg.codeCap) && (Config.freeWord s.draws).getLsbD (31 - t)))) ∧
    (∀ (off : Offset) (i : Nat),
      (win off = 0x1 ∧ ofs off = 4 * i ∧ i < s.cfg.nText ∧ Buf.load s.mem.text i = .none) ∨
      (win off = 0x2 ∧ ofs off = 8 * i ∧ i < s.cfg.nSym ∧ Buf.load s.mem.freqSym i = .none) ∨
      (win off = 0x2 ∧ ofs off = 8 * i + 4 ∧ i < s.cfg.nSym ∧ Buf.load s.mem.freqCount i = .none) ∨
      (win off = 0x9 ∧ ofs off = 4 * i ∧ i < s.cfg.nOut ∧ Buf.load s.mem.out i = .none) ∨
      (win off = 0xA ∧ ofs off = 4 * i ∧ i < s.cfg.nPath ∧ Buf.load s.mem.path i = .none) →
      Drew s off (Config.freeWord s.draws))
end

