-- ==== Sys2Proof/Laws/Buf.lean ====
section
/-! SUPPORT. The laws of buffers: a read after a write, a write leaves every other element alone, and every operation
keeps the canonical form and the capacity. -/

namespace Sys2Proof.Machine

variable {α : Type}

@[simp] theorem Buf.load_nil (i : Nat) : Buf.load ([] : Buf α) i = .none := rfl

theorem Buf.load_cons (j : Nat) (v : α) (rest : Buf α) (i : Nat) :
    Buf.load ((j, v) :: rest) i = if i = j then some v else Buf.load rest i := rfl

/-- A read after a write: the written element where it was written, the old one everywhere else. -/
theorem Buf.load_store (b : Buf α) (i j : Nat) (v : α) :
    Buf.load (Buf.store b i v) j = if j = i then some v else Buf.load b j := by
  induction b with
  | nil => simp [Buf.store, Buf.load_cons]
  | cons c rest ih =>
    obtain ⟨k, w⟩ := c
    simp only [Buf.store]
    split
    · simp [Buf.load_cons]
    · split
      · subst k
        simp only [Buf.load_cons]
        split <;> rfl
      · simp only [Buf.load_cons, ih]
        split
        · subst j
          rw [if_neg (by omega)]
        · rfl

@[simp] theorem Buf.load_store_self (b : Buf α) (i : Nat) (v : α) : Buf.load (Buf.store b i v) i = some v := by
  simp [Buf.load_store]

theorem Buf.load_store_ne (b : Buf α) {i j : Nat} (v : α) (h : j ≠ i) :
    Buf.load (Buf.store b i v) j = Buf.load b j := by
  simp [Buf.load_store, h]

/-- A read after a sequence of writes. -/
theorem Buf.load_storeAll (b : Buf α) (i : Nat) (vs : List α) (j : Nat) :
    Buf.load (Buf.storeAll b i vs) j =
      if h : i ≤ j ∧ j < i + vs.length then some (vs[j - i]'(by omega)) else Buf.load b j := by
  induction vs generalizing b i with
  | nil => rw [dif_neg (by simp only [List.length_nil]; omega)]; rfl
  | cons v vs ih =>
    simp only [Buf.storeAll, ih, Buf.load_store, List.length_cons]
    by_cases hj : j = i
    · subst hj
      rw [dif_neg (by omega), if_pos rfl, dif_pos (by omega)]
      simp
    · by_cases h : i ≤ j ∧ j < i + (vs.length + 1)
      · rw [dif_pos h, dif_pos (by omega)]
        congr 1
        rw [List.getElem_cons]
        rw [dif_neg (by omega)]
        simp only [Nat.sub_sub]
      · rw [dif_neg h, dif_neg (by omega), if_neg hj]

theorem Buf.load_storeAll_inside (b : Buf α) (vs : List α) (j : Nat) (h : j < vs.length) :
    Buf.load (Buf.storeAll b 0 vs) j = some vs[j] := by
  rw [Buf.load_storeAll, dif_pos (by omega)]
  simp

theorem Buf.load_storeAll_outside (b : Buf α) (i : Nat) (vs : List α) (j : Nat) (h : j < i ∨ i + vs.length ≤ j) :
    Buf.load (Buf.storeAll b i vs) j = Buf.load b j := by
  rw [Buf.load_storeAll, dif_neg (by omega)]

@[simp] theorem Buf.length_slice (b : Buf α) (i n : Nat) : (Buf.slice b i n).length = n := by
  induction n generalizing i with
  | zero => rfl
  | succ n ih => simp [Buf.slice, ih]

@[simp] theorem Buf.getElem_slice (b : Buf α) (i n j : Nat) (h : j < (Buf.slice b i n).length) :
    (Buf.slice b i n)[j] = Buf.load b (i + j) := by
  induction n generalizing i j with
  | zero => simp at h
  | succ n ih =>
    cases j with
    | zero => rfl
    | succ j =>
      simp only [Buf.slice, List.getElem_cons_succ]
      rw [ih (i + 1) j (by simpa [Buf.slice] using h)]
      congr 1
      omega

/-- An operand is a sequence of values exactly when every element is specified. -/
theorem Buf.slice_eq_map_some (b : Buf α) (vs : List α) (n : Nat)
    (hn : vs.length = n) (h : ∀ j (hj : j < vs.length), Buf.load b j = some vs[j]) :
    Buf.slice b 0 n = vs.map some := by
  apply List.ext_getElem
  · simp [hn]
  · intro j h1 h2
    rw [Buf.getElem_slice, Nat.zero_add, List.getElem_map]
    exact h j (by simpa using h2)

theorem Buf.slice_storeAll (b : Buf α) (vs : List α) : Buf.slice (Buf.storeAll b 0 vs) 0 vs.length = vs.map some :=
  Buf.slice_eq_map_some _ vs _ rfl fun j hj => Buf.load_storeAll_inside b vs j hj

/-! ## The canonical form -/

theorem Buf.rising_mono {lo lo' : Nat} (h : lo' ≤ lo) : ∀ {b : Buf α}, Buf.rising lo b = true → Buf.rising lo' b = true
  | [], _ => rfl
  | (j, v) :: rest, hb => by
    simp only [Buf.rising, Bool.and_eq_true, decide_eq_true_eq] at hb ⊢
    exact ⟨by omega, hb.2⟩

theorem Buf.rising_store (b : Buf α) (i : Nat) (v : α) (lo : Nat) (hlo : lo ≤ i) (hb : Buf.rising lo b = true) :
    Buf.rising lo (Buf.store b i v) = true := by
  induction b generalizing lo with
  | nil => simp [Buf.store, Buf.rising, hlo]
  | cons c rest ih =>
    obtain ⟨j, w⟩ := c
    simp only [Buf.rising, Bool.and_eq_true, decide_eq_true_eq] at hb
    simp only [Buf.store]
    split
    · simp only [Buf.rising, Bool.and_eq_true, decide_eq_true_eq]
      exact ⟨hlo, by omega, hb.2⟩
    · split
      · subst i
        simp only [Buf.rising, Bool.and_eq_true, decide_eq_true_eq]
        exact hb
      · simp only [Buf.rising, Bool.and_eq_true, decide_eq_true_eq]
        exact ⟨hb.1, ih (j + 1) (by omega) hb.2⟩

/-- A write keeps the canonical form. -/
theorem Buf.wf_store {b : Buf α} (hb : Buf.wf b = true) (i : Nat) (v : α) : Buf.wf (Buf.store b i v) = true :=
  Buf.rising_store b i v 0 (Nat.zero_le i) hb

/-- A sequence of writes keeps the canonical form. -/
theorem Buf.wf_storeAll {b : Buf α} (hb : Buf.wf b = true) (i : Nat) (vs : List α) :
    Buf.wf (Buf.storeAll b i vs) = true := by
  induction vs generalizing b i with
  | nil => exact hb
  | cons v vs ih => exact ih (Buf.wf_store hb i v) (i + 1)

@[simp] theorem Buf.wf_havoc (b : Buf α) : Buf.wf (Buf.havoc b) = true := rfl

/-- In canonical form an element that is not listed below every index cannot be read: the first index bounds all. -/
theorem Buf.load_none_of_rising {b : Buf α} {lo i : Nat} (hb : Buf.rising lo b = true) (hi : i < lo) :
    Buf.load b i = .none := by
  induction b generalizing lo with
  | nil => rfl
  | cons c rest ih =>
    obtain ⟨j, w⟩ := c
    simp only [Buf.rising, Bool.and_eq_true, decide_eq_true_eq] at hb
    rw [Buf.load_cons, if_neg (by omega)]
    exact ih hb.2 (by omega)

/-- Two buffers in canonical form with the same elements are the same list. -/
theorem Buf.ext_of_rising {lo : Nat} : ∀ {b c : Buf α}, Buf.rising lo b = true → Buf.rising lo c = true →
    (∀ i, Buf.load b i = Buf.load c i) → b = c := by
  intro b
  induction b generalizing lo with
  | nil =>
    intro c _ _ h
    cases c with
    | nil => rfl
    | cons x rest =>
      have := h x.1
      obtain ⟨j, w⟩ := x
      simp [Buf.load_cons] at this
  | cons x rest ih =>
    obtain ⟨j, w⟩ := x
    intro c hb hc h
    simp only [Buf.rising, Bool.and_eq_true, decide_eq_true_eq] at hb
    cases c with
    | nil =>
      have := h j
      simp [Buf.load_cons] at this
    | cons y rest' =>
      obtain ⟨j', w'⟩ := y
      simp only [Buf.rising, Bool.and_eq_true, decide_eq_true_eq] at hc
      have hjj : j = j' := by
        rcases Nat.lt_trichotomy j j' with hlt | heq | hgt
        · have := h j
          rw [Buf.load_cons, if_pos rfl, Buf.load_cons, if_neg (by omega),
            Buf.load_none_of_rising hc.2 (by omega)] at this
          cases this
        · exact heq
        · have := h j'
          rw [Buf.load_cons, if_neg (by omega), Buf.load_cons, if_pos rfl,
            Buf.load_none_of_rising hb.2 (by omega)] at this
          cases this
      subst hjj
      have hw := h j
      simp only [Buf.load_cons, if_true] at hw
      cases hw
      congr 1
      apply ih hb.2 hc.2
      intro i
      have hi := h i
      simp only [Buf.load_cons] at hi
      by_cases hij : i = j
      · subst hij
        rw [Buf.load_none_of_rising hb.2 (by omega), Buf.load_none_of_rising hc.2 (by omega)]
      · simpa [hij] using hi

/-! ## Capacity -/

theorem Buf.within_store {b : Buf α} {cap i : Nat} (hb : Buf.within b cap = true) (hi : i < cap) (v : α) :
    Buf.within (Buf.store b i v) cap = true := by
  induction b with
  | nil => simp [Buf.store, Buf.within, hi]
  | cons c rest ih =>
    obtain ⟨j, w⟩ := c
    simp only [Buf.within, List.all_cons, Bool.and_eq_true, decide_eq_true_eq] at hb ih
    simp only [Buf.store]
    split
    · simp only [Buf.within, List.all_cons, Bool.and_eq_true, decide_eq_true_eq]
      exact ⟨hi, hb⟩
    · split
      · simp only [Buf.within, List.all_cons, Bool.and_eq_true, decide_eq_true_eq]
        exact ⟨hi, hb.2⟩
      · simp only [Buf.within, List.all_cons, Bool.and_eq_true, decide_eq_true_eq]
        exact ⟨hb.1, ih hb.2⟩

theorem Buf.within_storeAll {b : Buf α} {cap : Nat} (hb : Buf.within b cap = true) {i : Nat} {vs : List α}
    (hi : vs ≠ [] → i + vs.length ≤ cap) : Buf.within (Buf.storeAll b i vs) cap = true := by
  induction vs generalizing b i with
  | nil => exact hb
  | cons v vs ih =>
    have h := hi (by simp)
    simp only [List.length_cons] at h
    exact ih (Buf.within_store hb (by omega) v) (fun _ => by omega)

@[simp] theorem Buf.within_havoc (b : Buf α) (cap : Nat) : Buf.within (Buf.havoc b) cap = true := rfl

/-- An element past the capacity is unspecified. -/
theorem Buf.load_none_of_within {b : Buf α} {cap i : Nat} (hb : Buf.within b cap = true) (hi : cap ≤ i) :
    Buf.load b i = .none := by
  induction b with
  | nil => rfl
  | cons c rest ih =>
    obtain ⟨j, w⟩ := c
    simp only [Buf.within, List.all_cons, Bool.and_eq_true, decide_eq_true_eq] at hb ih
    rw [Buf.load_cons, if_neg (by omega)]
    exact ih hb.2

end Sys2Proof.Machine
end

