-- ==== Sys2Proof/Laws/State.lean ====
section
/-! SUPPORT. One lemma per field per update of the state, true by rfl, so that no proof unfolds a record update. -/

namespace Sys2Proof.Machine

variable (s : State)

/-- `succeed` is completion with no error. -/
theorem State.succeed_eq : s.succeed = s.complete 0 0 0 := rfl

/-- `raise` is completion with the error's three values. -/
theorem State.raise_eq (e : Err) : s.raise e = s.complete e.kind.code e.info e.pos := rfl

/-! ### complete -/

@[simp] theorem State.complete_cfg (code : BitVec 8) (info pos : Word) : (s.complete code info pos).cfg = s.cfg := rfl
@[simp] theorem State.complete_irqEn (code : BitVec 8) (info pos : Word) : (s.complete code info pos).irqEn = s.irqEn := rfl
@[simp] theorem State.complete_cmdLatch (code : BitVec 8) (info pos : Word) : (s.complete code info pos).cmdLatch = .none := rfl
@[simp] theorem State.complete_done (code : BitVec 8) (info pos : Word) : (s.complete code info pos).done = true := rfl
@[simp] theorem State.complete_ovr (code : BitVec 8) (info pos : Word) : (s.complete code info pos).ovr = s.ovr := rfl
@[simp] theorem State.complete_treeOk (code : BitVec 8) (info pos : Word) : (s.complete code info pos).treeOk = s.treeOk := rfl
@[simp] theorem State.complete_mapOk (code : BitVec 8) (info pos : Word) : (s.complete code info pos).mapOk = s.mapOk := rfl
@[simp] theorem State.complete_errCode (code : BitVec 8) (info pos : Word) : (s.complete code info pos).errCode = code := rfl
@[simp] theorem State.complete_errInfo (code : BitVec 8) (info pos : Word) : (s.complete code info pos).errInfo = info := rfl
@[simp] theorem State.complete_errPos (code : BitVec 8) (info pos : Word) : (s.complete code info pos).errPos = pos := rfl
@[simp] theorem State.complete_textLen (code : BitVec 8) (info pos : Word) : (s.complete code info pos).textLen = s.textLen := rfl
@[simp] theorem State.complete_nsym (code : BitVec 8) (info pos : Word) : (s.complete code info pos).nsym = s.nsym := rfl
@[simp] theorem State.complete_bitCount (code : BitVec 8) (info pos : Word) : (s.complete code info pos).bitCount = s.bitCount := rfl
@[simp] theorem State.complete_byteCount (code : BitVec 8) (info pos : Word) : (s.complete code info pos).byteCount = s.byteCount := rfl
@[simp] theorem State.complete_outLen (code : BitVec 8) (info pos : Word) : (s.complete code info pos).outLen = s.outLen := rfl
@[simp] theorem State.complete_nnodes (code : BitVec 8) (info pos : Word) : (s.complete code info pos).nnodes = s.nnodes := rfl
@[simp] theorem State.complete_root (code : BitVec 8) (info pos : Word) : (s.complete code info pos).root = s.root := rfl
@[simp] theorem State.complete_cmapCount (code : BitVec 8) (info pos : Word) : (s.complete code info pos).cmapCount = s.cmapCount := rfl
@[simp] theorem State.complete_pathLen (code : BitVec 8) (info pos : Word) : (s.complete code info pos).pathLen = s.pathLen := rfl
@[simp] theorem State.complete_payFlags (code : BitVec 8) (info pos : Word) : (s.complete code info pos).payFlags = s.payFlags := rfl
@[simp] theorem State.complete_payWeight (code : BitVec 8) (info pos : Word) : (s.complete code info pos).payWeight = s.payWeight := rfl
@[simp] theorem State.complete_paySym (code : BitVec 8) (info pos : Word) : (s.complete code info pos).paySym = s.paySym := rfl
@[simp] theorem State.complete_res (code : BitVec 8) (info pos : Word) : (s.complete code info pos).res = s.res := rfl
@[simp] theorem State.complete_mem (code : BitVec 8) (info pos : Word) : (s.complete code info pos).mem = s.mem := rfl
@[simp] theorem State.complete_inbox (code : BitVec 8) (info pos : Word) : (s.complete code info pos).inbox = s.inbox := rfl
@[simp] theorem State.complete_resp (code : BitVec 8) (info pos : Word) : (s.complete code info pos).resp = s.resp := rfl
@[simp] theorem State.complete_draws (code : BitVec 8) (info pos : Word) : (s.complete code info pos).draws = s.draws := rfl

/-! ### storeArena -/

@[simp] theorem State.storeArena_cfg (arena : Buf Node) (n : Word) : (s.storeArena arena n).cfg = s.cfg := rfl
@[simp] theorem State.storeArena_irqEn (arena : Buf Node) (n : Word) : (s.storeArena arena n).irqEn = s.irqEn := rfl
@[simp] theorem State.storeArena_cmdLatch (arena : Buf Node) (n : Word) : (s.storeArena arena n).cmdLatch = s.cmdLatch := rfl
@[simp] theorem State.storeArena_done (arena : Buf Node) (n : Word) : (s.storeArena arena n).done = s.done := rfl
@[simp] theorem State.storeArena_ovr (arena : Buf Node) (n : Word) : (s.storeArena arena n).ovr = s.ovr := rfl
@[simp] theorem State.storeArena_treeOk (arena : Buf Node) (n : Word) : (s.storeArena arena n).treeOk = s.treeOk := rfl
@[simp] theorem State.storeArena_mapOk (arena : Buf Node) (n : Word) : (s.storeArena arena n).mapOk = s.mapOk := rfl
@[simp] theorem State.storeArena_errCode (arena : Buf Node) (n : Word) : (s.storeArena arena n).errCode = s.errCode := rfl
@[simp] theorem State.storeArena_errInfo (arena : Buf Node) (n : Word) : (s.storeArena arena n).errInfo = s.errInfo := rfl
@[simp] theorem State.storeArena_errPos (arena : Buf Node) (n : Word) : (s.storeArena arena n).errPos = s.errPos := rfl
@[simp] theorem State.storeArena_textLen (arena : Buf Node) (n : Word) : (s.storeArena arena n).textLen = s.textLen := rfl
@[simp] theorem State.storeArena_nsym (arena : Buf Node) (n : Word) : (s.storeArena arena n).nsym = s.nsym := rfl
@[simp] theorem State.storeArena_bitCount (arena : Buf Node) (n : Word) : (s.storeArena arena n).bitCount = s.bitCount := rfl
@[simp] theorem State.storeArena_byteCount (arena : Buf Node) (n : Word) : (s.storeArena arena n).byteCount = s.byteCount := rfl
@[simp] theorem State.storeArena_outLen (arena : Buf Node) (n : Word) : (s.storeArena arena n).outLen = s.outLen := rfl
@[simp] theorem State.storeArena_nnodes (arena : Buf Node) (n : Word) : (s.storeArena arena n).nnodes = n := rfl
@[simp] theorem State.storeArena_root (arena : Buf Node) (n : Word) : (s.storeArena arena n).root = s.root := rfl
@[simp] theorem State.storeArena_cmapCount (arena : Buf Node) (n : Word) : (s.storeArena arena n).cmapCount = s.cmapCount := rfl
@[simp] theorem State.storeArena_pathLen (arena : Buf Node) (n : Word) : (s.storeArena arena n).pathLen = s.pathLen := rfl
@[simp] theorem State.storeArena_payFlags (arena : Buf Node) (n : Word) : (s.storeArena arena n).payFlags = s.payFlags := rfl
@[simp] theorem State.storeArena_payWeight (arena : Buf Node) (n : Word) : (s.storeArena arena n).payWeight = s.payWeight := rfl
@[simp] theorem State.storeArena_paySym (arena : Buf Node) (n : Word) : (s.storeArena arena n).paySym = s.paySym := rfl
@[simp] theorem State.storeArena_res (arena : Buf Node) (n : Word) : (s.storeArena arena n).res = s.res := rfl
@[simp] theorem State.storeArena_mem (arena : Buf Node) (n : Word) : (s.storeArena arena n).mem = { s.mem with node := arena } := rfl
@[simp] theorem State.storeArena_inbox (arena : Buf Node) (n : Word) : (s.storeArena arena n).inbox = s.inbox := rfl
@[simp] theorem State.storeArena_resp (arena : Buf Node) (n : Word) : (s.storeArena arena n).resp = s.resp := rfl
@[simp] theorem State.storeArena_draws (arena : Buf Node) (n : Word) : (s.storeArena arena n).draws = s.draws := rfl

/-! ### markEdited -/

@[simp] theorem State.markEdited_cfg : (s.markEdited).cfg = s.cfg := rfl
@[simp] theorem State.markEdited_irqEn : (s.markEdited).irqEn = s.irqEn := rfl
@[simp] theorem State.markEdited_cmdLatch : (s.markEdited).cmdLatch = s.cmdLatch := rfl
@[simp] theorem State.markEdited_done : (s.markEdited).done = s.done := rfl
@[simp] theorem State.markEdited_ovr : (s.markEdited).ovr = s.ovr := rfl
@[simp] theorem State.markEdited_treeOk : (s.markEdited).treeOk = false := rfl
@[simp] theorem State.markEdited_mapOk : (s.markEdited).mapOk = false := rfl
@[simp] theorem State.markEdited_errCode : (s.markEdited).errCode = s.errCode := rfl
@[simp] theorem State.markEdited_errInfo : (s.markEdited).errInfo = s.errInfo := rfl
@[simp] theorem State.markEdited_errPos : (s.markEdited).errPos = s.errPos := rfl
@[simp] theorem State.markEdited_textLen : (s.markEdited).textLen = s.textLen := rfl
@[simp] theorem State.markEdited_nsym : (s.markEdited).nsym = s.nsym := rfl
@[simp] theorem State.markEdited_bitCount : (s.markEdited).bitCount = s.bitCount := rfl
@[simp] theorem State.markEdited_byteCount : (s.markEdited).byteCount = s.byteCount := rfl
@[simp] theorem State.markEdited_outLen : (s.markEdited).outLen = s.outLen := rfl
@[simp] theorem State.markEdited_nnodes : (s.markEdited).nnodes = s.nnodes := rfl
@[simp] theorem State.markEdited_root : (s.markEdited).root = s.root := rfl
@[simp] theorem State.markEdited_cmapCount : (s.markEdited).cmapCount = 0 := rfl
@[simp] theorem State.markEdited_pathLen : (s.markEdited).pathLen = s.pathLen := rfl
@[simp] theorem State.markEdited_payFlags : (s.markEdited).payFlags = s.payFlags := rfl
@[simp] theorem State.markEdited_payWeight : (s.markEdited).payWeight = s.payWeight := rfl
@[simp] theorem State.markEdited_paySym : (s.markEdited).paySym = s.paySym := rfl
@[simp] theorem State.markEdited_res : (s.markEdited).res = s.res := rfl
@[simp] theorem State.markEdited_mem : (s.markEdited).mem = s.mem := rfl
@[simp] theorem State.markEdited_inbox : (s.markEdited).inbox = s.inbox := rfl
@[simp] theorem State.markEdited_resp : (s.markEdited).resp = s.resp := rfl
@[simp] theorem State.markEdited_draws : (s.markEdited).draws = s.draws := rfl

/-! ### markBuilt -/

@[simp] theorem State.markBuilt_cfg : (s.markBuilt).cfg = s.cfg := rfl
@[simp] theorem State.markBuilt_irqEn : (s.markBuilt).irqEn = s.irqEn := rfl
@[simp] theorem State.markBuilt_cmdLatch : (s.markBuilt).cmdLatch = s.cmdLatch := rfl
@[simp] theorem State.markBuilt_done : (s.markBuilt).done = s.done := rfl
@[simp] theorem State.markBuilt_ovr : (s.markBuilt).ovr = s.ovr := rfl
@[simp] theorem State.markBuilt_treeOk : (s.markBuilt).treeOk = true := rfl
@[simp] theorem State.markBuilt_mapOk : (s.markBuilt).mapOk = false := rfl
@[simp] theorem State.markBuilt_errCode : (s.markBuilt).errCode = s.errCode := rfl
@[simp] theorem State.markBuilt_errInfo : (s.markBuilt).errInfo = s.errInfo := rfl
@[simp] theorem State.markBuilt_errPos : (s.markBuilt).errPos = s.errPos := rfl
@[simp] theorem State.markBuilt_textLen : (s.markBuilt).textLen = s.textLen := rfl
@[simp] theorem State.markBuilt_nsym : (s.markBuilt).nsym = s.nsym := rfl
@[simp] theorem State.markBuilt_bitCount : (s.markBuilt).bitCount = s.bitCount := rfl
@[simp] theorem State.markBuilt_byteCount : (s.markBuilt).byteCount = s.byteCount := rfl
@[simp] theorem State.markBuilt_outLen : (s.markBuilt).outLen = s.outLen := rfl
@[simp] theorem State.markBuilt_nnodes : (s.markBuilt).nnodes = s.nnodes := rfl
@[simp] theorem State.markBuilt_root : (s.markBuilt).root = s.root := rfl
@[simp] theorem State.markBuilt_cmapCount : (s.markBuilt).cmapCount = 0 := rfl
@[simp] theorem State.markBuilt_pathLen : (s.markBuilt).pathLen = s.pathLen := rfl
@[simp] theorem State.markBuilt_payFlags : (s.markBuilt).payFlags = s.payFlags := rfl
@[simp] theorem State.markBuilt_payWeight : (s.markBuilt).payWeight = s.payWeight := rfl
@[simp] theorem State.markBuilt_paySym : (s.markBuilt).paySym = s.paySym := rfl
@[simp] theorem State.markBuilt_res : (s.markBuilt).res = s.res := rfl
@[simp] theorem State.markBuilt_mem : (s.markBuilt).mem = s.mem := rfl
@[simp] theorem State.markBuilt_inbox : (s.markBuilt).inbox = s.inbox := rfl
@[simp] theorem State.markBuilt_resp : (s.markBuilt).resp = s.resp := rfl
@[simp] theorem State.markBuilt_draws : (s.markBuilt).draws = s.draws := rfl

/-! ### markMapped -/

@[simp] theorem State.markMapped_cfg (n : Nat) : (s.markMapped n).cfg = s.cfg := rfl
@[simp] theorem State.markMapped_irqEn (n : Nat) : (s.markMapped n).irqEn = s.irqEn := rfl
@[simp] theorem State.markMapped_cmdLatch (n : Nat) : (s.markMapped n).cmdLatch = s.cmdLatch := rfl
@[simp] theorem State.markMapped_done (n : Nat) : (s.markMapped n).done = s.done := rfl
@[simp] theorem State.markMapped_ovr (n : Nat) : (s.markMapped n).ovr = s.ovr := rfl
@[simp] theorem State.markMapped_treeOk (n : Nat) : (s.markMapped n).treeOk = s.treeOk := rfl
@[simp] theorem State.markMapped_mapOk (n : Nat) : (s.markMapped n).mapOk = true := rfl
@[simp] theorem State.markMapped_errCode (n : Nat) : (s.markMapped n).errCode = s.errCode := rfl
@[simp] theorem State.markMapped_errInfo (n : Nat) : (s.markMapped n).errInfo = s.errInfo := rfl
@[simp] theorem State.markMapped_errPos (n : Nat) : (s.markMapped n).errPos = s.errPos := rfl
@[simp] theorem State.markMapped_textLen (n : Nat) : (s.markMapped n).textLen = s.textLen := rfl
@[simp] theorem State.markMapped_nsym (n : Nat) : (s.markMapped n).nsym = s.nsym := rfl
@[simp] theorem State.markMapped_bitCount (n : Nat) : (s.markMapped n).bitCount = s.bitCount := rfl
@[simp] theorem State.markMapped_byteCount (n : Nat) : (s.markMapped n).byteCount = s.byteCount := rfl
@[simp] theorem State.markMapped_outLen (n : Nat) : (s.markMapped n).outLen = s.outLen := rfl
@[simp] theorem State.markMapped_nnodes (n : Nat) : (s.markMapped n).nnodes = s.nnodes := rfl
@[simp] theorem State.markMapped_root (n : Nat) : (s.markMapped n).root = s.root := rfl
@[simp] theorem State.markMapped_cmapCount (n : Nat) : (s.markMapped n).cmapCount = BitVec.ofNat 32 n := rfl
@[simp] theorem State.markMapped_pathLen (n : Nat) : (s.markMapped n).pathLen = s.pathLen := rfl
@[simp] theorem State.markMapped_payFlags (n : Nat) : (s.markMapped n).payFlags = s.payFlags := rfl
@[simp] theorem State.markMapped_payWeight (n : Nat) : (s.markMapped n).payWeight = s.payWeight := rfl
@[simp] theorem State.markMapped_paySym (n : Nat) : (s.markMapped n).paySym = s.paySym := rfl
@[simp] theorem State.markMapped_res (n : Nat) : (s.markMapped n).res = s.res := rfl
@[simp] theorem State.markMapped_mem (n : Nat) : (s.markMapped n).mem = s.mem := rfl
@[simp] theorem State.markMapped_inbox (n : Nat) : (s.markMapped n).inbox = s.inbox := rfl
@[simp] theorem State.markMapped_resp (n : Nat) : (s.markMapped n).resp = s.resp := rfl
@[simp] theorem State.markMapped_draws (n : Nat) : (s.markMapped n).draws = s.draws := rfl

/-! ### setRes -/

@[simp] theorem State.setRes_cfg (p : Payload) : (s.setRes p).cfg = s.cfg := rfl
@[simp] theorem State.setRes_irqEn (p : Payload) : (s.setRes p).irqEn = s.irqEn := rfl
@[simp] theorem State.setRes_cmdLatch (p : Payload) : (s.setRes p).cmdLatch = s.cmdLatch := rfl
@[simp] theorem State.setRes_done (p : Payload) : (s.setRes p).done = s.done := rfl
@[simp] theorem State.setRes_ovr (p : Payload) : (s.setRes p).ovr = s.ovr := rfl
@[simp] theorem State.setRes_treeOk (p : Payload) : (s.setRes p).treeOk = s.treeOk := rfl
@[simp] theorem State.setRes_mapOk (p : Payload) : (s.setRes p).mapOk = s.mapOk := rfl
@[simp] theorem State.setRes_errCode (p : Payload) : (s.setRes p).errCode = s.errCode := rfl
@[simp] theorem State.setRes_errInfo (p : Payload) : (s.setRes p).errInfo = s.errInfo := rfl
@[simp] theorem State.setRes_errPos (p : Payload) : (s.setRes p).errPos = s.errPos := rfl
@[simp] theorem State.setRes_textLen (p : Payload) : (s.setRes p).textLen = s.textLen := rfl
@[simp] theorem State.setRes_nsym (p : Payload) : (s.setRes p).nsym = s.nsym := rfl
@[simp] theorem State.setRes_bitCount (p : Payload) : (s.setRes p).bitCount = s.bitCount := rfl
@[simp] theorem State.setRes_byteCount (p : Payload) : (s.setRes p).byteCount = s.byteCount := rfl
@[simp] theorem State.setRes_outLen (p : Payload) : (s.setRes p).outLen = s.outLen := rfl
@[simp] theorem State.setRes_nnodes (p : Payload) : (s.setRes p).nnodes = s.nnodes := rfl
@[simp] theorem State.setRes_root (p : Payload) : (s.setRes p).root = s.root := rfl
@[simp] theorem State.setRes_cmapCount (p : Payload) : (s.setRes p).cmapCount = s.cmapCount := rfl
@[simp] theorem State.setRes_pathLen (p : Payload) : (s.setRes p).pathLen = s.pathLen := rfl
@[simp] theorem State.setRes_payFlags (p : Payload) : (s.setRes p).payFlags = s.payFlags := rfl
@[simp] theorem State.setRes_payWeight (p : Payload) : (s.setRes p).payWeight = s.payWeight := rfl
@[simp] theorem State.setRes_paySym (p : Payload) : (s.setRes p).paySym = s.paySym := rfl
@[simp] theorem State.setRes_res (p : Payload) : (s.setRes p).res = p := rfl
@[simp] theorem State.setRes_mem (p : Payload) : (s.setRes p).mem = s.mem := rfl
@[simp] theorem State.setRes_inbox (p : Payload) : (s.setRes p).inbox = s.inbox := rfl
@[simp] theorem State.setRes_resp (p : Payload) : (s.setRes p).resp = s.resp := rfl
@[simp] theorem State.setRes_draws (p : Payload) : (s.setRes p).draws = s.draws := rfl

/-! ### storeFreq -/

@[simp] theorem State.storeFreq_cfg (t : List (Word × Word)) : (s.storeFreq t).cfg = s.cfg := rfl
@[simp] theorem State.storeFreq_irqEn (t : List (Word × Word)) : (s.storeFreq t).irqEn = s.irqEn := rfl
@[simp] theorem State.storeFreq_cmdLatch (t : List (Word × Word)) : (s.storeFreq t).cmdLatch = s.cmdLatch := rfl
@[simp] theorem State.storeFreq_done (t : List (Word × Word)) : (s.storeFreq t).done = s.done := rfl
@[simp] theorem State.storeFreq_ovr (t : List (Word × Word)) : (s.storeFreq t).ovr = s.ovr := rfl
@[simp] theorem State.storeFreq_treeOk (t : List (Word × Word)) : (s.storeFreq t).treeOk = s.treeOk := rfl
@[simp] theorem State.storeFreq_mapOk (t : List (Word × Word)) : (s.storeFreq t).mapOk = s.mapOk := rfl
@[simp] theorem State.storeFreq_errCode (t : List (Word × Word)) : (s.storeFreq t).errCode = s.errCode := rfl
@[simp] theorem State.storeFreq_errInfo (t : List (Word × Word)) : (s.storeFreq t).errInfo = s.errInfo := rfl
@[simp] theorem State.storeFreq_errPos (t : List (Word × Word)) : (s.storeFreq t).errPos = s.errPos := rfl
@[simp] theorem State.storeFreq_textLen (t : List (Word × Word)) : (s.storeFreq t).textLen = s.textLen := rfl
@[simp] theorem State.storeFreq_nsym (t : List (Word × Word)) : (s.storeFreq t).nsym = BitVec.ofNat 32 t.length := rfl
@[simp] theorem State.storeFreq_bitCount (t : List (Word × Word)) : (s.storeFreq t).bitCount = s.bitCount := rfl
@[simp] theorem State.storeFreq_byteCount (t : List (Word × Word)) : (s.storeFreq t).byteCount = s.byteCount := rfl
@[simp] theorem State.storeFreq_outLen (t : List (Word × Word)) : (s.storeFreq t).outLen = s.outLen := rfl
@[simp] theorem State.storeFreq_nnodes (t : List (Word × Word)) : (s.storeFreq t).nnodes = s.nnodes := rfl
@[simp] theorem State.storeFreq_root (t : List (Word × Word)) : (s.storeFreq t).root = s.root := rfl
@[simp] theorem State.storeFreq_cmapCount (t : List (Word × Word)) : (s.storeFreq t).cmapCount = s.cmapCount := rfl
@[simp] theorem State.storeFreq_pathLen (t : List (Word × Word)) : (s.storeFreq t).pathLen = s.pathLen := rfl
@[simp] theorem State.storeFreq_payFlags (t : List (Word × Word)) : (s.storeFreq t).payFlags = s.payFlags := rfl
@[simp] theorem State.storeFreq_payWeight (t : List (Word × Word)) : (s.storeFreq t).payWeight = s.payWeight := rfl
@[simp] theorem State.storeFreq_paySym (t : List (Word × Word)) : (s.storeFreq t).paySym = s.paySym := rfl
@[simp] theorem State.storeFreq_res (t : List (Word × Word)) : (s.storeFreq t).res = s.res := rfl
@[simp] theorem State.storeFreq_mem (t : List (Word × Word)) : (s.storeFreq t).mem = { s.mem with
      freqSym := Buf.storeAll s.mem.freqSym 0 (t.map Prod.fst)
      freqCount := Buf.storeAll s.mem.freqCount 0 (t.map Prod.snd) } := rfl
@[simp] theorem State.storeFreq_inbox (t : List (Word × Word)) : (s.storeFreq t).inbox = s.inbox := rfl
@[simp] theorem State.storeFreq_resp (t : List (Word × Word)) : (s.storeFreq t).resp = s.resp := rfl
@[simp] theorem State.storeFreq_draws (t : List (Word × Word)) : (s.storeFreq t).draws = s.draws := rfl

/-! ### abandonFreq -/

@[simp] theorem State.abandonFreq_cfg : (s.abandonFreq).cfg = s.cfg := rfl
@[simp] theorem State.abandonFreq_irqEn : (s.abandonFreq).irqEn = s.irqEn := rfl
@[simp] theorem State.abandonFreq_cmdLatch : (s.abandonFreq).cmdLatch = s.cmdLatch := rfl
@[simp] theorem State.abandonFreq_done : (s.abandonFreq).done = s.done := rfl
@[simp] theorem State.abandonFreq_ovr : (s.abandonFreq).ovr = s.ovr := rfl
@[simp] theorem State.abandonFreq_treeOk : (s.abandonFreq).treeOk = s.treeOk := rfl
@[simp] theorem State.abandonFreq_mapOk : (s.abandonFreq).mapOk = s.mapOk := rfl
@[simp] theorem State.abandonFreq_errCode : (s.abandonFreq).errCode = s.errCode := rfl
@[simp] theorem State.abandonFreq_errInfo : (s.abandonFreq).errInfo = s.errInfo := rfl
@[simp] theorem State.abandonFreq_errPos : (s.abandonFreq).errPos = s.errPos := rfl
@[simp] theorem State.abandonFreq_textLen : (s.abandonFreq).textLen = s.textLen := rfl
@[simp] theorem State.abandonFreq_nsym : (s.abandonFreq).nsym = 0 := rfl
@[simp] theorem State.abandonFreq_bitCount : (s.abandonFreq).bitCount = s.bitCount := rfl
@[simp] theorem State.abandonFreq_byteCount : (s.abandonFreq).byteCount = s.byteCount := rfl
@[simp] theorem State.abandonFreq_outLen : (s.abandonFreq).outLen = s.outLen := rfl
@[simp] theorem State.abandonFreq_nnodes : (s.abandonFreq).nnodes = s.nnodes := rfl
@[simp] theorem State.abandonFreq_root : (s.abandonFreq).root = s.root := rfl
@[simp] theorem State.abandonFreq_cmapCount : (s.abandonFreq).cmapCount = s.cmapCount := rfl
@[simp] theorem State.abandonFreq_pathLen : (s.abandonFreq).pathLen = s.pathLen := rfl
@[simp] theorem State.abandonFreq_payFlags : (s.abandonFreq).payFlags = s.payFlags := rfl
@[simp] theorem State.abandonFreq_payWeight : (s.abandonFreq).payWeight = s.payWeight := rfl
@[simp] theorem State.abandonFreq_paySym : (s.abandonFreq).paySym = s.paySym := rfl
@[simp] theorem State.abandonFreq_res : (s.abandonFreq).res = s.res := rfl
@[simp] theorem State.abandonFreq_mem : (s.abandonFreq).mem = { s.mem with freqSym := [], freqCount := [] } := rfl
@[simp] theorem State.abandonFreq_inbox : (s.abandonFreq).inbox = s.inbox := rfl
@[simp] theorem State.abandonFreq_resp : (s.abandonFreq).resp = s.resp := rfl
@[simp] theorem State.abandonFreq_draws : (s.abandonFreq).draws = s.draws := rfl

/-! ### abandonBits -/

@[simp] theorem State.abandonBits_cfg : (s.abandonBits).cfg = s.cfg := rfl
@[simp] theorem State.abandonBits_irqEn : (s.abandonBits).irqEn = s.irqEn := rfl
@[simp] theorem State.abandonBits_cmdLatch : (s.abandonBits).cmdLatch = s.cmdLatch := rfl
@[simp] theorem State.abandonBits_done : (s.abandonBits).done = s.done := rfl
@[simp] theorem State.abandonBits_ovr : (s.abandonBits).ovr = s.ovr := rfl
@[simp] theorem State.abandonBits_treeOk : (s.abandonBits).treeOk = s.treeOk := rfl
@[simp] theorem State.abandonBits_mapOk : (s.abandonBits).mapOk = s.mapOk := rfl
@[simp] theorem State.abandonBits_errCode : (s.abandonBits).errCode = s.errCode := rfl
@[simp] theorem State.abandonBits_errInfo : (s.abandonBits).errInfo = s.errInfo := rfl
@[simp] theorem State.abandonBits_errPos : (s.abandonBits).errPos = s.errPos := rfl
@[simp] theorem State.abandonBits_textLen : (s.abandonBits).textLen = s.textLen := rfl
@[simp] theorem State.abandonBits_nsym : (s.abandonBits).nsym = s.nsym := rfl
@[simp] theorem State.abandonBits_bitCount : (s.abandonBits).bitCount = 0 := rfl
@[simp] theorem State.abandonBits_byteCount : (s.abandonBits).byteCount = s.byteCount := rfl
@[simp] theorem State.abandonBits_outLen : (s.abandonBits).outLen = s.outLen := rfl
@[simp] theorem State.abandonBits_nnodes : (s.abandonBits).nnodes = s.nnodes := rfl
@[simp] theorem State.abandonBits_root : (s.abandonBits).root = s.root := rfl
@[simp] theorem State.abandonBits_cmapCount : (s.abandonBits).cmapCount = s.cmapCount := rfl
@[simp] theorem State.abandonBits_pathLen : (s.abandonBits).pathLen = s.pathLen := rfl
@[simp] theorem State.abandonBits_payFlags : (s.abandonBits).payFlags = s.payFlags := rfl
@[simp] theorem State.abandonBits_payWeight : (s.abandonBits).payWeight = s.payWeight := rfl
@[simp] theorem State.abandonBits_paySym : (s.abandonBits).paySym = s.paySym := rfl
@[simp] theorem State.abandonBits_res : (s.abandonBits).res = s.res := rfl
@[simp] theorem State.abandonBits_mem : (s.abandonBits).mem = { s.mem with bit := [] } := rfl
@[simp] theorem State.abandonBits_inbox : (s.abandonBits).inbox = s.inbox := rfl
@[simp] theorem State.abandonBits_resp : (s.abandonBits).resp = s.resp := rfl
@[simp] theorem State.abandonBits_draws : (s.abandonBits).draws = s.draws := rfl

/-! ### abandonOut -/

@[simp] theorem State.abandonOut_cfg : (s.abandonOut).cfg = s.cfg := rfl
@[simp] theorem State.abandonOut_irqEn : (s.abandonOut).irqEn = s.irqEn := rfl
@[simp] theorem State.abandonOut_cmdLatch : (s.abandonOut).cmdLatch = s.cmdLatch := rfl
@[simp] theorem State.abandonOut_done : (s.abandonOut).done = s.done := rfl
@[simp] theorem State.abandonOut_ovr : (s.abandonOut).ovr = s.ovr := rfl
@[simp] theorem State.abandonOut_treeOk : (s.abandonOut).treeOk = s.treeOk := rfl
@[simp] theorem State.abandonOut_mapOk : (s.abandonOut).mapOk = s.mapOk := rfl
@[simp] theorem State.abandonOut_errCode : (s.abandonOut).errCode = s.errCode := rfl
@[simp] theorem State.abandonOut_errInfo : (s.abandonOut).errInfo = s.errInfo := rfl
@[simp] theorem State.abandonOut_errPos : (s.abandonOut).errPos = s.errPos := rfl
@[simp] theorem State.abandonOut_textLen : (s.abandonOut).textLen = s.textLen := rfl
@[simp] theorem State.abandonOut_nsym : (s.abandonOut).nsym = s.nsym := rfl
@[simp] theorem State.abandonOut_bitCount : (s.abandonOut).bitCount = s.bitCount := rfl
@[simp] theorem State.abandonOut_byteCount : (s.abandonOut).byteCount = s.byteCount := rfl
@[simp] theorem State.abandonOut_outLen : (s.abandonOut).outLen = 0 := rfl
@[simp] theorem State.abandonOut_nnodes : (s.abandonOut).nnodes = s.nnodes := rfl
@[simp] theorem State.abandonOut_root : (s.abandonOut).root = s.root := rfl
@[simp] theorem State.abandonOut_cmapCount : (s.abandonOut).cmapCount = s.cmapCount := rfl
@[simp] theorem State.abandonOut_pathLen : (s.abandonOut).pathLen = s.pathLen := rfl
@[simp] theorem State.abandonOut_payFlags : (s.abandonOut).payFlags = s.payFlags := rfl
@[simp] theorem State.abandonOut_payWeight : (s.abandonOut).payWeight = s.payWeight := rfl
@[simp] theorem State.abandonOut_paySym : (s.abandonOut).paySym = s.paySym := rfl
@[simp] theorem State.abandonOut_res : (s.abandonOut).res = s.res := rfl
@[simp] theorem State.abandonOut_mem : (s.abandonOut).mem = { s.mem with out := [] } := rfl
@[simp] theorem State.abandonOut_inbox : (s.abandonOut).inbox = s.inbox := rfl
@[simp] theorem State.abandonOut_resp : (s.abandonOut).resp = s.resp := rfl
@[simp] theorem State.abandonOut_draws : (s.abandonOut).draws = s.draws := rfl

/-! ### storeMap -/

@[simp] theorem State.storeMap_cfg (m : List Code) : (s.storeMap m).cfg = s.cfg := rfl
@[simp] theorem State.storeMap_irqEn (m : List Code) : (s.storeMap m).irqEn = s.irqEn := rfl
@[simp] theorem State.storeMap_cmdLatch (m : List Code) : (s.storeMap m).cmdLatch = s.cmdLatch := rfl
@[simp] theorem State.storeMap_done (m : List Code) : (s.storeMap m).done = s.done := rfl
@[simp] theorem State.storeMap_ovr (m : List Code) : (s.storeMap m).ovr = s.ovr := rfl
@[simp] theorem State.storeMap_treeOk (m : List Code) : (s.storeMap m).treeOk = s.treeOk := rfl
@[simp] theorem State.storeMap_mapOk (m : List Code) : (s.storeMap m).mapOk = true := rfl
@[simp] theorem State.storeMap_errCode (m : List Code) : (s.storeMap m).errCode = s.errCode := rfl
@[simp] theorem State.storeMap_errInfo (m : List Code) : (s.storeMap m).errInfo = s.errInfo := rfl
@[simp] theorem State.storeMap_errPos (m : List Code) : (s.storeMap m).errPos = s.errPos := rfl
@[simp] theorem State.storeMap_textLen (m : List Code) : (s.storeMap m).textLen = s.textLen := rfl
@[simp] theorem State.storeMap_nsym (m : List Code) : (s.storeMap m).nsym = s.nsym := rfl
@[simp] theorem State.storeMap_bitCount (m : List Code) : (s.storeMap m).bitCount = s.bitCount := rfl
@[simp] theorem State.storeMap_byteCount (m : List Code) : (s.storeMap m).byteCount = s.byteCount := rfl
@[simp] theorem State.storeMap_outLen (m : List Code) : (s.storeMap m).outLen = s.outLen := rfl
@[simp] theorem State.storeMap_nnodes (m : List Code) : (s.storeMap m).nnodes = s.nnodes := rfl
@[simp] theorem State.storeMap_root (m : List Code) : (s.storeMap m).root = s.root := rfl
@[simp] theorem State.storeMap_cmapCount (m : List Code) : (s.storeMap m).cmapCount = BitVec.ofNat 32 m.length := rfl
@[simp] theorem State.storeMap_pathLen (m : List Code) : (s.storeMap m).pathLen = s.pathLen := rfl
@[simp] theorem State.storeMap_payFlags (m : List Code) : (s.storeMap m).payFlags = s.payFlags := rfl
@[simp] theorem State.storeMap_payWeight (m : List Code) : (s.storeMap m).payWeight = s.payWeight := rfl
@[simp] theorem State.storeMap_paySym (m : List Code) : (s.storeMap m).paySym = s.paySym := rfl
@[simp] theorem State.storeMap_res (m : List Code) : (s.storeMap m).res = s.res := rfl
@[simp] theorem State.storeMap_mem (m : List Code) : (s.storeMap m).mem = { s.mem with cmap := Buf.storeAll s.mem.cmap 0 (m.map (cmapEntry s.cfg.codeCap)) } := rfl
@[simp] theorem State.storeMap_inbox (m : List Code) : (s.storeMap m).inbox = s.inbox := rfl
@[simp] theorem State.storeMap_resp (m : List Code) : (s.storeMap m).resp = s.resp := rfl
@[simp] theorem State.storeMap_draws (m : List Code) : (s.storeMap m).draws = s.draws := rfl

/-! ### storeBits -/

@[simp] theorem State.storeBits_cfg (bits : List Bool) : (s.storeBits bits).cfg = s.cfg := rfl
@[simp] theorem State.storeBits_irqEn (bits : List Bool) : (s.storeBits bits).irqEn = s.irqEn := rfl
@[simp] theorem State.storeBits_cmdLatch (bits : List Bool) : (s.storeBits bits).cmdLatch = s.cmdLatch := rfl
@[simp] theorem State.storeBits_done (bits : List Bool) : (s.storeBits bits).done = s.done := rfl
@[simp] theorem State.storeBits_ovr (bits : List Bool) : (s.storeBits bits).ovr = s.ovr := rfl
@[simp] theorem State.storeBits_treeOk (bits : List Bool) : (s.storeBits bits).treeOk = s.treeOk := rfl
@[simp] theorem State.storeBits_mapOk (bits : List Bool) : (s.storeBits bits).mapOk = s.mapOk := rfl
@[simp] theorem State.storeBits_errCode (bits : List Bool) : (s.storeBits bits).errCode = s.errCode := rfl
@[simp] theorem State.storeBits_errInfo (bits : List Bool) : (s.storeBits bits).errInfo = s.errInfo := rfl
@[simp] theorem State.storeBits_errPos (bits : List Bool) : (s.storeBits bits).errPos = s.errPos := rfl
@[simp] theorem State.storeBits_textLen (bits : List Bool) : (s.storeBits bits).textLen = s.textLen := rfl
@[simp] theorem State.storeBits_nsym (bits : List Bool) : (s.storeBits bits).nsym = s.nsym := rfl
@[simp] theorem State.storeBits_bitCount (bits : List Bool) : (s.storeBits bits).bitCount = BitVec.ofNat 32 bits.length := rfl
@[simp] theorem State.storeBits_byteCount (bits : List Bool) : (s.storeBits bits).byteCount = s.byteCount := rfl
@[simp] theorem State.storeBits_outLen (bits : List Bool) : (s.storeBits bits).outLen = s.outLen := rfl
@[simp] theorem State.storeBits_nnodes (bits : List Bool) : (s.storeBits bits).nnodes = s.nnodes := rfl
@[simp] theorem State.storeBits_root (bits : List Bool) : (s.storeBits bits).root = s.root := rfl
@[simp] theorem State.storeBits_cmapCount (bits : List Bool) : (s.storeBits bits).cmapCount = s.cmapCount := rfl
@[simp] theorem State.storeBits_pathLen (bits : List Bool) : (s.storeBits bits).pathLen = s.pathLen := rfl
@[simp] theorem State.storeBits_payFlags (bits : List Bool) : (s.storeBits bits).payFlags = s.payFlags := rfl
@[simp] theorem State.storeBits_payWeight (bits : List Bool) : (s.storeBits bits).payWeight = s.payWeight := rfl
@[simp] theorem State.storeBits_paySym (bits : List Bool) : (s.storeBits bits).paySym = s.paySym := rfl
@[simp] theorem State.storeBits_res (bits : List Bool) : (s.storeBits bits).res = s.res := rfl
@[simp] theorem State.storeBits_mem (bits : List Bool) : (s.storeBits bits).mem = { s.mem with bit := Buf.storeAll s.mem.bit 0 bits } := rfl
@[simp] theorem State.storeBits_inbox (bits : List Bool) : (s.storeBits bits).inbox = s.inbox := rfl
@[simp] theorem State.storeBits_resp (bits : List Bool) : (s.storeBits bits).resp = s.resp := rfl
@[simp] theorem State.storeBits_draws (bits : List Bool) : (s.storeBits bits).draws = s.draws := rfl

/-! ### construct -/

@[simp] theorem State.construct_cfg (t : Table) : (s.construct t).cfg = s.cfg := rfl
@[simp] theorem State.construct_irqEn (t : Table) : (s.construct t).irqEn = s.irqEn := rfl
@[simp] theorem State.construct_cmdLatch (t : Table) : (s.construct t).cmdLatch = s.cmdLatch := rfl
@[simp] theorem State.construct_done (t : Table) : (s.construct t).done = s.done := rfl
@[simp] theorem State.construct_ovr (t : Table) : (s.construct t).ovr = s.ovr := rfl
@[simp] theorem State.construct_treeOk (t : Table) : (s.construct t).treeOk = true := rfl
@[simp] theorem State.construct_mapOk (t : Table) : (s.construct t).mapOk = false := rfl
@[simp] theorem State.construct_errCode (t : Table) : (s.construct t).errCode = s.errCode := rfl
@[simp] theorem State.construct_errInfo (t : Table) : (s.construct t).errInfo = s.errInfo := rfl
@[simp] theorem State.construct_errPos (t : Table) : (s.construct t).errPos = s.errPos := rfl
@[simp] theorem State.construct_textLen (t : Table) : (s.construct t).textLen = s.textLen := rfl
@[simp] theorem State.construct_nsym (t : Table) : (s.construct t).nsym = s.nsym := rfl
@[simp] theorem State.construct_bitCount (t : Table) : (s.construct t).bitCount = s.bitCount := rfl
@[simp] theorem State.construct_byteCount (t : Table) : (s.construct t).byteCount = s.byteCount := rfl
@[simp] theorem State.construct_outLen (t : Table) : (s.construct t).outLen = s.outLen := rfl
@[simp] theorem State.construct_nnodes (t : Table) : (s.construct t).nnodes = BitVec.ofNat 32 (builtNodes t).length := rfl
@[simp] theorem State.construct_root (t : Table) : (s.construct t).root = BitVec.ofNat 32 ((builtNodes t).length - 1) := rfl
@[simp] theorem State.construct_cmapCount (t : Table) : (s.construct t).cmapCount = 0 := rfl
@[simp] theorem State.construct_pathLen (t : Table) : (s.construct t).pathLen = s.pathLen := rfl
@[simp] theorem State.construct_payFlags (t : Table) : (s.construct t).payFlags = s.payFlags := rfl
@[simp] theorem State.construct_payWeight (t : Table) : (s.construct t).payWeight = s.payWeight := rfl
@[simp] theorem State.construct_paySym (t : Table) : (s.construct t).paySym = s.paySym := rfl
@[simp] theorem State.construct_res (t : Table) : (s.construct t).res = s.res := rfl
@[simp] theorem State.construct_mem (t : Table) : (s.construct t).mem = { s.mem with node := Buf.storeAll s.mem.node 0 (builtNodes t) } := rfl
@[simp] theorem State.construct_inbox (t : Table) : (s.construct t).inbox = s.inbox := rfl
@[simp] theorem State.construct_resp (t : Table) : (s.construct t).resp = s.resp := rfl
@[simp] theorem State.construct_draws (t : Table) : (s.construct t).draws = s.draws := rfl

/-! ### accept -/

@[simp] theorem State.accept_cfg (c : Word) : (s.accept c).cfg = s.cfg := rfl
@[simp] theorem State.accept_irqEn (c : Word) : (s.accept c).irqEn = s.irqEn := rfl
@[simp] theorem State.accept_cmdLatch (c : Word) : (s.accept c).cmdLatch = some c := rfl
@[simp] theorem State.accept_done (c : Word) : (s.accept c).done = false := rfl
@[simp] theorem State.accept_ovr (c : Word) : (s.accept c).ovr = s.ovr := rfl
@[simp] theorem State.accept_treeOk (c : Word) : (s.accept c).treeOk = s.treeOk := rfl
@[simp] theorem State.accept_mapOk (c : Word) : (s.accept c).mapOk = s.mapOk := rfl
@[simp] theorem State.accept_errCode (c : Word) : (s.accept c).errCode = 0 := rfl
@[simp] theorem State.accept_errInfo (c : Word) : (s.accept c).errInfo = 0 := rfl
@[simp] theorem State.accept_errPos (c : Word) : (s.accept c).errPos = 0 := rfl
@[simp] theorem State.accept_textLen (c : Word) : (s.accept c).textLen = s.textLen := rfl
@[simp] theorem State.accept_nsym (c : Word) : (s.accept c).nsym = s.nsym := rfl
@[simp] theorem State.accept_bitCount (c : Word) : (s.accept c).bitCount = s.bitCount := rfl
@[simp] theorem State.accept_byteCount (c : Word) : (s.accept c).byteCount = s.byteCount := rfl
@[simp] theorem State.accept_outLen (c : Word) : (s.accept c).outLen = s.outLen := rfl
@[simp] theorem State.accept_nnodes (c : Word) : (s.accept c).nnodes = s.nnodes := rfl
@[simp] theorem State.accept_root (c : Word) : (s.accept c).root = s.root := rfl
@[simp] theorem State.accept_cmapCount (c : Word) : (s.accept c).cmapCount = s.cmapCount := rfl
@[simp] theorem State.accept_pathLen (c : Word) : (s.accept c).pathLen = s.pathLen := rfl
@[simp] theorem State.accept_payFlags (c : Word) : (s.accept c).payFlags = s.payFlags := rfl
@[simp] theorem State.accept_payWeight (c : Word) : (s.accept c).payWeight = s.payWeight := rfl
@[simp] theorem State.accept_paySym (c : Word) : (s.accept c).paySym = s.paySym := rfl
@[simp] theorem State.accept_res (c : Word) : (s.accept c).res = s.res := rfl
@[simp] theorem State.accept_mem (c : Word) : (s.accept c).mem = s.mem := rfl
@[simp] theorem State.accept_inbox (c : Word) : (s.accept c).inbox = s.inbox := rfl
@[simp] theorem State.accept_resp (c : Word) : (s.accept c).resp = s.resp := rfl
@[simp] theorem State.accept_draws (c : Word) : (s.accept c).draws = s.draws := rfl

/-! ### BUSY and completion -/

@[simp] theorem State.complete_busy (code : BitVec 8) (info pos : Word) : (s.complete code info pos).busy = false := rfl

@[simp] theorem State.accept_busy (c : Word) : (s.accept c).busy = true := rfl

/-- Only the last completion counts. -/
@[simp] theorem State.complete_complete (c c' : BitVec 8) (i i' p p' : Word) :
    (s.complete c i p).complete c' i' p' = s.complete c' i' p' := rfl

@[simp] theorem State.complete_storeArena (c : BitVec 8) (i p : Word) (arena : Buf Node) (n : Word) :
    (s.complete c i p).storeArena arena n = (s.storeArena arena n).complete c i p := rfl

@[simp] theorem State.complete_construct (c : BitVec 8) (i p : Word) (t : Table) :
    (s.complete c i p).construct t = (s.construct t).complete c i p := rfl

@[simp] theorem State.complete_storeMap (c : BitVec 8) (i p : Word) (m : List Code) :
    (s.complete c i p).storeMap m = (s.storeMap m).complete c i p := rfl

@[simp] theorem State.complete_storeBits (c : BitVec 8) (i p : Word) (bits : List Bool) :
    (s.complete c i p).storeBits bits = (s.storeBits bits).complete c i p := rfl

@[simp] theorem State.complete_abandonBits (c : BitVec 8) (i p : Word) :
    (s.complete c i p).abandonBits = s.abandonBits.complete c i p := rfl

@[simp] theorem State.complete_abandonOut (c : BitVec 8) (i p : Word) :
    (s.complete c i p).abandonOut = s.abandonOut.complete c i p := rfl

@[simp] theorem State.complete_setRes (c : BitVec 8) (i p : Word) (r : Payload) :
    (s.complete c i p).setRes r = (s.setRes r).complete c i p := rfl

end Sys2Proof.Machine
end

