-- ==== Sys2Proof/Laws/Ops.lean ====
section
/-! SUPPORT. One lemma per shared operation that says what it can do. -/

namespace Sys2Proof.Machine

variable {α β : Type}

/-! ## Results -/

theorem Res.map_ok {f : α → β} {r : Res α} {b : β} : r.map f = .ok b ↔ ∃ a, r = .ok a ∧ f a = b := by
  cases r <;> simp [Res.map]

theorem Res.map_err {f : α → β} {r : Res α} {e : Err} : r.map f = .err e ↔ r = .err e := by
  cases r <;> simp [Res.map]

theorem Res.map_fault {f : α → β} {r : Res α} {x : Fault} : r.map f = .fault x ↔ r = .fault x := by
  cases r <;> simp [Res.map]

@[simp] theorem Res.map_ok_eq (f : α → β) (a : α) : (Res.ok a).map f = .ok (f a) := rfl

@[simp] theorem Res.map_err_eq (f : α → β) (e : Err) : (Res.err e : Res α).map f = .err e := rfl

@[simp] theorem Res.map_fault_eq (f : α → β) (x : Fault) : (Res.fault x : Res α).map f = .fault x := rfl

/-! ## Nodes and the arena -/

theorem loadNode_ok {arena : Buf Node} {k : Word} {n : Node} :
    loadNode arena k = .ok n ↔ Buf.load arena k.toNat = some n := by
  unfold loadNode
  cases Buf.load arena k.toNat <;> simp

theorem loadNode_of_load {arena : Buf Node} {k : Word} {n : Node} (h : Buf.load arena k.toNat = some n) :
    loadNode arena k = .ok n := loadNode_ok.2 h

/-- Reading a node raises no error. -/
theorem loadNode_not_err {arena : Buf Node} {k : Word} {e : Err} : loadNode arena k ≠ .err e := by
  unfold loadNode
  cases Buf.load arena k.toNat <;> simp

/-- Reading a node is a fault exactly when it is unspecified. -/
theorem loadNode_fault {arena : Buf Node} {k : Word} {f : Fault} :
    loadNode arena k = .fault f ↔ Buf.load arena k.toNat = .none ∧ f = .unspecifiedOperand .node k.toNat := by
  unfold loadNode
  cases Buf.load arena k.toNat <;> simp [eq_comm]

@[simp] theorem Node.fresh_child (p : Payload) (d : Bool) : (Node.fresh p).child d = .none := by
  cases d <;> rfl

theorem Node.child_setChild (n : Node) (d d' : Bool) (k : Word) :
    (n.setChild d k).child d' = if d' = d then some k else n.child d' := by
  cases d <;> cases d' <;> simp [Node.setChild, Node.child]

@[simp] theorem Node.payload_setChild (n : Node) (d : Bool) (k : Word) : (n.setChild d k).payload = n.payload := by
  cases d <;> rfl

@[simp] theorem Node.child_setPayload (n : Node) (p : Payload) (d : Bool) :
    ({ n with payload := p } : Node).child d = n.child d := rfl

/-- What `link` gives: the parent with its new child, every other entry as before. -/
theorem link_ok {arena arena' : Buf Node} {parent k : Word} {d : Bool} :
    link arena parent d k = .ok arena' ↔
      ∃ n, Buf.load arena parent.toNat = some n ∧ arena' = Buf.store arena parent.toNat (n.setChild d k) := by
  unfold link
  rw [Res.map_ok]
  simp only [loadNode_ok, eq_comm]

/-- What `alloc` and `link` give for an allocated parent: the new entry fresh, the parent with its new child, every other
entry as before. -/
theorem allocLinked_ok {arena arena' : Buf Node} {nn parent : Word} {d : Bool} {p : Payload} (hne : parent ≠ nn) :
    allocLinked arena nn parent d p = .ok arena' ↔
      ∃ n, Buf.load arena parent.toNat = some n ∧
        arena' = Buf.store (Buf.store arena nn.toNat (Node.fresh p)) parent.toNat (n.setChild d nn) := by
  have h : parent.toNat ≠ nn.toNat := fun h => hne (BitVec.eq_of_toNat_eq h)
  unfold allocLinked
  rw [link_ok]
  simp only [Buf.load_store_ne _ _ h]

theorem allocLinked_not_err {arena : Buf Node} {nn parent : Word} {d : Bool} {p : Payload} {e : Err} :
    allocLinked arena nn parent d p ≠ .err e := by
  unfold allocLinked link
  rw [Ne, Res.map_err]
  exact loadNode_not_err

/-! ## Operands -/

/-- Reading a whole operand gives its values exactly when all are specified. -/
theorem readAll_ok {b : Buffer} {i : Nat} {l : List (Option α)} {vs : List α} :
    readAll b i l = .ok vs ↔ l = vs.map some := by
  induction l generalizing i vs with
  | nil => cases vs <;> simp [readAll]
  | cons x rest ih =>
    cases x with
    | none => cases vs <;> simp [readAll]
    | some v =>
      simp only [readAll]
      rw [Res.map_ok]
      constructor
      · rintro ⟨ws, h, rfl⟩
        simp [ih.1 h]
      · intro h
        cases vs with
        | nil => simp at h
        | cons w ws =>
          simp only [List.map_cons, List.cons.injEq, Option.some.injEq] at h
          exact ⟨ws, ih.2 h.2, by rw [h.1]⟩

theorem readAll_not_err {b : Buffer} {i : Nat} {l : List (Option α)} {e : Err} : readAll b i l ≠ .err e := by
  induction l generalizing i with
  | nil => simp [readAll]
  | cons x rest ih =>
    cases x with
    | none => simp [readAll]
    | some v =>
      simp only [readAll, Ne]
      rw [Res.map_err]
      exact ih

/-- A prefix of values, then an unspecified element: the fault names that element. -/
theorem readAll_fault {b : Buffer} {i : Nat} {vs : List α} {rest : List (Option α)} :
    readAll b i (vs.map some ++ .none :: rest) = .fault (.unspecifiedOperand b (i + vs.length)) := by
  induction vs generalizing i with
  | nil => simp [readAll]
  | cons v vs ih =>
    simp only [List.map_cons, List.cons_append, readAll, ih, Res.map_fault_eq, List.length_cons]
    congr 2
    omega

/-- A buffer that holds `vs` gives them as its operand. -/
theorem Buf.slice_of_holds {b : Buf α} {vs : List α} {n : Nat} (hn : vs.length = n) (h : Buf.holds b vs) :
    Buf.slice b 0 n = vs.map some := Buf.slice_eq_map_some b vs n hn h

/-- An operand longer than what a buffer holds: the values, then the rest. -/
theorem Buf.slice_append (b : Buf α) (i m n : Nat) :
    Buf.slice b i (m + n) = Buf.slice b i m ++ Buf.slice b (i + m) n := by
  induction m generalizing i with
  | zero => simp [Buf.slice]
  | succ m ih =>
    have : m + 1 + n = (m + n) + 1 := by omega
    rw [this]
    simp only [Buf.slice, ih, List.cons_append]
    congr 3
    omega

/-- The operand from index 0, its first `vs.length` elements held. -/
theorem Buf.slice_of_holds_prefix {b : Buf α} {vs : List α} {n : Nat} (h : Buf.holds b vs) (hn : vs.length < n) :
    Buf.slice b 0 n = vs.map some ++ Buf.load b vs.length :: Buf.slice b (vs.length + 1) (n - vs.length - 1) := by
  have e : n = vs.length + ((n - vs.length - 1) + 1) := by omega
  conv_lhs => rw [e]
  rw [Buf.slice_append, Buf.slice_of_holds rfl h, Nat.zero_add]
  rfl

/-- What a slice of values says of the buffer. -/
theorem Buf.holds_of_slice {b : Buf α} {vs : List α} {n : Nat} (h : Buf.slice b 0 n = vs.map some) :
    vs.length = n ∧ Buf.holds b vs := by
  have hl : vs.length = n := by
    have := congrArg List.length h
    simpa using this.symm
  refine ⟨hl, fun j hj => ?_⟩
  have h1 : j < (Buf.slice b 0 n).length := by rw [Buf.length_slice]; omega
  have := Buf.getElem_slice b 0 n j h1
  rw [Nat.zero_add] at this
  rw [← this]
  simp [h]

theorem Buf.holds_storeAll (b : Buf α) (vs : List α) : Buf.holds (Buf.storeAll b 0 vs) vs :=
  fun j hj => Buf.load_storeAll_inside b vs j hj

/-- A specified operand is a list of values. -/
theorem Buf.specified_iff {b : Buf α} {n : Nat} :
    Buf.specified b n ↔ ∃ vs : List α, vs.length = n ∧ Buf.holds b vs := by
  constructor
  · intro h
    refine ⟨(List.finRange n).map fun (i : Fin n) => (Buf.load b i.1).get (h i.1 i.2), by simp, fun j hj => ?_⟩
    simp
  · rintro ⟨vs, rfl, h⟩ i hi
    rw [h i hi]
    rfl

/-! ## Digits -/

/-- Valid digit words are read as the path they spell. -/
theorem checkDigits_digitWords (j : Nat) (ds : List Bool) (rest : List (Option Word)) :
    checkDigits j ((digitWords ds).map some ++ rest) = (checkDigits (j + ds.length) rest).map (ds ++ ·) := by
  induction ds generalizing j with
  | nil =>
    simp only [digitWords, List.map_nil, List.nil_append, List.length_nil, Nat.add_zero]
    cases checkDigits j rest <;> rfl
  | cons d ds ih =>
    have hj : j + (ds.length + 1) = j + 1 + ds.length := by omega
    simp only [digitWords] at ih
    cases d
    · simp only [digitWords, List.map_cons, Bool.false_eq_true, if_false, List.cons_append, checkDigits, if_true, ih,
        List.length_cons, hj]
      cases checkDigits (j + 1 + ds.length) rest <;> simp
    · simp only [digitWords, List.map_cons, if_true, List.cons_append, checkDigits, List.length_cons, hj]
      rw [if_neg (by decide), ih]
      cases checkDigits (j + 1 + ds.length) rest <;> simp

/-- The digits read are the digit words of the operand. -/
theorem checkDigits_ok {j : Nat} {l : List (Option Word)} {ds : List Bool} :
    checkDigits j l = .ok ds ↔ l = (digitWords ds).map some := by
  constructor
  · intro h
    induction l generalizing j ds with
    | nil =>
      simp only [checkDigits, Res.ok.injEq] at h
      subst h
      rfl
    | cons x rest ih =>
      cases x with
      | none => simp [checkDigits] at h
      | some w =>
        simp only [checkDigits] at h
        split at h
        · rw [Res.map_ok] at h
          obtain ⟨es, he, rfl⟩ := h
          rw [ih he]
          simp_all [digitWords]
        · split at h
          · rw [Res.map_ok] at h
            obtain ⟨es, he, rfl⟩ := h
            rw [ih he]
            simp_all [digitWords]
          · simp at h
  · rintro rfl
    have := checkDigits_digitWords j ds []
    simpa [checkDigits] using this

/-! ## Completion and normal payloads -/

theorem norm_normal (o v : Bool) (w x : Word) : (norm o v w x).normal = true := by
  cases o <;> cases v <;> simp [norm, Payload.normal, Payload.none]

@[simp] theorem Payload.none_normal : Payload.none.normal = true := by decide

theorem State.pay_normal (s : State) : s.pay.normal = true := norm_normal _ _ _ _

theorem ErrorKind.code_ne_zero (k : ErrorKind) : k.code ≠ 0 := by cases k <;> decide

theorem ErrorKind.code_le (k : ErrorKind) : k.code.toNat ≤ 0x0C := by cases k <;> decide

end Sys2Proof.Machine
end

