-- ==== Sys2Proof/Laws/Tree.lean ====
section
/-! SUPPORT. Walks, creation of paths, and the forest of the arena. -/

namespace Sys2Proof.Machine

/-! ## Links -/

theorem childIs_store {arena : Buf Node} {k j : Nat} {n : Node} {d : Bool} {c : Word} :
    childIs (Buf.store arena k n) j d c ↔ if j = k then n.child d = some c else childIs arena j d c := by
  unfold childIs
  rw [Buf.load_store]
  split <;> simp

theorem childIs_unique {arena : Buf Node} {k : Nat} {d : Bool} {c c' : Word} (h : childIs arena k d c)
    (h' : childIs arena k d c') : c = c' := by
  obtain ⟨n, hn, hc⟩ := h
  obtain ⟨n', hn', hc'⟩ := h'
  rw [hn] at hn'
  cases hn'
  rw [hc] at hc'
  exact Option.some.inj hc'

/-! ## Walks -/

theorem nodeAt_ok {arena : Buf Node} {cur e : Word} {j : Nat} {ds : List Bool} :
    nodeAt arena cur j ds = .ok e ↔ PathTo arena cur ds e := by
  induction ds generalizing cur j with
  | nil => simp [nodeAt, PathTo]
  | cons d ds ih =>
    simp only [nodeAt, PathTo]
    cases hl : loadNode arena cur with
    | ok n =>
      rw [loadNode_ok] at hl
      cases hc : n.child d with
      | none => simp [childIs, hl, hc]
      | some c => simp [childIs, hl, hc, ih]
    | err e => exact absurd hl loadNode_not_err
    | fault f =>
      rw [loadNode_fault] at hl
      simp [childIs, hl.1]

theorem PathTo.append {arena : Buf Node} {k m e : Word} {p q : List Bool} (hp : PathTo arena k p m)
    (hq : PathTo arena m q e) : PathTo arena k (p ++ q) e := by
  induction p generalizing k with
  | nil => cases hp; exact hq
  | cons d ds ih =>
    obtain ⟨c, hc, h⟩ := hp
    exact ⟨c, hc, ih h⟩

theorem PathTo.split {arena : Buf Node} {k e : Word} {p q : List Bool} (h : PathTo arena k (p ++ q) e) :
    ∃ m, PathTo arena k p m ∧ PathTo arena m q e := by
  induction p generalizing k with
  | nil => exact ⟨k, rfl, h⟩
  | cons d ds ih =>
    obtain ⟨c, hc, h⟩ := h
    obtain ⟨m, h1, h2⟩ := ih h
    exact ⟨m, ⟨c, hc, h1⟩, h2⟩

theorem PathTo.unique {arena : Buf Node} {k e e' : Word} {p : List Bool} (h : PathTo arena k p e)
    (h' : PathTo arena k p e') : e = e' := by
  induction p generalizing k with
  | nil => cases h; exact h'
  | cons d ds ih =>
    obtain ⟨c, hc, h⟩ := h
    obtain ⟨c', hc', h'⟩ := h'
    cases childIs_unique hc hc'
    exact ih h h'

theorem childIs.unique {arena : Buf Node} {k : Nat} {d : Bool} {c c' : Word} (h : childIs arena k d c)
    (h' : childIs arena k d c') : c = c' := by
  obtain ⟨n, hn, hc⟩ := h
  obtain ⟨n', hn', hc'⟩ := h'
  rw [hn] at hn'
  cases hn'
  rw [hc] at hc'
  exact Option.some.inj hc'

/-- The recursive form of tree equality (41_tree.md R190). -/
theorem treesEqual_iff {A B : Buf Node} {a b : Word} : TreesEqual A a B b ↔ payloadOf A a = payloadOf B b ∧
    ∀ d, (∀ c, childIs A a.toNat d c → ∃ c', childIs B b.toNat d c' ∧ TreesEqual A c B c') ∧
      ∀ c', childIs B b.toNat d c' → ∃ c, childIs A a.toNat d c := by
  constructor
  · intro h
    refine ⟨?_, fun d => ⟨fun c hc => ?_, fun c' hc' => ?_⟩⟩
    · obtain ⟨c', hc', hp⟩ := (h []).1 a rfl
      cases hc'
      exact hp
    · obtain ⟨_, ⟨k, hk, -⟩, -⟩ := (h [d]).1 c ⟨c, hc, rfl⟩
      refine ⟨k, hk, fun ds => ⟨fun e he => ?_, fun e' he' => ?_⟩⟩
      · obtain ⟨e', ⟨k', hk', he'⟩, hp⟩ := (h (d :: ds)).1 e ⟨c, hc, he⟩
        exact ⟨e', hk'.unique hk ▸ he', hp⟩
      · obtain ⟨e, k', hk', he⟩ := (h (d :: ds)).2 e' ⟨k, hk, he'⟩
        exact ⟨e, hk'.unique hc ▸ he⟩
    · obtain ⟨-, k, hk, -⟩ := (h [d]).2 c' ⟨c', hc', rfl⟩
      exact ⟨k, hk⟩
  · rintro ⟨hp, h⟩ ds
    cases ds with
    | nil => exact ⟨fun c hc => ⟨b, rfl, by cases hc; exact hp⟩, fun _ _ => ⟨a, rfl⟩⟩
    | cons d ds =>
      constructor
      · rintro c ⟨k, hk, hc⟩
        obtain ⟨k', hk', heq⟩ := (h d).1 k hk
        obtain ⟨c', hc', hpc⟩ := (heq ds).1 c hc
        exact ⟨c', ⟨k', hk', hc'⟩, hpc⟩
      · rintro c' ⟨k', hk', hc'⟩
        obtain ⟨k, hk⟩ := (h d).2 k' hk'
        obtain ⟨k'', hk'', heq⟩ := (h d).1 k hk
        obtain ⟨c, hc⟩ := (heq ds).2 c' (hk''.unique hk' ▸ hc')
        exact ⟨c, k, hk, hc⟩

/-- The walk of TGETP stops at the first missing child, with its digit and step. -/
theorem nodeAt_err {arena : Buf Node} {cur k : Word} {j : Nat} {pre : List Bool} {d : Bool} {post : List Bool}
    {n : Node} (hp : PathTo arena cur pre k) (hn : Buf.load arena k.toNat = some n) (hd : n.child d = .none) :
    nodeAt arena cur j (pre ++ d :: post) =
      .err { kind := .outOfBounds, info := if d then 1 else 0, pos := BitVec.ofNat 32 (j + pre.length) } := by
  induction pre generalizing cur j with
  | nil =>
    cases hp
    simp [nodeAt, loadNode_of_load hn, hd]
  | cons b bs ih =>
    obtain ⟨c, ⟨m, hm, hc⟩, h⟩ := hp
    simp only [List.cons_append, nodeAt, loadNode_of_load hm, hc, ih h, List.length_cons]
    congr 3
    omega

/-- The count of TSETP: the steps after the existing part of the path. -/
theorem missingNodes_path {arena : Buf Node} {cur a : Word} {pre post : List Bool} {n : Node}
    (hp : PathTo arena cur pre a) (hn : Buf.load arena a.toNat = some n)
    (hd : ∀ d rest, post = d :: rest → n.child d = .none) :
    missingNodes arena cur (pre ++ post) = .ok post.length := by
  induction pre generalizing cur with
  | nil =>
    cases hp
    cases post with
    | nil => rfl
    | cons d rest => simp [missingNodes, loadNode_of_load hn, hd d rest rfl]
  | cons b bs ih =>
    obtain ⟨c, ⟨m, hm, hc⟩, h⟩ := hp
    simp only [List.cons_append, missingNodes, loadNode_of_load hm, hc, ih h]

/-- What the count means: the existing part of the path, and the first missing child after it. -/
theorem missingNodes_ok {arena : Buf Node} {cur : Word} {ds : List Bool} {m : Nat}
    (h : missingNodes arena cur ds = .ok m) :
    m ≤ ds.length ∧ ∃ a, PathTo arena cur (ds.take (ds.length - m)) a ∧
      ∀ d rest, ds.drop (ds.length - m) = d :: rest → ∃ n, Buf.load arena a.toNat = some n ∧ n.child d = .none := by
  induction ds generalizing cur with
  | nil =>
    simp only [missingNodes, Res.ok.injEq] at h
    subst h
    exact ⟨by simp, cur, rfl, by simp⟩
  | cons d ds ih =>
    simp only [missingNodes] at h
    cases hl : loadNode arena cur with
    | ok n =>
      rw [hl] at h
      cases hc : n.child d with
      | some c =>
        simp only [hc] at h
        obtain ⟨hm, a, hp, ha⟩ := ih h
        have e : (d :: ds).length - m = (ds.length - m) + 1 := by simp; omega
        refine ⟨by simp; omega, a, ?_, ?_⟩
        · rw [e, List.take_succ_cons]
          exact ⟨c, ⟨n, loadNode_ok.1 hl, hc⟩, hp⟩
        · rw [e, List.drop_succ_cons]
          exact ha
      | none =>
        simp only [hc, Res.ok.injEq] at h
        subst h
        refine ⟨by simp, cur, ?_, ?_⟩
        · simp [PathTo]
        · intro d' rest hd'
          simp at hd'
          exact ⟨n, loadNode_ok.1 hl, hd'.1 ▸ hc⟩
    | err e => exact absurd hl loadNode_not_err
    | fault f => rw [hl] at h; simp at h

theorem missingNodes_not_err {arena : Buf Node} {cur : Word} {ds : List Bool} {e : Err} :
    missingNodes arena cur ds ≠ .err e := by
  induction ds generalizing cur with
  | nil => simp [missingNodes]
  | cons d ds ih =>
    simp only [missingNodes]
    cases hl : loadNode arena cur with
    | ok n =>
      cases hc : n.child d with
      | some c => simp only [hc]; exact ih
      | none => simp [hc]
    | err e => exact absurd hl loadNode_not_err
    | fault f => simp

theorem descendCreate_not_err {arena : Buf Node} {nn cur : Word} {ds : List Bool} {e : Err} :
    descendCreate arena nn cur ds ≠ .err e := by
  induction ds generalizing arena nn cur with
  | nil => simp [descendCreate]
  | cons d ds ih =>
    simp only [descendCreate]
    cases hl : loadNode arena cur with
    | ok n =>
      cases hc : n.child d with
      | some c => simp only [hc]; exact ih
      | none =>
        simp only [hc]
        cases ha : allocLinked arena nn cur d Payload.none with
        | ok a => exact ih
        | err e => exact absurd ha allocLinked_not_err
        | fault f => simp
    | err e => exact absurd hl loadNode_not_err
    | fault f => simp

/-- The existing part of a path creates nothing. -/
theorem descendCreate_existing {arena : Buf Node} {nn cur a : Word} {pre post : List Bool}
    (hp : PathTo arena cur pre a) : descendCreate arena nn cur (pre ++ post) = descendCreate arena nn a post := by
  induction pre generalizing cur with
  | nil => cases hp; rfl
  | cons b bs ih =>
    obtain ⟨c, ⟨m, hm, hc⟩, h⟩ := hp
    simp only [List.cons_append, descendCreate, loadNode_of_load hm, hc, ih h]

/-- The created part of a path: consecutive entries from NNODES on, each the child of the one before, all empty; every
other entry but the attachment node as before. -/
theorem descendCreate_created {arena : Buf Node} {nn a : Word} {d : Bool} {rest : List Bool} {n : Node}
    (ha : a.toNat < nn.toNat) (hn : Buf.load arena a.toNat = some n) (hd : n.child d = .none)
    (hfit : nn.toNat + (rest.length + 1) < 2 ^ 32) :
    ∃ arena', descendCreate arena nn a (d :: rest) =
        .ok (arena', nn + BitVec.ofNat 32 (rest.length + 1), nn + BitVec.ofNat 32 rest.length) ∧
      Buf.load arena' a.toNat = some (n.setChild d nn) ∧
      (∀ j (h : j < rest.length), Buf.load arena' (nn.toNat + j) =
        some ((Node.fresh Payload.none).setChild rest[j] (nn + BitVec.ofNat 32 (j + 1)))) ∧
      Buf.load arena' (nn.toNat + rest.length) = some (Node.fresh Payload.none) ∧
      (∀ k, k ≠ a.toNat → ¬ (nn.toNat ≤ k ∧ k < nn.toNat + (rest.length + 1)) →
        Buf.load arena' k = Buf.load arena k) := by
  induction rest generalizing arena nn a d n with
  | nil =>
    have hne : a ≠ nn := by rintro rfl; omega
    refine ⟨Buf.store (Buf.store arena nn.toNat (Node.fresh Payload.none)) a.toNat (n.setChild d nn), ?_, ?_, ?_, ?_, ?_⟩
    · simp only [descendCreate, loadNode_of_load hn, hd]
      rw [(allocLinked_ok hne).2 ⟨n, hn, rfl⟩]
      simp
    · simp
    · intro j h; simp at h
    · rw [Buf.load_store_ne _ _ (by simp; omega)]
      simp
    · intro k hk hk'
      rw [Buf.load_store_ne _ _ hk, Buf.load_store_ne _ _ (by simp at hk'; omega)]
  | cons d' rest ih =>
    have hne : a ≠ nn := by rintro rfl; omega
    simp only [List.length_cons] at hfit
    have hnn : (nn + 1).toNat = nn.toNat + 1 := by
      rw [BitVec.toNat_add]
      simp
      omega
    obtain ⟨arena', he, h1, h2, h3, h4⟩ := ih (arena := Buf.store (Buf.store arena nn.toNat (Node.fresh Payload.none)) a.toNat (n.setChild d nn))
      (nn := nn + 1) (a := nn) (d := d') (n := Node.fresh Payload.none) (by omega)
      (by rw [Buf.load_store_ne _ _ (by omega)]; simp) (by simp) (by omega)
    refine ⟨arena', ?_, ?_, ?_, ?_, ?_⟩
    · rw [descendCreate, loadNode_of_load hn]
      simp only [hd]
      rw [(allocLinked_ok hne).2 ⟨n, hn, rfl⟩]
      simp only [he, List.length_cons]
      rw [BitVec.add_assoc, BitVec.add_assoc]
      congr 4
      · apply BitVec.eq_of_toNat_eq; simp; omega
      · apply BitVec.eq_of_toNat_eq; simp; omega
    · rw [h4 _ (by omega) (by omega)]
      simp
    · intro j hj
      cases j with
      | zero =>
        simp only [Nat.add_zero, List.getElem_cons_zero, Nat.zero_add]
        exact h1
      | succ j =>
        have := h2 j (by simpa using hj)
        rw [hnn] at this
        rw [show nn.toNat + (j + 1) = nn.toNat + 1 + j by omega, this]
        simp only [List.getElem_cons_succ]
        congr 2
        apply BitVec.eq_of_toNat_eq
        simp
        omega
    · rw [hnn] at h3
      rw [List.length_cons, show nn.toNat + (rest.length + 1) = nn.toNat + 1 + rest.length by omega, h3]
    · intro k hk hk'
      simp only [List.length_cons] at hk'
      rw [h4 k (by omega) (by omega), Buf.load_store_ne _ _ hk, Buf.load_store_ne _ _ (by omega)]

/-- Once it creates, the walk writes only the node it starts at and the entries it allocates, whatever the arena holds:
from then on it stays among the allocated entries, whose links lead to such entries. -/
theorem descendCreate_frame_new {arena arena' : Buf Node} {nn nn' cur e : Word} {ds : List Bool} {lo : Nat}
    (h : descendCreate arena nn cur ds = .ok (arena', nn', e)) (hfit : nn.toNat + ds.length < 2 ^ 32) (hlo : lo ≤ nn.toNat)
    (hcur : lo ≤ cur.toNat ∧ cur.toNat < nn.toNat)
    (hlinks : ∀ k d c, lo ≤ k → k < nn.toNat → childIs arena k d c → lo ≤ c.toNat ∧ c.toNat < nn.toNat) :
    (lo ≤ e.toNat ∧ e.toNat < nn.toNat + ds.length) ∧
    ∀ k, ¬ (lo ≤ k ∧ k < nn.toNat + ds.length) → Buf.load arena' k = Buf.load arena k := by
  induction ds generalizing arena nn cur with
  | nil =>
    simp only [descendCreate, Res.ok.injEq, Prod.mk.injEq] at h
    obtain ⟨rfl, rfl, rfl⟩ := h
    exact ⟨by simpa using hcur, fun _ _ => rfl⟩
  | cons d ds ih =>
    simp only [List.length_cons] at hfit ⊢
    simp only [descendCreate] at h
    cases hl : loadNode arena cur with
    | err e => exact absurd hl loadNode_not_err
    | fault f => rw [hl] at h; simp at h
    | ok n =>
      rw [hl] at h
      have hn := loadNode_ok.1 hl
      cases hc : n.child d with
      | some c =>
        simp only [hc] at h
        obtain ⟨h1, h2⟩ := ih h (by omega) hlo (hlinks _ _ _ hcur.1 hcur.2 ⟨n, hn, hc⟩) hlinks
        exact ⟨by omega, fun k hk => h2 k (by omega)⟩
      | none =>
        simp only [hc] at h
        have hne : cur ≠ nn := by rintro rfl; omega
        rw [(allocLinked_ok hne).2 ⟨n, hn, rfl⟩] at h
        have hnn : (nn + 1).toNat = nn.toNat + 1 := by
          rw [BitVec.toNat_add]
          simp
          omega
        obtain ⟨h1, h2⟩ := ih h (by omega) (by omega) (by omega) (by
          intro k d' c' hk hk' hcc
          rw [childIs_store] at hcc
          split at hcc
          · rw [Node.child_setChild] at hcc
            split at hcc
            · cases hcc
              omega
            · have := hlinks _ _ _ hcur.1 hcur.2 ⟨n, hn, hcc⟩
              omega
          · rw [childIs_store] at hcc
            split at hcc
            · simp at hcc
            · have := hlinks _ _ _ hk (by omega) hcc
              omega)
        refine ⟨by omega, fun k hk => ?_⟩
        rw [h2 k (by omega), Buf.load_store_ne _ _ (by omega), Buf.load_store_ne _ _ (by omega)]

/-- The walk of TSETP writes only the last node of the path that exists and the entries it allocates, whatever the
arena holds. -/
theorem descendCreate_frame {arena arena' : Buf Node} {nn nn' cur e a : Word} {ds : List Bool} {m : Nat}
    (hm : missingNodes arena cur ds = .ok m) (ha : PathTo arena cur (ds.take (ds.length - m)) a)
    (h : descendCreate arena nn cur ds = .ok (arena', nn', e)) (hfit : nn.toNat + m < 2 ^ 32) :
    (e = a ∨ (nn.toNat ≤ e.toNat ∧ e.toNat < nn.toNat + m)) ∧
    ∀ k, k ≠ a.toNat → ¬ (nn.toNat ≤ k ∧ k < nn.toNat + m) → Buf.load arena' k = Buf.load arena k := by
  induction ds generalizing cur with
  | nil =>
    simp only [descendCreate, Res.ok.injEq, Prod.mk.injEq] at h
    obtain ⟨rfl, rfl, rfl⟩ := h
    rw [List.take_nil] at ha
    cases ha
    exact ⟨.inl rfl, fun _ _ _ => rfl⟩
  | cons d ds ih =>
    simp only [missingNodes] at hm
    simp only [descendCreate] at h
    cases hl : loadNode arena cur with
    | err e => exact absurd hl loadNode_not_err
    | fault f => rw [hl] at h; simp at h
    | ok n =>
      rw [hl] at h hm
      have hn := loadNode_ok.1 hl
      cases hc : n.child d with
      | some c =>
        simp only [hc] at h hm
        have hle := (missingNodes_ok hm).1
        rw [show (d :: ds).length - m = (ds.length - m) + 1 by simp; omega, List.take_succ_cons] at ha
        obtain ⟨c', hc', hp⟩ := ha
        cases childIs_unique hc' ⟨n, hn, hc⟩
        exact ih hm hp h
      | none =>
        simp only [hc, Res.ok.injEq] at h hm
        subst hm
        rw [show (d :: ds).length - (ds.length + 1) = 0 by simp, List.take_zero] at ha
        change cur = a at ha
        subst ha
        cases hal : allocLinked arena nn cur d Payload.none with
        | err e => exact absurd hal allocLinked_not_err
        | fault f => rw [hal] at h; simp at h
        | ok arena1 =>
          rw [hal] at h
          simp only at h
          unfold allocLinked at hal
          rw [link_ok] at hal
          obtain ⟨n1, hn1, rfl⟩ := hal
          have hnn : (nn + 1).toNat = nn.toNat + 1 := by
            rw [BitVec.toNat_add]
            simp
            omega
          obtain ⟨h1, h2⟩ := descendCreate_frame_new (lo := nn.toNat) h (by omega) (by omega) (by omega) (by
            intro k d' c' hk hk' hcc
            have hkn : k = nn.toNat := by omega
            subst hkn
            rw [childIs_store] at hcc
            split at hcc
            · rename_i hkc
              have hcn : cur = nn := BitVec.eq_of_toNat_eq hkc.symm
              subst hcn
              rw [Buf.load_store_self] at hn1
              cases hn1
              rw [Node.child_setChild] at hcc
              split at hcc
              · cases hcc
                omega
              · simp at hcc
            · rw [childIs_store, if_pos rfl] at hcc
              simp at hcc)
          refine ⟨.inr (by omega), fun k hk hk' => ?_⟩
          rw [h2 k (by omega), Buf.load_store_ne _ _ hk, Buf.load_store_ne _ _ (by omega)]

/-! ## The forest -/

/-- Allocating an entry under an allocated one keeps the forest. -/
theorem ArenaOk.allocLinked {arena : Buf Node} {nn root a : Word} {d : Bool} {p : Payload} {n : Node}
    (h : ArenaOk arena nn.toNat root) (hroot : root.toNat < nn.toNat) (ha : a.toNat < nn.toNat)
    (hn : Buf.load arena a.toNat = some n) :
    ArenaOk (Buf.store (Buf.store arena nn.toNat (Node.fresh p)) a.toNat (n.setChild d nn)) (nn.toNat + 1) root := by
  have key : ∀ k d' c, k < nn.toNat + 1 →
      childIs (Buf.store (Buf.store arena nn.toNat (Node.fresh p)) a.toNat (n.setChild d nn)) k d' c →
      (k = a.toNat ∧ d' = d ∧ c = nn) ∨ (childIs arena k d' c ∧ k < nn.toNat) := by
    intro k d' c hk hc
    rw [childIs_store] at hc
    split at hc
    · rename_i hka
      rw [Node.child_setChild] at hc
      split at hc
      · rename_i hd
        exact .inl ⟨hka, hd, (Option.some.inj hc).symm⟩
      · exact .inr ⟨⟨n, by rw [hka]; exact hn, hc⟩, by omega⟩
    · rw [childIs_store] at hc
      split at hc
      · simp at hc
      · exact .inr ⟨hc, by omega⟩
  refine ⟨?_, ?_, ?_⟩
  · intro k hk
    rw [Buf.load_store]
    split
    · rfl
    · rw [Buf.load_store]
      split
      · rfl
      · exact h.specified k (by omega)
  · intro k d' c hk hc
    rcases key k d' c hk hc with ⟨_, _, rfl⟩ | ⟨hc, hk'⟩
    · refine ⟨by omega, ?_⟩
      rintro rfl
      omega
    · have := h.links k d' c hk' hc
      exact ⟨by omega, this.2⟩
  · intro k k' d1 d2 c hk hk' hc hc'
    rcases key k d1 c hk hc with ⟨e1, e2, e3⟩ | ⟨hc, hk1⟩ <;>
      rcases key k' d2 c hk' hc' with ⟨f1, f2, f3⟩ | ⟨hc', hk2⟩
    · exact ⟨by omega, by rw [e2, f2]⟩
    · have := (h.links _ _ _ hk2 hc').1
      rw [e3] at this
      omega
    · have := (h.links _ _ _ hk1 hc).1
      rw [f3] at this
      omega
    · exact h.oneParent _ _ _ _ _ hk1 hk2 hc hc'

/-- A new payload keeps every link. -/
theorem childIs_setPayload {arena : Buf Node} {a : Nat} {n : Node} {p : Payload} (hn : Buf.load arena a = some n) (k : Nat)
    (d : Bool) (c : Word) : childIs (Buf.store arena a { n with payload := p }) k d c ↔ childIs arena k d c := by
  rw [childIs_store]
  split
  · rename_i hk
    subst hk
    simp [childIs, hn]
  · rfl

theorem PathTo.setPayload {arena : Buf Node} {a : Nat} {n : Node} {p : Payload} (hn : Buf.load arena a = some n)
    {k e : Word} {ds : List Bool} : PathTo (Buf.store arena a { n with payload := p }) k ds e ↔ PathTo arena k ds e := by
  induction ds generalizing k with
  | nil => rfl
  | cons d ds ih => simp only [PathTo, childIs_setPayload hn, ih]

/-- A new payload keeps the forest. -/
theorem ArenaOk.setPayload {arena : Buf Node} {nn : Nat} {root : Word} {a : Nat} {n : Node} {p : Payload}
    (h : ArenaOk arena nn root) (hn : Buf.load arena a = some n) :
    ArenaOk (Buf.store arena a { n with payload := p }) nn root := by
  have key := childIs_setPayload (p := p) hn
  refine ⟨?_, ?_, ?_⟩
  · intro k hk
    rw [Buf.load_store]
    split
    · rfl
    · exact h.specified k hk
  · intro k d c hk hc
    exact h.links k d c hk ((key _ _ _).1 hc)
  · intro k k' d d' c hk hk' hc hc'
    exact h.oneParent _ _ _ _ _ hk hk' ((key _ _ _).1 hc) ((key _ _ _).1 hc')

/-- A path from an allocated entry stays among the allocated ones. -/
theorem ArenaOk.path {arena : Buf Node} {nn : Nat} {root k e : Word} {p : List Bool} (h : ArenaOk arena nn root)
    (hk : k.toNat < nn) (hp : PathTo arena k p e) : e.toNat < nn := by
  induction p generalizing k with
  | nil => cases hp; exact hk
  | cons d ds ih =>
    obtain ⟨c, hc, hp⟩ := hp
    exact ih (h.links _ _ _ hk hc).1 hp

/-- TSETP's walk keeps the forest, the canonical form and the canonical entries, and never runs out of entries. -/
theorem descendCreate_keeps {arena : Buf Node} {nn root cur : Word} {ds : List Bool} {m : Nat}
    (h : ArenaOk arena nn.toNat root) (hroot : root.toNat < nn.toNat) (hcur : cur.toNat < nn.toNat)
    (hm : missingNodes arena cur ds = .ok m) (hfit : nn.toNat + m < 2 ^ 32)
    (hcan : ∀ k n, Buf.load arena k = some n → n.canonical = true) :
    ∃ arena' e nn', descendCreate arena nn cur ds = .ok (arena', nn', e) ∧ nn'.toNat = nn.toNat + m ∧
      ArenaOk arena' nn'.toNat root ∧ e.toNat < nn'.toNat ∧
      (∀ k n, Buf.load arena' k = some n → n.canonical = true) ∧
      (Buf.wf arena = true → Buf.wf arena' = true) ∧
      (∀ cap, nn'.toNat ≤ cap → Buf.within arena cap = true → Buf.within arena' cap = true) ∧
      (∀ k d c, k < nn.toNat → childIs arena k d c → childIs arena' k d c) ∧ PathTo arena' cur ds e := by
  induction ds generalizing arena nn cur m with
  | nil =>
    simp only [missingNodes, Res.ok.injEq] at hm
    subst hm
    exact ⟨arena, cur, nn, rfl, by simp, h, hcur, hcan, id, fun _ _ => id, fun _ _ _ _ => id, rfl⟩
  | cons d ds ih =>
    simp only [missingNodes] at hm
    cases hl : loadNode arena cur with
    | fault f => rw [hl] at hm; simp at hm
    | err e => exact absurd hl loadNode_not_err
    | ok n =>
      have hn := loadNode_ok.1 hl
      rw [hl] at hm
      cases hc : n.child d with
      | some c =>
        simp only [hc] at hm
        simp only [descendCreate, hl, hc]
        obtain ⟨arena', e, nn', h1, h2, h3, h4, h5, h6, h7, h8, h9⟩ :=
          ih h hroot (h.links _ _ _ hcur ⟨n, hn, hc⟩).1 hm hfit hcan
        exact ⟨arena', e, nn', h1, h2, h3, h4, h5, h6, h7, h8, c, h8 _ _ _ hcur ⟨n, hn, hc⟩, h9⟩
      | none =>
        simp only [hc, Res.ok.injEq] at hm
        subst hm
        have hne : cur ≠ nn := by rintro rfl; omega
        have hnn : (nn + 1).toNat = nn.toNat + 1 := by
          rw [BitVec.toNat_add]
          simp
          omega
        have hA := ArenaOk.allocLinked (d := d) (p := Payload.none) h hroot hcur hn
        rw [← hnn] at hA
        have hcan' : ∀ k n', Buf.load (Buf.store (Buf.store arena nn.toNat (Node.fresh Payload.none)) cur.toNat (n.setChild d nn)) k = some n' → n'.canonical = true := by
          intro k n' hk
          rw [Buf.load_store] at hk
          split at hk
          · cases hk
            have := hcan _ _ hn
            cases d <;> simp_all [Node.canonical, Node.setChild]
          · rw [Buf.load_store] at hk
            split at hk
            · cases hk
              decide
            · exact hcan _ _ hk
        have hmiss : missingNodes (Buf.store (Buf.store arena nn.toNat (Node.fresh Payload.none)) cur.toNat (n.setChild d nn)) nn ds = .ok ds.length := by
          have := missingNodes_path (arena := Buf.store (Buf.store arena nn.toNat (Node.fresh Payload.none)) cur.toNat (n.setChild d nn))
            (cur := nn) (a := nn) (pre := []) (post := ds) (n := Node.fresh Payload.none) rfl
            (by rw [Buf.load_store_ne _ _ (by omega)]; simp) (by simp)
          simpa using this
        obtain ⟨arena', e, nn', h1, h2, h3, h4, h5, h6, h7, h8, h9⟩ := ih hA (by omega) (by omega) hmiss (by omega) hcan'
        refine ⟨arena', e, nn', ?_, by omega, h3, h4, h5, ?_, ?_, ?_, nn, ?_, h9⟩
        · simp only [descendCreate, hl, hc]
          rw [(allocLinked_ok hne).2 ⟨n, hn, rfl⟩]
          exact h1
        · exact fun hw => h6 (Buf.wf_store (Buf.wf_store hw _ _) _ _)
        · exact fun cap hcap hw => h7 cap hcap (Buf.within_store (Buf.within_store hw (by omega) _) (by omega) _)
        · intro k d' c hk hkc
          refine h8 k d' c (by omega) ?_
          rw [childIs_store]
          split
          · rename_i hkcur
            subst hkcur
            obtain ⟨n', hn', hc'⟩ := hkc
            rw [hn] at hn'
            cases hn'
            rw [Node.child_setChild, if_neg, hc']
            rintro rfl
            rw [hc] at hc'
            cases hc'
          · rw [childIs_store, if_neg (by omega)]
            exact hkc
        · refine h8 _ _ _ (by omega) ?_
          rw [childIs_store, if_pos rfl, Node.child_setChild, if_pos rfl]

end Sys2Proof.Machine
end

