-- ==== Sys2Proof/Laws/Construct.lean ====
section
/-! SUPPORT. What the frequency analysis and the construction loop do. -/

namespace Sys2Proof.Machine

/-! ## Frequency analysis -/

theorem countIn_none {x : Word} {t : Table} : countIn x t = .none ↔ x ∉ t.map Prod.fst := by
  induction t with
  | nil => simp [countIn]
  | cons e rest ih =>
    obtain ⟨y, c⟩ := e
    simp only [countIn]
    split
    · rename_i h; simp [h]
    · rename_i h
      simp only [Option.map_eq_none_iff, ih, List.map_cons, List.mem_cons, not_or]
      exact ⟨fun h' => ⟨fun e => h e.symm, h'⟩, fun h' => h'.2⟩

theorem countIn_some {x : Word} {t : Table} (hn : (t.map Prod.fst).Nodup) (hx : x ∈ t.map Prod.fst) :
    countIn x t = some (t.map fun e => if e.1 = x then (e.1, e.2 + 1) else e) := by
  induction t with
  | nil => simp at hx
  | cons e rest ih =>
    obtain ⟨y, c⟩ := e
    simp only [List.map_cons, List.nodup_cons] at hn
    simp only [countIn, List.map_cons]
    split
    · rename_i h
      subst h
      congr 2
      symm
      rw [List.map_congr_left (g := id)]
      · simp
      · intro e he
        rw [if_neg]
        · rfl
        · rintro rfl
          exact hn.1 (List.mem_map_of_mem he)
    · rename_i h
      rw [ih hn.2 (by simpa [Ne.symm h, eq_comm] using hx)]
      rfl

/-- Counting by summing ones. -/
theorem sum_indicator (l : List Word) (x : Word) : (l.map fun y => if y = x then 1 else 0).sum = l.count x := by
  induction l with
  | nil => rfl
  | cons y ys ih =>
    rw [List.map_cons, List.sum_cons, ih, List.count_cons]
    simp only [beq_iff_eq]
    omega

theorem FirstSeenTable.nil : FirstSeenTable [] [] := by
  constructor <;> simp

/-- The table has as many entries as the text has distinct symbols. -/
theorem FirstSeenTable.length_eq {ts : List Word} {t : Table} (h : FirstSeenTable ts t) : t.length = ts.dedup.length := by
  have : (t.map Prod.fst).Perm ts.dedup :=
    (List.perm_ext_iff_of_nodup h.distinct (List.nodup_dedup ts)).2 fun x => by rw [h.symbols, List.mem_dedup]
  simpa using this.length_eq

theorem FirstSeenTable.old {ts : List Word} {t : Table} {x : Word} (h : FirstSeenTable ts t) (hx : x ∈ ts)
    (hl : ts.length + 1 < 2 ^ 32) :
    FirstSeenTable (ts ++ [x]) (t.map fun e => if e.1 = x then (e.1, e.2 + 1) else e) := by
  have hfst : ((t.map fun e => if e.1 = x then (e.1, e.2 + 1) else e).map Prod.fst) = t.map Prod.fst := by
    rw [List.map_map]
    apply List.map_congr_left
    intro e _
    simp only [Function.comp]
    split <;> rfl
  have hxt : x ∈ t.map Prod.fst := (h.symbols x).2 hx
  have hcount : ∀ e ∈ t, (if e.1 = x then (e.1, e.2 + 1) else e).2.toNat = (ts ++ [x]).count e.1 := by
    intro e he
    have hc := h.counts e he
    have hle : ts.count e.1 ≤ ts.length := List.count_le_length
    rw [List.count_append]
    split
    · rename_i hex
      subst hex
      simp only [BitVec.toNat_add, List.count_singleton_self, hc]
      simp
      omega
    · rename_i hex
      rw [hc, List.count_singleton]
      simp [Ne.symm hex]
  refine ⟨by rw [hfst]; exact h.distinct, ?_, ?_, ?_, ?_⟩
  · intro y
    rw [hfst, h.symbols]
    simp only [List.mem_append, List.mem_singleton]
    constructor
    · exact .inl
    · rintro (hy | rfl)
      · exact hy
      · exact hx
  · intro e' he'
    rw [List.mem_map] at he'
    obtain ⟨e, he, rfl⟩ := he'
    rw [hcount e he]
    congr 1
    split <;> rfl
  · rw [hfst]
    refine h.order.imp_of_mem ?_
    intro a b ha hb hab
    rw [List.idxOf_append_of_mem ((h.symbols a).1 ha), List.idxOf_append_of_mem ((h.symbols b).1 hb)]
    exact hab
  · rw [List.map_map]
    have h1 : (t.map ((fun e : Word × Word => e.2.toNat) ∘ fun e => if e.1 = x then (e.1, e.2 + 1) else e)) =
        t.map fun e => e.2.toNat + if e.1 = x then 1 else 0 := by
      apply List.map_congr_left
      intro e he
      have h2 := hcount e he
      rw [List.count_append, ← h.counts e he] at h2
      simp only [Function.comp, h2]
      congr 1
      rw [List.count_singleton]
      by_cases hex : e.1 = x
      · simp [hex]
      · simp [Ne.symm hex, hex]
    have h3 : (t.map fun e => if e.1 = x then 1 else 0).sum = 1 := by
      have : (t.map fun e => if e.1 = x then 1 else 0) = (t.map Prod.fst).map fun y => if y = x then 1 else 0 := by
        rw [List.map_map]; rfl
      rw [this, sum_indicator, List.count_eq_one_of_mem h.distinct hxt]
    rw [h1, List.sum_map_add, h3, h.total]
    simp

theorem FirstSeenTable.new {ts : List Word} {t : Table} {x : Word} (h : FirstSeenTable ts t) (hx : x ∉ ts) :
    FirstSeenTable (ts ++ [x]) (t ++ [(x, 1)]) := by
  have hxt : x ∉ t.map Prod.fst := fun hc => hx ((h.symbols x).1 hc)
  refine ⟨?_, ?_, ?_, ?_, ?_⟩
  · rw [List.map_append, List.nodup_append]
    refine ⟨h.distinct, by simp, ?_⟩
    intro a ha b hb
    simp at hb
    subst hb
    rintro rfl
    exact hxt ha
  · intro y
    rw [List.map_append, List.mem_append, List.mem_append, h.symbols]
    simp
  · intro e he
    rw [List.mem_append] at he
    rcases he with he | he
    · have : e.1 ≠ x := by
        rintro rfl
        exact hxt (List.mem_map_of_mem he)
      rw [h.counts e he, List.count_append, List.count_singleton]
      simp [Ne.symm this]
    · simp at he
      subst he
      rw [List.count_append, List.count_eq_zero_of_not_mem hx]
      simp
  · rw [List.map_append, List.pairwise_append]
    refine ⟨?_, by simp, ?_⟩
    · refine h.order.imp_of_mem ?_
      intro a b ha hb hab
      rw [List.idxOf_append_of_mem ((h.symbols a).1 ha), List.idxOf_append_of_mem ((h.symbols b).1 hb)]
      exact hab
    · intro a ha b hb
      simp at hb
      subst hb
      rw [List.idxOf_append_of_mem ((h.symbols a).1 ha), List.idxOf_append_of_notMem hx]
      have := List.idxOf_lt_length_iff.2 ((h.symbols a).1 ha)
      simp
      omega
  · rw [List.map_append, List.sum_append, h.total]
    simp

/-- FREQ's execution phase over written text: it goes on with the first-seen table of what it has read. -/
theorem tally_reads {nSym i : Nat} {ts us : List Word} {t : Table} {rest : List (Option Word)}
    (h : FirstSeenTable ts t) (hl : (ts ++ us).length < 2 ^ 32) (hd : (ts ++ us).dedup.length ≤ nSym) :
    ∃ t', FirstSeenTable (ts ++ us) t' ∧
      tally nSym i t (us.map some ++ rest) = tally nSym (i + us.length) t' rest := by
  induction us generalizing ts t i with
  | nil => exact ⟨t, by simpa using h, by simp⟩
  | cons x us ih =>
    have e : ts ++ x :: us = (ts ++ [x]) ++ us := by simp
    have hl' : ((ts ++ [x]) ++ us).length < 2 ^ 32 := by rw [← e]; exact hl
    have hd' : ((ts ++ [x]) ++ us).dedup.length ≤ nSym := by rw [← e]; exact hd
    have hi : i + (x :: us).length = i + 1 + us.length := by simp; omega
    simp only [List.map_cons, List.cons_append, tally, hi]
    by_cases hx : x ∈ ts
    · rw [countIn_some h.distinct ((h.symbols x).2 hx)]
      obtain ⟨t', h1, h2⟩ := ih (i := i + 1) (h.old hx (by simp at hl; omega)) hl' hd'
      exact ⟨t', by rw [e]; exact h1, h2⟩
    · rw [countIn_none.2 (fun hc => hx ((h.symbols x).1 hc))]
      have hlt : t.length < nSym := by
        have h1 := (h.new hx).length_eq
        have h2 : (ts ++ [x]).dedup.length ≤ ((ts ++ [x]) ++ us).dedup.length := by
          apply List.Subperm.length_le
          apply (List.nodup_dedup _).subperm
          intro y hy
          rw [List.mem_dedup] at hy ⊢
          exact List.mem_append_left _ hy
        simp at h1
        omega
      simp only [if_neg (Nat.ne_of_lt hlt)]
      obtain ⟨t', h1, h2⟩ := ih (i := i + 1) (h.new hx) hl' hd'
      exact ⟨t', by rw [e]; exact h1, h2⟩

/-- A new symbol that finds the table full is OVERFLOW SYM at its position. -/
theorem tally_full {nSym i : Nat} {ts : List Word} {t : Table} {x : Word} {rest : List (Option Word)}
    (h : FirstSeenTable ts t) (hd : ts.dedup.length = nSym) (hx : x ∉ ts) :
    tally nSym i t (some x :: rest) = .err (overflow .sym i) := by
  simp only [tally]
  rw [countIn_none.2 (fun hc => hx ((h.symbols x).1 hc))]
  simp [h.length_eq, hd]

/-- What a successful analysis read and made. -/
theorem tally_ok {nSym i : Nat} {ts : List Word} {t t' : Table} {l : List (Option Word)}
    (h : FirstSeenTable ts t) (ht : t.length ≤ nSym) (hl : ts.length + l.length < 2 ^ 32)
    (hr : tally nSym i t l = .ok t') :
    ∃ us, l = us.map some ∧ FirstSeenTable (ts ++ us) t' ∧ t'.length ≤ nSym := by
  induction l generalizing ts t i with
  | nil =>
    simp only [tally, Res.ok.injEq] at hr
    subst hr
    exact ⟨[], rfl, by simpa using h, ht⟩
  | cons o rest ih =>
    cases o with
    | none => simp [tally] at hr
    | some x =>
      simp only [List.length_cons] at hl
      simp only [tally] at hr
      by_cases hx : x ∈ ts
      · rw [countIn_some h.distinct ((h.symbols x).2 hx)] at hr
        obtain ⟨us, h1, h2, h3⟩ := ih (h.old hx (by omega)) (by simpa using ht) (by simp; omega) hr
        exact ⟨x :: us, by rw [h1]; rfl, by simpa using h2, h3⟩
      · rw [countIn_none.2 (fun hc => hx ((h.symbols x).1 hc))] at hr
        by_cases hf : t.length = nSym
        · simp [hf] at hr
        · simp only [if_neg hf] at hr
          obtain ⟨us, h1, h2, h3⟩ := ih (h.new hx) (by simp; omega) (by simp; omega) hr
          exact ⟨x :: us, by rw [h1]; rfl, by simpa using h2, h3⟩

/-- The only error of the analysis is OVERFLOW SYM. -/
theorem tally_err {nSym i : Nat} {t : Table} {l : List (Option Word)} {e : Err} (h : tally nSym i t l = .err e) :
    ∃ j, e = overflow .sym j := by
  induction l generalizing t i with
  | nil => simp [tally] at h
  | cons o rest ih =>
    cases o with
    | none => simp [tally] at h
    | some x =>
      simp only [tally] at h
      split at h
      · exact ih h
      · split at h
        · exact ⟨i, by simpa using h.symm⟩
        · exact ih h

/-! ## Least keys -/

theorem Key.less_iff {a b : Key} : Key.less a b = true ↔ a.1 < b.1 ∨ (a.1 = b.1 ∧ a.2 < b.2) := by
  simp [Key.less]

theorem Key.not_less {a b : Key} : Key.less a b = false ↔ b.1 < a.1 ∨ (a.1 = b.1 ∧ b.2 ≤ a.2) := by
  rw [← Bool.not_eq_true, Key.less_iff]
  simp only [BitVec.lt_def, BitVec.toNat_eq]
  omega

theorem leastOf_spec (k : Key) (ks : List Key) :
    leastOf k ks ∈ k :: ks ∧ ∀ x ∈ k :: ks, Key.less x (leastOf k ks) = false := by
  induction ks generalizing k with
  | nil => simp [leastOf, Key.not_less]
  | cons y ys ih =>
    simp only [leastOf]
    obtain ⟨h1, h2⟩ := ih (if Key.less y k then y else k)
    refine ⟨?_, ?_⟩
    · simp only [List.mem_cons] at h1 ⊢
      rcases h1 with h1 | h1
      · by_cases hy : Key.less y k = true
        · exact .inr (.inl (by simpa [hy] using h1))
        · exact .inl (by simpa [hy] using h1)
      · exact .inr (.inr h1)
    · intro x hx
      simp only [List.mem_cons] at hx h2
      rcases hx with rfl | rfl | hx
      · by_cases hy : Key.less y x
        · have h3 := h2 y (by simp [hy])
          rw [Key.not_less] at h3 ⊢
          rw [Key.less_iff] at hy
          simp only [BitVec.lt_def, BitVec.toNat_eq] at *
          omega
        · exact h2 x (by simp [hy])
      · by_cases hy : Key.less x k
        · exact h2 x (by simp [hy])
        · have h3 := h2 k (by simp [hy])
          rw [Bool.not_eq_true] at hy
          rw [Key.not_less] at h3 hy ⊢
          simp only [BitVec.lt_def, BitVec.toNat_eq] at *
          omega
      · exact h2 x (.inr hx)

/-- Removing the least key: a member, no key before it, and the rest is the collection without it. -/
theorem takeLeast_spec {q rest : List Key} {a : Key} (h : takeLeast q = some (a, rest)) :
    a ∈ q ∧ q.Perm (a :: rest) ∧ ∀ x ∈ q, Key.less x a = false := by
  cases q with
  | nil => simp [takeLeast] at h
  | cons k ks =>
    simp only [takeLeast, Option.some.injEq, Prod.mk.injEq] at h
    obtain ⟨rfl, rfl⟩ := h
    obtain ⟨h1, h2⟩ := leastOf_spec k ks
    exact ⟨h1, List.perm_cons_erase h1, h2⟩

theorem takeLeast_isSome {q : List Key} (h : q ≠ []) : ∃ a rest, takeLeast q = some (a, rest) := by
  cases q with
  | nil => exact absurd rfl h
  | cons k ks => exact ⟨_, _, rfl⟩

/-! ## The construction loop -/

/-- One round with at least two items. -/
theorem combineAll_round {rounds next : Nat} {q : List Key} (hq : 2 ≤ q.length) :
    ∃ a b q2, a ∈ q ∧ q.Perm (a :: b :: q2) ∧ (∀ x ∈ q, Key.less x a = false) ∧
      (∀ x ∈ b :: q2, Key.less x b = false) ∧
      combineAll (rounds + 1) q next =
        combined a b :: combineAll rounds (q2 ++ [(a.1 + b.1, next)]) (next + 1) := by
  obtain ⟨a, q1, h1⟩ := takeLeast_isSome (q := q) (by rintro rfl; simp at hq)
  obtain ⟨ha, hp, hl⟩ := takeLeast_spec h1
  have hq1 : 1 ≤ q1.length := by
    have := hp.length_eq
    simp at this
    omega
  obtain ⟨b, q2, h2⟩ := takeLeast_isSome (q := q1) (by rintro rfl; simp at hq1)
  obtain ⟨hb, hp2, hl2⟩ := takeLeast_spec h2
  refine ⟨a, b, q2, ha, hp.trans (hp2.cons a), hl, fun x hx => hl2 x (hp2.symm.subset hx), ?_⟩
  simp only [combineAll, h1, h2]

/-- The loop makes one node a round. -/
theorem combineAll_length {rounds next : Nat} {q : List Key} (hq : q.length = rounds + 1) :
    (combineAll rounds q next).length = rounds := by
  induction rounds generalizing q next with
  | zero => rfl
  | succ rounds ih =>
    obtain ⟨a, b, q2, _, hp, _, _, he⟩ := combineAll_round (rounds := rounds) (next := next) (q := q) (by omega)
    have := hp.length_eq
    simp at this
    rw [he, List.length_cons, ih (by simp; omega)]

/-- The working collection at round `r` of a loop that started with `q` and made the nodes `L`. -/
def InColl (q : List Key) (next : Nat) (L : List Node) (r : Nat) (x : Key) : Prop :=
  (x ∈ q ∨ ∃ i n, i < r ∧ L[i]? = some n ∧ x = (n.payload.weight, next + i)) ∧
  ∀ i n, i < r → L[i]? = some n → n.left ≠ BitVec.ofNat 32 x.2 ∧ n.right ≠ BitVec.ofNat 32 x.2

theorem ofNat_inj {a b : Nat} (ha : a < 2 ^ 32) (hb : b < 2 ^ 32) : BitVec.ofNat 32 a = BitVec.ofNat 32 b ↔ a = b := by
  constructor
  · intro h
    have := congrArg BitVec.toNat h
    simp only [BitVec.toNat_ofNat] at this
    omega
  · rintro rfl
    rfl

/-- Each round combines the two least keys of the collection at that round, and while the weights' total fits a word no
combined weight wraps. -/
theorem combineAll_spec {rounds next : Nat} {q : List Key} (hq : q.length = rounds + 1)
    (hn : (q.map Prod.snd).Nodup) (hlt : ∀ x ∈ q, x.2 < next) (hfit : next + rounds < 2 ^ 32)
    (r : Nat) (hr : r < rounds) :
    ∃ a b, (combineAll rounds q next)[r]? = some (combined a b) ∧
      InColl q next (combineAll rounds q next) r a ∧ InColl q next (combineAll rounds q next) r b ∧ a.2 ≠ b.2 ∧
      (∀ x, InColl q next (combineAll rounds q next) r x → x.2 ≠ a.2 → Key.less a x = true) ∧
      (∀ x, InColl q next (combineAll rounds q next) r x → x.2 ≠ a.2 → x.2 ≠ b.2 → Key.less b x = true) ∧
      a.2 < next + r ∧ b.2 < next + r ∧
      ((q.map fun x => x.1.toNat).sum < 2 ^ 32 → (a.1 + b.1).toNat = a.1.toNat + b.1.toNat) := by
  induction rounds generalizing q next r with
  | zero => omega
  | succ rounds ih =>
    obtain ⟨a, b, q2, ha, hp, hl, hl2, he⟩ := combineAll_round (rounds := rounds) (next := next) (q := q) (by omega)
    have hnp : ((a :: b :: q2).map Prod.snd).Nodup := (hp.map Prod.snd).nodup_iff.1 hn
    simp only [List.map_cons, List.nodup_cons, List.mem_cons, not_or] at hnp
    obtain ⟨⟨hab, ha2⟩, hb2, hn2⟩ := hnp
    have hbq : b ∈ q := hp.symm.subset (by simp)
    have hs := (hp.map fun x => x.1.toNat).sum_eq
    simp only [List.map_cons, List.sum_cons] at hs
    have hab1 : (q.map fun x => x.1.toNat).sum < 2 ^ 32 → (a.1 + b.1).toNat = a.1.toNat + b.1.toNat := by
      intro h
      rw [BitVec.toNat_add, Nat.mod_eq_of_lt]
      omega
    have tri : ∀ x y : Key, Key.less x y = false → x.2 ≠ y.2 → Key.less y x = true := by
      intro x y h h'
      rw [Key.not_less] at h
      rw [Key.less_iff]
      simp only [BitVec.lt_def, BitVec.toNat_eq] at *
      omega
    rw [he]
    cases r with
    | zero =>
      have hc : ∀ x, InColl q next (combined a b :: combineAll rounds (q2 ++ [(a.1 + b.1, next)]) (next + 1)) 0 x ↔ x ∈ q := by
        intro x
        simp [InColl]
      refine ⟨a, b, by simp, (hc a).2 ha, (hc b).2 hbq, hab, ?_, ?_, by have := hlt a ha; omega, by have := hlt b hbq; omega, hab1⟩
      · intro x hx hxa
        exact tri x a (hl x ((hc x).1 hx)) hxa
      · intro x hx hxa hxb
        refine tri x b (hl2 x ?_) hxb
        have := hp.subset ((hc x).1 hx)
        simp only [List.mem_cons] at this ⊢
        rcases this with rfl | h
        · exact absurd rfl hxa
        · exact h
    | succ r =>
      have hlen : (q2 ++ [(a.1 + b.1, next)]).length = rounds + 1 := by
        have := hp.length_eq
        simp at this ⊢
        omega
      have hq2 : ∀ x ∈ q2, x ∈ q := fun x hx => hp.symm.subset (by simp [hx])
      have hn' : ((q2 ++ [(a.1 + b.1, next)]).map Prod.snd).Nodup := by
        rw [List.map_append, List.nodup_append]
        refine ⟨hn2, by simp, ?_⟩
        intro y hy z hz
        simp at hz
        subst hz
        rw [List.mem_map] at hy
        obtain ⟨x, hx, rfl⟩ := hy
        have := hlt x (hq2 x hx)
        omega
      have hlt' : ∀ x ∈ q2 ++ [(a.1 + b.1, next)], x.2 < next + 1 := by
        intro x hx
        rw [List.mem_append] at hx
        rcases hx with hx | hx
        · have := hlt x (hq2 x hx); omega
        · simp at hx; subst hx; simp
      have hc : ∀ r' x, r' ≤ rounds → (InColl q next (combined a b :: combineAll rounds (q2 ++ [(a.1 + b.1, next)]) (next + 1)) (r' + 1) x ↔
          InColl (q2 ++ [(a.1 + b.1, next)]) (next + 1) (combineAll rounds (q2 ++ [(a.1 + b.1, next)]) (next + 1)) r' x) := by
        intro r' x hr'
        have hal := hlt a ha
        have hbl := hlt b hbq
        constructor
        · rintro ⟨hm, hnc⟩
          have h0 := hnc 0 (combined a b) (by omega) (by simp)
          simp only [combined] at h0
          refine ⟨?_, fun i n hi hLi => hnc (i + 1) n (by omega) (by simpa using hLi)⟩
          rcases hm with hx | ⟨i, n, hi, hLi, rfl⟩
          · left
            rw [List.mem_append]
            left
            have := hp.subset hx
            simp only [List.mem_cons] at this
            rcases this with rfl | rfl | h
            · exact absurd rfl h0.1
            · exact absurd rfl h0.2
            · exact h
          · cases i with
            | zero =>
              simp only [List.getElem?_cons_zero, Option.some.injEq] at hLi
              subst hLi
              left
              simp [combined]
            | succ i =>
              right
              refine ⟨i, n, by omega, by simpa using hLi, ?_⟩
              simp
              omega
        · rintro ⟨hm, hnc⟩
          have hx2 : x.2 < 2 ^ 32 ∧ x.2 ≠ a.2 ∧ x.2 ≠ b.2 := by
            rcases hm with hx | ⟨i, n, hi, hLi, rfl⟩
            · rw [List.mem_append] at hx
              rcases hx with hx | hx
              · have := hlt x (hq2 x hx)
                refine ⟨by omega, ?_, ?_⟩
                · intro h; exact ha2 (h ▸ List.mem_map_of_mem hx)
                · intro h; exact hb2 (h ▸ List.mem_map_of_mem hx)
              · simp at hx; subst hx; simp; omega
            · simp; omega
          refine ⟨?_, ?_⟩
          · rcases hm with hx | ⟨i, n, hi, hLi, rfl⟩
            · rw [List.mem_append] at hx
              rcases hx with hx | hx
              · exact .inl (hq2 x hx)
              · simp at hx
                subst hx
                exact .inr ⟨0, combined a b, by omega, by simp, by simp [combined]⟩
            · exact .inr ⟨i + 1, n, by omega, by simpa using hLi, by simp; omega⟩
          · intro i n hi hLi
            cases i with
            | zero =>
              simp only [List.getElem?_cons_zero, Option.some.injEq] at hLi
              subst hLi
              simp only [combined, Ne]
              rw [ofNat_inj (by omega) hx2.1, ofNat_inj (by omega) hx2.1]
              exact ⟨fun h => hx2.2.1 h.symm, fun h => hx2.2.2 h.symm⟩
            | succ i => exact hnc i n (by omega) (by simpa using hLi)
      obtain ⟨a', b', h1, h2, h3, h4, h5, h6, h7, h8, h9⟩ := ih hlen hn' hlt' (by omega) r (by omega)
      refine ⟨a', b', by simpa using h1, (hc r a' (by omega)).2 h2, (hc r b' (by omega)).2 h3, h4, ?_, ?_, by omega, by omega, ?_⟩
      · intro x hx
        exact h5 x ((hc r x (by omega)).1 hx)
      · intro x hx
        exact h6 x ((hc r x (by omega)).1 hx)
      · intro hsum
        refine h9 ?_
        rw [List.map_append, List.sum_append]
        simp only [List.map_cons, List.map_nil, List.sum_cons, List.sum_nil, hab1 hsum]
        omega

/-- Every item but the last node made is removed in some round. -/
theorem combineAll_consumes {rounds next : Nat} {q : List Key} (hq : q.length = rounds + 1) (hr : 1 ≤ rounds) {k : Nat}
    (hk : k ∈ q.map Prod.snd ∨ (next ≤ k ∧ k < next + rounds - 1)) :
    ∃ (r : Nat) (a b : Key), (combineAll rounds q next)[r]? = some (combined a b) ∧ r < rounds ∧ (a.2 = k ∨ b.2 = k) := by
  induction rounds generalizing q next with
  | zero => omega
  | succ rounds ih =>
    obtain ⟨a, b, q2, -, hp, -, -, he⟩ := combineAll_round (rounds := rounds) (next := next) (q := q) (by omega)
    have hl := hp.length_eq
    simp at hl
    rw [he]
    by_cases hka : a.2 = k ∨ b.2 = k
    · exact ⟨0, a, b, by simp, by omega, hka⟩
    · simp only [not_or] at hka
      have hk' : k ∈ (q2 ++ [(a.1 + b.1, next)]).map Prod.snd ∨ (next + 1 ≤ k ∧ k < next + 1 + rounds - 1) := by
        rcases hk with hk | hk
        · left
          have := (hp.map Prod.snd).subset hk
          simp only [List.map_cons, List.mem_cons] at this
          rcases this with h | h | h
          · exact absurd h.symm hka.1
          · exact absurd h.symm hka.2
          · simp only [List.map_append, List.mem_append]
            exact .inl h
        · by_cases hkn : k = next
          · left; simp [hkn]
          · right; omega
      have hr1 : 1 ≤ rounds := by
        rcases Nat.eq_zero_or_pos rounds with h0 | h0
        · subst h0
          have : q2 = [] := List.length_eq_zero_iff.1 (by omega)
          subst this
          rcases hk with hk | hk
          · have := (hp.map Prod.snd).subset hk
            simp at this
            rcases this with h | h
            · exact absurd h.symm hka.1
            · exact absurd h.symm hka.2
          · omega
        · exact h0
      obtain ⟨r, a', b', h1, h2, h3⟩ := ih (q := q2 ++ [(a.1 + b.1, next)]) (next := next + 1) (by simp; omega) hr1 hk'
      exact ⟨r + 1, a', b', by simpa using h1, by omega, h3⟩

/-- An item of the working collection and the tree below its node. -/
def ItemHolds (arena : Buf Node) (next : Nat) (it : Key × HTree) : Prop :=
  it.2.heldAt arena (BitVec.ofNat 32 it.1.2) ∧ it.2.weight = it.1.1 ∧ it.2.sums ∧ it.1.2 < next

/-- The loop turns the trees of its items into one tree: its leaves are all their leaves, its weight their total. -/
theorem combineAll_tree {rounds next : Nat} {q : List Key} {items : List (Key × HTree)} {arena : Buf Node}
    (hp : q.Perm (items.map Prod.fst)) (hq : q.length = rounds + 1) (hit : ∀ it ∈ items, ItemHolds arena next it)
    (hsum : (items.map fun it => it.1.1.toNat).sum < 2 ^ 32) (hfit : next + rounds < 2 ^ 32)
    (hL : ∀ j n, (combineAll rounds q next)[j]? = some n → Buf.load arena (next + j) = some n) :
    ∃ (T : HTree) (k : Nat), T.heldAt arena (BitVec.ofNat 32 k) ∧ T.sums ∧
      T.entries.Perm (items.flatMap fun it => it.2.entries) ∧
      T.size = (items.map fun it => it.2.size).sum + rounds ∧
      T.weight.toNat = (items.map fun it => it.1.1.toNat).sum ∧
      (rounds = 0 → ∃ it ∈ items, k = it.1.2 ∧ T = it.2) ∧
      (1 ≤ rounds → k = next + rounds - 1 ∧ ∃ w l r, T = .fork w l r) := by
  induction rounds generalizing q next items with
  | zero =>
    have hl := hp.length_eq
    rw [List.length_map, hq] at hl
    obtain ⟨it, rfl⟩ := List.length_eq_one_iff.1 hl.symm
    obtain ⟨h1, h2, h3, h4⟩ := hit it (by simp)
    exact ⟨it.2, it.1.2, h1, h3, by simp, by simp, by simp [h2], fun _ => ⟨it, by simp, rfl, rfl⟩, by omega⟩
  | succ rounds ih =>
    obtain ⟨a, b, q2, ha, hpq, -, -, he⟩ := combineAll_round (rounds := rounds) (next := next) (q := q) (by omega)
    -- the two items and the rest
    have hpi : (items.map Prod.fst).Perm (a :: b :: q2) := hp.symm.trans hpq
    obtain ⟨ita, hita, hfa⟩ : ∃ it ∈ items, it.1 = a := by
      have := hpi.symm.subset (List.mem_cons_self (a := a))
      simpa [List.mem_map] using this
    have hpa : items.Perm (ita :: items.erase ita) := List.perm_cons_erase hita
    have hpb : ((items.erase ita).map Prod.fst).Perm (b :: q2) := by
      have := (hpa.map Prod.fst).symm.trans hpi
      rw [List.map_cons, hfa] at this
      exact this.cons_inv
    obtain ⟨itb, hitb, hfb⟩ : ∃ it ∈ items.erase ita, it.1 = b := by
      have := hpb.symm.subset (List.mem_cons_self (a := b))
      simpa [List.mem_map] using this
    have hpb' : (items.erase ita).Perm (itb :: (items.erase ita).erase itb) := List.perm_cons_erase hitb
    generalize hrest : (items.erase ita).erase itb = rest at hpb'
    have hpr : (rest.map Prod.fst).Perm q2 := by
      have := (hpb'.map Prod.fst).symm.trans hpb
      rw [List.map_cons, hfb] at this
      exact this.cons_inv
    have hall : items.Perm (ita :: itb :: rest) := hpa.trans (hpb'.cons ita)
    have hwsum : (items.map fun it => it.1.1.toNat).sum =
        a.1.toNat + b.1.toNat + (rest.map fun it => it.1.1.toNat).sum := by
      rw [(hall.map _).sum_eq]
      simp [hfa, hfb]
      omega
    have hwab : (a.1 + b.1).toNat = a.1.toNat + b.1.toNat := by
      rw [BitVec.toNat_add, Nat.mod_eq_of_lt]
      omega
    obtain ⟨a1, a2, a3, a4⟩ := hit ita hita
    obtain ⟨b1, b2, b3, b4⟩ := hit itb (hall.symm.subset (by simp))
    rw [hfa] at a1 a2 a4
    rw [hfb] at b1 b2 b4
    have hnode : Buf.load arena next = some (combined a b) := by
      have := hL 0 (combined a b) (by rw [he]; rfl)
      simpa using this
    have hnew : ItemHolds arena (next + 1) ((a.1 + b.1, next), .fork (a.1 + b.1) ita.2 itb.2) := by
      refine ⟨⟨BitVec.ofNat 32 a.2, BitVec.ofNat 32 b.2, ?_, a1, b1⟩, rfl, ⟨?_, a3, b3⟩, by simp⟩
      · rw [BitVec.toNat_ofNat, Nat.mod_eq_of_lt (show next < 2 ^ 32 by omega), hnode]
        rfl
      · rw [hwab, a2, b2]
    obtain ⟨T, k, h1, h2, h3, h4, h5, h0, h6⟩ := ih (q := q2 ++ [(a.1 + b.1, next)]) (next := next + 1)
      (items := rest ++ [((a.1 + b.1, next), .fork (a.1 + b.1) ita.2 itb.2)])
      (by rw [List.map_append]; exact hpr.symm.append_right _)
      (by have := hpq.length_eq; simp at this ⊢; omega)
      (by
        intro it hi
        rw [List.mem_append] at hi
        rcases hi with hi | hi
        · obtain ⟨c1, c2, c3, c4⟩ := hit it (hall.symm.subset (by simp [hi]))
          exact ⟨c1, c2, c3, by omega⟩
        · simp at hi
          subst hi
          exact hnew)
      (by simp [hwab]; omega) (by omega)
      (by
        intro j n hj
        have := hL (j + 1) n (by rw [he]; simpa using hj)
        rw [← this]
        congr 1
        omega)
    refine ⟨T, k, h1, h2, ?_, ?_, ?_, by omega, ?_⟩
    · refine h3.trans ?_
      refine List.Perm.trans ?_ (hall.flatMap_right _).symm
      simp only [List.flatMap_append, List.flatMap_cons, List.flatMap_nil, List.append_nil, HTree.entries]
      rw [← List.append_assoc ita.2.entries]
      exact List.perm_append_comm
    · rw [h4, (hall.map fun it => it.2.size).sum_eq]
      simp [HTree.size]
      omega
    · rw [h5, hwsum]
      simp [hwab]
      omega
    · intro _
      by_cases hr : 1 ≤ rounds
      · obtain ⟨hk, hT⟩ := h6 hr
        exact ⟨by omega, hT⟩
      · have hr0 : rounds = 0 := by omega
        subst hr0
        have hrest0 : rest = [] := by
          have := hpr.length_eq
          have h' := hpq.length_eq
          simp at this h'
          rw [hq] at h'
          exact List.length_eq_zero_iff.1 (by omega)
        subst hrest0
        obtain ⟨it, hi, hk, hT⟩ := h0 rfl
        simp only [List.nil_append, List.mem_singleton] at hi
        subst hi
        exact ⟨by simpa using hk, _, _, _, hT⟩

end Sys2Proof.Machine
end

