-- ==== Sys2Proof/Laws/Build.lean ====
section
/-! SUPPORT. The arena a construction leaves: a built tree, and a forest. -/

namespace Sys2Proof.Machine

/-! ## The nodes -/

@[simp] theorem length_leavesOf (t : Table) : (leavesOf t).length = t.length := by simp [leavesOf]

@[simp] theorem length_firstKeys (t : Table) : (firstKeys t).length = t.length := by simp [firstKeys]

theorem firstKeys_snd (t : Table) : (firstKeys t).map Prod.snd = List.range t.length := by
  simp [firstKeys, List.map_snd_zip]

theorem firstKeys_getElem (t : Table) (j : Nat) (h : j < (firstKeys t).length) :
    (firstKeys t)[j] = ((t[j]'(by simpa using h)).2, j) := by
  simp [firstKeys]

theorem mem_firstKeys {t : Table} {x : Key} : x ∈ firstKeys t ↔ ∃ e, t[x.2]? = some e ∧ x.1 = e.2 := by
  rw [List.mem_iff_getElem]
  constructor
  · rintro ⟨j, h, rfl⟩
    rw [firstKeys_getElem]
    exact ⟨_, List.getElem?_eq_getElem (by simpa using h), rfl⟩
  · rintro ⟨e, he, hx⟩
    obtain ⟨h, rfl⟩ := List.getElem?_eq_some_iff.1 he
    refine ⟨x.2, by simpa using h, ?_⟩
    rw [firstKeys_getElem, ← hx]

theorem builtNodes_one (e : Word × Word) :
    builtNodes [e] = [Node.leaf e.2 e.1,
      { payload := ⟨true, false, e.2, 0⟩, lv := true, rv := false, left := 0, right := 0 }] := rfl

theorem builtNodes_many {t : Table} (h : 2 ≤ t.length) :
    builtNodes t = leavesOf t ++ combineAll (t.length - 1) (firstKeys t) t.length := by
  match t, h with
  | _ :: _ :: _, _ => rfl

theorem builtNodes_length_many {t : Table} (h : 2 ≤ t.length) : (builtNodes t).length = 2 * t.length - 1 := by
  rw [builtNodes_many h, List.length_append, combineAll_length (by simp; omega)]
  simp
  omega

theorem builtNodes_length_le {t : Table} (h : t ≠ []) : 1 ≤ (builtNodes t).length ∧ (builtNodes t).length ≤ 2 * t.length := by
  match t, h with
  | [e], _ => simp [builtNodes_one]
  | _ :: _ :: _, _ =>
    rw [builtNodes_length_many (by simp)]
    simp
    omega

theorem builtNodes_leaf {t : Table} (h : 2 ≤ t.length) (j : Nat) (hj : j < t.length) :
    (builtNodes t)[j]? = some (Node.leaf t[j].2 t[j].1) := by
  rw [builtNodes_many h, List.getElem?_append_left (by simpa using hj)]
  simp [leavesOf, hj]

theorem builtNodes_round {t : Table} (h : 2 ≤ t.length) (r : Nat) :
    (builtNodes t)[t.length + r]? = (combineAll (t.length - 1) (firstKeys t) t.length)[r]? := by
  rw [builtNodes_many h, List.getElem?_append_right (by simp)]
  simp

theorem firstKeys_sum (t : Table) : ((firstKeys t).map fun x => x.1.toNat).sum = (t.map fun e => e.2.toNat).sum := by
  congr 1
  apply List.ext_getElem
  · simp
  · intro j h1 h2
    simp [firstKeys]

/-- The rounds of the construction, over the nodes it made (42_construction.md R224 step 3). -/
theorem construct_round {t : Table} (h : 2 ≤ t.length) (hfit : 2 * t.length < 2 ^ 32) {r : Nat} (hr : r < t.length - 1) :
    ∃ a b, (combineAll (t.length - 1) (firstKeys t) t.length)[r]? = some (combined a b) ∧
      InColl (firstKeys t) t.length (combineAll (t.length - 1) (firstKeys t) t.length) r a ∧
      InColl (firstKeys t) t.length (combineAll (t.length - 1) (firstKeys t) t.length) r b ∧ a.2 ≠ b.2 ∧
      (∀ x, InColl (firstKeys t) t.length (combineAll (t.length - 1) (firstKeys t) t.length) r x →
        x.2 ≠ a.2 → Key.less a x = true) ∧
      (∀ x, InColl (firstKeys t) t.length (combineAll (t.length - 1) (firstKeys t) t.length) r x →
        x.2 ≠ a.2 → x.2 ≠ b.2 → Key.less b x = true) ∧
      a.2 < t.length + r ∧ b.2 < t.length + r ∧
      ((t.map fun e => e.2.toNat).sum < 2 ^ 32 → (a.1 + b.1).toNat = a.1.toNat + b.1.toNat) := by
  rw [← firstKeys_sum]
  refine combineAll_spec (by simp; omega) ?_ ?_ (by omega) r hr
  · rw [firstKeys_snd]
    exact List.nodup_range
  · intro x hx
    have : x.2 ∈ (firstKeys t).map Prod.snd := List.mem_map_of_mem hx
    rwa [firstKeys_snd, List.mem_range] at this

/-! ## The tree -/

/-- An arena that holds the nodes of a construction holds a built tree over the table. -/
theorem built_of_table {t : Table} {arena : Buf Node} (ht : t ≠ []) (hn : (t.map Prod.fst).Nodup)
    (hsum : (t.map fun e => e.2.toNat).sum < 2 ^ 32) (hfit : 2 * t.length < 2 ^ 32)
    (hA : ∀ j n, (builtNodes t)[j]? = some n → Buf.load arena j = some n) :
    ∃ T : Built, T.sound ∧ T.heldAt arena (BitVec.ofNat 32 ((builtNodes t).length - 1)) ∧
      T.size = (builtNodes t).length ∧ T.entries.Perm t ∧ T.weight.toNat = (t.map fun e => e.2.toNat).sum := by
  by_cases h2 : 2 ≤ t.length
  · let items : List (Key × HTree) := (List.finRange t.length).map fun j => ((t[j].2, j.1), .leaf t[j].2 t[j].1)
    have hfst : items.map Prod.fst = firstKeys t := by
      apply List.ext_getElem
      · simp [items]
      · intro j h h'
        rw [firstKeys_getElem]
        simp [items]
    have hw : (items.map fun it => it.1.1.toNat) = t.map fun e => e.2.toNat := by
      apply List.ext_getElem <;> simp [items]
    have he : (items.flatMap fun it => it.2.entries) = t := by
      have : (items.flatMap fun it => it.2.entries) = items.map fun it => (match it.2 with | .leaf w s => (s, w) | .fork w _ _ => (0, w)) := by
        simp only [items, List.flatMap_map, List.map_map, HTree.entries, Function.comp_def]
        induction (List.finRange t.length) with
        | nil => rfl
        | cons x xs ih => simp at ih ⊢; exact ih
      rw [this]
      apply List.ext_getElem <;> simp [items]
    have hs : (items.map fun it => it.2.size).sum = t.length := by
      have : (items.map fun it => it.2.size) = List.replicate t.length 1 := by
        apply List.ext_getElem <;> simp [items, HTree.size]
      simp [this]
    obtain ⟨T, k, h1, h3, h4, h5, h6, -, h7⟩ := combineAll_tree (rounds := t.length - 1) (next := t.length)
      (q := firstKeys t) (items := items) (arena := arena) (by rw [hfst]) (by simp; omega)
      (by
        intro it hi
        simp only [items, List.mem_map] at hi
        obtain ⟨j, -, rfl⟩ := hi
        refine ⟨?_, rfl, trivial, j.2⟩
        show Buf.load arena _ = _
        rw [BitVec.toNat_ofNat, Nat.mod_eq_of_lt (by have := j.2; simp only; omega)]
        exact hA _ _ (builtNodes_leaf h2 j.1 j.2))
      (by rw [hw]; exact hsum) (by omega)
      (by
        intro j n hj
        rw [← builtNodes_round h2] at hj
        exact hA _ _ hj)
    obtain ⟨hk, w, l, r, rfl⟩ := h7 (by omega)
    refine ⟨.forked w l r, ⟨h3, ?_⟩, ?_, ?_, ?_, ?_⟩
    · rw [he] at h4
      exact ((h4.map Prod.fst).nodup_iff).2 hn
    · rw [builtNodes_length_many h2]
      show (HTree.fork w l r).heldAt arena _
      rw [hk] at h1
      convert h1 using 2
      omega
    · rw [builtNodes_length_many h2]
      show (HTree.fork w l r).size = _
      rw [h5, hs]
      omega
    · rw [he] at h4
      exact h4
    · rw [hw] at h6
      exact h6
  · match t, ht, h2 with
    | [e], _, _ =>
      refine ⟨.single e.2 e.1, ⟨trivial, by simp [Built.entries]⟩, ⟨0, ?_, ?_⟩, rfl, by simp [Built.entries], by simp [Built.weight]⟩
      · have := hA 1 _ (by rw [builtNodes_one]; rfl)
        simpa [builtNodes_one] using this
      · have := hA 0 _ (by rw [builtNodes_one]; rfl)
        simpa using this
    | _ :: _ :: _, _, h2 => exact absurd (by simp) h2

/-! ## The forest -/

@[simp] theorem Node.leaf_child (w s : Word) (d : Bool) : (Node.leaf w s).child d = .none := Node.fresh_child _ d

theorem combined_child (a b : Key) (d : Bool) :
    (combined a b).child d = some (BitVec.ofNat 32 (if d then b.2 else a.2)) := by
  cases d <;> rfl

/-- The children in a constructed arena: a node has them only from round nodes, and they lie below it. -/
theorem built_child {t : Table} {arena : Buf Node} (h2 : 2 ≤ t.length) (hfit : 2 * t.length < 2 ^ 32)
    (hA : ∀ j n, (builtNodes t)[j]? = some n → Buf.load arena j = some n)
    {k : Nat} {d : Bool} {c : Word} (hk : k < (builtNodes t).length) (hc : childIs arena k d c) :
    ∃ r a b, r < t.length - 1 ∧ k = t.length + r ∧
      (combineAll (t.length - 1) (firstKeys t) t.length)[r]? = some (combined a b) ∧
      c.toNat = (if d then b.2 else a.2) ∧ c.toNat < k ∧ a.2 < k ∧ b.2 < k ∧ a.2 ≠ b.2 ∧
      InColl (firstKeys t) t.length (combineAll (t.length - 1) (firstKeys t) t.length) r a ∧
      InColl (firstKeys t) t.length (combineAll (t.length - 1) (firstKeys t) t.length) r b := by
  rw [builtNodes_length_many h2] at hk
  obtain ⟨n, hn, hnc⟩ := hc
  by_cases hkl : k < t.length
  · have := hA k _ (builtNodes_leaf h2 k hkl)
    rw [this] at hn
    cases hn
    simp at hnc
  · obtain ⟨a, b, h1, ha, hb, hab, -, -, hla, hlb, -⟩ := construct_round h2 hfit (r := k - t.length) (by omega)
    have h3 := hA (t.length + (k - t.length)) _ (by rw [builtNodes_round h2]; exact h1)
    rw [show t.length + (k - t.length) = k by omega] at h3 hla hlb
    rw [h3] at hn
    cases hn
    rw [combined_child] at hnc
    cases hnc
    have : (BitVec.ofNat 32 (if d then b.2 else a.2)).toNat = if d then b.2 else a.2 := by
      rw [BitVec.toNat_ofNat, Nat.mod_eq_of_lt]
      cases d <;> simp <;> omega
    refine ⟨k - t.length, a, b, by omega, by omega, h1, this, ?_, hla, hlb, hab, ha, hb⟩
    rw [this]
    cases d <;> simp <;> omega

/-- A constructed arena is a forest with the last node as root. -/
theorem arenaOk_of_table {t : Table} {arena : Buf Node} (ht : t ≠ []) (hfit : 2 * t.length < 2 ^ 32)
    (hA : ∀ j n, (builtNodes t)[j]? = some n → Buf.load arena j = some n) :
    ArenaOk arena (builtNodes t).length (BitVec.ofNat 32 ((builtNodes t).length - 1)) := by
  have hspec : ∀ k, k < (builtNodes t).length → (Buf.load arena k).isSome := by
    intro k hk
    rw [hA k _ (List.getElem?_eq_getElem hk)]
    rfl
  by_cases h2 : 2 ≤ t.length
  · refine ⟨hspec, ?_, ?_⟩
    · intro k d c hk hc
      obtain ⟨r, a, b, hr, hkr, -, hcv, hlt, -⟩ := built_child h2 hfit hA hk hc
      refine ⟨by omega, ?_⟩
      rintro rfl
      rw [BitVec.toNat_ofNat, Nat.mod_eq_of_lt (by have := builtNodes_length_le ht; omega)] at hlt
      omega
    · intro k k' d d' c hk hk' hc hc'
      obtain ⟨r, a, b, hr, hkr, hL, hcv, hlt, hak, hbk, hab, ha, hb⟩ := built_child h2 hfit hA hk hc
      obtain ⟨r', a', b', hr', hkr', hL', hcv', hlt', hak', hbk', hab', ha', hb'⟩ := built_child h2 hfit hA hk' hc'
      -- a child of an earlier round is no item of a later one
      have gone : ∀ {r r' : Nat} {a b : Key} {d : Bool} {x : Key}, r < r' →
          (combineAll (t.length - 1) (firstKeys t) t.length)[r]? = some (combined a b) →
          InColl (firstKeys t) t.length (combineAll (t.length - 1) (firstKeys t) t.length) r' x →
          x.2 = (if d then b.2 else a.2) → False := by
        intro r r' a b d x hlt hL hx he
        have := hx.2 r _ hlt hL
        simp only [combined] at this
        cases d
        · exact this.1 (by rw [he]; rfl)
        · exact this.2 (by rw [he]; rfl)
      rcases Nat.lt_trichotomy r r' with hrr | hrr | hrr
      · exfalso
        cases d'
        · exact gone (d := d) hrr hL ha' (by simp only [Bool.false_eq_true, if_false] at hcv'; omega)
        · exact gone (d := d) hrr hL hb' (by simp only [if_true] at hcv'; omega)
      · subst hrr
        rw [hL] at hL'
        have e : combined a b = combined a' b' := Option.some.inj hL'
        simp only [combined, Node.mk.injEq] at e
        have hk2 : k < 2 ^ 32 := by have := builtNodes_length_le ht; omega
        have ea := (ofNat_inj (by omega) (by omega)).1 e.2.2.2.1
        have eb := (ofNat_inj (by omega) (by omega)).1 e.2.2.2.2
        refine ⟨by omega, ?_⟩
        cases d <;> cases d' <;> simp at hcv hcv' <;> first | rfl | omega
      · exfalso
        cases d
        · exact gone (d := d') hrr hL' ha (by simp only [Bool.false_eq_true, if_false] at hcv; omega)
        · exact gone (d := d') hrr hL' hb (by simp only [if_true] at hcv; omega)
  · match t, ht, h2 with
    | [e], _, _ =>
      have h0 := hA 0 _ (by rw [builtNodes_one]; rfl)
      have h1 := hA 1 _ (by rw [builtNodes_one]; rfl)
      have key : ∀ k d c, k < 2 → childIs arena k d c → k = 1 ∧ d = false ∧ c = 0 := by
        rintro k d c hk ⟨n, hn, hc⟩
        rcases (by omega : k = 0 ∨ k = 1) with rfl | rfl
        · rw [h0] at hn
          cases hn
          simp at hc
        · rw [h1] at hn
          cases hn
          cases d <;> simp [Node.child] at hc
          exact ⟨rfl, rfl, hc.symm⟩
      refine ⟨hspec, ?_, ?_⟩
      · intro k d c hk hc
        obtain ⟨-, -, rfl⟩ := key k d c hk hc
        exact ⟨by simp [builtNodes_one], by simp [builtNodes_one]⟩
      · intro k k' d d' c hk hk' hc hc'
        obtain ⟨rfl, rfl, -⟩ := key k d c hk hc
        obtain ⟨rfl, rfl, -⟩ := key k' d' c hk' hc'
        exact ⟨rfl, rfl⟩
    | _ :: _ :: _, _, h2 => exact absurd (by simp) h2

/-- Every node a construction makes has its meaningless fields 0. -/
theorem builtNodes_canonical {t : Table} {n : Node} (h : n ∈ builtNodes t) : n.canonical = true := by
  have hleaf : ∀ w s, (Node.leaf w s).canonical = true := by
    intro w s
    simp [Node.canonical, Node.leaf, Node.fresh, Payload.normal, norm]
  have hcomb : ∀ rounds q next n, n ∈ combineAll rounds q next → n.canonical = true := by
    intro rounds
    induction rounds with
    | zero => intro q next n hn; simp [combineAll] at hn
    | succ rounds ih =>
      intro q next n hn
      simp only [combineAll] at hn
      split at hn
      · simp at hn
      · split at hn
        · simp at hn
        · rw [List.mem_cons] at hn
          rcases hn with rfl | hn
          · simp [combined, Node.canonical, Payload.normal, norm]
          · exact ih _ _ _ hn
  by_cases h1 : t.length = 1
  · obtain ⟨e, rfl⟩ := List.length_eq_one_iff.1 h1
    rw [builtNodes_one] at h
    simp only [List.mem_cons, List.not_mem_nil, or_false] at h
    rcases h with rfl | rfl
    · exact hleaf _ _
    · simp [Node.canonical, Payload.normal, norm]
  · have : builtNodes t = leavesOf t ++ combineAll (t.length - 1) (firstKeys t) t.length := by
      match t, h1 with
      | [], _ => rfl
      | _ :: _ :: _, _ => rfl
    rw [this, List.mem_append] at h
    rcases h with h | h
    · simp only [leavesOf, List.mem_map] at h
      obtain ⟨e, -, rfl⟩ := h
      exact hleaf _ _
    · exact hcomb _ _ _ _ h

end Sys2Proof.Machine
end

