-- ==== Sys2Proof/Laws/Codes.lean ====
section
/-! SUPPORT. The code words of a built tree, and what the walk, the lookup and the decoding loop do on it. -/

namespace Sys2Proof.Machine

/-! ## Sizes and symbols -/

theorem HTree.size_eq (t : HTree) : t.size + 1 = 2 * t.entries.length := by
  induction t with
  | leaf w s => rfl
  | fork w l r ihl ihr =>
    simp only [HTree.size, HTree.entries, List.length_append]
    omega

theorem HTree.entries_pos (t : HTree) : 1 ≤ t.entries.length := by
  have := t.size_eq
  omega

theorem HTree.codes_fst (t : HTree) (p : List Bool) : (t.codes p).map Prod.fst = t.entries.map Prod.fst := by
  induction t generalizing p with
  | leaf w s => rfl
  | fork w l r ihl ihr => simp [HTree.codes, HTree.entries, ihl, ihr]

theorem HTree.codes_length (t : HTree) (p : List Bool) : (t.codes p).length = t.entries.length := by
  have := congrArg List.length (t.codes_fst p)
  simpa using this

theorem Built.codes_fst (t : Built) : t.codes.map Prod.fst = t.entries.map Prod.fst := by
  cases t with
  | single w s => rfl
  | forked w l r => exact (HTree.fork w l r).codes_fst []

theorem Built.codes_length (t : Built) : t.codes.length = t.entries.length := by
  have := congrArg List.length t.codes_fst
  simpa using this

/-- Twice the leaves: the size of a tree of two leaves or more, plus one, and of the degenerate tree. -/
theorem Built.size_le (t : Built) : 2 * t.entries.length ≤ t.size + 1 := by
  cases t with
  | single w s => simp [Built.entries, Built.size]
  | forked w l r => exact (HTree.fork w l r).size_eq.ge

theorem Built.entries_pos (t : Built) : 1 ≤ t.entries.length := by
  cases t with
  | single w s => simp [Built.entries]
  | forked w l r => exact (HTree.fork w l r).entries_pos

/-! ## Code words -/

/-- Every code word below a path extends the path. -/
theorem HTree.codes_extend {t : HTree} {p : List Bool} {e : Code} (h : e ∈ t.codes p) : ∃ q, e.2 = p ++ q := by
  induction t generalizing p with
  | leaf w s =>
    simp only [HTree.codes, List.mem_singleton] at h
    subst h
    exact ⟨[], by simp⟩
  | fork w l r ihl ihr =>
    simp only [HTree.codes, List.mem_append] at h
    rcases h with h | h
    · obtain ⟨q, hq⟩ := ihl h
      exact ⟨false :: q, by simp [hq]⟩
    · obtain ⟨q, hq⟩ := ihr h
      exact ⟨true :: q, by simp [hq]⟩

/-- A leaf is at most one step deeper for each further leaf. -/
theorem HTree.codes_depth {t : HTree} {p : List Bool} {e : Code} (h : e ∈ t.codes p) :
    e.2.length + 1 ≤ p.length + t.entries.length := by
  induction t generalizing p with
  | leaf w s =>
    simp only [HTree.codes, List.mem_singleton] at h
    subst h
    simp [HTree.entries]
  | fork w l r ihl ihr =>
    simp only [HTree.codes, List.mem_append] at h
    simp only [HTree.entries, List.length_append]
    have hl := l.entries_pos
    have hr := r.entries_pos
    rcases h with h | h
    · have := ihl h
      simp at this
      omega
    · have := ihr h
      simp at this
      omega

/-- A code word of a built tree is not empty, and is 1 bit or shorter than the number of symbols. -/
theorem Built.codes_depth {t : Built} {e : Code} (h : e ∈ t.codes) :
    e.2 ≠ [] ∧ e.2.length ≤ max 1 (t.entries.length - 1) := by
  cases t with
  | single w s =>
    simp only [Built.codes, List.mem_singleton] at h
    subst h
    simp
  | forked w l r =>
    have h1 := HTree.codes_depth h
    refine ⟨?_, ?_⟩
    · simp only [Built.codes, HTree.codes, List.mem_append, List.nil_append] at h
      rcases h with h | h <;> obtain ⟨q, hq⟩ := HTree.codes_extend h <;> simp [hq]
    · simp only [Built.entries]
      simp at h1
      omega

/-- `a` goes left where `b` goes right. -/
def Diverge (a b : List Bool) : Prop := ∃ u v w, a = u ++ false :: v ∧ b = u ++ true :: w

/-- Of two code words of the map, the earlier goes left where the later goes right. -/
theorem HTree.codes_diverge (t : HTree) (p : List Bool) : (t.codes p).Pairwise fun a b => Diverge a.2 b.2 := by
  induction t generalizing p with
  | leaf w s => simp [HTree.codes]
  | fork w l r ihl ihr =>
    rw [HTree.codes, List.pairwise_append]
    refine ⟨ihl _, ihr _, ?_⟩
    intro a ha b hb
    obtain ⟨v, hv⟩ := HTree.codes_extend ha
    obtain ⟨w', hw⟩ := HTree.codes_extend hb
    exact ⟨p, v, w', by simp [hv], by simp [hw]⟩

theorem Built.codes_diverge (t : Built) : t.codes.Pairwise fun a b => Diverge a.2 b.2 := by
  cases t with
  | single w s => simp [Built.codes]
  | forked w l r => exact (HTree.fork w l r).codes_diverge []

theorem Diverge.not_prefix {a b : List Bool} (h : Diverge a b) : ¬ a <+: b ∧ ¬ b <+: a := by
  obtain ⟨u, v, w, rfl, rfl⟩ := h
  constructor
  · rw [List.prefix_append_right_inj]
    simp
  · rw [List.prefix_append_right_inj]
    simp

/-! ## Following a code word -/

/-- The arena path of a code word ends at the leaf of its symbol, which carries the weight of its entry. -/
theorem HTree.codes_path {t : HTree} {arena : Buf Node} {k : Word} {p r : List Bool} {x : Word}
    (ht : t.heldAt arena k) (h : (x, p ++ r) ∈ t.codes p) :
    ∃ c w, PathTo arena k r c ∧ Buf.load arena c.toNat = some (Node.leaf w x) ∧ (x, w) ∈ t.entries := by
  induction t generalizing p r k with
  | leaf w s =>
    simp only [HTree.codes, List.mem_singleton, Prod.mk.injEq, List.append_right_eq_self] at h
    obtain ⟨rfl, rfl⟩ := h
    exact ⟨k, w, rfl, ht, List.mem_singleton_self _⟩
  | fork w l rt ihl ihr =>
    obtain ⟨a, b, hn, hl, hr⟩ := ht
    simp only [HTree.codes, List.mem_append] at h
    rcases h with h | h
    · obtain ⟨q, hq⟩ := HTree.codes_extend h
      simp only [List.append_assoc, List.append_cancel_left_eq, List.singleton_append] at hq
      subst hq
      obtain ⟨c, w', hp, hc, he⟩ := ihl hl (p := p ++ [false]) (r := q) (by simpa using h)
      exact ⟨c, w', ⟨a, ⟨_, hn, rfl⟩, hp⟩, hc, List.mem_append_left _ he⟩
    · obtain ⟨q, hq⟩ := HTree.codes_extend h
      simp only [List.append_assoc, List.append_cancel_left_eq, List.singleton_append] at hq
      subst hq
      obtain ⟨c, w', hp, hc, he⟩ := ihr hr (p := p ++ [true]) (r := q) (by simpa using h)
      exact ⟨c, w', ⟨b, ⟨_, hn, rfl⟩, hp⟩, hc, List.mem_append_right _ he⟩

theorem Built.codes_path {t : Built} {arena : Buf Node} {root : Word} {p : List Bool} {x : Word}
    (ht : t.heldAt arena root) (h : (x, p) ∈ t.codes) :
    ∃ c w, PathTo arena root p c ∧ Buf.load arena c.toNat = some (Node.leaf w x) ∧ (x, w) ∈ t.entries := by
  cases t with
  | single w s =>
    simp only [Built.codes, List.mem_singleton, Prod.mk.injEq] at h
    obtain ⟨rfl, rfl⟩ := h
    obtain ⟨a, h1, h2⟩ := ht
    exact ⟨a, w, ⟨a, ⟨_, h1, rfl⟩, rfl⟩, h2, List.mem_singleton_self _⟩
  | forked w l r => exact HTree.codes_path (p := []) ht h

/-- A tree depends on the allocated entries only. -/
theorem HTree.heldAt_congr {t : HTree} {arena arena' : Buf Node} {nn : Nat} {root k : Word} (h : ArenaOk arena nn root)
    (hk : k.toNat < nn) (he : ∀ j, j < nn → Buf.load arena' j = Buf.load arena j) (ht : t.heldAt arena k) :
    t.heldAt arena' k := by
  induction t generalizing k with
  | leaf w s =>
    show Buf.load arena' k.toNat = _
    rw [he _ hk]
    exact ht
  | fork w l r ihl ihr =>
    obtain ⟨a, b, hn, hl, hr⟩ := ht
    exact ⟨a, b, by rw [he _ hk]; exact hn, ihl (h.links _ false _ hk ⟨_, hn, rfl⟩).1 hl,
      ihr (h.links _ true _ hk ⟨_, hn, rfl⟩).1 hr⟩

theorem Built.heldAt_congr {t : Built} {arena arena' : Buf Node} {nn : Nat} {root : Word} (h : ArenaOk arena nn root)
    (hk : root.toNat < nn) (he : ∀ j, j < nn → Buf.load arena' j = Buf.load arena j) (ht : t.heldAt arena root) :
    t.heldAt arena' root := by
  cases t with
  | single w s =>
    obtain ⟨a, h1, h2⟩ := ht
    exact ⟨a, by rw [he _ hk]; exact h1, by rw [he _ (h.links _ false _ hk ⟨_, h1, rfl⟩).1]; exact h2⟩
  | forked w l r => exact HTree.heldAt_congr h hk he ht

/-! ## The walk -/

theorem Res.map_map {α β γ : Type} (f : α → β) (g : β → γ) (r : Res α) : (r.map f).map g = r.map (g ∘ f) := by
  cases r <;> rfl

/-- The walk over a tree records its code words, then goes on with the rest of the stack. -/
theorem HTree.walk {t : HTree} {arena : Buf Node} {k : Word} (p : List Bool) (n : Nat) (stack : List (Word × List Bool))
    (ht : t.heldAt arena k) :
    mapWalk arena (t.size + n) ((k, p) :: stack) = (mapWalk arena n stack).map (t.codes p ++ ·) := by
  induction t generalizing k p n stack with
  | leaf w s =>
    rw [HTree.size, Nat.add_comm, mapWalk, loadNode_of_load ht]
    rfl
  | fork w l r ihl ihr =>
    obtain ⟨a, b, hn, hl, hr⟩ := ht
    rw [show (HTree.fork w l r).size + n = (l.size + (r.size + n)) + 1 by simp [HTree.size]; omega]
    rw [mapWalk, loadNode_of_load hn]
    simp only [pushChildren, Node.child, Bool.false_eq_true, if_false, if_true, List.cons_append, List.nil_append, codeHere]
    rw [ihl _ _ _ hl, ihr _ _ _ hr, Res.map_map, Res.map_map]
    congr 1
    funext x
    simp [HTree.codes]

/-- `map_of()` on a built tree is its code map. -/
theorem Built.walk {t : Built} {arena : Buf Node} {root : Word} (ht : t.heldAt arena root) :
    mapWalk arena t.size [(root, [])] = .ok t.codes := by
  cases t with
  | single w s =>
    obtain ⟨a, h1, h2⟩ := ht
    simp [Built.size, mapWalk, loadNode_of_load h1, loadNode_of_load h2, pushChildren, Node.child, codeHere, Built.codes,
      Node.leaf, Node.fresh]
  | forked w l r =>
    have := HTree.walk (t := .fork w l r) [] 0 [] ht
    simpa [mapWalk, Built.codes, Built.size] using this

/-- The code map of a built tree of NODE_CAP nodes or fewer fits the CMAP table. -/
theorem Built.mapFits {t : Built} {c : Config} (h : t.size ≤ c.nodeCap) : mapFits c t.codes = true := by
  have h1 := t.size_le
  simp only [Config.nodeCap] at h
  simp only [Machine.mapFits, Bool.and_eq_true, decide_eq_true_eq, List.all_eq_true]
  refine ⟨by rw [t.codes_length]; omega, fun e he => ?_⟩
  have := (Built.codes_depth he).2
  rw [Config.codeCap]
  omega

/-! ## Entries and lookup -/

theorem padCode_length {cap : Nat} {p : List Bool} (h : p.length ≤ cap) : (padCode cap p).length = cap := by
  simp [padCode]
  omega

theorem padCode_take (cap : Nat) (p : List Bool) : (padCode cap p).take p.length = p := by
  simp [padCode]

theorem cmapEntry_len {cap : Nat} {m : Code} (h : m.2.length < 2 ^ 32) : (cmapEntry cap m).len.toNat = m.2.length := by
  simp only [cmapEntry, BitVec.toNat_ofNat]
  omega

theorem cmapEntry_bits {cap : Nat} {m : Code} (h : m.2.length < 2 ^ 32) : (cmapEntry cap m).bits = m.2 := by
  apply List.ext_getElem
  · simp [CmapEntry.bits, cmapEntry_len h]
  · intro j h1 h2
    simp only [CmapEntry.bits, List.getElem_map, List.getElem_range]
    simp only [cmapEntry, padCode]
    rw [List.getD_append _ _ _ _ h2, List.getD_eq_getElem _ _ h2]

/-- A symbol of the map is found with its own entry. -/
theorem lookup_found {cap i : Nat} {x : Word} {p : List Bool} {m : List Code} (hn : (m.map Prod.fst).Nodup)
    (h : (x, p) ∈ m) : lookup x i (m.map fun e => some (cmapEntry cap e)) = .ok (some (cmapEntry cap (x, p))) := by
  induction m generalizing i with
  | nil => simp at h
  | cons e rest ih =>
    simp only [List.map_cons, List.nodup_cons] at hn
    simp only [List.map_cons, lookup]
    rw [List.mem_cons] at h
    rcases h with rfl | h
    · exact if_pos rfl
    · rw [if_neg, ih hn.2 h]
      intro he
      have he : e.1 = x := he
      exact hn.1 (he ▸ List.mem_map_of_mem (f := Prod.fst) h)

/-- A symbol with no code word is not found. -/
theorem lookup_missing {cap i : Nat} {x : Word} {m : List Code} (h : ∀ p, (x, p) ∉ m) :
    lookup x i (m.map fun e => some (cmapEntry cap e)) = .ok .none := by
  induction m generalizing i with
  | nil => rfl
  | cons e rest ih =>
    simp only [List.map_cons, lookup]
    rw [if_neg, ih fun p hp => h p (List.mem_cons_of_mem _ hp)]
    intro he
    have he : e.1 = x := he
    exact h e.2 (by rw [← he]; exact List.mem_cons_self)

/-! ## Encoding -/

/-- ENCODE's loop over symbols that have code words appends these. -/
theorem encodeText_spelled {nBits cap i c : Nat} {m : List Code} {ts : List Word} {ps : List (List Bool)}
    {rest : List (Option Word)} (hn : (m.map Prod.fst).Nodup) (hlen : ∀ e ∈ m, e.2.length < 2 ^ 32)
    (hl : ts.length = ps.length) (hs : ∀ e ∈ ts.zip ps, e ∈ m) (hc : c + ps.flatten.length ≤ nBits) :
    encodeText nBits (m.map fun e => some (cmapEntry cap e)) i c (ts.map some ++ rest) =
      (encodeText nBits (m.map fun e => some (cmapEntry cap e)) (i + ts.length) (c + ps.flatten.length) rest).map
        (ps.flatten ++ ·) := by
  induction ts generalizing ps i c with
  | nil =>
    have : ps = [] := by simpa using hl.symm
    subst this
    simp only [List.map_nil, List.nil_append, List.length_nil, Nat.add_zero, List.flatten_nil]
    cases encodeText nBits (m.map fun e => some (cmapEntry cap e)) i c rest <;> rfl
  | cons x ts ih =>
    obtain ⟨p, ps, rfl⟩ : ∃ p q, ps = p :: q := by
      cases ps with
      | nil => simp at hl
      | cons p q => exact ⟨p, q, rfl⟩
    simp only [List.zip_cons_cons, List.mem_cons, forall_eq_or_imp] at hs
    simp only [List.flatten_cons, List.length_append] at hc
    simp only [List.map_cons, List.cons_append, encodeText, lookup_found hn hs.1, cmapEntry_len (hlen _ hs.1),
      cmapEntry_bits (hlen _ hs.1)]
    rw [if_neg (by omega), ih (by simpa using hl) hs.2 (by omega), Res.map_map]
    simp only [List.flatten_cons, List.length_append, List.length_cons]
    rw [show i + (ts.length + 1) = i + 1 + ts.length by omega, ← Nat.add_assoc]
    congr 1
    funext y
    simp

/-- A text whose code words do not fit fails with OVERFLOW BITS. -/
theorem encodeText_overflows {nBits cap i c : Nat} {m : List Code} {ts : List Word} {ps : List (List Bool)}
    {rest : List (Option Word)} (hn : (m.map Prod.fst).Nodup) (hlen : ∀ e ∈ m, e.2.length < 2 ^ 32)
    (hl : ts.length = ps.length) (hs : ∀ e ∈ ts.zip ps, e ∈ m) (hc : c ≤ nBits) (hov : nBits < c + ps.flatten.length) :
    encodeText nBits (m.map fun e => some (cmapEntry cap e)) i c (ts.map some ++ rest) = .err (overflow .bits 0) := by
  induction ts generalizing ps i c with
  | nil =>
    have : ps = [] := by simpa using hl.symm
    subst this
    simp at hov
    omega
  | cons x ts ih =>
    obtain ⟨p, ps, rfl⟩ : ∃ p q, ps = p :: q := by
      cases ps with
      | nil => simp at hl
      | cons p q => exact ⟨p, q, rfl⟩
    simp only [List.zip_cons_cons, List.mem_cons, forall_eq_or_imp] at hs
    simp only [List.flatten_cons, List.length_append] at hov
    simp only [List.map_cons, List.cons_append, encodeText, lookup_found hn hs.1, cmapEntry_len (hlen _ hs.1)]
    by_cases hlt : nBits < c + p.length
    · rw [if_pos hlt]
    · rw [if_neg hlt, ih (i := i + 1) (c := c + p.length) (by simpa using hl) hs.2 (by omega) (by omega)]
      rfl

/-- Every text over the map's entries is encoded, or fails with one of ENCODE's two errors. -/
theorem encodeText_total {nBits cap i c : Nat} {m : List Code} {ts : List Word} :
    (∃ bits, encodeText nBits (m.map fun e => some (cmapEntry cap e)) i c (ts.map some) = .ok bits ∧
      (c ≤ nBits → c + bits.length ≤ nBits)) ∨
    encodeText nBits (m.map fun e => some (cmapEntry cap e)) i c (ts.map some) = .err (overflow .bits 0) ∨
    ∃ x pos, encodeText nBits (m.map fun e => some (cmapEntry cap e)) i c (ts.map some) =
      .err { kind := .unknownSymbol, info := x, pos := pos } := by
  induction ts generalizing i c with
  | nil => exact .inl ⟨[], rfl, by simp⟩
  | cons x ts ih =>
    simp only [List.map_cons, encodeText]
    have hlk : ∀ (l : List (Option CmapEntry)) j, (∀ o ∈ l, ∃ y, o = some y) →
        ∃ o, lookup x j l = .ok o := by
      intro l
      induction l with
      | nil => intro j _; exact ⟨_, rfl⟩
      | cons o l ihl =>
        intro j hall
        obtain ⟨y, rfl⟩ := hall o (by simp)
        simp only [lookup]
        split
        · exact ⟨_, rfl⟩
        · exact ihl _ fun o' h' => hall o' (by simp [h'])
    obtain ⟨o, ho⟩ := hlk (m.map fun e => some (cmapEntry cap e)) 0 (by
      intro o ho
      obtain ⟨e, -, rfl⟩ := List.mem_map.1 ho
      exact ⟨_, rfl⟩)
    rw [ho]
    cases o with
    | none => exact .inr (.inr ⟨_, _, rfl⟩)
    | some y =>
      simp only
      split
      · exact .inr (.inl rfl)
      · rcases ih (i := i + 1) (c := c + y.len.toNat) with ⟨bits, hb, hle⟩ | hj | ⟨x', pos, hx⟩
        · refine .inl ⟨y.bits ++ bits, by rw [hb]; rfl, fun _ => ?_⟩
          have : y.bits.length = y.len.toNat := by simp [CmapEntry.bits]
          have := hle (by omega)
          simp only [List.length_append]
          omega
        · exact .inr (.inl (by rw [hj]; rfl))
        · exact .inr (.inr ⟨x', pos, by rw [hx]; rfl⟩)

/-! ## Decoding -/

/-- A code word, read from a fork, gives its symbol, and the cursor is back at the root. -/
theorem HTree.decode_code {t : HTree} {arena : Buf Node} {root k : Word} {p r : List Bool} {x : Word} {start i : Nat}
    {rest : List (Option Bool)} (ht : t.heldAt arena k) (h : (x, p ++ r) ∈ t.codes p) (hr : r ≠ []) :
    decodeBits arena root k start i (r.map some ++ rest) =
      (decodeBits arena root root (i + r.length) (i + r.length) rest).map (x :: ·) := by
  induction t generalizing p r k i with
  | leaf w s =>
    simp only [HTree.codes, List.mem_singleton, Prod.mk.injEq, List.append_right_eq_self] at h
    exact absurd h.2 hr
  | fork w l rt ihl ihr =>
    obtain ⟨a, b, hn, hl, hrt⟩ := ht
    -- the child reached by the first digit
    have child : ∀ (d : Bool) (c : Word) (s : HTree) (q : List Bool), s.heldAt arena c → r = d :: q →
        (x, (p ++ [d]) ++ q) ∈ s.codes (p ++ [d]) → (if d then some b else some a) = some c →
        (q ≠ [] → decodeBits arena root c start (i + 1) (q.map some ++ rest) =
          (decodeBits arena root root (i + 1 + q.length) (i + 1 + q.length) rest).map (x :: ·)) →
        decodeBits arena root k start i (r.map some ++ rest) =
          (decodeBits arena root root (i + r.length) (i + r.length) rest).map (x :: ·) := by
      intro d c s q hs hrq hx hc hq
      subst hrq
      have hcc : (Node.child { payload := ⟨true, false, w, 0⟩, lv := true, rv := true, left := a, right := b } d) = some c := by
        cases d <;> simpa [Node.child] using hc
      simp only [List.map_cons, List.cons_append, decodeBits, loadNode_of_load hn, hcc]
      cases s with
      | leaf w' s' =>
        simp only [HTree.codes, List.mem_singleton, Prod.mk.injEq, List.append_right_eq_self] at hx
        obtain ⟨rfl, rfl⟩ := hx
        rw [loadNode_of_load hs]
        rfl
      | fork w' l' r' =>
        obtain ⟨a', b', hn', -, -⟩ := id hs
        rw [loadNode_of_load hn']
        have hq0 : q ≠ [] := by
          rintro rfl
          simp only [HTree.codes, List.mem_append] at hx
          rcases hx with hx | hx <;> obtain ⟨q, hq⟩ := HTree.codes_extend hx <;> simp at hq
        simp only [Bool.false_eq_true, if_false, hq hq0, List.length_cons]
        rw [show i + (q.length + 1) = i + 1 + q.length by omega]
    simp only [HTree.codes, List.mem_append] at h
    rcases h with h | h
    · obtain ⟨q, hq⟩ := HTree.codes_extend h
      simp only [List.append_assoc, List.append_cancel_left_eq, List.singleton_append] at hq
      have hx : (x, (p ++ [false]) ++ q) ∈ l.codes (p ++ [false]) := by simpa [hq] using h
      exact child false a l q hl hq hx rfl fun hq0 => ihl hl hx hq0
    · obtain ⟨q, hq⟩ := HTree.codes_extend h
      simp only [List.append_assoc, List.append_cancel_left_eq, List.singleton_append] at hq
      have hx : (x, (p ++ [true]) ++ q) ∈ rt.codes (p ++ [true]) := by simpa [hq] using h
      exact child true b rt q hrt hq hx rfl fun hq0 => ihr hrt hx hq0

/-- A code word of a built tree gives its symbol. -/
theorem Built.decode_code {t : Built} {arena : Buf Node} {root : Word} {p : List Bool} {x : Word} {start i : Nat}
    {rest : List (Option Bool)} (ht : t.heldAt arena root) (h : (x, p) ∈ t.codes) :
    decodeBits arena root root start i (p.map some ++ rest) =
      (decodeBits arena root root (i + p.length) (i + p.length) rest).map (x :: ·) := by
  cases t with
  | single w s =>
    simp only [Built.codes, List.mem_singleton, Prod.mk.injEq] at h
    obtain ⟨rfl, rfl⟩ := h
    obtain ⟨a, h1, h2⟩ := ht
    simp [decodeBits, loadNode_of_load h1, loadNode_of_load h2, Node.child, Node.leaf, Node.fresh]
  | forked w l r => exact HTree.decode_code (p := []) ht h (Built.codes_depth h).1

/-- A concatenation of code words gives their symbols. -/
theorem Built.decode_spelled {t : Built} {arena : Buf Node} {root : Word} {ts : List Word} {ps : List (List Bool)}
    {i : Nat} {rest : List (Option Bool)} (ht : t.heldAt arena root) (hl : ts.length = ps.length)
    (hs : ∀ e ∈ ts.zip ps, e ∈ t.codes) :
    decodeBits arena root root i i (ps.flatten.map some ++ rest) =
      (decodeBits arena root root (i + ps.flatten.length) (i + ps.flatten.length) rest).map (ts ++ ·) := by
  induction ts generalizing ps i with
  | nil =>
    have : ps = [] := by simpa using hl.symm
    subst this
    simp only [List.flatten_nil, List.map_nil, List.nil_append, List.length_nil, Nat.add_zero]
    cases decodeBits arena root root i i rest <;> rfl
  | cons x ts ih =>
    obtain ⟨p, ps, rfl⟩ : ∃ p q, ps = p :: q := by
      cases ps with
      | nil => simp at hl
      | cons p q => exact ⟨p, q, rfl⟩
    simp only [List.zip_cons_cons, List.mem_cons, forall_eq_or_imp] at hs
    simp only [List.flatten_cons, List.map_append, List.append_assoc]
    rw [Built.decode_code ht hs.1, ih (by simpa using hl) hs.2, Res.map_map, List.length_append, ← Nat.add_assoc]
    rfl

/-- The first steps of a code word leave the cursor at the node they lead to. -/
theorem decodeBits_steps {arena : Buf Node} {root k c : Word} {t : HTree} {p r q : List Bool} {x : Word} {start i : Nat}
    {rest : List (Option Bool)} (ht : t.heldAt arena k) (h : (x, p ++ (r ++ q)) ∈ t.codes p) (hq : q ≠ [])
    (hc : PathTo arena k r c) :
    decodeBits arena root k start i (r.map some ++ rest) = decodeBits arena root c start (i + r.length) rest := by
  induction t generalizing p r k i with
  | leaf w s =>
    simp only [HTree.codes, List.mem_singleton, Prod.mk.injEq, List.append_right_eq_self, List.append_eq_nil_iff] at h
    exact absurd h.2.2 hq
  | fork w l rt ihl ihr =>
    cases r with
    | nil => cases hc; rfl
    | cons d r =>
      obtain ⟨a, b, hn, hl, hrt⟩ := ht
      obtain ⟨k', hk', hp⟩ := hc
      obtain ⟨n, hn', hcc⟩ := hk'
      rw [hn] at hn'
      cases hn'
      simp only [List.map_cons, List.cons_append, decodeBits, loadNode_of_load hn, hcc]
      have go : ∀ s : HTree, s.heldAt arena k' → (x, (p ++ [d]) ++ (r ++ q)) ∈ s.codes (p ++ [d]) →
          decodeBits arena root k' start (i + 1) (r.map some ++ rest) =
            decodeBits arena root c start (i + 1 + r.length) rest →
          (match loadNode arena k' with
            | .ok m =>
              if m.payload.symv = true then
                (decodeBits arena root root (i + 1) (i + 1) (r.map some ++ rest)).map (m.payload.sym :: ·)
              else decodeBits arena root k' start (i + 1) (r.map some ++ rest)
            | .err e => .err e
            | .fault f => .fault f) = decodeBits arena root c start (i + (d :: r).length) rest := by
        intro s hs hx he
        cases s with
        | leaf w' s' =>
          simp only [HTree.codes, List.mem_singleton, Prod.mk.injEq, List.append_right_eq_self,
            List.append_eq_nil_iff] at hx
          exact absurd hx.2.2 hq
        | fork w' l' r' =>
          obtain ⟨a', b', hn', -, -⟩ := id hs
          rw [loadNode_of_load hn']
          simp only [Bool.false_eq_true, if_false, he, List.length_cons]
          rw [show i + (r.length + 1) = i + 1 + r.length by omega]
      simp only [HTree.codes, List.mem_append] at h
      rcases h with h | h
      · obtain ⟨q', hq'⟩ := HTree.codes_extend h
        simp only [List.append_assoc, List.append_cancel_left_eq, List.cons_append, List.cons.injEq] at hq'
        obtain ⟨rfl, -⟩ := hq'
        simp only [Node.child, Bool.false_eq_true, if_false, if_true, Option.some.injEq] at hcc
        subst hcc
        have hx : (x, (p ++ [false]) ++ (r ++ q)) ∈ l.codes (p ++ [false]) := by simpa using h
        exact go l hl hx (ihl hl hx hp)
      · obtain ⟨q', hq'⟩ := HTree.codes_extend h
        simp only [List.append_assoc, List.append_cancel_left_eq, List.cons_append, List.cons.injEq] at hq'
        obtain ⟨rfl, -⟩ := hq'
        simp only [Node.child, if_true, Option.some.injEq] at hcc
        subst hcc
        have hx : (x, (p ++ [true]) ++ (r ++ q)) ∈ rt.codes (p ++ [true]) := by simpa using h
        exact go rt hrt hx (ihr hrt hx hp)

/-- The decoding loop over a fork: it ends with at most one symbol a bit, inside a code word, or at an unspecified bit. -/
theorem HTree.decode_total {w : Word} {l r : HTree} {arena : Buf Node} {root : Word}
    (hroot : (HTree.fork w l r).heldAt arena root) {t : HTree} {k : Word} (ht : t.heldAt arena k)
    (hf : ∃ w l r, t = .fork w l r) (start i : Nat) (bits : List (Option Bool)) :
    (∃ ts, decodeBits arena root k start i bits = .ok ts ∧ ts.length ≤ bits.length) ∨
    (∃ info pos, decodeBits arena root k start i bits = .err { kind := .truncatedStream, info, pos }) ∨
    (.none ∈ bits ∧ ∃ f, decodeBits arena root k start i bits = .fault f) := by
  induction bits generalizing t k start i with
  | nil =>
    simp only [decodeBits]
    split
    · exact .inl ⟨[], rfl, by simp⟩
    · exact .inr (.inl ⟨_, _, rfl⟩)
  | cons o bits ih =>
    cases o with
    | none => exact .inr (.inr ⟨by simp, _, rfl⟩)
    | some b =>
    obtain ⟨w', l', r', rfl⟩ := hf
    obtain ⟨a, c, hn, hl, hr⟩ := ht
    have hcc : ∃ k' s, (Node.child { payload := ⟨true, false, w', 0⟩, lv := true, rv := true, left := a, right := c } b) = some k' ∧ HTree.heldAt arena s k' := by
      cases b
      · exact ⟨a, l', rfl, hl⟩
      · exact ⟨c, r', rfl, hr⟩
    obtain ⟨k', s, hk', hs⟩ := hcc
    simp only [decodeBits, loadNode_of_load hn, hk']
    cases s with
    | leaf w'' x =>
      rw [loadNode_of_load hs]
      simp only [Node.leaf, Node.fresh, if_true]
      rcases ih hroot ⟨_, _, _, rfl⟩ (i + 1) (i + 1) with ⟨ts, he, hle⟩ | ⟨info, pos, he⟩ | ⟨hm, f, he⟩
      · exact .inl ⟨x :: ts, by rw [he]; rfl, by simp; omega⟩
      · exact .inr (.inl ⟨info, pos, by rw [he]; rfl⟩)
      · exact .inr (.inr ⟨by simp [hm], f, by rw [he]; rfl⟩)
    | fork w'' l'' r'' =>
      obtain ⟨a', b', hn', -, -⟩ := id hs
      rw [loadNode_of_load hn']
      simp only [Bool.false_eq_true, if_false]
      rcases ih hs ⟨_, _, _, rfl⟩ start (i + 1) with ⟨ts, he, hle⟩ | ⟨info, pos, he⟩ | ⟨hm, f, he⟩
      · exact .inl ⟨ts, he, by simp; omega⟩
      · exact .inr (.inl ⟨info, pos, he⟩)
      · exact .inr (.inr ⟨by simp [hm], f, he⟩)

/-- The decoding loop makes at most one symbol a bit, whatever the arena holds. -/
theorem decodeBits_length {arena : Buf Node} {root k : Word} {start i : Nat} {bits : List (Option Bool)} {ts : List Word}
    (h : decodeBits arena root k start i bits = .ok ts) : ts.length ≤ bits.length := by
  induction bits generalizing k start i ts with
  | nil =>
    simp only [decodeBits] at h
    split at h
    · cases h; simp
    · cases h
  | cons o bits ih =>
    cases o with
    | none => simp [decodeBits] at h
    | some b =>
      simp only [decodeBits] at h
      split at h <;> try simp at h
      split at h <;> try simp at h
      split at h <;> try simp at h
      split at h
      · rw [Res.map_ok] at h
        obtain ⟨us, hu, rfl⟩ := h
        have := ih hu
        simp
        omega
      · have := ih h
        simp
        omega

/-- On the degenerate tree the bits are zeros, or the first one is CORRUPT_STREAM at its position. -/
theorem decode_single {w x : Word} {arena : Buf Node} {root : Word} (ht : (Built.single w x).heldAt arena root)
    (i : Nat) (bits : List Bool) :
    ((∀ b ∈ bits, b = false) ∧
      decodeBits arena root root i i (bits.map some) = .ok (List.replicate bits.length x)) ∨
    ∃ k rest, bits = List.replicate k false ++ true :: rest ∧
      ∀ more, decodeBits arena root root i i (bits.map some ++ more) =
        .err { kind := .corruptStream, info := 1, pos := BitVec.ofNat 32 (i + k) } := by
  obtain ⟨a, h1, h2⟩ := id ht
  induction bits generalizing i with
  | nil => exact .inl ⟨by simp, by simp [decodeBits]⟩
  | cons b bits ih =>
    cases b
    · have step : ∀ l, decodeBits arena root root i i (some false :: l) =
          (decodeBits arena root root (i + 1) (i + 1) l).map (x :: ·) := by
        intro l
        simp only [decodeBits, loadNode_of_load h1, Node.child, Bool.false_eq_true, if_false, if_true,
          loadNode_of_load h2]
        rfl
      rcases ih (i + 1) with ⟨hz, he⟩ | ⟨k, rest, rfl, he⟩
      · refine .inl ⟨by simpa using hz, ?_⟩
        rw [List.map_cons, step, he]
        simp [List.replicate_succ]
      · refine .inr ⟨k + 1, rest, by simp [List.replicate_succ], fun more => ?_⟩
        rw [List.map_cons, List.cons_append, step, he]
        simp only [Res.map_err_eq]
        congr 3
        omega
    · refine .inr ⟨0, bits, rfl, fun more => ?_⟩
      simp [decodeBits, loadNode_of_load h1, Node.child]

end Sys2Proof.Machine
end

