-- ==== Sys2Proof/Laws/Inv.lean ====
section
/-! SUPPORT. The invariant under each shared operation, and the canonical form of the storage. -/

namespace Sys2Proof.Machine

/-! ## The storage -/

/-- The canonical form, buffer by buffer. -/
theorem Memory.wf_iff {m : Memory} : m.wf = true ↔
    Buf.wf m.text = true ∧ Buf.wf m.freqSym = true ∧ Buf.wf m.freqCount = true ∧ Buf.wf m.node = true ∧
    Buf.wf m.cmap = true ∧ Buf.wf m.bit = true ∧ Buf.wf m.byte = true ∧ Buf.wf m.out = true ∧ Buf.wf m.path = true := by
  simp only [Memory.wf, Bool.and_eq_true, and_assoc]

/-- The capacities, buffer by buffer. -/
theorem Memory.within_iff {m : Memory} {c : Config} : m.within c = true ↔
    Buf.within m.text c.nText = true ∧ Buf.within m.freqSym c.nSym = true ∧ Buf.within m.freqCount c.nSym = true ∧
    Buf.within m.node c.nodeCap = true ∧ Buf.within m.cmap c.nSym = true ∧ Buf.within m.bit c.nBits = true ∧
    Buf.within m.byte c.nBytes = true ∧ Buf.within m.out c.nOut = true ∧ Buf.within m.path c.nPath = true := by
  simp only [Memory.within, Bool.and_eq_true, and_assoc]

@[simp] theorem Memory.unspecified_wf : Memory.unspecified.wf = true := rfl

@[simp] theorem Memory.unspecified_within (c : Config) : Memory.unspecified.within c = true := rfl

/-- The memory of the machine after reset has the canonical form. -/
theorem State.reset_mem_wf : State.reset.mem.wf = true := rfl

/-- What an aborted command leaves keeps the canonical form. -/
theorem abortHavoc_wf {m : Memory} (h : m.wf = true) (c : Decoded) : (abortHavoc c m).wf = true := by
  rw [Memory.wf_iff] at *
  obtain ⟨h1, h2, h3, h4, h5, h6, h7, h8, h9⟩ := h
  match c with
  | .command i => cases i <;> refine ⟨?_, ?_, ?_, ?_, ?_, ?_, ?_, ?_, ?_⟩ <;> first | rfl | assumption
  | .bad _ => exact ⟨h1, h2, h3, h4, h5, h6, h7, h8, h9⟩

theorem abortHavoc_within {m : Memory} {cfg : Config} (h : m.within cfg = true) (c : Decoded) :
    (abortHavoc c m).within cfg = true := by
  rw [Memory.within_iff] at *
  obtain ⟨h1, h2, h3, h4, h5, h6, h7, h8, h9⟩ := h
  match c with
  | .command i => cases i <;> refine ⟨?_, ?_, ?_, ?_, ?_, ?_, ?_, ?_, ?_⟩ <;> first | rfl | assumption
  | .bad _ => exact ⟨h1, h2, h3, h4, h5, h6, h7, h8, h9⟩

/-- What an aborted command leaves of the arena: it, or nothing. -/
theorem abortHavoc_node (m : Memory) (c : Decoded) : (abortHavoc c m).node = m.node ∨ (abortHavoc c m).node = [] := by
  match c with
  | .command i => cases i <;> first | exact .inl rfl | exact .inr rfl
  | .bad _ => exact .inl rfl

/-! ## The bounds of the capacities -/

theorem Config.bounds {c : Config} (h : c.wellFormed = true) :
    1 ≤ c.nText ∧ c.nText ≤ 2 ^ 22 ∧ 1 ≤ c.nSym ∧ c.nSym ≤ 4096 ∧ 8 ≤ c.nBits ∧ c.nBits ≤ 2 ^ 22 ∧
    1 ≤ c.nPath ∧ c.nPath ≤ 2 ^ 22 := by
  simp only [Config.wellFormed, Bool.and_eq_true, decide_eq_true_eq] at h
  omega

theorem ArenaOk.empty (arena : Buf Node) (root : Word) : ArenaOk arena 0 root :=
  ⟨fun _ h => absurd h (Nat.not_lt_zero _), fun _ _ _ h => absurd h (Nat.not_lt_zero _),
    fun _ _ _ _ _ h => absurd h (Nat.not_lt_zero _)⟩

/-! ## The invariant -/

/-- A state that differs only where the invariant does not look. -/
theorem State.Inv.congr {s t : State} (h : s.Inv) (hcfg : t.cfg = s.cfg) (hwf : t.mem.wf = true)
    (hwithin : t.mem.within s.cfg = true) (hnode : t.mem.node = s.mem.node) (hcmap : t.mem.cmap = s.mem.cmap)
    (hnn : t.nnodes = s.nnodes) (hroot : t.root = s.root) (htree : t.treeOk = s.treeOk) (hmap : t.mapOk = s.mapOk)
    (hcount : t.cmapCount = s.cmapCount) (hres : t.res.normal = true) (herr : t.errCode.toNat ≤ 0x0C) : t.Inv where
  config := by rw [hcfg]; exact h.config
  canonical := hwf
  within := by rw [hcfg]; exact hwithin
  nodesFit := by rw [hnn, hcfg]; exact h.nodesFit
  rootFits := by rw [hnn, hroot]; exact h.rootFits
  arena := by rw [hnode, hnn, hroot]; exact h.arena
  nodes := by rw [hnode]; exact h.nodes
  built := by
    rw [htree]
    intro ht
    obtain ⟨T, h1, h2, h3, h4⟩ := h.built ht
    refine ⟨T, h1, ?_, ?_, ?_⟩
    · rw [hnode, hroot]; exact h2
    · rw [hnn]; exact h3
    · rw [hmap, hcfg]
      simp only [State.mapOperand, hcmap, hcount]
      exact h4
  mapNeedsTree := by rw [hmap, htree]; exact h.mapNeedsTree
  countNeedsMap := by rw [hmap, hcount]; exact h.countNeedsMap
  resNormal := hres
  errLegal := herr

theorem State.Inv.complete {s : State} (h : s.Inv) {code : BitVec 8} (hc : code.toNat ≤ 0x0C) (info pos : Word) :
    (s.complete code info pos).Inv :=
  h.congr rfl h.canonical h.within rfl rfl rfl rfl rfl rfl rfl h.resNormal hc

theorem State.Inv.succeed {s : State} (h : s.Inv) : s.succeed.Inv := h.complete (by decide) 0 0

theorem State.Inv.raise {s : State} (h : s.Inv) (e : Err) : (s.raise e).Inv := h.complete e.kind.code_le _ _

theorem State.Inv.setRes {s : State} (h : s.Inv) {p : Payload} (hp : p.normal = true) : (s.setRes p).Inv :=
  h.congr rfl h.canonical h.within rfl rfl rfl rfl rfl rfl rfl hp h.errLegal

theorem State.Inv.abandonFreq {s : State} (h : s.Inv) : s.abandonFreq.Inv := by
  refine h.congr rfl ?_ ?_ rfl rfl rfl rfl rfl rfl rfl h.resNormal h.errLegal
  · obtain ⟨h1, h2, h3, h4, h5, h6, h7, h8, h9⟩ := Memory.wf_iff.1 h.canonical
    exact Memory.wf_iff.2 ⟨h1, rfl, rfl, h4, h5, h6, h7, h8, h9⟩
  · obtain ⟨h1, h2, h3, h4, h5, h6, h7, h8, h9⟩ := Memory.within_iff.1 h.within
    exact Memory.within_iff.2 ⟨h1, rfl, rfl, h4, h5, h6, h7, h8, h9⟩

theorem State.Inv.abandonBits {s : State} (h : s.Inv) : s.abandonBits.Inv := by
  refine h.congr rfl ?_ ?_ rfl rfl rfl rfl rfl rfl rfl h.resNormal h.errLegal
  · obtain ⟨h1, h2, h3, h4, h5, h6, h7, h8, h9⟩ := Memory.wf_iff.1 h.canonical
    exact Memory.wf_iff.2 ⟨h1, h2, h3, h4, h5, rfl, h7, h8, h9⟩
  · obtain ⟨h1, h2, h3, h4, h5, h6, h7, h8, h9⟩ := Memory.within_iff.1 h.within
    exact Memory.within_iff.2 ⟨h1, h2, h3, h4, h5, rfl, h7, h8, h9⟩

theorem State.Inv.abandonOut {s : State} (h : s.Inv) : s.abandonOut.Inv := by
  refine h.congr rfl ?_ ?_ rfl rfl rfl rfl rfl rfl rfl h.resNormal h.errLegal
  · obtain ⟨h1, h2, h3, h4, h5, h6, h7, h8, h9⟩ := Memory.wf_iff.1 h.canonical
    exact Memory.wf_iff.2 ⟨h1, h2, h3, h4, h5, h6, h7, rfl, h9⟩
  · obtain ⟨h1, h2, h3, h4, h5, h6, h7, h8, h9⟩ := Memory.within_iff.1 h.within
    exact Memory.within_iff.2 ⟨h1, h2, h3, h4, h5, h6, h7, rfl, h9⟩

theorem State.Inv.storeFreq {s : State} (h : s.Inv) {t : Table} (ht : t.length ≤ s.cfg.nSym) : (s.storeFreq t).Inv := by
  refine h.congr rfl ?_ ?_ rfl rfl rfl rfl rfl rfl rfl h.resNormal h.errLegal
  · obtain ⟨h1, h2, h3, h4, h5, h6, h7, h8, h9⟩ := Memory.wf_iff.1 h.canonical
    exact Memory.wf_iff.2 ⟨h1, Buf.wf_storeAll h2 _ _, Buf.wf_storeAll h3 _ _, h4, h5, h6, h7, h8, h9⟩
  · obtain ⟨h1, h2, h3, h4, h5, h6, h7, h8, h9⟩ := Memory.within_iff.1 h.within
    exact Memory.within_iff.2 ⟨h1, Buf.within_storeAll h2 (by simp; omega), Buf.within_storeAll h3 (by simp; omega),
      h4, h5, h6, h7, h8, h9⟩

theorem State.Inv.storeBits {s : State} (h : s.Inv) {bits : List Bool} (hb : bits.length ≤ s.cfg.nBits) :
    (s.storeBits bits).Inv := by
  refine h.congr rfl ?_ ?_ rfl rfl rfl rfl rfl rfl rfl h.resNormal h.errLegal
  · obtain ⟨h1, h2, h3, h4, h5, h6, h7, h8, h9⟩ := Memory.wf_iff.1 h.canonical
    exact Memory.wf_iff.2 ⟨h1, h2, h3, h4, h5, Buf.wf_storeAll h6 _ _, h7, h8, h9⟩
  · obtain ⟨h1, h2, h3, h4, h5, h6, h7, h8, h9⟩ := Memory.within_iff.1 h.within
    exact Memory.within_iff.2 ⟨h1, h2, h3, h4, h5, Buf.within_storeAll h6 (by omega), h7, h8, h9⟩

/-- Another arena and NNODES, ROOT and the flags of an edit. -/
theorem State.Inv.edited {s t : State} (h : s.Inv) (hcfg : t.cfg = s.cfg)
    (hmem : t.mem = { s.mem with node := t.mem.node }) (hwf : Buf.wf t.mem.node = true)
    (hwithin : Buf.within t.mem.node s.cfg.nodeCap = true) (hfit : t.nnodes.toNat ≤ s.cfg.nodeCap)
    (hroot : t.root.toNat < t.nnodes.toNat) (harena : ArenaOk t.mem.node t.nnodes.toNat t.root)
    (hcan : ∀ k n, Buf.load t.mem.node k = some n → n.canonical = true)
    (hbuilt : t.treeOk = true → ∃ T : Built, T.sound ∧ T.heldAt t.mem.node t.root ∧ T.size = t.nnodes.toNat)
    (hmap : t.mapOk = false) (hcount : t.cmapCount = 0) (hres : t.res = s.res) (herr : t.errCode.toNat ≤ 0x0C) :
    t.Inv where
  config := by rw [hcfg]; exact h.config
  canonical := by
    obtain ⟨h1, h2, h3, h4, h5, h6, h7, h8, h9⟩ := Memory.wf_iff.1 h.canonical
    rw [hmem]
    exact Memory.wf_iff.2 ⟨h1, h2, h3, hwf, h5, h6, h7, h8, h9⟩
  within := by
    obtain ⟨h1, h2, h3, h4, h5, h6, h7, h8, h9⟩ := Memory.within_iff.1 h.within
    rw [hmem, hcfg]
    exact Memory.within_iff.2 ⟨h1, h2, h3, hwithin, h5, h6, h7, h8, h9⟩
  nodesFit := by rw [hcfg]; exact hfit
  rootFits := fun _ => hroot
  arena := harena
  nodes := hcan
  built := by
    intro ht
    obtain ⟨T, h1, h2, h3⟩ := hbuilt ht
    exact ⟨T, h1, h2, h3, by rw [hmap]; simp⟩
  mapNeedsTree := by rw [hmap]; simp
  countNeedsMap := fun _ => hcount
  resNormal := by rw [hres]; exact h.resNormal
  errLegal := herr

/-- A construction from a legal table. -/
theorem State.Inv.construct {s : State} (h : s.Inv) {t : Table} (ht : t ≠ []) (hlen : t.length ≤ s.cfg.nSym)
    (hn : (t.map Prod.fst).Nodup) (hsum : (t.map fun e => e.2.toNat).sum < 2 ^ 32) :
    (s.construct t).Inv ∧ ∃ T : Built, (s.construct t).holdsBuilt T ∧ T.entries.Perm t ∧
      T.weight.toNat = (t.map fun e => e.2.toNat).sum := by
  have hb := Config.bounds h.config
  obtain ⟨hl1, hl2⟩ := builtNodes_length_le ht
  have hA : ∀ j n, (builtNodes t)[j]? = some n → Buf.load (s.construct t).mem.node j = some n := by
    intro j n hj
    obtain ⟨hj', rfl⟩ := List.getElem?_eq_some_iff.1 hj
    exact Buf.load_storeAll_inside _ _ _ hj'
  have hnn : (s.construct t).nnodes.toNat = (builtNodes t).length := by
    show (BitVec.ofNat 32 _).toNat = _
    rw [BitVec.toNat_ofNat, Nat.mod_eq_of_lt (by omega)]
  have hroot : (s.construct t).root = BitVec.ofNat 32 ((builtNodes t).length - 1) := rfl
  have hrootn : (s.construct t).root.toNat = (builtNodes t).length - 1 := by
    rw [hroot, BitVec.toNat_ofNat, Nat.mod_eq_of_lt (by omega)]
  obtain ⟨T, h1, h2, h3, h4, h5⟩ := built_of_table ht hn hsum (by omega) hA
  rw [← hroot] at h2
  obtain ⟨-, -, -, w4, -⟩ := Memory.wf_iff.1 h.canonical
  obtain ⟨-, -, -, c4, -⟩ := Memory.within_iff.1 h.within
  have hcap : s.cfg.nodeCap = 2 * s.cfg.nSym := rfl
  refine ⟨h.edited (t := s.construct t) rfl rfl (Buf.wf_storeAll w4 _ _) (Buf.within_storeAll c4 (by omega))
    (by rw [hnn]; omega) (by rw [hnn, hrootn]; omega)
    (by rw [hnn, hroot]; exact arenaOk_of_table ht (by omega) hA) ?_
    (fun _ => ⟨T, h1, h2, by rw [hnn]; exact h3⟩) rfl rfl rfl h.errLegal, T, ⟨h1, h2, by rw [hnn]; exact h3, by simp⟩, h4, h5⟩
  intro k n hk
  by_cases hlt : k < (builtNodes t).length
  · have := hA k _ (List.getElem?_eq_getElem hlt)
    rw [this] at hk
    cases hk
    exact builtNodes_canonical (List.getElem_mem hlt)
  · have : Buf.load (s.construct t).mem.node k = Buf.load s.mem.node k := Buf.load_storeAll_outside _ _ _ _ (by omega)
    rw [this] at hk
    exact h.nodes k n hk

/-- A built tree has at most N_SYM leaves, and its code words fit an entry. -/
theorem State.Inv.codes_fit {s : State} {T : Built} (h : s.Inv) (hT : s.holdsBuilt T) :
    T.entries.length ≤ s.cfg.nSym ∧ ∀ e ∈ T.codes, e.2 ≠ [] ∧ e.2.length ≤ s.cfg.codeCap ∧ e.2.length < 2 ^ 32 := by
  have hb := Config.bounds h.config
  have h1 := T.size_le
  have h2 := h.nodesFit
  have h3 := hT.2.2.1
  have hcap : s.cfg.nodeCap = 2 * s.cfg.nSym := rfl
  refine ⟨by omega, fun e he => ?_⟩
  obtain ⟨h4, h5⟩ := Built.codes_depth he
  have hcc : s.cfg.codeCap = max 1 (s.cfg.nSym - 1) := rfl
  exact ⟨h4, by omega, by omega⟩

/-- The map derivation on a built tree: it gives the tree's code map. -/
theorem State.Inv.deriveMap {s : State} {T : Built} (h : s.Inv) (hT : s.holdsBuilt T) :
    Machine.deriveMap s = .ok (s.storeMap T.codes) := by
  unfold Machine.deriveMap State.mapOf
  rw [← hT.2.2.1, Built.walk hT.2.1]
  simp only
  rw [if_pos (Built.mapFits (hT.2.2.1 ▸ h.nodesFit))]

/-- The map that a derivation stores. -/
theorem State.Inv.storeMap {s : State} {T : Built} (h : s.Inv) (htree : s.treeOk = true) (hT : s.holdsBuilt T) :
    (s.storeMap T.codes).Inv ∧ (s.storeMap T.codes).holdsBuilt T := by
  have hb := Config.bounds h.config
  obtain ⟨hl, -⟩ := h.codes_fit hT
  rw [← T.codes_length] at hl
  obtain ⟨w1, w2, w3, w4, w5, w6, w7, w8, w9⟩ := Memory.wf_iff.1 h.canonical
  obtain ⟨c1, c2, c3, c4, c5, c6, c7, c8, c9⟩ := Memory.within_iff.1 h.within
  have hcount : (s.storeMap T.codes).cmapCount.toNat = T.codes.length := by
    show (BitVec.ofNat 32 _).toNat = _
    rw [BitVec.toNat_ofNat, Nat.mod_eq_of_lt (by omega)]
  have hB : (s.storeMap T.codes).holdsBuilt T := by
    refine ⟨hT.1, hT.2.1, hT.2.2.1, fun _ => ?_⟩
    unfold State.mapOperand
    rw [hcount]
    have := Buf.slice_storeAll s.mem.cmap (T.codes.map (cmapEntry s.cfg.codeCap))
    rw [List.length_map, List.map_map] at this
    exact this
  exact ⟨{
    config := h.config
    canonical := Memory.wf_iff.2 ⟨w1, w2, w3, w4, Buf.wf_storeAll w5 _ _, w6, w7, w8, w9⟩
    within := Memory.within_iff.2 ⟨c1, c2, c3, c4, Buf.within_storeAll c5 (by simp; omega), c6, c7, c8, c9⟩
    nodesFit := h.nodesFit
    rootFits := h.rootFits
    arena := h.arena
    nodes := h.nodes
    built := fun _ => ⟨T, hB⟩
    mapNeedsTree := fun _ => htree
    countNeedsMap := fun hm => by cases hm
    resNormal := h.resNormal
    errLegal := h.errLegal }, hB⟩

/-- Every register at its reset value, over a storage in canonical form. -/
theorem State.Inv.resetRegisters {s : State} (hcfg : s.cfg.wellFormed = true) {m : Memory} (hwf : m.wf = true)
    (hwithin : m.within s.cfg = true) (hcan : ∀ k n, Buf.load m.node k = some n → n.canonical = true) :
    (s.resetRegisters m).Inv where
  config := hcfg
  canonical := hwf
  within := hwithin
  nodesFit := Nat.zero_le _
  rootFits := fun h => absurd rfl h
  arena := ArenaOk.empty _ _
  nodes := hcan
  built := fun h => by cases h
  mapNeedsTree := fun h => by cases h
  countNeedsMap := fun _ => rfl
  resNormal := Payload.none_normal
  errLegal := Nat.zero_le _

theorem State.Inv.softReset {s : State} (h : s.Inv) : s.softReset.Inv := by
  unfold State.softReset
  split
  · refine State.Inv.resetRegisters h.config (abortHavoc_wf h.canonical _) (abortHavoc_within h.within _) ?_
    intro k n hk
    rcases abortHavoc_node s.mem (decode _) with e | e
    · rw [e] at hk; exact h.nodes k n hk
    · rw [e] at hk; cases hk
  · exact State.Inv.resetRegisters h.config h.canonical h.within h.nodes

theorem State.Inv.hardReset {s : State} (h : s.Inv) : s.hardReset.Inv :=
  State.Inv.resetRegisters h.config rfl rfl fun k n hk => by cases hk

end Sys2Proof.Machine
end

