-- ==== Sys2Proof/Laws/Bus.lean ====
section
/-! SUPPORT. The bus port: the decoding of an offset, the bits of a bus word, and the invariant under a transaction. -/

namespace Sys2Proof.Machine

/-! ## Offsets -/

/-- The in-window offset as a number. -/
theorem inWindow_eq (off : Offset) : inWindow off = off.toNat % 2 ^ 24 := by
  simp [inWindow, BitVec.extractLsb']

/-- The window as a number. -/
theorem windowOf_eq (off : Offset) : windowOf off = Window.ofIndex (off.toNat / 2 ^ 24) := by
  simp only [windowOf, BitVec.extractLsb'_toNat, Nat.shiftRight_eq_div_pow]
  have := off.isLt
  rw [Nat.mod_eq_of_lt (by omega)]

/-- The alignment check as a number. -/
theorem aligned_iff (off : Offset) : off.extractLsb' 0 2 = 0 ↔ off.toNat % 4 = 0 := by
  rw [← BitVec.toNat_inj]
  simp [BitVec.extractLsb']

/-- A transaction that is no error: 4 bytes, aligned, in a window below its limit. -/
theorem errorCondition_false {c : Config} {off : Offset} {size : Nat} :
    errorCondition c off size = false ↔
      size = 4 ∧ off.toNat % 4 = 0 ∧ ∃ w, windowOf off = some w ∧ inWindow off < w.limit c := by
  unfold errorCondition
  cases hw : windowOf off with
  | none => simp
  | some w =>
    simp only [Bool.or_eq_false_iff, bne_eq_false_iff_eq, decide_eq_false_iff_not, Nat.not_le, aligned_iff,
      Option.some.injEq, exists_eq_left', and_assoc]

/-! ## The bits of a word -/

theorem foldl_or_getLsbD (f : Nat → Bool) (l : List Nat) (acc : Word) (b : Nat) (hb : b < 32)
    (hl : ∀ t ∈ l, t < 32) :
    (l.foldl (fun acc t => acc ||| (BitVec.ofBool (f t)).setWidth 32 <<< (31 - t)) acc).getLsbD b =
      (acc.getLsbD b || l.any fun t => decide (31 - t = b) && f t) := by
  induction l generalizing acc with
  | nil => simp
  | cons t l ih =>
    rw [List.foldl_cons, ih _ fun t' ht' => hl t' (List.mem_cons_of_mem _ ht')]
    have ht := hl t List.mem_cons_self
    rw [BitVec.getLsbD_or, List.any_cons, Bool.or_assoc]
    congr 1
    congr 1
    rw [BitVec.getLsbD_shiftLeft]
    by_cases h : 31 - t = b
    · subst h
      simp [hb]
    · simp only [h, decide_false, Bool.false_and]
      by_cases h2 : b < 31 - t
      · simp [h2]
      · simp only [hb, decide_true, h2, decide_false, Bool.not_false, Bool.true_and, BitVec.getLsbD_setWidth,
          BitVec.getLsbD_ofBool]
        have : b - (31 - t) ≠ 0 := by omega
        simp [this]

/-- Bit `31 - t` of the word is `f t`. -/
theorem wordMsbFirst_getLsbD (f : Nat → Bool) (t : Nat) (ht : t < 32) : (wordMsbFirst f).getLsbD (31 - t) = f t := by
  unfold wordMsbFirst
  rw [foldl_or_getLsbD _ _ _ _ (by omega) (by simp)]
  rw [show (0 : Word).getLsbD (31 - t) = false from BitVec.getLsbD_zero, Bool.false_or, Bool.eq_iff_iff, List.any_eq_true]
  constructor
  · rintro ⟨t', h1, h2⟩
    simp only [List.mem_range, Bool.and_eq_true, decide_eq_true_eq] at h1 h2
    have : t' = t := by omega
    subst this
    exact h2.2
  · intro h
    exact ⟨t, by simpa using ht, by simp [h]⟩

/-- A bit of the bus word that the spec gives is read as it is; any other comes from the draw. -/
theorem State.answerWord_bit (s : State) (l : Loaded) : ∃ d, (s.answerWord l).resp = some { response := .okay, rdata := d } ∧
    ∀ b, l.known.getLsbD b = true → d.getLsbD b = l.value.getLsbD b := by
  unfold State.answerWord
  split
  · exact ⟨_, rfl, fun _ _ => rfl⟩
  · refine ⟨_, rfl, fun b hb => ?_⟩
    have hlt : b < 32 := by
      by_contra hc
      rw [BitVec.getLsbD_of_ge _ _ (by omega)] at hb
      cases hb
    simp only [BitVec.getLsbD_or, BitVec.getLsbD_and, BitVec.getLsbD_not, hb]
    simp

@[simp] theorem State.answerWord_all (s : State) (v : Word) :
    s.answerWord (Loaded.all v) = { s with resp := some { response := .okay, rdata := v } } := by
  simp [State.answerWord, Loaded.all]

/-- A word with no specified bit is a draw. -/
theorem State.answerWord_draw (s : State) :
    s.answerWord { value := 0, known := 0 } =
      { s with resp := some { response := .okay, rdata := Config.freeWord s.draws }, draws := s.draws + 1 } := by
  unfold State.answerWord
  rw [if_neg (by decide)]
  congr 3
  rw [show ~~~(0 : Word) = BitVec.allOnes 32 by decide, BitVec.and_allOnes]
  exact BitVec.zero_or

/-- An answer changes the answer and the counter of draws only. -/
theorem State.answerWord_eq (s : State) (l : Loaded) :
    ∃ v d, s.answerWord l = { s with resp := some { response := .okay, rdata := v }, draws := d } ∧ s.draws ≤ d := by
  unfold State.answerWord
  split
  · exact ⟨_, s.draws, rfl, Nat.le_refl _⟩
  · exact ⟨_, _, rfl, Nat.le_succ _⟩

/-- The specified bits of a word given bit by bit. -/
theorem Loaded.ofBits_bit (f : Nat → Option Bool) (t : Nat) (ht : t < 32) :
    (Loaded.ofBits f).known.getLsbD (31 - t) = (f t).isSome ∧
    (Loaded.ofBits f).value.getLsbD (31 - t) = (f t).getD false := by
  simp only [Loaded.ofBits, wordMsbFirst_getLsbD _ _ ht, and_self]

@[simp] theorem length_bitsMsbFirst (v : Word) : (bitsMsbFirst v).length = 32 := by simp [bitsMsbFirst]

@[simp] theorem length_bytesMsbFirst (v : Word) : (bytesMsbFirst v).length = 4 := by simp [bytesMsbFirst]

theorem getElem_bitsMsbFirst (v : Word) (t : Nat) (h : t < (bitsMsbFirst v).length) :
    (bitsMsbFirst v)[t] = v.getLsbD (31 - t) := by simp [bitsMsbFirst]

theorem getElem_bytesMsbFirst (v : Word) (q : Nat) (h : q < (bytesMsbFirst v).length) (b : Nat) (hb : b < 8) :
    (bytesMsbFirst v)[q].getLsbD b = v.getLsbD (24 - 8 * q + b) := by
  simp [bytesMsbFirst, hb]

/-! ## The invariant -/

theorem State.Inv.answer {s : State} (h : s.Inv) (r : Option BusAnswer) (d : Nat) :
    ({ s with resp := r, draws := d } : State).Inv :=
  h.congr rfl h.canonical h.within rfl rfl rfl rfl rfl rfl rfl h.resNormal h.errLegal

theorem State.Inv.writeReg {s : State} (h : s.Inv) (v : Word) (r : Reg) : (s.writeReg v r).Inv := by
  have same : ∀ t : State, t.cfg = s.cfg → t.mem = s.mem → t.nnodes = s.nnodes → t.root = s.root →
      t.treeOk = s.treeOk → t.mapOk = s.mapOk → t.cmapCount = s.cmapCount → t.res = s.res →
      t.errCode.toNat ≤ 0x0C → t.Inv := by
    intro t h1 h2 h3 h4 h5 h6 h7 h8 h9
    exact h.congr h1 (by rw [h2]; exact h.canonical) (by rw [h2]; exact h.within) (by rw [h2]) (by rw [h2])
      h3 h4 h5 h6 h7 (by rw [h8]; exact h.resNormal) h9
  have he := h.errLegal
  cases r <;> first
    | exact h
    | exact same _ rfl rfl rfl rfl rfl rfl rfl rfl he
    | exact same _ rfl rfl rfl rfl rfl rfl rfl rfl (Nat.zero_le _)
    | skip
  show (s.writeCtrl v).Inv
  unfold State.writeCtrl
  split
  · exact h.softReset
  · exact same _ rfl rfl rfl rfl rfl rfl rfl rfl he

/-- A write below the window's limit keeps the invariant. -/
theorem State.Inv.storeWord {s : State} (h : s.Inv) {w : Window} {o : Nat} (ho : o < w.limit s.cfg) (v : Word) :
    (s.storeWord w o v).Inv := by
  obtain ⟨w1, w2, w3, w4, w5, w6, w7, w8, w9⟩ := Memory.wf_iff.1 h.canonical
  obtain ⟨c1, c2, c3, c4, c5, c6, c7, c8, c9⟩ := Memory.within_iff.1 h.within
  cases w <;> simp only [Window.limit] at ho <;> simp only [State.storeWord]
  case reg =>
    split
    · exact h.writeReg v _
    · exact h
  case text =>
    exact h.congr rfl (Memory.wf_iff.2 ⟨Buf.wf_store w1 _ _, w2, w3, w4, w5, w6, w7, w8, w9⟩)
      (Memory.within_iff.2 ⟨Buf.within_store c1 (by omega) _, c2, c3, c4, c5, c6, c7, c8, c9⟩)
      rfl rfl rfl rfl rfl rfl rfl h.resNormal h.errLegal
  case freq =>
    split
    · exact h.congr rfl (Memory.wf_iff.2 ⟨w1, Buf.wf_store w2 _ _, w3, w4, w5, w6, w7, w8, w9⟩)
        (Memory.within_iff.2 ⟨c1, Buf.within_store c2 (by omega) _, c3, c4, c5, c6, c7, c8, c9⟩)
        rfl rfl rfl rfl rfl rfl rfl h.resNormal h.errLegal
    · exact h.congr rfl (Memory.wf_iff.2 ⟨w1, w2, Buf.wf_store w3 _ _, w4, w5, w6, w7, w8, w9⟩)
        (Memory.within_iff.2 ⟨c1, c2, Buf.within_store c3 (by omega) _, c4, c5, c6, c7, c8, c9⟩)
        rfl rfl rfl rfl rfl rfl rfl h.resNormal h.errLegal
  case bitbuf =>
    exact h.congr rfl (Memory.wf_iff.2 ⟨w1, w2, w3, w4, w5, Buf.wf_storeAll w6 _ _, w7, w8, w9⟩)
      (Memory.within_iff.2 ⟨c1, c2, c3, c4, c5, Buf.within_storeAll c6 (by
        intro hne
        have hp := List.length_pos_of_ne_nil hne
        simp only [List.length_take, length_bitsMsbFirst] at hp ⊢
        omega), c7, c8, c9⟩)
      rfl rfl rfl rfl rfl rfl rfl h.resNormal h.errLegal
  case bytebuf =>
    exact h.congr rfl (Memory.wf_iff.2 ⟨w1, w2, w3, w4, w5, w6, Buf.wf_storeAll w7 _ _, w8, w9⟩)
      (Memory.within_iff.2 ⟨c1, c2, c3, c4, c5, c6, Buf.within_storeAll c7 (by
        intro hne
        have hp := List.length_pos_of_ne_nil hne
        simp only [List.length_take, length_bytesMsbFirst] at hp ⊢
        omega), c8, c9⟩)
      rfl rfl rfl rfl rfl rfl rfl h.resNormal h.errLegal
  case path =>
    exact h.congr rfl (Memory.wf_iff.2 ⟨w1, w2, w3, w4, w5, w6, w7, w8, Buf.wf_store w9 _ _⟩)
      (Memory.within_iff.2 ⟨c1, c2, c3, c4, c5, c6, c7, c8, Buf.within_store c9 (by omega) _⟩)
      rfl rfl rfl rfl rfl rfl rfl h.resNormal h.errLegal
  all_goals exact h

theorem State.Inv.busRead {s : State} (h : s.Inv) (off : Offset) (size : Nat) : (s.busRead off size).Inv := by
  unfold State.busRead
  split
  · exact h.answer _ _
  · split
    · exact h.answer _ _
    · split
      · obtain ⟨v, d, he, -⟩ := State.answerWord_eq s { value := 0, known := 0 }
        rw [he]
        exact h.answer _ _
      · rename_i w _ _
        obtain ⟨v, d, he, -⟩ := State.answerWord_eq s (s.loadWord w (inWindow off))
        rw [he]
        exact h.answer _ _

theorem State.Inv.busWrite {s : State} (h : s.Inv) (off : Offset) (size : Nat) (v : Word) :
    (s.busWrite off size v).Inv := by
  unfold State.busWrite
  split
  · exact h.answer _ _
  · rename_i hec
    rw [Bool.not_eq_true, errorCondition_false] at hec
    obtain ⟨-, -, w, hw, ho⟩ := hec
    simp only [hw]
    split
    · exact State.Inv.answer (s := { s with ovr := true }) (h.congr rfl h.canonical h.within rfl rfl rfl rfl rfl rfl rfl h.resNormal h.errLegal) _ _
    · exact (h.storeWord ho v).answer _ _

end Sys2Proof.Machine
end

