-- ==== Sys2Proof/Laws/Exec.lean ====
section
/-! SUPPORT. One inversion lemma per command: everything it can do when it completes. -/

namespace Sys2Proof.Machine

theorem rootChildPayload_not_err {arena : Buf Node} {root : Word} {d : Bool} {e : Err} :
    rootChildPayload arena root d ≠ .err e := by
  unfold rootChildPayload
  cases hl : loadNode arena root with
  | err e => exact absurd hl loadNode_not_err
  | fault f => simp
  | ok n =>
    cases hc : n.child d with
    | none => simp [hc]
    | some c =>
      simp only [hc, Ne]
      rw [Res.map_err]
      exact loadNode_not_err

theorem setPayload_not_err {arena : Buf Node} {k : Word} {p : Payload} {e : Err} : setPayload arena k p ≠ .err e := by
  unfold setPayload
  rw [Ne, Res.map_err]
  exact loadNode_not_err

theorem writeAtPath_not_err {s : State} {ds : List Bool} {e : Err} : writeAtPath s ds ≠ .err e := by
  unfold writeAtPath
  split
  · rw [Ne, Res.map_err]
    exact setPayload_not_err
  · rename_i h
    exact absurd h descendCreate_not_err
  · simp

theorem mapWalk_not_err {arena : Buf Node} {pops : Nat} {stack : List (Word × List Bool)} {e : Err} :
    mapWalk arena pops stack ≠ .err e := by
  induction pops generalizing stack with
  | zero => cases stack <;> simp [mapWalk]
  | succ pops ih =>
    match stack with
    | [] => simp [mapWalk]
    | (k, p) :: stack =>
      simp only [mapWalk]
      cases hl : loadNode arena k with
      | err e => exact absurd hl loadNode_not_err
      | fault f => simp
      | ok n =>
        simp only [Ne]
        rw [Res.map_err]
        exact ih

/-- A map derivation: the walk's codes, when they fit. -/
theorem deriveMap_ok {s m : State} : deriveMap s = .ok m ↔ ∃ c, s.mapOf = .ok c ∧ mapFits s.cfg c = true ∧ m = s.storeMap c := by
  unfold deriveMap
  cases hm : s.mapOf with
  | err e => simp
  | fault f => simp
  | ok c =>
    cases hf : mapFits s.cfg c
    · simp [hf]
    · simp only [hf, if_true, Res.ok.injEq]
      constructor
      · rintro rfl
        exact ⟨c, rfl, hf, rfl⟩
      · rintro ⟨_, rfl, -, rfl⟩
        rfl

theorem deriveMap_not_err {s : State} {e : Err} : deriveMap s ≠ .err e := by
  unfold deriveMap
  cases hm : s.mapOf with
  | err e => exact absurd hm mapWalk_not_err
  | fault f => simp
  | ok c => cases hf : mapFits s.cfg c <;> simp [hf]

/-- TSETL and TSETR. -/
theorem setRootChild_next {d : Bool} {s t : State} (h : setRootChild d s = .next t) :
    (s.nnodes = 0 ∧ t = s.raise noTree) ∨
    (s.nnodes ≠ 0 ∧ s.nnodes.toNat = s.cfg.nodeCap ∧ t = s.raise (overflow .node 0)) ∨
    ∃ arena, s.nnodes ≠ 0 ∧ s.nnodes.toNat ≠ s.cfg.nodeCap ∧
      allocLinked s.mem.node s.nnodes s.root d s.pay = .ok arena ∧
      t = (s.storeArena arena (s.nnodes + 1)).markEdited.succeed := by
  unfold setRootChild at h
  split at h
  · exact .inl ⟨‹_›, (Host.Outcome.next.inj h).symm⟩
  · split at h
    · exact .inr (.inl ⟨‹_›, ‹_›, (Host.Outcome.next.inj h).symm⟩)
    · split at h
      · exact .inr (.inr ⟨_, ‹_›, ‹_›, ‹_›, (Host.Outcome.next.inj h).symm⟩)
      · rename_i he
        exact absurd he allocLinked_not_err
      · cases h

/-- TGETL and TGETR. -/
theorem getRootChild_next {d : Bool} {s t : State} (h : getRootChild d s = .next t) :
    (s.nnodes = 0 ∧ t = (s.setRes Payload.none).raise noTree) ∨
    ∃ p, s.nnodes ≠ 0 ∧ rootChildPayload s.mem.node s.root d = .ok p ∧ t = (s.setRes p).succeed := by
  unfold getRootChild at h
  split at h
  · exact .inl ⟨‹_›, (Host.Outcome.next.inj h).symm⟩
  · right
    cases hp : rootChildPayload s.mem.node s.root d with
    | err e => exact absurd hp rootChildPayload_not_err
    | fault f => rw [hp] at h; cases h
    | ok p =>
      rw [hp] at h
      exact ⟨p, ‹_›, rfl, (Host.Outcome.next.inj h).symm⟩

/-- TSETP. -/
theorem execTsetp_next {s t : State} (h : execTsetp s = .next t) :
    (∃ e, t = s.raise e) ∨
    ∃ ds m arena nn, s.nnodes ≠ 0 ∧ s.checkPath false = .ok ds ∧ missingNodes s.mem.node s.root ds = .ok m ∧
      s.nnodes.toNat + m ≤ s.cfg.nodeCap ∧ writeAtPath s ds = .ok (arena, nn) ∧
      t = (s.storeArena arena nn).markEdited.succeed := by
  unfold execTsetp at h
  split at h
  · exact .inl ⟨_, (Host.Outcome.next.inj h).symm⟩
  · split at h
    · split at h
      · split at h
        · exact .inl ⟨_, (Host.Outcome.next.inj h).symm⟩
        · split at h
          · exact .inr ⟨_, _, _, _, ‹_›, ‹_›, ‹_›, by omega, ‹_›, (Host.Outcome.next.inj h).symm⟩
          · exact .inl ⟨_, (Host.Outcome.next.inj h).symm⟩
          · cases h
      · exact .inl ⟨_, (Host.Outcome.next.inj h).symm⟩
      · cases h
    · exact .inl ⟨_, (Host.Outcome.next.inj h).symm⟩
    · cases h

/-- TGETP. -/
theorem execTgetp_next {s t : State} (h : execTgetp s = .next t) :
    (∃ e, t = (s.setRes Payload.none).raise e) ∨
    ∃ ds p, s.nnodes ≠ 0 ∧ s.checkPath true = .ok ds ∧ payloadAt s ds = .ok p ∧ t = (s.setRes p).succeed := by
  unfold execTgetp at h
  split at h
  · exact .inl ⟨_, (Host.Outcome.next.inj h).symm⟩
  · split at h
    · rename_i ds hds
      cases hp : payloadAt s ds with
      | ok p =>
        rw [hp] at h
        exact .inr ⟨ds, p, ‹_›, hds, hp, (Host.Outcome.next.inj h).symm⟩
      | err e =>
        rw [hp] at h
        exact .inl ⟨e, (Host.Outcome.next.inj h).symm⟩
      | fault f => rw [hp] at h; cases h
    · exact .inl ⟨_, (Host.Outcome.next.inj h).symm⟩
    · cases h

/-- FREQ. -/
theorem execFreq_next {s t : State} (h : execFreq s = .next t) :
    (s.cfg.nText < s.textLen.toNat ∧ t = s.raise (overflow .text 0)) ∨
    (s.textLen.toNat ≤ s.cfg.nText ∧ ∃ f, tally s.cfg.nSym 0 [] s.textOperand = .ok f ∧ t = (s.storeFreq f).succeed) ∨
    (s.textLen.toNat ≤ s.cfg.nText ∧ ∃ i, tally s.cfg.nSym 0 [] s.textOperand = .err (overflow .sym i) ∧
      t = s.abandonFreq.raise (overflow .sym i)) := by
  unfold execFreq at h
  split at h
  · exact .inl ⟨‹_›, (Host.Outcome.next.inj h).symm⟩
  · split at h
    · exact .inr (.inl ⟨by omega, _, ‹_›, (Host.Outcome.next.inj h).symm⟩)
    · rename_i e he
      obtain ⟨j, rfl⟩ := tally_err he
      exact .inr (.inr ⟨by omega, j, he, (Host.Outcome.next.inj h).symm⟩)
    · cases h

/-- BUILD. -/
theorem execBuild_next {s t : State} (h : execBuild s = .next t) :
    (s.cfg.nText < s.textLen.toNat ∧ t = s.raise (overflow .text 0)) ∨
    (s.textLen = 0 ∧ t = s.raise { kind := .emptyInput, info := 0, pos := 0 }) ∨
    (s.textLen.toNat ≤ s.cfg.nText ∧ s.textLen ≠ 0 ∧ ∃ f, tally s.cfg.nSym 0 [] s.textOperand = .ok f ∧
      t = ((s.storeFreq f).construct f).succeed) ∨
    (s.textLen.toNat ≤ s.cfg.nText ∧ s.textLen ≠ 0 ∧ ∃ i, tally s.cfg.nSym 0 [] s.textOperand = .err (overflow .sym i) ∧
      t = s.abandonFreq.raise (overflow .sym i)) := by
  unfold execBuild at h
  split at h
  · exact .inl ⟨‹_›, (Host.Outcome.next.inj h).symm⟩
  · split at h
    · exact .inr (.inl ⟨‹_›, (Host.Outcome.next.inj h).symm⟩)
    · split at h
      · exact .inr (.inr (.inl ⟨by omega, ‹_›, _, ‹_›, (Host.Outcome.next.inj h).symm⟩))
      · rename_i e he
        obtain ⟨j, rfl⟩ := tally_err he
        exact .inr (.inr (.inr ⟨by omega, ‹_›, j, he, (Host.Outcome.next.inj h).symm⟩))
      · cases h

/-- The symbols a table check has seen are distinct. -/
theorem checkDistinct_ok {j : Nat} {seen us : List Word} {l : List (Option Word)} (hs : seen.Nodup)
    (h : checkDistinct j seen l = .ok us) : ∃ xs, l = xs.map some ∧ us = seen ++ xs ∧ us.Nodup := by
  induction l generalizing j seen with
  | nil =>
    simp only [checkDistinct, Res.ok.injEq] at h
    subst h
    exact ⟨[], rfl, by simp, hs⟩
  | cons o rest ih =>
    cases o with
    | none => simp [checkDistinct] at h
    | some x =>
      simp only [checkDistinct] at h
      split at h
      · cases h
      · rename_i hx
        obtain ⟨xs, h1, h2, h3⟩ := ih (by
          rw [List.nodup_append]
          refine ⟨hs, by simp, ?_⟩
          intro a ha b hb
          simp at hb
          subst hb
          rintro rfl
          exact hx ha) h
        exact ⟨x :: xs, by rw [h1]; rfl, by rw [h2]; simp, h3⟩

/-- Distinct symbols pass the check. -/
theorem checkDistinct_distinct {j : Nat} {seen xs : List Word} (h : (seen ++ xs).Nodup) (rest : List (Option Word)) :
    checkDistinct j seen (xs.map some ++ rest) = checkDistinct (j + xs.length) (seen ++ xs) rest := by
  induction xs generalizing j seen with
  | nil => simp
  | cons x xs ih =>
    have hx : x ∉ seen := by
      intro hx
      rw [List.nodup_append] at h
      exact h.2.2 x hx x (by simp) rfl
    simp only [List.map_cons, List.cons_append, checkDistinct, if_neg hx]
    rw [ih (by simpa using h), List.append_assoc]
    simp only [List.length_cons, List.singleton_append]
    rw [show j + (xs.length + 1) = j + 1 + xs.length by omega]

/-- The table BUILDF builds from. -/
theorem State.checkedTable_ok {s : State} {f : Table} (h : s.checkedTable = .ok f) :
    f.length = s.nsym.toNat ∧ Buf.holds s.mem.freqSym (f.map Prod.fst) ∧ Buf.holds s.mem.freqCount (f.map Prod.snd) ∧
    (f.map Prod.fst).Nodup ∧ (f.map fun e => e.2.toNat).sum < 2 ^ 32 := by
  unfold State.checkedTable at h
  split at h
  · rename_i syms hs
    split at h
    · rename_i counts hc
      split at h
      · cases h
      · rename_i htot
        cases h
        obtain ⟨xs, h1, h2, h3⟩ := checkDistinct_ok List.nodup_nil hs
        rw [List.nil_append] at h2
        subst h2
        rw [readAll_ok] at hc
        obtain ⟨l1, g1⟩ := Buf.holds_of_slice h1
        obtain ⟨l2, g2⟩ := Buf.holds_of_slice hc
        have e1 : (syms.zip counts).map Prod.fst = syms := List.map_fst_zip (by omega)
        have e2 : (syms.zip counts).map Prod.snd = counts := List.map_snd_zip (by omega)
        refine ⟨by simp; omega, by rw [e1]; exact g1, by rw [e2]; exact g2, by rw [e1]; exact h3, ?_⟩
        have : ((syms.zip counts).map fun e => e.2.toNat) = counts.map BitVec.toNat := by
          conv_rhs => rw [← e2]
          rw [List.map_map]
          rfl
        rw [this]
        simp only [totalCount] at htot
        omega
    · cases h
    · cases h
  · cases h
  · cases h

/-- A legal table passes BUILDF's checks. -/
theorem State.checkedTable_of_holds {s : State} {f : Table} (hl : f.length = s.nsym.toNat)
    (hs : Buf.holds s.mem.freqSym (f.map Prod.fst)) (hc : Buf.holds s.mem.freqCount (f.map Prod.snd))
    (hn : (f.map Prod.fst).Nodup) (hsum : (f.map fun e => e.2.toNat).sum ≤ 0xFFFFFFFF) : s.checkedTable = .ok f := by
  have e1 : s.tableSyms = (f.map Prod.fst).map some := Buf.slice_of_holds (by simpa using hl) hs
  have e2 : s.tableCounts = (f.map Prod.snd).map some := Buf.slice_of_holds (by simpa using hl) hc
  unfold State.checkedTable
  have h1 := checkDistinct_distinct (j := 0) (seen := []) (xs := f.map Prod.fst) (by simpa using hn) []
  rw [List.append_nil, ← e1] at h1
  rw [h1]
  simp only [checkDistinct]
  rw [readAll_ok.2 e2]
  have : totalCount (f.map Prod.snd) = (f.map fun e => e.2.toNat).sum := by
    simp only [totalCount, List.map_map]
    rfl
  simp only [this, if_neg (Nat.not_lt.2 hsum), List.nil_append]
  rw [List.zip_map', List.map_id']

/-- BUILDF. -/
theorem execBuildf_next {s t : State} (h : execBuildf s = .next t) :
    (∃ e, t = s.raise e) ∨
    ∃ f, s.nsym ≠ 0 ∧ s.nsym.toNat ≤ s.cfg.nSym ∧ s.checkedTable = .ok f ∧ t = (s.construct f).succeed := by
  unfold execBuildf at h
  split at h
  · exact .inl ⟨_, (Host.Outcome.next.inj h).symm⟩
  · split at h
    · exact .inl ⟨_, (Host.Outcome.next.inj h).symm⟩
    · split at h
      · exact .inr ⟨_, ‹_›, by omega, ‹_›, (Host.Outcome.next.inj h).symm⟩
      · exact .inl ⟨_, (Host.Outcome.next.inj h).symm⟩
      · cases h

/-- CODEMAP. -/
theorem execCodemap_next {s t : State} (h : execCodemap s = .next t) :
    (s.treeOk = false ∧ t = s.raise notBuilt) ∨ ∃ m, s.treeOk = true ∧ deriveMap s = .ok m ∧ t = m.succeed := by
  unfold execCodemap at h
  split at h
  · exact .inl ⟨‹_›, (Host.Outcome.next.inj h).symm⟩
  · rename_i ht
    split at h
    · exact .inr ⟨_, by simpa using ht, ‹_›, (Host.Outcome.next.inj h).symm⟩
    · rename_i he
      exact absurd he deriveMap_not_err
    · cases h

/-- ENCODE's loop makes the bits it counts, within N_BITS. -/
theorem encodeText_length {nBits i c : Nat} {m : List (Option CmapEntry)} {l : List (Option Word)} {bits : List Bool}
    (h : encodeText nBits m i c l = .ok bits) (hc : c ≤ nBits) : c + bits.length ≤ nBits := by
  induction l generalizing i c bits with
  | nil =>
    simp only [encodeText, Res.ok.injEq] at h
    subst h
    simpa using hc
  | cons o rest ih =>
    cases o with
    | none => simp [encodeText] at h
    | some x =>
      simp only [encodeText] at h
      split at h <;> try simp at h
      rename_i y _
      split at h
      · cases h
      · rw [Res.map_ok] at h
        obtain ⟨us, hu, rfl⟩ := h
        have := ih hu (by omega)
        have : y.bits.length = y.len.toNat := by simp [CmapEntry.bits]
        simp
        omega

/-- The lookup raises no error of its own. -/
theorem lookup_not_err {x : Word} {i : Nat} {l : List (Option CmapEntry)} {e : Err} : lookup x i l ≠ .err e := by
  induction l generalizing i with
  | nil => simp [lookup]
  | cons o rest ih =>
    cases o with
    | none => simp [lookup]
    | some y =>
      simp only [lookup]
      split
      · simp
      · exact ih

/-- ENCODE's loop fails by UNKNOWN_SYMBOL or OVERFLOW BITS only. -/
theorem encodeText_err {nBits i c : Nat} {m : List (Option CmapEntry)} {l : List (Option Word)} {e : Err}
    (h : encodeText nBits m i c l = .err e) :
    e = overflow .bits 0 ∨ e.kind = .unknownSymbol := by
  induction l generalizing i c with
  | nil => cases h
  | cons o rest ih =>
    cases o with
    | none => cases h
    | some x =>
      simp only [encodeText] at h
      split at h
      · split at h
        · exact .inl (Res.err.inj h).symm
        · rw [Res.map_err] at h
          exact ih h
      · exact .inr (by rw [← Res.err.inj h])
      · rename_i hl
        exact absurd hl lookup_not_err
      · cases h

/-- ENCODE's execution phase. -/
theorem encodeWithMap_next {s t : State} (h : encodeWithMap s = .next t) :
    (∃ bits, encodeText s.cfg.nBits s.mapOperand 0 0 s.textOperand = .ok bits ∧ bits.length ≤ s.cfg.nBits ∧
      t = (s.storeBits bits).succeed) ∨
    ∃ e, encodeText s.cfg.nBits s.mapOperand 0 0 s.textOperand = .err e ∧
      (e = overflow .bits 0 ∨ e.kind = .unknownSymbol) ∧ t = s.abandonBits.raise e := by
  unfold encodeWithMap at h
  split at h
  · rename_i bits hb
    have := encodeText_length hb (Nat.zero_le _)
    exact .inl ⟨bits, hb, by omega, (Host.Outcome.next.inj h).symm⟩
  · rename_i e he
    exact .inr ⟨e, he, encodeText_err he, (Host.Outcome.next.inj h).symm⟩
  · cases h

/-- ENCODE. -/
theorem execEncode_next {s t : State} (h : execEncode s = .next t) :
    (s.treeOk = false ∧ t = s.raise notBuilt) ∨
    (s.treeOk = true ∧ s.cfg.nText < s.textLen.toNat ∧ t = s.raise (overflow .text 0)) ∨
    (s.treeOk = true ∧ s.textLen.toNat ≤ s.cfg.nText ∧
      ∃ m, (if s.mapOk = true then m = s else deriveMap s = .ok m) ∧ encodeWithMap m = .next t) := by
  unfold execEncode at h
  split at h
  · exact .inl ⟨‹_›, (Host.Outcome.next.inj h).symm⟩
  · rename_i ht
    split at h
    · exact .inr (.inl ⟨by simpa using ht, ‹_›, (Host.Outcome.next.inj h).symm⟩)
    · refine .inr (.inr ⟨by simpa using ht, by omega, ?_⟩)
      split at h
      · rename_i hm
        exact ⟨s, by rw [if_pos hm], h⟩
      · rename_i hm
        split at h
        · rename_i m hd
          exact ⟨m, by rw [if_neg hm]; exact hd, h⟩
        · rename_i he
          exact absurd he deriveMap_not_err
        · cases h

/-- PACK. -/
theorem execPack_next {s t : State} (h : execPack s = .next t) :
    (s.cfg.nBits < s.bitCount.toNat ∧ t = s.raise (overflow .bits 0)) ∨
    ∃ bits, s.bitCount.toNat ≤ s.cfg.nBits ∧ s.bitOperand = bits.map some ∧
      t = { s with
        byteCount := BitVec.ofNat 32 (ceilDiv s.bitCount.toNat 8)
        mem := { s.mem with byte := Buf.storeAll s.mem.byte 0 (packedBytes s.cfg.nBytes bits) } }.succeed := by
  unfold execPack at h
  split at h
  · exact .inl ⟨‹_›, (Host.Outcome.next.inj h).symm⟩
  · split at h
    · rename_i bits hb
      exact .inr ⟨bits, by omega, readAll_ok.1 hb, (Host.Outcome.next.inj h).symm⟩
    · rename_i he
      exact absurd he readAll_not_err
    · cases h

/-- UNPACK. -/
theorem execUnpack_next {s t : State} (h : execUnpack s = .next t) :
    (s.cfg.nBits < s.bitCount.toNat ∧ t = s.raise (overflow .bits 0)) ∨
    ∃ bytes, s.bitCount.toNat ≤ s.cfg.nBits ∧ s.packedOperand = bytes.map some ∧
      t = { s with
        mem := { s.mem with bit := Buf.storeAll s.mem.bit 0 (unpackedBits bytes s.bitCount.toNat) } }.succeed := by
  unfold execUnpack at h
  split at h
  · exact .inl ⟨‹_›, (Host.Outcome.next.inj h).symm⟩
  · split at h
    · rename_i bytes hb
      exact .inr ⟨bytes, by omega, readAll_ok.1 hb, (Host.Outcome.next.inj h).symm⟩
    · rename_i he
      exact absurd he readAll_not_err
    · cases h

/-- DECODE's loop fails by CORRUPT_STREAM or TRUNCATED_STREAM only. -/
theorem decodeBits_err {arena : Buf Node} {root k : Word} {start i : Nat} {l : List (Option Bool)} {e : Err}
    (h : decodeBits arena root k start i l = .err e) : e.kind = .corruptStream ∨ e.kind = .truncatedStream := by
  induction l generalizing k start i with
  | nil =>
    simp only [decodeBits] at h
    split at h
    · cases h
    · exact .inr (by rw [← Res.err.inj h])
  | cons o rest ih =>
    cases o with
    | none => cases h
    | some b =>
      simp only [decodeBits] at h
      cases hl : loadNode arena k with
      | err e => exact absurd hl loadNode_not_err
      | fault f => rw [hl] at h; cases h
      | ok n =>
        rw [hl] at h
        cases hc : n.child b with
        | none =>
          simp only [hc] at h
          exact .inl (by rw [← Res.err.inj h])
        | some c =>
          simp only [hc] at h
          cases hl2 : loadNode arena c with
          | err e => exact absurd hl2 loadNode_not_err
          | fault f => rw [hl2] at h; cases h
          | ok m =>
            rw [hl2] at h
            simp only at h
            split at h
            · rw [Res.map_err] at h
              exact ih h
            · exact ih h

/-- DECODE. -/
theorem execDecode_next {s t : State} (h : execDecode s = .next t) :
    (s.treeOk = false ∧ t = s.raise notBuilt) ∨
    (s.treeOk = true ∧ s.cfg.nBits < s.bitCount.toNat ∧ t = s.raise (overflow .bits 0)) ∨
    (s.treeOk = true ∧ s.bitCount.toNat ≤ s.cfg.nBits ∧
      ∃ text, decodeBits s.mem.node s.root s.root 0 0 s.bitOperand = .ok text ∧ text.length ≤ s.bitCount.toNat ∧
        t = { s with
          outLen := BitVec.ofNat 32 text.length
          mem := { s.mem with out := Buf.storeAll s.mem.out 0 text } }.succeed) ∨
    (s.treeOk = true ∧ s.bitCount.toNat ≤ s.cfg.nBits ∧
      ∃ e, decodeBits s.mem.node s.root s.root 0 0 s.bitOperand = .err e ∧
        (e.kind = .corruptStream ∨ e.kind = .truncatedStream) ∧ t = s.abandonOut.raise e) := by
  unfold execDecode at h
  split at h
  · exact .inl ⟨‹_›, (Host.Outcome.next.inj h).symm⟩
  · rename_i ht
    split at h
    · exact .inr (.inl ⟨by simpa using ht, ‹_›, (Host.Outcome.next.inj h).symm⟩)
    · split at h
      · rename_i text hd
        have := decodeBits_length hd
        rw [show s.bitOperand = Buf.slice s.mem.bit 0 s.bitCount.toNat from rfl, Buf.length_slice] at this
        exact .inr (.inr (.inl ⟨by simpa using ht, by omega, text, hd, this, (Host.Outcome.next.inj h).symm⟩))
      · rename_i e he
        exact .inr (.inr (.inr ⟨by simpa using ht, by omega, e, he, decodeBits_err he, (Host.Outcome.next.inj h).symm⟩))
      · cases h

end Sys2Proof.Machine
end

