-- ==== Sys2Proof/Laws/Pack.lean ====
section
/-! SUPPORT. The bits of packed bytes. -/

namespace Sys2Proof.Machine

theorem bitsToNat_append (l : List Bool) (b : Bool) : bitsToNat (l ++ [b]) = 2 * bitsToNat l + b.toNat := by
  simp [bitsToNat]

/-- The digits of the number a bit list spells, most significant first. -/
theorem bitsToNat_testBit (l : List Bool) (q : Nat) (hq : q < l.length) :
    (bitsToNat l).testBit (l.length - 1 - q) = l[q] := by
  induction l using List.reverseRecOn generalizing q with
  | nil => simp at hq
  | append_singleton l b ih =>
    rw [bitsToNat_append]
    simp only [List.length_append, List.length_cons, List.length_nil] at hq ⊢
    by_cases hql : q = l.length
    · subst hql
      rw [show l.length + (0 + 1) - 1 - l.length = 0 by omega]
      cases b <;> simp [Nat.testBit_zero]
    · have hlt : q < l.length := by omega
      rw [show l.length + (0 + 1) - 1 - q = (l.length - 1 - q) + 1 by omega, Nat.testBit_succ,
        show (2 * bitsToNat l + b.toNat) / 2 = bitsToNat l by
          have := b.toNat_lt
          omega, ih q hlt,
        List.getElem_append_left hlt]

/-- Bit `7 - q` of byte `j` is stream bit `8 j + q`. -/
theorem packedByte_getLsbD (bits : List Bool) (j q : Nat) (hq : q < 8) :
    (packedByte bits j).getLsbD (7 - q) = bits.getD (8 * j + q) false := by
  unfold packedByte
  rw [BitVec.getLsbD_ofNat]
  have h := bitsToNat_testBit ((List.range 8).map fun q => bits.getD (8 * j + q) false) q (by simpa using hq)
  simp only [List.length_map, List.length_range, List.getElem_map, List.getElem_range] at h
  rw [show 8 - 1 - q = 7 - q by omega] at h
  rw [h]
  simp
  omega

theorem packedBytes_length (nBytes : Nat) (bits : List Bool) :
    (packedBytes nBytes bits).length =
      ceilDiv bits.length 8 + (min (4 * ceilDiv (ceilDiv bits.length 8) 4) nBytes - ceilDiv bits.length 8) := by
  simp [packedBytes]

/-- The packed bytes, then zeros. -/
theorem packedBytes_getElem (nBytes : Nat) (bits : List Bool) (j : Nat) (h : j < (packedBytes nBytes bits).length) :
    (packedBytes nBytes bits)[j] = if j < ceilDiv bits.length 8 then packedByte bits j else 0 := by
  simp only [packedBytes, List.getElem_append, List.length_map, List.length_range, List.getElem_map,
    List.getElem_range, List.getElem_replicate]
  split <;> rfl

@[simp] theorem unpackedBits_length (bytes : List Byte) (n : Nat) : (unpackedBits bytes n).length = n := by
  simp [unpackedBits]

theorem unpackedBits_getElem (bytes : List Byte) (n i : Nat) (h : i < (unpackedBits bytes n).length) :
    (unpackedBits bytes n)[i] = (bytes.getD (i / 8) 0).getLsbD (7 - i % 8) := by
  simp [unpackedBits]

/-- Unpacking the packed bytes gives the bits back. -/
theorem unpackedBits_packed (bits : List Bool) :
    unpackedBits ((List.range (ceilDiv bits.length 8)).map (packedByte bits)) bits.length = bits := by
  apply List.ext_getElem
  · simp
  · intro i h1 h2
    rw [unpackedBits_getElem]
    have hj : i / 8 < ceilDiv bits.length 8 := by
      unfold ceilDiv
      omega
    rw [List.getD_eq_getElem _ _ (by simpa using hj), List.getElem_map, List.getElem_range,
      packedByte_getLsbD _ _ _ (by omega), show 8 * (i / 8) + i % 8 = i by omega, List.getD_eq_getElem _ _ h2]

end Sys2Proof.Machine
end

