-- ==== Sys2Proof/Laws/PerInstr.lean ====
section
/-! SUPPORT. One lemma per command about its word, for the statements that range over all commands. -/

namespace Sys2Proof.Laws.Fields

open Sys2Proof

/-- The word of a command has legal fields: RSV = 0 and an assigned OPCODE, its own (30_encoding.md R120, R122, R124). -/
def Statement (i : Instr) : Prop :=
  (splitCommand (Sys2Proof.encode i)).wellFormed = true ∧ (splitCommand (Sys2Proof.encode i)).opcode = opcodeOf i

theorem nop : Statement .nop := ⟨by decide, by decide⟩

theorem freq : Statement .freq := ⟨by decide, by decide⟩

theorem buildf : Statement .buildf := ⟨by decide, by decide⟩

theorem build : Statement .build := ⟨by decide, by decide⟩

theorem codemap : Statement .codemap := ⟨by decide, by decide⟩

theorem encode : Statement .encode := ⟨by decide, by decide⟩

theorem pack : Statement .pack := ⟨by decide, by decide⟩

theorem unpack : Statement .unpack := ⟨by decide, by decide⟩

theorem decode : Statement .decode := ⟨by decide, by decide⟩

theorem tnew : Statement .tnew := ⟨by decide, by decide⟩

theorem tsetl : Statement .tsetl := ⟨by decide, by decide⟩

theorem tsetr : Statement .tsetr := ⟨by decide, by decide⟩

theorem tgetl : Statement .tgetl := ⟨by decide, by decide⟩

theorem tgetr : Statement .tgetr := ⟨by decide, by decide⟩

theorem tsetp : Statement .tsetp := ⟨by decide, by decide⟩

theorem tgetp : Statement .tgetp := ⟨by decide, by decide⟩

end Sys2Proof.Laws.Fields
end

