-- ==== Sys2Proof/Tests/Slice0.lean ====
section
/-! SUPPORT. The model's own tests, with the results of 95_test_vectors.md, and for every statement with hypotheses a
witness that meets them. -/

namespace Sys2Proof.Tests

open Sys2Proof.Machine Sys2Proof.Claims

/-! ## Small states -/

/-- The outcome is a next state with this property. -/
def after (o : Host.Outcome State Fault Refusal) (p : State → Bool) : Bool :=
  match o with
  | .next t => p t
  | .fault _ => false
  | .refused _ => false

/-- The command completes, in a state with this property. -/
def Ends (i : Instr) (s : State) (p : State → Bool) : Prop := ∃ t, exec i s = .next t ∧ p t = true

theorem ends_of {i : Instr} {s : State} {p : State → Bool} (h : after (exec i s) p = true) : Ends i s p := by
  unfold after at h
  split at h
  · exact ⟨_, ‹_›, h⟩
  · cases h
  · cases h

/-- The next state of an outcome; the state after reset where there is none. -/
def got (o : Host.Outcome State Fault Refusal) : State :=
  match o with
  | .next t => t
  | .fault _ => State.reset
  | .refused _ => State.reset

theorem got_eq {o : Host.Outcome State Fault Refusal} (h : after o (fun _ => true) = true) : o = .next (got o) := by
  unfold after at h
  split at h
  · rfl
  · cases h
  · cases h

/-- A buffer that holds a list from index 0 on. -/
def buf {α : Type} (vs : List α) : Buf α := (List.range vs.length).zip vs

/-- Success, whatever else. -/
def fine (t : State) : Bool := t.errCode == 0

/-- The error registers hold this error. -/
def reports (code : BitVec 8) (info pos : Word) (t : State) : Bool :=
  t.errCode == code && t.errInfo == info && t.errPos == pos

/-- The bits of a string of binary digits. -/
def bits (x : String) : List Bool := x.toList.map (· == '1')

/-- The text of V1. -/
def v1Text : List Word := [0x42, 0x43, 0x41, 0x41, 0x44, 0x44, 0x44, 0x43, 0x43, 0x41, 0x43, 0x41, 0x43, 0x41, 0x43]

/-- The table of V1-1. -/
def v1Table : Table := [(0x42, 1), (0x43, 6), (0x41, 5), (0x44, 3)]

/-- The stream of V1-4. -/
def v1Bits : List Bool := bits "1000111110110110100110110110"

/-- The code words of V1-3, one for each symbol of the text. -/
def v1Words : List (List Bool) :=
  ["100", "0", "11", "11", "101", "101", "101", "0", "0", "11", "0", "11", "0", "11", "0"].map bits

/-- An internal node `(weight; left, right)`. -/
def internal (w l r : Word) : Node := ⟨⟨true, false, w, 0⟩, true, true, l, r⟩

/-- NODE[0..6] of V1-2. -/
def v1Nodes : List Node :=
  [Node.leaf 1 0x42, Node.leaf 6 0x43, Node.leaf 5 0x41, Node.leaf 3 0x44, internal 4 0 3, internal 9 4 2, internal 15 1 5]

/-- The block with a text operand. -/
def withText (s : State) (ts : List Word) : State :=
  { s with textLen := BitVec.ofNat 32 ts.length, mem := { s.mem with text := buf ts } }

/-- The block with a table operand. -/
def withTable (s : State) (f : Table) : State :=
  { s with nsym := BitVec.ofNat 32 f.length
           mem := { s.mem with freqSym := buf (f.map Prod.fst), freqCount := buf (f.map Prod.snd) } }

/-- The block with a bit-sequence operand. -/
def withBits (s : State) (bs : List Bool) : State :=
  { s with bitCount := BitVec.ofNat 32 bs.length, mem := { s.mem with bit := buf bs } }

/-- The block with a packed operand of `n` bits. -/
def withBytes (s : State) (n : Word) (bs : List Byte) : State :=
  { s with bitCount := n, mem := { s.mem with byte := buf bs } }

/-- The block with a path operand. -/
def withPath (s : State) (ds : List Word) : State :=
  { s with pathLen := BitVec.ofNat 32 ds.length, mem := { s.mem with path := buf ds } }

/-- The block with a payload operand. -/
def withPay (s : State) (f : BitVec 2) (w x : Word) : State := { s with payFlags := f, payWeight := w, paySym := x }

/-- The block with a tree in the arena, not built by a construction. -/
def withTree (ns : List Node) (root : Word) : State :=
  { State.reset with nnodes := BitVec.ofNat 32 ns.length, root := root, mem := { Memory.unspecified with node := buf ns } }

/-- The block with the built tree of V1. -/
def v1Built : State := { withTree v1Nodes 6 with treeOk := true }

/-- The block with the built tree of V2: "AAAA". -/
def v2Built : State :=
  { withTree [Node.leaf 4 0x41, ⟨⟨true, false, 4, 0⟩, true, false, 0, 0⟩] 1 with treeOk := true }

/-- The tree of V6-8. -/
def v6Tree : State :=
  withTree [⟨Payload.none, false, true, 0, 1⟩, ⟨Payload.none, true, false, 2, 0⟩, ⟨Payload.none, false, true, 0, 3⟩,
    Node.leaf 9 0x43] 0

/-- The block in a small configuration, so that a capacity is soon reached. -/
def small : State := State.resetWith { nText := 16, nSym := 2, nBits := 8, nPath := 4 }

/-- The degenerate tree in the small configuration. -/
def smallBuilt : State := small.construct [(0x41, 9)]

/-! ## Well-formedness -/

theorem test_rsv_not_zero_refused : CommandFields.wellFormed { rsv := 1, opcode := 0x00 } = false := by decide

theorem test_reserved_opcodes_refused :
    ∀ op ∈ [(0x09 : BitVec 8), 0x0F, 0x17, 0xFF], CommandFields.wellFormed { rsv := 0, opcode := op } = false := by decide

theorem test_assigned_opcodes_accepted :
    ∀ op ∈ [(0x00 : BitVec 8), 0x08, 0x10, 0x16], CommandFields.wellFormed { rsv := 0, opcode := op } = true := by decide

theorem test_capacities_out_of_bounds_refused :
    ∀ c ∈ [({ nText := 0, nSym := 8, nBits := 256, nPath := 16 } : Config), ⟨2 ^ 22 + 1, 8, 256, 16⟩, ⟨64, 0, 256, 16⟩,
      ⟨64, 4097, 256, 16⟩, ⟨64, 8, 7, 16⟩, ⟨64, 8, 2 ^ 22 + 1, 16⟩, ⟨64, 8, 256, 0⟩, ⟨64, 8, 256, 2 ^ 22 + 1⟩],
      c.wellFormed = false := by simp [Config.wellFormed]

/-! ## Decoding, from the encoding table of 30_encoding.md R122 -/

theorem test_decode_compute : ∀ e ∈ [((0x00000000 : Word), Instr.nop), (0x00000001, .freq), (0x00000002, .buildf),
    (0x00000003, .build), (0x00000004, .codemap), (0x00000005, .encode), (0x00000006, .pack), (0x00000007, .unpack),
    (0x00000008, .decode)], decode e.1 = .command e.2 ∧ encode e.2 = e.1 := by decide

theorem test_decode_tree : ∀ e ∈ [((0x00000010 : Word), Instr.tnew), (0x00000011, .tsetl), (0x00000012, .tsetr),
    (0x00000013, .tgetl), (0x00000014, .tgetr), (0x00000015, .tsetp), (0x00000016, .tgetp)],
    decode e.1 = .command e.2 ∧ encode e.2 = e.1 := by decide

theorem test_decode_bad : decode 0x00000009 = .bad 0x00000009 ∧ decode 0x0000000F = .bad 0x0000000F ∧
    decode 0x00000017 = .bad 0x00000017 ∧ decode 0x000000FF = .bad 0x000000FF ∧
    decode 0x00000100 = .bad 0x00000100 ∧ decode 0x80000001 = .bad 0x80000001 := by decide

theorem test_decodeTableWord : decodeTableWord 32 0x15 = some .tsetp ∧ decodeTableWord 32 0x115 = none := by decide

/-! ## One step each (95_test_vectors.md) -/

/-- V9-1 and V9-5. -/
theorem test_nop : after (exec .nop { State.reset with errCode := 0x0C, errInfo := 0xFF }) (fun t =>
    t.statusWord == 2 && reports 0 0 0 t) = true := by decide

/-- V9-2: the Engine's turn on an illegal word. -/
theorem test_illegal_word : after (step (State.reset.withFetchWord 32 0xFF)) (fun t =>
    t.statusWord == 6 && reports 0x0C 0xFF 0 t) = true := by decide

/-- A command word placed where the step takes it runs. -/
theorem test_withFetchWord_runs : after (step (State.reset.withFetchWord 32 0x10)) (fun t =>
    t.nnodes == 1 && t.statusWord == 2) = true := by decide

/-- V1-1. -/
theorem test_freq : after (exec .freq (withText State.reset v1Text)) (fun t =>
    fine t && t.nsym == 4 && t.mem.freqSym == buf [0x42, 0x43, 0x41, 0x44] && t.mem.freqCount == buf [1, 6, 5, 3]) = true := by
  decide

/-- V7-11. -/
theorem test_freq_overflow : after (exec .freq (withText State.reset [0x41, 0x42, 0x43, 0x44, 0x45, 0x46, 0x47, 0x48, 0x49]))
    (fun t => reports 0x08 2 8 t && t.nsym == 0 && t.mem.freqSym == []) = true := by decide

/-- V7-1. -/
theorem test_buildf : after (exec .buildf (withTable State.reset [(0x58, 1), (0x59, 1), (0x5A, 1), (0x57, 1)])) (fun t =>
    fine t && t.root == 6 && t.mem.node.drop 4 == [(4, internal 2 0 1), (5, internal 2 2 3), (6, internal 4 4 5)]) = true := by
  decide

/-- V3-7: a tie between an internal node and a leaf goes to the lower index. -/
theorem test_buildf_tie : after (exec .buildf (withTable State.reset
    [(0x41, 1), (0x42, 1), (0x43, 2), (0x44, 3), (0x45, 5), (0x46, 8), (0x47, 13), (0x48, 21)])) (fun t =>
    t.root == 14 && t.nnodes == 15 && t.mem.node.drop 8 == [(8, internal 2 0 1), (9, internal 4 2 8), (10, internal 7 3 9),
      (11, internal 12 4 10), (12, internal 20 5 11), (13, internal 33 6 12), (14, internal 54 7 13)]) = true := by decide

/-- V1-2. -/
theorem test_build : after (exec .build (withText State.reset v1Text)) (fun t =>
    fine t && t.nsym == 4 && t.root == 6 && t.nnodes == 7 && t.treeOk && !t.mapOk && t.mem.node == buf v1Nodes) = true := by
  decide

/-- V2: the degenerate tree. -/
theorem test_build_degenerate : after (exec .build (withText State.reset [0x41, 0x41, 0x41, 0x41])) (fun t =>
    t.mem.node == v2Built.mem.node && t.root == 1 && t.nnodes == 2) = true := by decide

/-- V1-3. -/
theorem test_codemap : after (exec .codemap v1Built) (fun t =>
    fine t && t.mapOk && t.cmapCount == 4 && t.mem.cmap.map (fun e => (e.2.sym, e.2.len)) ==
      [(0x43, 1), (0x42, 3), (0x44, 3), (0x41, 2)] &&
    t.mem.cmap.map (fun e => e.2.code) == ["0000000", "1000000", "1010000", "1100000"].map bits) = true := by decide

/-- V1-3: the window word of entry 2, a write to which is ignored. -/
theorem test_codemap_word : after (exec .codemap v1Built) (fun t =>
    ((t.busWrite 0x6000008 4 5).busRead 0x6000008 4).resp == some ⟨.okay, 0xA0000000⟩) = true := by decide

/-- V1-4. -/
theorem test_encode : after (exec .encode (withText v1Built v1Text)) (fun t =>
    fine t && t.mapOk && t.bitCount == 28 && t.mem.bit == buf v1Bits) = true := by decide

/-- V3-2. -/
theorem test_encode_unknown : after (exec .encode (withText v1Built [0x41, 0x42, 0x45])) (fun t =>
    reports 0x05 0x45 2 t && t.bitCount == 0 && t.mapOk && t.cmapCount == 4) = true := by decide

/-- R260, R322: nine bits for a buffer of eight. -/
theorem test_encode_overflow : after (exec .encode (withText smallBuilt (List.replicate 9 0x41))) (fun t =>
    reports 0x08 4 0 t && t.bitCount == 0 && t.mem.bit == [] && t.mapOk) = true := by decide

/-- V4-3: the byte order, the padding and the zeroed rest of the word. -/
theorem test_pack : after (exec .pack (withBits State.reset (bits "101010101"))) (fun t =>
    fine t && t.byteCount == 2 && t.mem.byte == buf [0xAA, 0x80, 0, 0]) = true := by decide

/-- V1-5. -/
theorem test_pack_word : after (exec .pack (withBits State.reset v1Bits)) (fun t =>
    t.byteCount == 4 && (t.busRead 0x8000000 4).resp == some ⟨.okay, 0x8FB69B60⟩) = true := by decide

/-- V4-6: the padding bits are not read. -/
theorem test_unpack : after (exec .unpack (withBytes State.reset 9 [0xAA, 0xFF])) (fun t =>
    fine t && t.bitCount == 9 && t.mem.bit == buf (bits "101010101")) = true := by decide

/-- V4-9, from a BYTEBUF write. -/
theorem test_unpack_word : after (exec .unpack { State.reset.busWrite 0x8000000 4 0x6E8ADC00 with bitCount := 23 }) (fun t =>
    t.mem.bit == buf (bits "01101110100010101101110")) = true := by decide

/-- V1-6. -/
theorem test_decode : after (exec .decode (withBits v1Built v1Bits)) (fun t =>
    fine t && t.outLen == 15 && t.mem.out == buf v1Text) = true := by decide

/-- V5-2. -/
theorem test_decode_truncated : after (exec .decode (withBits v1Built (bits "1000111"))) (fun t =>
    reports 0x07 1 6 t && t.outLen == 0) = true := by decide

/-- V6-2 and V6-3: the payload is normalised. -/
theorem test_tnew : after (exec .tnew (withPay State.reset 1 7 0x41)) (fun t =>
    t.mem.node == [(0, Node.fresh ⟨true, false, 7, 0⟩)] && t.root == 0 && t.nnodes == 1) = true := by decide

theorem test_tnew_none : after (exec .tnew (withPay State.reset 2 5 0x41)) (fun t =>
    t.mem.node == [(0, Node.fresh Payload.none)]) = true := by decide

/-- V6-5: the old child is an orphan and stays. -/
theorem test_tsetl : after (exec .tsetl (withPay (withTree [⟨⟨true, false, 7, 0⟩, true, false, 1, 0⟩, Node.leaf 2 0x42] 0) 3 4 0x44))
    (fun t => fine t && t.nnodes == 3 && t.mem.node ==
      buf [⟨⟨true, false, 7, 0⟩, true, false, 2, 0⟩, Node.leaf 2 0x42, Node.leaf 4 0x44]) = true := by decide

/-- V6-17: a full arena. -/
theorem test_tsetl_full : after (exec .tsetl { v6Tree with nnodes := 16 }) (fun t => reports 0x08 3 0 t) = true := by decide

/-- V6-19. -/
theorem test_tsetr : after (exec .tsetr (withPay { v1Built with mapOk := true, cmapCount := 4 } 3 1 0x45)) (fun t =>
    fine t && t.nnodes == 8 && t.mem.node.drop 6 == [(6, internal 15 1 7), (7, Node.leaf 1 0x45)] &&
    t.statusWord == 2 && t.cmapCount == 0) = true := by decide

/-- V6-6. -/
theorem test_tgetl : after (exec .tgetl (withTree [⟨⟨true, false, 7, 0⟩, true, false, 2, 0⟩, Node.leaf 2 0x42, Node.leaf 4 0x44] 0))
    (fun t => fine t && t.res == ⟨true, true, 4, 0x44⟩) = true := by decide

/-- V6-7. -/
theorem test_tgetr : after (exec .tgetr { withTree [⟨⟨true, false, 7, 0⟩, true, false, 1, 0⟩, Node.leaf 2 0x42] 0 with
    res := ⟨true, true, 1, 1⟩ }) (fun t => fine t && t.res == Payload.none) = true := by decide

/-- V6-8. -/
theorem test_tsetp : after (exec .tsetp (withPay (withPath (withTree [Node.fresh Payload.none] 0) [1, 0, 1]) 3 9 0x43)) (fun t =>
    fine t && t.nnodes == 4 && t.mem.node == v6Tree.mem.node) = true := by decide

/-- V6-18: an existing node keeps its links. -/
theorem test_tsetp_existing : after (exec .tsetp (withPay (withPath v6Tree [1, 0]) 1 6 0)) (fun t =>
    fine t && t.nnodes == 4 && Buf.load t.mem.node 2 == some ⟨⟨true, false, 6, 0⟩, false, true, 0, 3⟩) = true := by decide

/-- V1-7. -/
theorem test_tgetp : after (exec .tgetp (withPath v1Built [1, 0, 1])) (fun t =>
    fine t && t.res == ⟨true, true, 3, 0x44⟩) = true := by decide

/-- V6-12: the digits are checked before the walk. -/
theorem test_tgetp_digit : after (exec .tgetp (withPath v6Tree [0, 5])) (fun t =>
    reports 0x02 5 1 t && t.res == Payload.none) = true := by decide

/-! ## The bus (V9, P5) -/

theorem test_bus_errors : ∀ e ∈ [((0x1000100 : Offset), 4), (0x042, 4), (0x040, 2), (0xB000000, 4), (0x0001000, 4)],
    (State.reset.busRead e.1 e.2).resp = some ⟨.error, 0⟩ := by decide

theorem test_register_reads : (State.reset.busRead 0x038 4).resp = some ⟨.okay, 0⟩ ∧
    (State.reset.busRead 0x004 4).resp = some ⟨.okay, 0x00010000⟩ ∧
    (State.reset.busRead 0x018 4).resp = some ⟨.okay, 16⟩ ∧ (State.reset.busRead 0x01C 4).resp = some ⟨.okay, 7⟩ ∧
    (State.reset.busRead 0x024 4).resp = some ⟨.okay, 0⟩ := by decide

theorem test_pay_flags_mask : ((State.reset.busWrite 0x064 4 0xFFFFFFFF).busRead 0x064 4).resp = some ⟨.okay, 3⟩ := by decide

theorem test_id_write_ignored : ((State.reset.busWrite 0x000 4 5).busRead 0x000 4).resp = some ⟨.okay, 0x48455443⟩ := by decide

/-- V9-6. -/
theorem test_irq : after (exec .nop (State.reset.busWrite 0x020 4 1)) (fun t => t.irq && !(t.busWrite 0x028 4 2).irq) = true := by
  decide

/-- P5, schedule (b): a write while BUSY = 1 is ignored and sets OVR; the completion leaves STATUS = 0x0A. -/
theorem test_busy_overrun : after (exec .freq ((State.reset.busWrite 0x024 4 1).busWrite 0x040 4 5)) (fun t =>
    t.textLen == 0 && t.statusWord == 0x0A) = true := by decide

/-- P5: the soft reset. -/
theorem test_soft_reset : ({ v1Built with done := true, ovr := true, irqEn := true }.busWrite 0x020 4 3).statusWord = 0 ∧
    ({ v1Built with irqEn := true }.busWrite 0x020 4 3).ctrlWord = 0 ∧ (v1Built.busWrite 0x020 4 2).nnodes = 0 ∧
    (v1Built.busWrite 0x020 4 2).mem = v1Built.mem := by decide

/-- A soft reset that aborts PACK. -/
theorem test_soft_reset_aborts : ({ withBytes State.reset 9 [0xAA, 0xFF] with cmdLatch := some 6 }.busWrite 0x020 4 2).mem.byte = [] := by
  decide

/-- A NODE entry's FLAGS word (V1-2). -/
theorem test_node_words : (v1Built.busRead 0x3000080 4).resp = some ⟨.okay, 0xD⟩ ∧
    (v1Built.busRead 0x300008C 4).resp = some ⟨.okay, 0⟩ ∧ (v1Built.busRead 0x3000090 4).resp = some ⟨.okay, 3⟩ := by decide

/-! ## The invariant and the trees of the witnesses -/

/-- The tree of V1-2. -/
def v1Tree : Built :=
  .forked 15 (.leaf 6 0x43) (.fork 9 (.fork 4 (.leaf 1 0x42) (.leaf 3 0x44)) (.leaf 5 0x41))

/-- The block of V1 with every operand written. -/
def full : State :=
  withPath (withBytes (withBits (withTable (withText v1Built v1Text) v1Table) v1Bits) 28 [0x8F, 0xB6, 0x9B, 0x60]) [1, 0, 0]

/-- `full` once its map is derived. -/
def mapped : State := got (exec .codemap full)

theorem reset_inv (c : Config) (h : c.wellFormed = true) : (State.resetWith c).Inv :=
  State.Inv.resetRegisters (s := State.resetWith c) (m := Memory.unspecified) h rfl rfl (by intro k n hk; cases hk)

theorem small_wf : small.cfg.wellFormed = true := by decide

theorem v1Built_inv : v1Built.Inv := by
  have h := (State.Inv.construct (reset_inv Config.ref (by decide)) (t := v1Table) (by decide) (by decide) (by decide)
    (by decide)).1
  have e : (State.resetWith Config.ref).construct v1Table = v1Built := by decide
  rwa [e] at h

theorem full_inv : full.Inv :=
  v1Built_inv.congr rfl (by decide) (by decide) rfl rfl rfl rfl rfl rfl rfl (by decide) (by decide)

theorem v1_holds {s : State} (h1 : s.mem.node = buf v1Nodes) (h2 : s.root = 6) (h3 : s.nnodes = 7)
    (h4 : s.mapOk = true → s.mapOperand = v1Tree.codes.map fun m => some (cmapEntry s.cfg.codeCap m)) :
    s.holdsBuilt v1Tree := by
  refine ⟨⟨⟨rfl, trivial, rfl, ⟨rfl, trivial, trivial⟩, trivial⟩, by decide⟩, ?_, ?_, h4⟩
  · rw [h1, h2]
    exact ⟨1, 5, rfl, rfl, 4, 2, rfl, ⟨0, 3, rfl, rfl, rfl⟩, rfl⟩
  · rw [h3]; rfl

theorem full_holds : full.holdsBuilt v1Tree := v1_holds rfl rfl rfl (by decide)

theorem mapped_eq : mapped = (full.storeMap v1Tree.codes).succeed := by decide

theorem mapped_inv : mapped.Inv := by rw [mapped_eq]; exact (full_inv.storeMap rfl full_holds).1.succeed

theorem mapped_holds : mapped.holdsBuilt v1Tree := v1_holds (by decide) (by decide) (by decide) (by decide)

theorem smallBuilt_inv : smallBuilt.Inv :=
  (State.Inv.construct (reset_inv _ small_wf) (t := [(0x41, 9)]) (by decide) (by decide) (by decide) (by decide)).1

theorem smallBuilt_holds {s : State} (h1 : s.mem.node = smallBuilt.mem.node) (h2 : s.root = 1) (h3 : s.nnodes = 2)
    (h4 : s.mapOk = false) : s.holdsBuilt (.single 9 0x41) := by
  refine ⟨⟨trivial, by decide⟩, ?_, ?_, fun h => by rw [h4] at h; cases h⟩
  · rw [h1, h2]
    exact ⟨0, by decide, by decide⟩
  · rw [h3]; rfl

/-! ## Witnesses: decoding, the Engine's turn, the invariant -/

theorem witness_DecodeIsTotalAndExact :
    { State.reset with cmdLatch := some 0x100 }.cmdLatch = some 0x100 ∧ decode 0x100 = .bad 0x100 ∧
    { State.reset with cmdLatch := some 0x17 }.cmdLatch = some 0x17 ∧ decode 0x17 = .bad 0x17 := by decide

theorem witness_IllegalWordCompletesWithBadCommand : ∀ c ∈ [(0x100 : Word), 0x09, 0x0F, 0x17, 0xFF],
    { State.reset with cmdLatch := some c }.cmdLatch = some c ∧
    (c.toNat / 256 ≠ 0 ∨ (0x09 ≤ c.toNat % 256 ∧ c.toNat % 256 ≤ 0x0F) ∨ 0x17 ≤ c.toNat % 256) := by simp

theorem witness_StepRunsTheLatchedCommand :
    ({ full with cmdLatch := some 6 }.cmdLatch = some 6 ∧ decode 6 = .command .pack ∧ full.inbox = []) ∧
    { full with cmdLatch := some 6, inbox := [.engine] }.inbox = .engine :: [] ∧
    { full with cmdLatch := some 6, inbox := [.poll 0] }.inbox = .poll 0 :: [] ∧
    ({ full with cmdLatch := some 0xFF }.cmdLatch = some 0xFF ∧ decode 0xFF = .bad 0xFF) ∧
    { full with cmdLatch := some 0xFF, inbox := [.engine] }.inbox = .engine :: [] ∧
    { full with cmdLatch := some 0xFF, inbox := [.poll 0] }.inbox = .poll 0 :: [] ∧
    State.reset.cmdLatch = .none ∧ State.reset.inbox = [] ∧
    { full with inbox := [.read 0x028 4, .engine] }.inbox = .read 0x028 4 :: [.engine] ∧
    { full with inbox := [.write 0x040 4 5] }.inbox = .write 0x040 4 5 :: [] ∧
    { full with inbox := [.hardReset] }.inbox = .hardReset :: [] ∧
    { full with inbox := [.poll 3] }.inbox = .poll 3 :: [] ∧ { full with inbox := [.poll 3] }.busy = false ∧
    { full with cmdLatch := some 6, inbox := [.poll (0 + 1)] }.inbox = .poll (0 + 1) :: [] ∧
    { full with cmdLatch := some 6, inbox := [.poll (0 + 1)] }.busy = true := by decide

/-- A Host write and a Host read, each as one step (20_memory.md R90, R91; the word of ID is 10_state.md R32's). -/
theorem test_host_events_run :
    after (step { State.reset with inbox := [.write 0x040 4 5] }) (fun t => t.textLen == 5 && t.inbox == []) = true ∧
    after (step { State.reset with inbox := [.read 0x000 4] }) (fun t => t.resp == some ⟨.okay, 0x48455443⟩) = true := by decide

theorem witness_PollEndsWithCommandComplete :
    { full with cmdLatch := some 6, inbox := [.poll 3, .engine] }.Inv ∧
    { full with cmdLatch := some 6, inbox := [.poll 3, .engine] }.inbox = .poll 3 :: [.engine] ∧
    { full with cmdLatch := some 6, inbox := [.poll 3, .engine] }.cmdLatch = some 6 ∧
    ∀ i, decode 6 = .command i → OperandsWritten { full with cmdLatch := some 6, inbox := [.poll 3, .engine] } i := by
  refine ⟨full_inv.congr rfl (by decide) (by decide) rfl rfl rfl rfl rfl rfl rfl (by decide) (by decide), rfl, rfl, ?_⟩
  intro i hi
  have e : Instr.pack = i := Decoded.command.inj (Eq.trans (by decide) hi)
  subst e
  intro _
  show ∀ i, i < 28 → (Buf.load full.mem.bit i).isSome
  decide

theorem witness_CompletionWritesAndHostSideFrame :
    Ends .pack full fine ∧ Ends .buildf (withTable full [(1, 1), (1, 1)]) (reports 0x0B 1 1) :=
  ⟨ends_of (by decide), ends_of (by decide)⟩

theorem witness_EveryCommandCompletes : full.Inv ∧ ∀ i, OperandsWritten full i := by
  refine ⟨full_inv, fun i => ?_⟩
  have h1 : ∀ i, i < 15 → (Buf.load full.mem.text i).isSome := by decide
  have h2 : ∀ i, i < 4 → (Buf.load full.mem.freqSym i).isSome ∧ (Buf.load full.mem.freqCount i).isSome := by decide
  have h3 : ∀ i, i < 28 → (Buf.load full.mem.bit i).isSome := by decide
  have h4 : ∀ i, i < 4 → (Buf.load full.mem.byte i).isSome := by decide
  have h5 : ∀ i, i < 3 → (Buf.load full.mem.path i).isSome := by decide
  cases i
  case buildf => exact fun _ => ⟨fun i hi => (h2 i hi).1, fun i hi => (h2 i hi).2⟩
  all_goals first | exact trivial | exact fun _ => h1 | exact fun _ => h3 | exact fun _ => h4 | exact fun _ => h5

theorem witness_IrqIsEnabledDone :
    Ends .pack full (fun t => t.done) ∧ State.reset.cmdLatch = .none ∧ (2 : Word).getLsbD 1 = true :=
  ⟨ends_of (by decide), by decide, by decide⟩

/-- The smallest and the largest configuration of 00_scope.md R5, and the reference one. -/
theorem witness_ResetMeetsInvariant :
    ∀ c ∈ [Config.mk 1 1 8 1, ⟨2 ^ 22, 4096, 2 ^ 22, 2 ^ 22⟩, ⟨64, 8, 256, 16⟩], c.wellFormed = true := by
  simp [Config.wellFormed]

theorem witness_StepKeepsInvariant : full.Inv ∧ step full = .next full ∧
    (full.withFetchWord 32 6).Inv ∧ ∃ t, step (full.withFetchWord 32 6) = .next t :=
  ⟨full_inv, rfl, full_inv.congr rfl (by decide) (by decide) rfl rfl rfl rfl rfl rfl rfl (by decide) (by decide),
    _, got_eq (by decide)⟩

/-! ## Witnesses: errors and frames -/

theorem witness_FirstChecksReportTheirError :
    { full with textLen := 65 }.cfg.nText < { full with textLen := 65 }.textLen.toNat ∧ State.reset.textLen = 0 ∧
    State.reset.nsym = 0 ∧ { full with nsym := 9 }.cfg.nSym < { full with nsym := 9 }.nsym.toNat ∧
    State.reset.treeOk = false ∧ { full with textLen := 65 }.treeOk = true ∧
    { full with bitCount := 257 }.cfg.nBits < { full with bitCount := 257 }.bitCount.toNat ∧
    { full with bitCount := 257 }.treeOk = true ∧ State.reset.nnodes = 0 ∧
    { full with nnodes := 16 }.nnodes ≠ 0 ∧ { full with nnodes := 16 }.nnodes.toNat = { full with nnodes := 16 }.cfg.nodeCap ∧
    full.nnodes ≠ 0 ∧ { full with pathLen := 17 }.cfg.nPath < { full with pathLen := 17 }.pathLen.toNat ∧
    { full with pathLen := 0 }.pathLen = 0 := by
  decide

/-- One failure of every command that can fail, and both kinds of those that can fail in two ways. -/
theorem witness_FailedCommandEffects :
    ∀ e ∈ [(Instr.buildf, withTable full [(1, 1), (1, 1)]), (.codemap, State.reset), (.pack, { full with bitCount := 257 }),
      (.unpack, { full with bitCount := 257 }), (.tsetl, State.reset), (.tsetr, { full with nnodes := 16 }),
      (.tsetp, { full with pathLen := 0 }), (.tgetl, State.reset), (.tgetr, State.reset), (.tgetp, withPath full [0, 0]),
      (.freq, withText full [1, 2, 3, 4, 5, 6, 7, 8, 9]), (.freq, { full with textLen := 65 }),
      (.build, withText full [1, 2, 3, 4, 5, 6, 7, 8, 9]), (.build, { full with textLen := 0 }),
      (.encode, withText full [0x45]), (.encode, withText mapped [0x45]), (.encode, { full with textLen := 65 }),
      (.encode, withText smallBuilt (List.replicate 9 0x41)), (.decode, withBits full [true, false]),
      (.decode, withBits smallBuilt [true]), (.decode, { full with bitCount := 257 })],
      Ends e.1 e.2 fun t => !fine t := by
  simp only [List.forall_mem_cons, List.not_mem_nil, false_implies, implies_true, and_true]
  refine ⟨?_, ?_, ?_, ?_, ?_, ?_, ?_, ?_, ?_, ?_, ?_, ?_, ?_, ?_, ?_, ?_, ?_, ?_, ?_, ?_, ?_⟩ <;> exact ends_of (by decide)

theorem witness_FrameOfGetCommands :
    Ends .tgetl full fine ∧ Ends .tgetr full fine ∧ Ends .tgetp full fine ∧ Ends .tgetp (withPath full [2]) (reports 0x02 2 0) :=
  ⟨ends_of (by decide), ends_of (by decide), ends_of (by decide), ends_of (by decide)⟩

theorem witness_FrameOfTreeEdits :
    Ends .tnew full fine ∧ Ends .tsetl full fine ∧ Ends .tsetr full fine ∧ Ends .tsetp (withPath full [0, 1, 1]) fine ∧
    (withPath full [0, 1, 1]).checkPath false = .ok [false, true, true] ∧
    missingNodes full.mem.node full.root [false, true, true] = .ok 2 ∧
    nodeAt full.mem.node full.root 0 ([false, true, true].take (3 - 2)) = .ok 1 ∧ full.cfg.nodeCap < 2 ^ 32 :=
  ⟨ends_of (by decide), ends_of (by decide), ends_of (by decide), ends_of (by decide), by decide, by decide, by decide,
    by decide⟩

theorem witness_FrameOfConstruction :
    full.cfg.wellFormed = true ∧ Ends .freq full fine ∧ Ends .buildf full fine ∧ Ends .build full fine ∧
    Ends .build (withText full []) (reports 0x01 0 0) :=
  ⟨by decide, ends_of (by decide), ends_of (by decide), ends_of (by decide), ends_of (by decide)⟩

theorem witness_FrameOfMapAndEncode :
    full.cfg.wellFormed = true ∧ full.mapOk = false ∧ mapped.mapOk = true ∧ Ends .codemap full (fun t => t.mapOk) ∧
    Ends .encode full (fun t => fine t && t.mapOk) ∧ Ends .encode mapped fine ∧ Ends .encode (withText mapped [0x45]) (reports 0x05 0x45 0) :=
  ⟨by decide, by decide, by decide, ends_of (by decide), ends_of (by decide), ends_of (by decide), ends_of (by decide)⟩

theorem witness_FrameOfStreamCommands : Ends .pack full fine ∧ Ends .unpack full fine ∧ Ends .decode full fine :=
  ⟨ends_of (by decide), ends_of (by decide), ends_of (by decide)⟩

/-- The first unspecified element is the last of the operand, and the first of it. -/
theorem witness_UnspecifiedOperandIsFault :
    (∀ vs ∈ [[], [true]], vs.length < { withBits State.reset vs with bitCount := 2 }.bitCount.toNat ∧
      { withBits State.reset vs with bitCount := 2 }.bitCount.toNat ≤ Config.ref.nBits ∧
      Buf.load (withBits State.reset vs).mem.bit vs.length = .none) ∧
    (∀ vs ∈ [[], [(0xAA : Byte)]], vs.length < ((withBytes State.reset 9 vs).bitCount.toNat + 7) / 8 ∧
      (withBytes State.reset 9 vs).bitCount.toNat ≤ Config.ref.nBits ∧
      Buf.load (withBytes State.reset 9 vs).mem.byte vs.length = .none) ∧
    (∀ ds ∈ [[], [true]], { withPath full (digitWords ds) with pathLen := 2 }.nnodes ≠ 0 ∧
      { withPath full (digitWords ds) with pathLen := 2 }.pathLen.toNat ≤ Config.ref.nPath ∧
      ds.length < { withPath full (digitWords ds) with pathLen := 2 }.pathLen.toNat ∧
      Buf.load (withPath full (digitWords ds)).mem.path ds.length = .none) ∧
    Buf.holds (withBits State.reset [true]).mem.bit [true] ∧ Buf.holds (withBytes State.reset 9 [0xAA]).mem.byte [0xAA] ∧
    Buf.holds (withPath full (digitWords [true])).mem.path (digitWords [true]) := by
  unfold Buf.holds; decide

/-! ## Witnesses: tree commands -/

/-- The two ends of the range of NNODES. -/
theorem witness_SetChildAllocatesAndLinks : ∀ s ∈ [withTree [Node.leaf 4 0x41] 0, { full with nnodes := 15 }],
    s.nnodes ≠ 0 ∧ s.nnodes.toNat ≠ s.cfg.nodeCap ∧ s.root.toNat < s.nnodes.toNat ∧
    (Buf.load s.mem.node s.root.toNat).isSome := by decide

theorem witness_GetChildReturnsPayload :
    full.nnodes ≠ 0 ∧ Buf.load full.mem.node full.root.toNat = some (internal 15 1 5) ∧ (internal 15 1 5).lv = true ∧
    Buf.load full.mem.node (internal 15 1 5).left.toNat = some (Node.leaf 6 0x43) ∧
    v6Tree.nnodes ≠ 0 ∧ Buf.load v6Tree.mem.node v6Tree.root.toNat = some ⟨Payload.none, false, true, 0, 1⟩ ∧
    (⟨Payload.none, false, true, 0, 1⟩ : Node).lv = false := by decide

theorem witness_PathChecksInOrder :
    full.nnodes ≠ 0 ∧ { full with pathLen := 17 }.cfg.nPath < { full with pathLen := 17 }.pathLen.toNat ∧
    { full with pathLen := 0 }.pathLen = 0 ∧
    (withPath full [1, 2]).pathLen.toNat ≤ full.cfg.nPath ∧ [true].length < (withPath full [1, 2]).pathLen.toNat ∧
    Buf.holds (withPath full [1, 2]).mem.path (digitWords [true]) ∧
    Buf.load (withPath full [1, 2]).mem.path [true].length = some 2 ∧ (2 : Word) ≠ 0 ∧ (2 : Word) ≠ 1 := by
  unfold Buf.holds; decide

/-- A path of three steps, the empty path, and a path that leaves the tree at its second step. -/
theorem witness_TgetpFollowsThePath :
    (full.nnodes ≠ 0 ∧ full.pathLen.toNat ≤ full.cfg.nPath ∧ Operand full.mem.path full.pathLen (digitWords [true, false, false])) ∧
    PathTo full.mem.node full.root [true, false, false] 0 ∧ Buf.load full.mem.node 0 = some (Node.leaf 1 0x42) ∧
    Operand (withPath full []).mem.path (withPath full []).pathLen (digitWords []) ∧ PathTo full.mem.node full.root [] 6 ∧
    Operand (withPath full [0, 0]).mem.path (withPath full [0, 0]).pathLen (digitWords [false, false]) ∧
    PathTo full.mem.node full.root [false] 1 ∧ Buf.load full.mem.node 1 = some (Node.leaf 6 0x43) ∧
    (Node.leaf 6 0x43).child false = .none := by
  unfold Operand Buf.holds
  exact ⟨by decide, ⟨5, ⟨_, rfl, rfl⟩, 4, ⟨_, rfl, rfl⟩, 0, ⟨_, rfl, rfl⟩, rfl⟩, by decide, by decide, rfl, by decide,
    ⟨1, ⟨_, rfl, rfl⟩, rfl⟩, by decide, by decide⟩

theorem withPath_inv {s : State} (h : s.Inv) (ds : List Word) (hw : Buf.wf (buf ds) = true)
    (hin : Buf.within (buf ds) s.cfg.nPath = true) : (withPath s ds).Inv := by
  obtain ⟨h1, h2, h3, h4, h5, h6, h7, h8, -⟩ := Memory.wf_iff.1 h.canonical
  obtain ⟨g1, g2, g3, g4, g5, g6, g7, g8, -⟩ := Memory.within_iff.1 h.within
  exact h.congr rfl (Memory.wf_iff.2 ⟨h1, h2, h3, h4, h5, h6, h7, h8, hw⟩)
    (Memory.within_iff.2 ⟨g1, g2, g3, g4, g5, g6, g7, g8, hin⟩) rfl rfl rfl rfl rfl rfl rfl h.resNormal h.errLegal

/-- Below the leaf NODE[1]: nothing to create, the last free entry taken, and one entry too few. -/
theorem witness_TsetpCreatesThePath : ∀ k ∈ [0, 9, 10], ∃ post, post = List.replicate k false ∧
    (withPath full (digitWords ([false] ++ post))).Inv ∧ full.nnodes ≠ 0 ∧
    (withPath full (digitWords ([false] ++ post))).pathLen.toNat ≤ full.cfg.nPath ∧
    Operand (withPath full (digitWords ([false] ++ post))).mem.path (withPath full (digitWords ([false] ++ post))).pathLen
      (digitWords ([false] ++ post)) ∧
    [false] ++ post ≠ [] ∧ PathTo full.mem.node full.root [false] 1 ∧
    Buf.load full.mem.node 1 = some (Node.leaf 6 0x43) ∧ (∀ d rest, post = d :: rest → (Node.leaf 6 0x43).child d = .none) ∧
    (full.cfg.nodeCap < full.nnodes.toNat + post.length ↔ k = 10) := by
  intro k hk
  refine ⟨_, rfl, ?_⟩
  simp only [List.mem_cons, List.not_mem_nil, or_false] at hk
  unfold Operand Buf.holds
  obtain rfl | rfl | rfl := hk <;>
    exact ⟨withPath_inv full_inv _ (by decide) (by decide), by decide, by decide, by decide, by decide,
      ⟨1, ⟨_, rfl, rfl⟩, rfl⟩, rfl, fun d _ _ => by cases d <;> rfl, by decide⟩

theorem witness_TreeCommandLaws :
    full.Inv ∧ Ends .tsetl full fine ∧ Ends .tsetr full fine ∧
    Ends .tsetp full (fun t => fine t && decide ((0 : Word).toNat < t.pathLen.toNat)) ∧ Ends .tgetl full fine ∧
    Ends .tgetr full fine ∧ Ends .tgetp full fine ∧ Ends .tsetl State.reset (reports 0x09 0 0) ∧
    Ends .tsetr State.reset (reports 0x09 0 0) ∧ Ends .tsetp { full with pathLen := 0 } (reports 0x03 0 0) :=
  ⟨full_inv, ends_of (by decide), ends_of (by decide), ends_of (by decide), ends_of (by decide), ends_of (by decide),
    ends_of (by decide), ends_of (by decide), ends_of (by decide), ends_of (by decide)⟩

/-! ## Witnesses: construction -/

/-- The empty text, and one with exactly N_SYM distinct symbols. -/
theorem witness_FreqMakesFirstSeenTable : ∀ ts ∈ [[], v1Text, [1, 2, 3, 4, 5, 6, 7, 8, 8]],
    Operand (withText State.reset ts).mem.text (withText State.reset ts).textLen ts ∧
    (withText State.reset ts).textLen.toNat ≤ Config.ref.nText ∧ ts.dedup.length ≤ Config.ref.nSym := by
  unfold Operand Buf.holds; decide

theorem witness_TooManySymbolsOverflow :
    { withText State.reset [1, 2, 3, 4, 5, 6, 7, 8, 9] with textLen := 12 }.textLen.toNat ≤ Config.ref.nText ∧
    [(1 : Word), 2, 3, 4, 5, 6, 7, 8].length < { withText State.reset [1, 2, 3, 4, 5, 6, 7, 8, 9] with textLen := 12 }.textLen.toNat ∧
    Buf.holds (withText State.reset [1, 2, 3, 4, 5, 6, 7, 8, 9]).mem.text ([1, 2, 3, 4, 5, 6, 7, 8] ++ [9]) ∧
    [(1 : Word), 2, 3, 4, 5, 6, 7, 8].dedup.length = Config.ref.nSym ∧ (9 : Word) ∉ [(1 : Word), 2, 3, 4, 5, 6, 7, 8] := by
  unfold Buf.holds; decide

theorem witness_BuildIsFreqThenBuildf :
    full.cfg.wellFormed = true ∧ Ends .freq full fine ∧ full.textLen ≠ 0 ∧ Operand full.mem.text full.textLen v1Text ∧
    v1Text ≠ [] ∧ full.textLen.toNat ≤ full.cfg.nText ∧ v1Text.dedup.length ≤ full.cfg.nSym := by
  unfold Operand Buf.holds
  exact ⟨by decide, ends_of (by decide), by decide, by decide, by decide, by decide, by decide⟩

/-- V7-4 and V7-5, whose total is the least that does not fit. -/
theorem witness_BuildfOperandChecks :
    ((withTable State.reset [(1, 3), (2, 4), (1, 5)]).nsym ≠ 0 ∧
      (withTable State.reset [(1, 3), (2, 4), (1, 5)]).nsym.toNat ≤ Config.ref.nSym ∧
      [(1 : Word), 2].length < (withTable State.reset [(1, 3), (2, 4), (1, 5)]).nsym.toNat ∧
      Buf.holds (withTable State.reset [(1, 3), (2, 4), (1, 5)]).mem.freqSym ([1, 2] ++ [1]) ∧
      [(1 : Word), 2].Nodup ∧ (1 : Word) ∈ [(1 : Word), 2]) ∧
    ∃ f : Table, f = [(1, 0xFFFFFFFF), (2, 1)] ∧ (withTable State.reset f).nsym ≠ 0 ∧
      f.length = (withTable State.reset f).nsym.toNat ∧
      Buf.holds (withTable State.reset f).mem.freqSym (f.map Prod.fst) ∧
      Buf.holds (withTable State.reset f).mem.freqCount (f.map Prod.snd) ∧ (f.map Prod.fst).Nodup ∧
      0xFFFFFFFF < (f.map fun e => e.2.toNat).sum := by
  unfold Buf.holds
  exact ⟨by decide, _, rfl, by decide, by decide, by decide, by decide, by decide, by decide⟩

/-- One entry, four entries, N_SYM entries, and the largest total. -/
theorem witness_BuildfConstructsByLeastKeys :
    ∀ f ∈ [[((7 : Word), (5 : Word))], v1Table, [(1, 0xFFFFFFFE), (2, 1)],
      [(1, 1), (2, 1), (3, 1), (4, 1), (5, 1), (6, 1), (7, 1), (8, 1)]],
    (withTable State.reset f).cfg.wellFormed = true ∧ f ≠ [] ∧ f.length = (withTable State.reset f).nsym.toNat ∧
    f.length ≤ Config.ref.nSym ∧ Buf.holds (withTable State.reset f).mem.freqSym (f.map Prod.fst) ∧
    Buf.holds (withTable State.reset f).mem.freqCount (f.map Prod.snd) ∧ (f.map Prod.fst).Nodup ∧
    (f.map fun e => e.2.toNat).sum ≤ 0xFFFFFFFF := by
  unfold Buf.holds; decide

theorem witness_BuiltTreeShape :
    full.Inv ∧ Ends .buildf full (fun t => fine t && t.nsym == 4) ∧ Ends .build full fine ∧
    Ends .build (withText State.reset [0x41]) (fun t => fine t && t.nsym == 1) :=
  ⟨full_inv, ends_of (by decide), ends_of (by decide), ends_of (by decide)⟩

/-- Two blocks with the same operand and different contents. -/
theorem witness_ConstructionIsDeterministic :
    full.cfg = (withText State.reset v1Text).cfg ∧ full.cfg.wellFormed = true ∧
    Operand full.mem.text full.textLen v1Text ∧
    Operand (withText State.reset v1Text).mem.text (withText State.reset v1Text).textLen v1Text ∧
    Ends .build full fine ∧ Ends .build (withText State.reset v1Text) fine ∧
    v1Table.length = full.nsym.toNat ∧ v1Table.length = (withTable State.reset v1Table).nsym.toNat ∧
    (Buf.holds full.mem.freqSym (v1Table.map Prod.fst) ∧ Buf.holds full.mem.freqCount (v1Table.map Prod.snd) ∧
      Buf.holds (withTable State.reset v1Table).mem.freqSym (v1Table.map Prod.fst) ∧
      Buf.holds (withTable State.reset v1Table).mem.freqCount (v1Table.map Prod.snd)) ∧
    Ends .buildf full fine ∧ Ends .buildf (withTable State.reset v1Table) fine := by
  unfold Operand Buf.holds
  exact ⟨by decide, by decide, by decide, by decide, ends_of (by decide), ends_of (by decide), by decide, by decide,
    by decide, ends_of (by decide), ends_of (by decide)⟩

/-! ## Witnesses: code map and encoding -/

theorem witness_CodemapWritesTheMap :
    (full.Inv ∧ full.treeOk = true ∧ full.holdsBuilt v1Tree) ∧
    (mapped.Inv ∧ mapped.treeOk = true ∧ mapped.holdsBuilt v1Tree) ∧
    smallBuilt.Inv ∧ smallBuilt.treeOk = true ∧ smallBuilt.holdsBuilt (.single 9 0x41) :=
  ⟨⟨full_inv, by decide, full_holds⟩, ⟨mapped_inv, by decide, mapped_holds⟩, smallBuilt_inv, by decide,
    smallBuilt_holds rfl (by decide) (by decide) (by decide)⟩

/-- The first entry and the last. -/
theorem witness_CodeWordsArePrefixFree :
    mapped.Inv ∧ mapped.mapOk = true ∧ 0 < mapped.cmapCount.toNat ∧ 3 < mapped.cmapCount.toNat ∧ 0 ≠ 3 :=
  ⟨mapped_inv, by decide, by decide, by decide, by decide⟩

theorem witness_CodeWordLeadsToItsSymbol :
    mapped.Inv ∧ mapped.mapOk = true ∧ mapped.holdsBuilt v1Tree ∧ 1 < mapped.cmapCount.toNat ∧
    Buf.load mapped.mem.cmap 1 = some ⟨0x42, 3, bits "1000000"⟩ ∧ mapped.pathLen = 3 ∧
    mapped.pathLen.toNat ≤ mapped.cfg.nPath ∧
    Buf.holds mapped.mem.path (digitWords ((bits "1000000").take (3 : Word).toNat)) := by
  unfold Buf.holds
  exact ⟨mapped_inv, by decide, mapped_holds, by decide, by decide, by decide, by decide, by decide⟩

/-- After BUILD or BUILDF of the V1 table, and CODEMAP; the last entry of the map. -/
theorem witness_CodeWordLeadsToItsSymbol_count : ∀ i ∈ [Instr.build, .buildf], ∃ t u, full.Inv ∧ (i = .buildf ∨ i = .build) ∧
    exec i full = .next t ∧ t.errCode = 0 ∧ v1Table.length = t.nsym.toNat ∧
    Buf.holds t.mem.freqSym (v1Table.map Prod.fst) ∧ Buf.holds t.mem.freqCount (v1Table.map Prod.snd) ∧
    exec .codemap t = .next u ∧ 3 < u.cmapCount.toNat ∧ Buf.load u.mem.cmap 3 = some ⟨0x41, 2, bits "1100000"⟩ ∧
    (2 : Word).toNat ≤ u.cfg.nPath ∧ Buf.holds (buf [(1 : Word), 1]) (digitWords ((bits "1100000").take (2 : Word).toNat)) := by
  intro i hi
  simp only [List.mem_cons, List.not_mem_nil, or_false] at hi
  unfold Buf.holds
  obtain rfl | rfl := hi <;>
    exact ⟨_, _, full_inv, by decide, got_eq (by decide), by decide, by decide, by decide, by decide, got_eq (by decide),
      by decide, by decide, by decide, by decide⟩

theorem withText_inv {s : State} (h : s.Inv) (ts : List Word) (hw : Buf.wf (buf ts) = true)
    (hin : Buf.within (buf ts) s.cfg.nText = true) : (withText s ts).Inv := by
  obtain ⟨-, h2, h3, h4, h5, h6, h7, h8, h9⟩ := Memory.wf_iff.1 h.canonical
  obtain ⟨-, g2, g3, g4, g5, g6, g7, g8, g9⟩ := Memory.within_iff.1 h.within
  exact h.congr rfl (Memory.wf_iff.2 ⟨hw, h2, h3, h4, h5, h6, h7, h8, h9⟩)
    (Memory.within_iff.2 ⟨hin, g2, g3, g4, g5, g6, g7, g8, g9⟩) rfl rfl rfl rfl rfl rfl rfl h.resNormal h.errLegal

theorem withBits_inv {s : State} (h : s.Inv) (bs : List Bool) (hw : Buf.wf (buf bs) = true)
    (hin : Buf.within (buf bs) s.cfg.nBits = true) : (withBits s bs).Inv := by
  obtain ⟨h1, h2, h3, h4, h5, -, h7, h8, h9⟩ := Memory.wf_iff.1 h.canonical
  obtain ⟨g1, g2, g3, g4, g5, -, g7, g8, g9⟩ := Memory.within_iff.1 h.within
  exact h.congr rfl (Memory.wf_iff.2 ⟨h1, h2, h3, h4, h5, hw, h7, h8, h9⟩)
    (Memory.within_iff.2 ⟨g1, g2, g3, g4, g5, hin, g7, g8, g9⟩) rfl rfl rfl rfl rfl rfl rfl h.resNormal h.errLegal

theorem spelled_v1 : Spelled v1Tree v1Text v1Words := by unfold Spelled; decide

theorem spelled_single (k : Nat) (h : k ≤ 9) : Spelled (.single 9 0x41) (List.replicate k 0x41) (List.replicate k [false]) := by
  unfold Spelled; revert k; decide

/-- The V1 text, and one whose code fills the bit buffer exactly. -/
theorem witness_EncodeConcatenatesCodeWords :
    (full.Inv ∧ full.treeOk = true ∧ full.holdsBuilt v1Tree ∧ Operand full.mem.text full.textLen v1Text ∧
      full.textLen.toNat ≤ full.cfg.nText ∧ Spelled v1Tree v1Text v1Words ∧ v1Words.flatten.length ≤ full.cfg.nBits) ∧
    ∃ s ts ps, s = withText smallBuilt ts ∧ s.Inv ∧ s.treeOk = true ∧ s.holdsBuilt (.single 9 0x41) ∧
      Operand s.mem.text s.textLen ts ∧ s.textLen.toNat ≤ s.cfg.nText ∧ Spelled (.single 9 0x41) ts ps ∧
      ps.flatten.length = s.cfg.nBits := by
  unfold Operand Buf.holds
  exact ⟨⟨full_inv, by decide, full_holds, by decide, by decide, spelled_v1, by decide⟩,
    _, List.replicate 8 0x41, List.replicate 8 [false], rfl, withText_inv smallBuilt_inv _ (by decide) (by decide), by decide,
    smallBuilt_holds rfl (by decide) (by decide) (by decide), by decide, by decide, spelled_single 8 (by decide), by decide⟩

/-- An unknown symbol after fifteen known ones, and a ninth bit in a buffer of eight. -/
theorem witness_EncodeReportsFirstFailure :
    (∃ s, s = withText full (v1Text ++ [0x45]) ∧ s.Inv ∧ s.treeOk = true ∧ s.holdsBuilt v1Tree ∧
      s.textLen.toNat ≤ s.cfg.nText ∧ v1Text.length < s.textLen.toNat ∧ Buf.holds s.mem.text (v1Text ++ [0x45]) ∧
      Spelled v1Tree v1Text v1Words ∧ v1Words.flatten.length ≤ s.cfg.nBits ∧ ∀ p, ((0x45 : Word), p) ∉ v1Tree.codes) ∧
    ∃ s ts ps, s = withText smallBuilt (ts ++ [0x41]) ∧ s.Inv ∧ s.treeOk = true ∧ s.holdsBuilt (.single 9 0x41) ∧
      s.textLen.toNat ≤ s.cfg.nText ∧ ts.length < s.textLen.toNat ∧ Buf.holds s.mem.text (ts ++ [0x41]) ∧
      Spelled (.single 9 0x41) ts ps ∧ ps.flatten.length ≤ s.cfg.nBits ∧
      ((0x41 : Word), [false]) ∈ (Built.single 9 0x41).codes ∧ s.cfg.nBits < ps.flatten.length + [false].length := by
  unfold Buf.holds
  refine ⟨⟨_, rfl, withText_inv full_inv _ (by decide) (by decide), by decide, v1_holds rfl rfl rfl (by decide), by decide,
    by decide, by decide, spelled_v1, by decide, ?_⟩,
    _, List.replicate 8 0x41, List.replicate 8 [false], rfl, withText_inv smallBuilt_inv _ (by decide) (by decide), by decide,
    smallBuilt_holds rfl (by decide) (by decide) (by decide), by decide, by decide, by decide, spelled_single 8 (by decide),
    by decide, by decide, by decide⟩
  intro p hp
  have h : (0x45 : Word) ∈ v1Tree.codes.map Prod.fst := List.mem_map_of_mem hp
  revert h; decide

/-- `full` with the text, the table or the bits written only in part. -/
def partText : State := { withText full [0x42, 0x43] with textLen := 3 }

def partSyms : State := { withTable full [(1, 1), (2, 1)] with nsym := 3 }

def partCounts : State := { withTable full [(1, 1), (2, 1)] with mem := { full.mem with freqSym := buf [1, 2], freqCount := buf [1] } }

def partBits (bs : List Bool) : State := { withBits full bs with bitCount := 8 }

/-- The commands over TEXT, FREQ and BIT; DECODE once in the middle of a code word and once between two. -/
theorem witness_UnspecifiedOperandIsFault_streams :
    (partText.textLen.toNat ≤ partText.cfg.nText ∧ [(0x42 : Word), 0x43].length < partText.textLen.toNat ∧
      Buf.holds partText.mem.text [0x42, 0x43] ∧ [(0x42 : Word), 0x43].dedup.length ≤ partText.cfg.nSym ∧
      Buf.load partText.mem.text [(0x42 : Word), 0x43].length = .none) ∧
    (partText.Inv ∧ partText.treeOk = true ∧ partText.holdsBuilt v1Tree ∧
      Spelled v1Tree [0x42, 0x43] [[true, false, false], [false]] ∧
      [[true, false, false], [false]].flatten.length ≤ partText.cfg.nBits) ∧
    (partSyms.nsym ≠ 0 ∧ partSyms.nsym.toNat ≤ partSyms.cfg.nSym ∧ Buf.holds partSyms.mem.freqSym [1, 2] ∧
      [(1 : Word), 2].Nodup ∧ [(1 : Word), 2].length < partSyms.nsym.toNat ∧
      Buf.load partSyms.mem.freqSym [(1 : Word), 2].length = .none) ∧
    (partCounts.nsym ≠ 0 ∧ partCounts.nsym.toNat ≤ partCounts.cfg.nSym ∧ Buf.holds partCounts.mem.freqSym [1, 2] ∧
      [(1 : Word), 2].length = partCounts.nsym.toNat ∧ [(1 : Word)].length < partCounts.nsym.toNat ∧
      Buf.holds partCounts.mem.freqCount [1] ∧ Buf.load partCounts.mem.freqCount [(1 : Word)].length = .none) ∧
    ∀ p ∈ [[], [true]], ((0x41 : Word), p ++ (bits "11").drop p.length) ∈ v1Tree.codes ∧ (bits "11").drop p.length ≠ [] ∧
      (partBits ([[false]].flatten ++ p)).Inv ∧ (partBits ([[false]].flatten ++ p)).treeOk = true ∧
      (partBits ([[false]].flatten ++ p)).holdsBuilt v1Tree ∧
      (partBits ([[false]].flatten ++ p)).bitCount.toNat ≤ Config.ref.nBits ∧ Spelled v1Tree [0x43] [[false]] ∧
      ([[false]].flatten ++ p).length < (partBits ([[false]].flatten ++ p)).bitCount.toNat ∧
      Buf.holds (partBits ([[false]].flatten ++ p)).mem.bit ([[false]].flatten ++ p) ∧
      Buf.load (partBits ([[false]].flatten ++ p)).mem.bit ([[false]].flatten ++ p).length = .none := by
  unfold Spelled Buf.holds
  refine ⟨by decide, ⟨?_, by decide, v1_holds rfl rfl rfl (by decide), by decide, by decide⟩, by decide, by decide, ?_⟩
  · exact full_inv.congr rfl (by decide) (by decide) rfl rfl rfl rfl rfl rfl rfl (by decide) (by decide)
  · intro p hp
    simp only [List.mem_cons, List.not_mem_nil, or_false] at hp
    obtain rfl | rfl := hp <;>
      exact ⟨by decide, by decide, full_inv.congr rfl (by decide) (by decide) rfl rfl rfl rfl rfl rfl rfl (by decide) (by decide),
        by decide, v1_holds rfl rfl rfl (by decide), by decide, by decide, by decide, by decide, by decide⟩

/-- The faults themselves, one for each buffer. -/
theorem test_unspecified_operand :
    ∀ e ∈ [(Instr.encode, partText), (.freq, partText), (.buildf, partSyms), (.buildf, partCounts), (.decode, partBits [false])],
      after (exec e.1 e.2) (fun _ => true) = false := by decide

theorem witness_EncodeDerivesTheMap :
    full.mapOk = false ∧ full.textLen.toNat ≤ full.cfg.nText ∧ Ends .codemap full fine :=
  ⟨by decide, by decide, ends_of (by decide)⟩

/-! ## Witnesses: pack, unpack, decode -/

/-- No bit, nine bits, and a full buffer. -/
theorem witness_PackGroupsBitsIntoBytes :
    (∀ bs ∈ [[], bits "101010101", v1Bits], Operand (withBits State.reset bs).mem.bit (withBits State.reset bs).bitCount bs ∧
      (withBits State.reset bs).bitCount.toNat ≤ Config.ref.nBits) ∧
    Operand (withBits small (bits "10101010")).mem.bit (withBits small (bits "10101010")).bitCount (bits "10101010") ∧
    (withBits small (bits "10101010")).bitCount.toNat = small.cfg.nBits := by
  unfold Operand Buf.holds; decide

theorem witness_UnpackSpreadsBytesIntoBits :
    (∀ e ∈ [((0 : Word), ([] : List Byte)), (9, [0xAA, 0xFF]), (28, [0x8F, 0xB6, 0x9B, 0x60])],
      e.2.length = ((withBytes State.reset e.1 e.2).bitCount.toNat + 7) / 8 ∧
      Buf.holds (withBytes State.reset e.1 e.2).mem.byte e.2 ∧ (withBytes State.reset e.1 e.2).bitCount.toNat ≤ Config.ref.nBits) ∧
    [(0xAA : Byte)].length = ((withBytes small 8 [0xAA]).bitCount.toNat + 7) / 8 ∧
    Buf.holds (withBytes small 8 [0xAA]).mem.byte [0xAA] ∧ (withBytes small 8 [0xAA]).bitCount.toNat = small.cfg.nBits := by
  unfold Buf.holds; decide

theorem witness_UnpackUndoesPack :
    (Operand full.mem.bit full.bitCount v1Bits ∧ full.bitCount.toNat ≤ full.cfg.nBits) ∧
    (∃ t r, exec .pack full = .next t ∧ r = { State.reset with bitCount := 28, mem := { Memory.unspecified with byte := Buf.store t.mem.byte 4 0x77 } } ∧
      r.bitCount = full.bitCount ∧ (∀ j, j < (full.bitCount.toNat + 7) / 8 → Buf.load r.mem.byte j = Buf.load t.mem.byte j) ∧ full.bitCount.toNat ≤ r.cfg.nBits) ∧
    [(0xAA : Byte), 0xFF].length = ((withBytes State.reset 9 [0xAA, 0xFF]).bitCount.toNat + 7) / 8 ∧
    Buf.holds (withBytes State.reset 9 [0xAA, 0xFF]).mem.byte [0xAA, 0xFF] ∧
    (withBytes State.reset 9 [0xAA, 0xFF]).bitCount.toNat ≤ Config.ref.nBits := by
  unfold Operand Buf.holds
  exact ⟨by decide, ⟨_, _, got_eq (by decide), rfl, by decide, by decide, by decide⟩, by decide⟩

theorem witness_DecodeReadsCodeWords :
    (full.Inv ∧ full.treeOk = true ∧ full.holdsBuilt v1Tree ∧ Spelled v1Tree v1Text v1Words ∧
      Operand full.mem.bit full.bitCount v1Words.flatten ∧ full.bitCount.toNat ≤ full.cfg.nBits) ∧
    ∃ s, s = withBits full [] ∧ s.Inv ∧ s.treeOk = true ∧ s.holdsBuilt v1Tree ∧ Spelled v1Tree [] [] ∧
      Operand s.mem.bit s.bitCount ([] : List (List Bool)).flatten ∧ s.bitCount.toNat ≤ s.cfg.nBits := by
  unfold Operand Buf.holds
  exact ⟨⟨full_inv, by decide, full_holds, spelled_v1, by decide, by decide⟩,
    _, rfl, withBits_inv full_inv _ (by decide) (by decide), by decide, v1_holds rfl rfl rfl (by decide),
    ⟨rfl, by decide⟩, by decide, by decide⟩

/-- V5-8: the V1 stream and the first two bits of "100". -/
theorem witness_TrailingPrefixIsTruncated :
    ∃ s, s = withBits full (v1Words.flatten ++ [true, false]) ∧ s.Inv ∧ s.treeOk = true ∧ s.holdsBuilt v1Tree ∧
      Spelled v1Tree v1Text v1Words ∧ ((0x42 : Word), [true, false] ++ [false]) ∈ v1Tree.codes ∧ [true, false] ≠ [] ∧
      [false] ≠ [] ∧ Operand s.mem.bit s.bitCount (v1Words.flatten ++ [true, false]) ∧ s.bitCount.toNat ≤ s.cfg.nBits := by
  unfold Operand Buf.holds
  exact ⟨_, rfl, withBits_inv full_inv _ (by decide) (by decide), by decide, v1_holds rfl rfl rfl (by decide), spelled_v1,
    by decide, by decide, by decide, by decide, by decide⟩

/-- A forked tree and a failing DECODE; the degenerate tree with the 1 in the first place and in the last of a full buffer. -/
theorem witness_CorruptStreamOnlyOnDegenerateTree :
    (full.Inv ∧ full.treeOk = true ∧ full.holdsBuilt v1Tree ∧ Ends .decode full fine) ∧
    Ends .decode (withBits smallBuilt (List.replicate 7 false ++ [true])) (reports 0x06 1 7) ∧ ∀ k ∈ [0, 7], ∃ s, s = withBits smallBuilt (List.replicate k false ++ [true]) ∧ s.Inv ∧ s.treeOk = true ∧
      s.holdsBuilt (.single 9 0x41) ∧ s.bitCount.toNat ≤ s.cfg.nBits ∧ k < s.bitCount.toNat ∧
      Buf.holds s.mem.bit (List.replicate k false ++ [true]) := by
  refine ⟨⟨full_inv, by decide, full_holds, ends_of (by decide)⟩, ends_of (by decide), fun k hk => ⟨_, rfl, ?_⟩⟩
  simp only [List.mem_cons, List.not_mem_nil, or_false] at hk
  unfold Buf.holds
  obtain rfl | rfl := hk <;>
    exact ⟨withBits_inv smallBuilt_inv _ (by decide) (by decide), by decide,
      smallBuilt_holds rfl (by decide) (by decide) (by decide), by decide, by decide, by decide⟩

/-- The V1 text, and a text whose code is one bit too long for its block. -/
theorem witness_EncodeDecodeRoundTrip :
    (full.Inv ∧ Operand full.mem.text full.textLen v1Text ∧ v1Text ≠ [] ∧ full.textLen.toNat ≤ full.cfg.nText ∧
      v1Text.dedup.length ≤ full.cfg.nSym) ∧
    ∃ s ts, s = withText small ts ∧ s.Inv ∧ Operand s.mem.text s.textLen ts ∧ ts ≠ [] ∧ s.textLen.toNat ≤ s.cfg.nText ∧
      ts.dedup.length ≤ s.cfg.nSym ∧ s.cfg.nBits < ts.length := by
  unfold Operand Buf.holds
  exact ⟨⟨full_inv, by decide, by decide, by decide, by decide⟩,
    _, List.replicate 9 0x41, rfl, withText_inv (reset_inv _ small_wf) _ (by decide) (by decide), by decide, by decide,
    by decide, by decide, by decide⟩

/-- P1 and P2. -/
theorem witness_SecondBlockDecodesTheStream :
    ∃ s1 s2 s3 r1, full.Inv ∧ (withTable full v1Table).Inv ∧ (withTable full v1Table).cfg = full.cfg ∧
      Operand full.mem.text full.textLen v1Text ∧ exec .build full = .next s1 ∧ s1.errCode = 0 ∧
      exec .encode s1 = .next s2 ∧ s2.errCode = 0 ∧ exec .pack s2 = .next s3 ∧ s3.errCode = 0 ∧
      (withTable full v1Table).nsym = s3.nsym ∧
      (∀ j, j < s3.nsym.toNat → Buf.load (withTable full v1Table).mem.freqSym j = Buf.load s3.mem.freqSym j ∧
        Buf.load (withTable full v1Table).mem.freqCount j = Buf.load s3.mem.freqCount j) ∧
      exec .buildf (withTable full v1Table) = .next r1 ∧
      ∀ j, j < (s3.bitCount.toNat + 7) / 8 → Buf.load (Buf.store s3.mem.byte 4 0x77) j = Buf.load s3.mem.byte j := by
  unfold Operand Buf.holds
  exact ⟨_, _, _, _, full_inv, full_inv, rfl, by decide, got_eq (by decide), by decide, got_eq (by decide), by decide,
    got_eq (by decide), by decide, by decide, by decide, got_eq (by decide), by decide⟩

/-! ## Witnesses: the bus -/

/-- The block with a command in flight. -/
def busyBlock : State := { full with cmdLatch := some 6 }

theorem full_cfg : full.cfg = Config.ref := rfl

theorem full_busy : full.busy = false := rfl

theorem busyBlock_cfg : busyBlock.cfg = Config.ref := rfl

theorem busyBlock_busy : busyBlock.busy = true := rfl

/-- The last offset of each window is good, the first past it is bad, and so are a size and an alignment. -/
theorem witness_BadAccessHasNoEffect :
    (∀ e ∈ [((0x040 : Offset), 2), (0x040, 8), (0x042, 4), (0x0001000, 4), (0x1000100, 4), (0x2000040, 4), (0x3000200, 4),
      (0x4000020, 4), (0x5000020, 4), (0x6000020, 4), (0x7000020, 4), (0x8000020, 4), (0x9000400, 4), (0xA000040, 4),
      (0xB000000, 4), (0xF000000, 4)], BadAccess Config.ref e.1 e.2) ∧
    ∀ off ∈ [(0x000 : Offset), 0x0000FFC, 0x10000FC, 0x200003C, 0x30001FC, 0x400001C, 0x500001C, 0x600001C, 0x700001C,
      0x800001C, 0x90003FC, 0xA00003C], ¬ BadAccess Config.ref off 4 := by
  constructor <;> simp [BadAccess, win, ofs, limit, Config.ref]

theorem witness_RegisterPageReads :
    full.busy = false ∧ (0x05C, full.cmapCount) ∈ registerWords full ∧
    (∀ o ∈ [0x038, 0x03C, 0x07C, 0xFFC], o < 0x1000 ∧ o % 4 = 0 ∧ o ∉ (registerWords full).map Prod.fst) ∧
    (0x028, full.statusWord) ∈ registerWords full ∧ 0x028 ∈ readableOffsets := by decide

theorem witness_ReadWhileBusyIsADraw : busyBlock.busy = true ∧
    ∀ off ∈ [(0x024 : Offset), 0x02C, 0x07C, 0x1000000, 0xA00003C],
      ¬ BadAccess busyBlock.cfg off 4 ∧ off.toNat ∉ readableOffsets := by
  simp [BadAccess, win, ofs, limit, busyBlock_cfg, Config.ref, readableOffsets, busyBlock_busy]

theorem witness_WriteWhileBusyOnlySetsOvr : busyBlock.busy = true ∧
    (∀ off ∈ [(0x000 : Offset), 0x01C, 0x024, 0x02C, 0x040, 0x7000000],
      ¬ BadAccess busyBlock.cfg off 4 ∧ off.toNat ≠ 0x020 ∧ off.toNat ≠ 0x028) ∧
    BadAccess busyBlock.cfg 0x024 2 ∧ BadAccess busyBlock.cfg 0xB000000 4 := by
  simp [BadAccess, win, ofs, limit, busyBlock_cfg, Config.ref, busyBlock_busy]

theorem witness_CommandAcceptance : full.busy = false := by decide

theorem witness_CtrlWriteAndSoftReset :
    (1 : Word).getLsbD 1 = false ∧ (3 : Word).getLsbD 1 = true ∧ full.cmdLatch = .none ∧ busyBlock.cmdLatch = some 6 := by
  decide

theorem witness_HardResetValues : { full with inbox := [.hardReset, .engine] }.inbox = .hardReset :: [.engine] := by decide

theorem witness_ReadAfterWriteGivesTheWord : full.busy = false ∧
    (∀ off ∈ [(0x1000000 : Offset), 0x2000004, 0xA00003C, 0x06C, 0x064, 0x700001C, 0x800001C], ¬ BadAccess full.cfg off 4) ∧
    (win 0x1000000 = 0x1 ∧ win 0x2000004 = 0x2 ∧ win 0xA00003C = 0xA ∧
      (0x06C : Offset).toNat ∈ [0x040, 0x044, 0x048, 0x060, 0x068, 0x06C]) ∧
    (0x064 : Offset).toNat = 0x064 ∧ win 0x700001C = 0x7 ∧ win 0x800001C = 0x8 := by
  simp [BadAccess, win, ofs, limit, full_cfg, Config.ref, full_busy]

/-- The frame's clauses: each operand register, and the last word of each read-write window. -/
theorem witness_ReadAfterWriteGivesTheWord_frame :
    (∀ off ∈ [(0x040 : Offset), 0x044, 0x048, 0x060, 0x064, 0x068, 0x06C, 0x10000FC, 0x2000038, 0x200003C, 0x700001C, 0x800001C,
      0xA00003C], ¬ BadAccess full.cfg off 4) ∧
    (win 0x10000FC = 0x1 ∧ ofs 0x10000FC = 4 * 63) ∧ (win 0x2000038 = 0x2 ∧ ofs 0x2000038 = 8 * 7) ∧
    (win 0x200003C = 0x2 ∧ ofs 0x200003C = 8 * 7 + 4) ∧ (win 0x700001C = 0x7 ∧ ofs 0x700001C = 4 * 7) ∧
    (win 0x800001C = 0x8 ∧ ofs 0x800001C = 4 * 7) ∧ win 0xA00003C = 0xA ∧ ofs 0xA00003C = 4 * 15 := by
  simp [BadAccess, win, ofs, limit, full_cfg, Config.ref]

/-- The first byte of a BYTEBUF word is its bits 31:24; the word before it and BIT stay (R58, R84, R91). -/
theorem test_write_frame : (full.busWrite 0x8000004 4 0x11223344).mem.byte = buf [0x8F, 0xB6, 0x9B, 0x60, 0x11, 0x22, 0x33, 0x44] ∧
    (full.busWrite 0x8000004 4 0x11223344).mem.bit = full.mem.bit := by decide

theorem witness_ReadOnlyWriteIsIgnored : full.busy = false ∧ busyBlock.busy = true ∧ busyBlock.cfg = full.cfg ∧
    (∀ off ∈ [(0x3000000 : Offset), 0x400001C, 0x5000000, 0x6000000, 0x90003FC],
      ¬ BadAccess full.cfg off 4 ∧ win off ∈ [0x3, 0x4, 0x5, 0x6, 0x9]) ∧
    ∀ off ∈ [(0x000 : Offset), 0x02C, 0x038, 0x0000FFC], ¬ BadAccess full.cfg off 4 ∧ win off = 0 ∧
      ofs off ∉ [0x020, 0x024, 0x028, 0x040, 0x044, 0x048, 0x060, 0x064, 0x068, 0x06C] := by
  simp [BadAccess, win, ofs, limit, full_cfg, busyBlock_cfg, Config.ref, full_busy, busyBlock_busy]

theorem witness_WindowWordLayouts : mapped.busy = false ∧
    (win 0x7000000 = 0x7 ∧ ofs 0x7000000 = 4 * (27 / 32) ∧ 27 < mapped.cfg.nBits ∧ Buf.load mapped.mem.bit 27 = some false) ∧
    (win 0x8000000 = 0x8 ∧ ofs 0x8000000 = 4 * (3 / 4) ∧ 3 < mapped.cfg.nBytes ∧ Buf.load mapped.mem.byte 3 = some 0x60) ∧
    (win 0x30000D0 = 0x3 ∧ ofs 0x30000D0 = 32 * 6 + 4 * 4 ∧ 4 < 8 ∧ 6 < mapped.cfg.nodeCap ∧
      Buf.load mapped.mem.node 6 = some (internal 15 1 5)) ∧
    Buf.load mapped.mem.cmap 3 = some ⟨0x41, 2, bits "1100000"⟩ ∧ 3 < mapped.cfg.nSym ∧
    (win 0x400000C = 0x4 ∧ ofs 0x400000C = 4 * 3) ∧ (win 0x500000C = 0x5 ∧ ofs 0x500000C = 4 * 3) ∧
    win 0x600000C = 0x6 ∧ 0 < mapped.cfg.cw ∧ ofs 0x600000C = 4 * (3 * mapped.cfg.cw + 0) := by decide

/-- The word windows: the last text symbol, the last FREQ entry's two words, the first output symbol, the last path digit. -/
theorem witness_WindowWordLayouts_words :
    (win 0x1000038 = 0x1 ∧ ofs 0x1000038 = 4 * 14 ∧ 14 < full.cfg.nText ∧ Buf.load full.mem.text 14 = some 0x43) ∧
    (win 0x2000018 = 0x2 ∧ ofs 0x2000018 = 8 * 3 ∧ 3 < full.cfg.nSym ∧ Buf.load full.mem.freqSym 3 = some 0x44) ∧
    (win 0x200001C = 0x2 ∧ ofs 0x200001C = 8 * 3 + 4 ∧ Buf.load full.mem.freqCount 3 = some 3) ∧
    (win 0x9000000 = 0x9 ∧ ofs 0x9000000 = 4 * 0 ∧ 0 < (got (exec .decode full)).cfg.nOut ∧
      (got (exec .decode full)).busy = false ∧ Buf.load (got (exec .decode full)).mem.out 0 = some 0x42) ∧
    (win 0xA000008 = 0xA ∧ ofs 0xA000008 = 4 * 2 ∧ 2 < full.cfg.nPath ∧ Buf.load full.mem.path 2 = some 0) ∧
    full.busy = false := by decide

/-- The draws: the first and the last element of each window, unspecified after reset. -/
theorem witness_WindowWordLayouts_draws : State.reset.busy = false ∧
    (win 0x700001C = 0x7 ∧ ofs 0x700001C = 4 * (255 / 32) ∧ 255 < State.reset.cfg.nBits ∧ Buf.load State.reset.mem.bit 255 = .none) ∧
    (win 0x8000000 = 0x8 ∧ ofs 0x8000000 = 4 * (0 / 4) ∧ 0 < State.reset.cfg.nBytes ∧ Buf.load State.reset.mem.byte 0 = .none) ∧
    ((∀ e ∈ [((0x30001E0 : Offset), 0), (0x30001E4, 1), (0x30001F0, 4), (0x30001F4, 5), (0x30001FC, 7)],
      win e.1 = 0x3 ∧ ofs e.1 = 32 * 15 + 4 * e.2 ∧ e.2 < 8) ∧ 15 < State.reset.cfg.nodeCap ∧
      Buf.load State.reset.mem.node 15 = .none) ∧
    (7 < State.reset.cfg.nSym ∧ Buf.load State.reset.mem.cmap 7 = .none ∧ (win 0x400001C = 0x4 ∧ ofs 0x400001C = 4 * 7) ∧
      (win 0x500001C = 0x5 ∧ ofs 0x500001C = 4 * 7) ∧ win 0x600001C = 0x6 ∧ 0 < State.reset.cfg.cw ∧
      ofs 0x600001C = 4 * (7 * State.reset.cfg.cw + 0)) ∧
    (win 0x10000FC = 0x1 ∧ ofs 0x10000FC = 4 * 63 ∧ 63 < State.reset.cfg.nText ∧ Buf.load State.reset.mem.text 63 = .none) ∧
    (win 0x2000038 = 0x2 ∧ ofs 0x2000038 = 8 * 7 ∧ Buf.load State.reset.mem.freqSym 7 = .none) ∧
    (win 0x200003C = 0x2 ∧ ofs 0x200003C = 8 * 7 + 4 ∧ Buf.load State.reset.mem.freqCount 7 = .none) ∧
    (win 0x9000000 = 0x9 ∧ ofs 0x9000000 = 4 * 0 ∧ 0 < State.reset.cfg.nOut ∧ Buf.load State.reset.mem.out 0 = .none) ∧
    (win 0xA00003C = 0xA ∧ ofs 0xA00003C = 4 * 15 ∧ 15 < State.reset.cfg.nPath ∧ Buf.load State.reset.mem.path 15 = .none) := by
  decide

/-- The FREQ window and the OUT window answer their words (R83, R87). -/
theorem test_word_windows : (full.busRead 0x2000018 4).resp = some ⟨.okay, 0x44⟩ ∧
    (full.busRead 0x200001C 4).resp = some ⟨.okay, 3⟩ ∧
    ((got (exec .decode full)).busRead 0x9000038 4).resp = some ⟨.okay, 0x43⟩ := by decide

end Sys2Proof.Tests
end

section
/-! SUPPORT. Every completion, and so every step, keeps the invariant. -/

namespace Sys2Proof.Machine

/-! ## Inversion of the two simplest completions -/

/-- NOP always completes with success. -/
theorem execNop_next {s t : State} (h : execNop s = .next t) : t = s.succeed := (Host.Outcome.next.inj h).symm

/-- TNEW always completes with success: its tree is the fresh entry 0 alone (41_tree.md R182). -/
theorem execTnew_next {s t : State} (h : execTnew s = .next t) :
    t = ({ s.storeArena (Buf.store s.mem.node 0 (Node.fresh s.pay)) 1 with root := 0 }).markEdited.succeed :=
  (Host.Outcome.next.inj h).symm

/-- An illegal word always completes with BAD_COMMAND. -/
theorem execIllegal_next {c : Word} {s t : State} (h : execIllegal c s = .next t) :
    t = s.raise { kind := .badCommand, info := c, pos := 0 } := (Host.Outcome.next.inj h).symm

/-! ## Canonical entries -/

theorem Node.payload_normal_of_canonical {n : Node} (h : n.canonical = true) : n.payload.normal = true := by
  simp only [Node.canonical, Bool.and_eq_true] at h
  exact h.1.1

theorem Node.fresh_canonical {p : Payload} (hp : p.normal = true) : (Node.fresh p).canonical = true := by
  simp [Node.canonical, Node.fresh, hp]

theorem Node.setChild_canonical {n : Node} (h : n.canonical = true) (d : Bool) (k : Word) :
    (n.setChild d k).canonical = true := by
  cases d <;> simp_all [Node.canonical, Node.setChild]

theorem Node.setPayload_canonical {n : Node} (h : n.canonical = true) {p : Payload} (hp : p.normal = true) :
    ({ n with payload := p } : Node).canonical = true := by
  simp_all [Node.canonical]

/-- Storing a canonical entry keeps every entry of the arena canonical. -/
theorem canonical_store {arena : Buf Node} (h : ∀ k n, Buf.load arena k = some n → n.canonical = true)
    {i : Nat} {m : Node} (hm : m.canonical = true) :
    ∀ k n, Buf.load (Buf.store arena i m) k = some n → n.canonical = true := by
  intro k n hk
  rw [Buf.load_store] at hk
  split at hk
  · cases hk
    exact hm
  · exact h k n hk

/-- A payload read from an arena of canonical entries is normalised. -/
theorem loadNode_payload_normal {arena : Buf Node} (h : ∀ k n, Buf.load arena k = some n → n.canonical = true)
    {k : Word} {p : Payload} (hp : (loadNode arena k).map Node.payload = .ok p) : p.normal = true := by
  obtain ⟨n, hn, rfl⟩ := Res.map_ok.1 hp
  exact Node.payload_normal_of_canonical (h _ _ (loadNode_ok.1 hn))

theorem rootChildPayload_normal {arena : Buf Node} (h : ∀ k n, Buf.load arena k = some n → n.canonical = true)
    {root : Word} {d : Bool} {p : Payload} (hp : rootChildPayload arena root d = .ok p) : p.normal = true := by
  unfold rootChildPayload at hp
  split at hp
  · split at hp
    · exact loadNode_payload_normal h hp
    · cases hp
      exact Payload.none_normal
  · cases hp
  · cases hp

theorem payloadAt_normal {s : State} (h : ∀ k n, Buf.load s.mem.node k = some n → n.canonical = true)
    {ds : List Bool} {p : Payload} (hp : payloadAt s ds = .ok p) : p.normal = true := by
  unfold payloadAt at hp
  split at hp
  · exact loadNode_payload_normal h hp
  · cases hp
  · cases hp

/-! ## The tree commands -/

/-- One fresh entry is a forest: it has no child. -/
theorem ArenaOk.freshRoot (arena : Buf Node) (p : Payload) : ArenaOk (Buf.store arena 0 (Node.fresh p)) 1 0 := by
  have noChild : ∀ k d c, k < 1 → ¬ childIs (Buf.store arena 0 (Node.fresh p)) k d c := by
    intro k d c hk hc
    rw [childIs_store, if_pos (by omega), Node.fresh_child] at hc
    cases hc
  refine ⟨fun k hk => ?_, fun k d c hk hc => absurd hc (noChild k d c hk),
    fun k _ d _ c hk _ hc => absurd hc (noChild k d c hk)⟩
  obtain rfl : k = 0 := by omega
  rw [Buf.load_store_self]
  rfl

/-- An edit of the tree: another arena, NNODES and ROOT, and the flags of an edit (10_state.md R41, R42, R63). -/
theorem State.Inv.edit {s : State} (h : s.Inv) {arena : Buf Node} {nn root : Word} (hwf : Buf.wf arena = true)
    (hfit : nn.toNat ≤ s.cfg.nodeCap) (hwithin : Buf.within arena s.cfg.nodeCap = true)
    (hroot : root.toNat < nn.toNat) (harena : ArenaOk arena nn.toNat root)
    (hcan : ∀ k n, Buf.load arena k = some n → n.canonical = true) :
    ({ s.storeArena arena nn with root := root } : State).markEdited.Inv :=
  h.edited rfl rfl hwf hwithin hfit hroot harena hcan (fun ht => by cases ht) rfl rfl rfl h.errLegal

theorem State.Inv.execTnew {s t : State} (h : s.Inv) (ht : execTnew s = .next t) : t.Inv := by
  obtain ⟨-, -, hsym, -⟩ := Config.bounds h.config
  obtain ⟨-, -, -, hwf, -⟩ := Memory.wf_iff.1 h.canonical
  obtain ⟨-, -, -, hwithin, -⟩ := Memory.within_iff.1 h.within
  have hcap : 1 ≤ s.cfg.nodeCap := by unfold Config.nodeCap; omega
  rw [execTnew_next ht]
  exact (h.edit (nn := 1) (root := 0) (Buf.wf_store hwf _ _) hcap (Buf.within_store hwithin hcap _) Nat.zero_lt_one
    (ArenaOk.freshRoot _ _) (canonical_store h.nodes (Node.fresh_canonical s.pay_normal))).succeed

theorem State.Inv.setRootChild {d : Bool} {s t : State} (h : s.Inv) (ht : setRootChild d s = .next t) : t.Inv := by
  obtain ⟨-, rfl⟩ | ⟨-, -, rfl⟩ | ⟨arena, hne, hcap, hal, rfl⟩ := setRootChild_next ht
  · exact h.raise _
  · exact h.raise _
  · obtain ⟨-, -, -, hwf, -⟩ := Memory.wf_iff.1 h.canonical
    obtain ⟨-, -, -, hwithin, -⟩ := Memory.within_iff.1 h.within
    have hroot := h.rootFits hne
    have hfit := h.nodesFit
    have hnn : (s.nnodes + 1).toNat = s.nnodes.toNat + 1 := by
      have hb := Config.bounds h.config
      have hcap2 : s.cfg.nodeCap = 2 * s.cfg.nSym := rfl
      have hlt : s.nnodes.toNat < 2 ^ 32 - 1 := by omega
      bv_omega
    obtain ⟨n, hn, rfl⟩ := (allocLinked_ok (by rintro e; rw [e] at hroot; omega)).1 hal
    exact (h.edit (root := s.root) (Buf.wf_store (Buf.wf_store hwf _ _) _ _) (by omega)
      (Buf.within_store (Buf.within_store hwithin (by omega) _) (by omega) _) (by omega)
      (by rw [hnn]; exact h.arena.allocLinked hroot hroot hn)
      (canonical_store (canonical_store h.nodes (Node.fresh_canonical s.pay_normal))
        (Node.setChild_canonical (h.nodes _ _ hn) d _))).succeed

theorem State.Inv.execTsetp {s t : State} (h : s.Inv) (ht : execTsetp s = .next t) : t.Inv := by
  obtain ⟨e, rfl⟩ | ⟨ds, m, arena, nn, hne, -, hm, hcap, hw, rfl⟩ := execTsetp_next ht
  · exact h.raise e
  · obtain ⟨-, -, -, hwf, -⟩ := Memory.wf_iff.1 h.canonical
    obtain ⟨-, -, -, hwithin, -⟩ := Memory.within_iff.1 h.within
    have hb := Config.bounds h.config
    have hcap2 : s.cfg.nodeCap = 2 * s.cfg.nSym := rfl
    have hroot := h.rootFits hne
    obtain ⟨arena1, e, nn1, hd, hnn, hA, he, hcan, hwf1, hwithin1, -, -⟩ :=
      descendCreate_keeps h.arena hroot hroot hm (by omega) h.nodes
    simp only [writeAtPath, hd, setPayload, Res.map_ok, loadNode_ok, Prod.mk.injEq] at hw
    obtain ⟨_, ⟨n, hn, rfl⟩, rfl, rfl⟩ := hw
    exact (h.edit (root := s.root) (Buf.wf_store (hwf1 hwf) _ _) (by omega)
      (Buf.within_store (hwithin1 _ (by omega) hwithin) (by omega) _) (by omega) (hA.setPayload hn)
      (canonical_store hcan (Node.setPayload_canonical (hcan _ _ hn) s.pay_normal))).succeed

theorem State.Inv.getRootChild {d : Bool} {s t : State} (h : s.Inv) (ht : getRootChild d s = .next t) : t.Inv := by
  obtain ⟨-, rfl⟩ | ⟨p, -, hp, rfl⟩ := getRootChild_next ht
  · exact (h.setRes Payload.none_normal).raise _
  · exact (h.setRes (rootChildPayload_normal h.nodes hp)).succeed

theorem State.Inv.execTgetp {s t : State} (h : s.Inv) (ht : execTgetp s = .next t) : t.Inv := by
  obtain ⟨e, rfl⟩ | ⟨ds, p, -, -, hp, rfl⟩ := execTgetp_next ht
  · exact (h.setRes Payload.none_normal).raise e
  · exact (h.setRes (payloadAt_normal h.nodes hp)).succeed

/-! ## Frequency analysis and construction -/

/-- The table of FREQ's successful analysis has distinct symbols, at most N_SYM entries, a total that is
TEXT_LEN, and an entry as soon as there is a symbol (42_construction.md R221). -/
theorem State.tally_textOperand_ok {s : State} {f : Table}
    (hf : tally s.cfg.nSym 0 [] s.textOperand = .ok f) :
    (f.map Prod.fst).Nodup ∧ f.length ≤ s.cfg.nSym ∧ (f.map fun e => e.2.toNat).sum = s.textLen.toNat ∧
      (s.textLen ≠ 0 → f ≠ []) := by
  have hl : s.textOperand.length = s.textLen.toNat := Buf.length_slice _ _ _
  obtain ⟨us, hus, hfs, hfl⟩ := tally_ok FirstSeenTable.nil (Nat.zero_le _) (by rw [hl, List.length_nil]; omega) hf
  have htotal : (f.map fun e => e.2.toNat).sum = s.textLen.toNat := by
    rw [hfs.total, List.nil_append, ← hl, hus, List.length_map]
  refine ⟨hfs.distinct, hfl, htotal, ?_⟩
  rintro hne rfl
  exact hne (BitVec.eq_of_toNat_eq htotal.symm)

theorem State.Inv.execFreq {s t : State} (h : s.Inv) (ht : execFreq s = .next t) : t.Inv := by
  obtain ⟨-, rfl⟩ | ⟨-, f, hf, rfl⟩ | ⟨-, i, -, rfl⟩ := execFreq_next ht
  · exact h.raise _
  · obtain ⟨-, hfl, -, -⟩ := State.tally_textOperand_ok hf
    exact (h.storeFreq hfl).succeed
  · exact h.abandonFreq.raise _

theorem State.Inv.execBuildf {s t : State} (h : s.Inv) (ht : execBuildf s = .next t) : t.Inv := by
  obtain ⟨e, rfl⟩ | ⟨f, hne, hcap, hf, rfl⟩ := execBuildf_next ht
  · exact h.raise e
  · obtain ⟨hfl, -, -, hdistinct, htotal⟩ := State.checkedTable_ok hf
    have hf0 : f ≠ [] := by
      rintro rfl
      exact hne (BitVec.eq_of_toNat_eq hfl.symm)
    exact (h.construct hf0 (by omega) hdistinct htotal).1.succeed

theorem State.Inv.execBuild {s t : State} (h : s.Inv) (ht : execBuild s = .next t) : t.Inv := by
  obtain ⟨-, rfl⟩ | ⟨-, rfl⟩ | ⟨-, hne, f, hf, rfl⟩ | ⟨-, -, i, -, rfl⟩ := execBuild_next ht
  · exact h.raise _
  · exact h.raise _
  · obtain ⟨hdistinct, hfl, htotal, hf0⟩ := State.tally_textOperand_ok hf
    exact ((h.storeFreq hfl).construct (hf0 hne) hfl hdistinct (by omega)).1.succeed
  · exact h.abandonFreq.raise _

/-! ## The code map and encoding -/

/-- A map derivation under TREE_OK = 1 stores the built tree's code map. -/
theorem State.Inv.derived {s m : State} (h : s.Inv) (htree : s.treeOk = true) (hm : Machine.deriveMap s = .ok m) : m.Inv := by
  obtain ⟨T, hT⟩ := h.built htree
  rw [h.deriveMap hT] at hm
  cases hm
  exact (h.storeMap htree hT).1

theorem State.Inv.execCodemap {s t : State} (h : s.Inv) (ht : execCodemap s = .next t) : t.Inv := by
  obtain ⟨-, rfl⟩ | ⟨m, htree, hm, rfl⟩ := execCodemap_next ht
  · exact h.raise _
  · exact (h.derived htree hm).succeed

theorem State.Inv.encodeWithMap {s t : State} (h : s.Inv) (ht : encodeWithMap s = .next t) : t.Inv := by
  obtain ⟨bits, -, hlen, rfl⟩ | ⟨e, -, -, rfl⟩ := encodeWithMap_next ht
  · exact (h.storeBits hlen).succeed
  · exact h.abandonBits.raise e

theorem State.Inv.execEncode {s t : State} (h : s.Inv) (ht : execEncode s = .next t) : t.Inv := by
  obtain ⟨-, rfl⟩ | ⟨-, -, rfl⟩ | ⟨htree, -, m, hm, hnext⟩ := execEncode_next ht
  · exact h.raise _
  · exact h.raise _
  · split at hm
    · subst hm
      exact h.encodeWithMap hnext
    · exact (h.derived htree hm).encodeWithMap hnext

/-! ## Streams -/

/-- Storing into BIT, BYTE and OUT from index 0 on, within their capacities; no element stored leaves a buffer as it is. -/
theorem State.Inv.storeStreams {s : State} (h : s.Inv) (bits : List Bool) (bytes : List Byte) (text : List Word)
    (hbits : bits.length ≤ s.cfg.nBits) (hbytes : bytes.length ≤ s.cfg.nBytes) (htext : text.length ≤ s.cfg.nOut)
    (byteCount outLen : Word) :
    ({ s with
        byteCount := byteCount
        outLen := outLen
        mem := { s.mem with
          bit := Buf.storeAll s.mem.bit 0 bits
          byte := Buf.storeAll s.mem.byte 0 bytes
          out := Buf.storeAll s.mem.out 0 text } } : State).Inv := by
  refine h.congr rfl ?_ ?_ rfl rfl rfl rfl rfl rfl rfl h.resNormal h.errLegal
  · obtain ⟨w1, w2, w3, w4, w5, w6, w7, w8, w9⟩ := Memory.wf_iff.1 h.canonical
    exact Memory.wf_iff.2 ⟨w1, w2, w3, w4, w5, Buf.wf_storeAll w6 _ _, Buf.wf_storeAll w7 _ _, Buf.wf_storeAll w8 _ _, w9⟩
  · obtain ⟨c1, c2, c3, c4, c5, c6, c7, c8, c9⟩ := Memory.within_iff.1 h.within
    exact Memory.within_iff.2 ⟨c1, c2, c3, c4, c5, Buf.within_storeAll c6 (by omega), Buf.within_storeAll c7 (by omega),
      Buf.within_storeAll c8 (by omega), c9⟩

/-- The bytes PACK writes fit BYTE when the bits fit BIT. -/
theorem packedBytes_length_le {c : Config} {bits : List Bool} (h : bits.length ≤ c.nBits) :
    (packedBytes c.nBytes bits).length ≤ c.nBytes := by
  have hnb : ceilDiv bits.length 8 ≤ c.nBytes := by
    unfold Config.nBytes ceilDiv
    omega
  rw [packedBytes_length]
  omega

theorem State.Inv.execPack {s t : State} (h : s.Inv) (ht : execPack s = .next t) : t.Inv := by
  obtain ⟨-, rfl⟩ | ⟨bits, hcap, hbits, rfl⟩ := execPack_next ht
  · exact h.raise _
  · obtain ⟨hlen, -⟩ := Buf.holds_of_slice hbits
    exact (h.storeStreams [] _ [] (Nat.zero_le _) (packedBytes_length_le (by omega)) (Nat.zero_le _) _ _).succeed

theorem State.Inv.execUnpack {s t : State} (h : s.Inv) (ht : execUnpack s = .next t) : t.Inv := by
  obtain ⟨-, rfl⟩ | ⟨bytes, hcap, -, rfl⟩ := execUnpack_next ht
  · exact h.raise _
  · exact (h.storeStreams _ [] [] (by rw [unpackedBits_length]; exact hcap) (Nat.zero_le _) (Nat.zero_le _) _ _).succeed

theorem State.Inv.execDecode {s t : State} (h : s.Inv) (ht : execDecode s = .next t) : t.Inv := by
  obtain ⟨-, rfl⟩ | ⟨-, -, rfl⟩ | ⟨-, hcap, text, -, hlen, rfl⟩ | ⟨-, -, e, -, -, rfl⟩ := execDecode_next ht
  · exact h.raise _
  · exact h.raise _
  · exact (h.storeStreams [] [] text (Nat.zero_le _) (Nat.zero_le _) (hlen.trans hcap) _ _).succeed
  · exact h.abandonOut.raise e

/-! ## The step -/

/-- Every command that completes keeps the invariant. -/
theorem State.Inv.exec {i : Instr} {s t : State} (h : s.Inv) (ht : exec i s = .next t) : t.Inv := by
  cases i with
  | nop => rw [execNop_next ht]; exact h.succeed
  | freq => exact h.execFreq ht
  | buildf => exact h.execBuildf ht
  | build => exact h.execBuild ht
  | codemap => exact h.execCodemap ht
  | encode => exact h.execEncode ht
  | pack => exact h.execPack ht
  | unpack => exact h.execUnpack ht
  | decode => exact h.execDecode ht
  | tnew => exact h.execTnew ht
  | tsetl => exact h.setRootChild ht
  | tsetr => exact h.setRootChild ht
  | tgetl => exact h.getRootChild ht
  | tgetr => exact h.getRootChild ht
  | tsetp => exact h.execTsetp ht
  | tgetp => exact h.execTgetp ht

theorem State.Inv.engineTurn {s t : State} (h : s.Inv) (ht : engineTurn s = .next t) : t.Inv := by
  unfold Machine.engineTurn at ht
  split at ht
  · cases ht
    exact h
  · split at ht
    · exact h.exec ht
    · rw [execIllegal_next ht]
      exact h.raise _

/-- The invariant does not look at the Host's coming events. -/
theorem State.Inv.setInbox {s : State} (h : s.Inv) (events : List HostEvent) : ({ s with inbox := events } : State).Inv :=
  h.congr rfl h.canonical h.within rfl rfl rfl rfl rfl rfl rfl h.resNormal h.errLegal

theorem State.Inv.pollTurn {s t : State} (h : s.Inv) {latency : Nat} (ht : pollTurn s latency = .next t) : t.Inv := by
  unfold Machine.pollTurn at ht
  split at ht
  · cases latency with
    | zero => exact (h.setInbox _).engineTurn ht
    | succ n =>
      cases ht
      exact (h.setInbox _).busRead _ _
  · cases ht
    exact h.busRead _ _

theorem State.Inv.eventTurn {s t : State} (h : s.Inv) {e : HostEvent} (ht : eventTurn s e = .next t) : t.Inv := by
  cases e with
  | read off size => cases ht; exact h.busRead off size
  | write off size v => cases ht; exact h.busWrite off size v
  | poll latency => exact h.pollTurn ht
  | engine => exact h.engineTurn ht
  | hardReset => cases ht; exact h.hardReset

theorem State.Inv.step {s t : State} (h : s.Inv) (ht : step s = .next t) : t.Inv := by
  unfold Machine.step at ht
  split at ht
  · exact h.engineTurn ht
  · exact (h.setInbox _).eventTurn ht

end Sys2Proof.Machine

/-- Settles O12: an inversion lemma per command says what its completion can leave, and each such state meets the invariant;
the transactions of the Host, POLL and the resets keep it too. -/
theorem stepKeepsInvariant : Obligations.StepKeepsInvariant := by
  unfold Obligations.StepKeepsInvariant
  intro s t h ht
  exact h.step ht
end

section
/-! SUPPORT. The register page: what a Host transaction on a register does, the bits of STATUS, and what the resets leave. -/

namespace Sys2Proof.Machine

/-! ## The register map -/

@[simp] theorem Reg.ofOffset_offset (r : Reg) : Reg.ofOffset r.offset = some r := by cases r <;> rfl

/-- The map from offsets to registers inverts the map from registers to offsets (10_state.md R31). -/
theorem Reg.ofOffset_eq_some {o : Nat} {r : Reg} : Reg.ofOffset o = some r ↔ r.offset = o := by
  constructor
  · intro h
    unfold Reg.ofOffset at h
    split at h <;> cases h <;> rfl
  · rintro rfl
    exact Reg.ofOffset_offset r

theorem Reg.offset_lt (r : Reg) : r.offset < 0x1000 := by cases r <;> decide

theorem Reg.offset_aligned (r : Reg) : r.offset % 4 = 0 := by cases r <;> rfl

theorem Reg.readableWhileBusy_iff (r : Reg) : r.readableWhileBusy = true ↔ r.offset ∈ Claims.readableOffsets := by
  cases r <;> decide

/-! ## Transactions on the register page -/

/-- An offset below 0x1000 is in the register page, at that in-window offset (20_memory.md R81, R82). -/
theorem registerPage_offset {o : Nat} (ho : o < 0x1000) :
    windowOf (BitVec.ofNat 28 o) = some .reg ∧ inWindow (BitVec.ofNat 28 o) = o := by
  have hn : (BitVec.ofNat 28 o).toNat = o := by rw [BitVec.toNat_ofNat, Nat.mod_eq_of_lt (by omega)]
  rw [windowOf_eq, inWindow_eq, hn, Nat.div_eq_of_lt (by omega), Nat.mod_eq_of_lt (by omega)]
  exact ⟨rfl, rfl⟩

theorem registerPage_noError (c : Config) {o : Nat} (ho : o < 0x1000) (halign : o % 4 = 0) :
    errorCondition c (BitVec.ofNat 28 o) 4 = false := by
  obtain ⟨hw, hi⟩ := registerPage_offset ho
  refine errorCondition_false.2 ⟨rfl, ?_, .reg, hw, ?_⟩
  · rw [BitVec.toNat_ofNat]
    omega
  · rw [hi]
    exact ho

/-- A register that is readable now reads as its word, and the read changes nothing else. -/
theorem State.busRead_reg (s : State) (r : Reg) (h : s.busy = true → r.readableWhileBusy = true) :
    s.busRead (BitVec.ofNat 28 r.offset) 4 = { s with resp := some { response := .okay, rdata := s.readReg r } } := by
  obtain ⟨hw, hi⟩ := registerPage_offset r.offset_lt
  have hnow : (s.busy && !r.readableWhileBusy) = false := by
    cases hb : s.busy with
    | false => rfl
    | true => rw [h hb]; rfl
  simp [State.busRead, registerPage_noError s.cfg r.offset_lt r.offset_aligned, hw, hi, Machine.readableWhileBusy,
    State.loadWord, hnow]

/-- A reserved offset of the register page reads 0 while no command is in flight (10_state.md R31). -/
theorem State.busRead_reserved (s : State) {o : Nat} (ho : o < 0x1000) (halign : o % 4 = 0)
    (hnone : Reg.ofOffset o = .none) (hidle : s.busy = false) :
    s.busRead (BitVec.ofNat 28 o) 4 = { s with resp := some { response := .okay, rdata := 0 } } := by
  obtain ⟨hw, hi⟩ := registerPage_offset ho
  simp [State.busRead, registerPage_noError s.cfg ho halign, hw, hi, hidle, State.loadWord, hnone]

/-- A write to CTRL or STATUS takes effect in every state, busy or not (20_memory.md R91). -/
theorem State.busWrite_ctrl_or_status (s : State) {r : Reg} (h : r = .ctrl ∨ r = .status) (v : Word) :
    s.busWrite (BitVec.ofNat 28 r.offset) 4 v = (s.writeReg v r).answerOkay := by
  obtain ⟨hw, hi⟩ := registerPage_offset r.offset_lt
  have hwritable : writableWhileBusy .reg r.offset = true := by
    obtain rfl | rfl := h <;> rfl
  simp [State.busWrite, registerPage_noError s.cfg r.offset_lt r.offset_aligned, hw, hi, hwritable, State.storeWord]

/-! ## The words of CTRL, STATUS and the payload flags -/

/-- A bit appended at the low end is bit 0, and every other bit moves up by one. -/
theorem append_ofBool_getLsbD {w : Nat} (x : BitVec w) (b : Bool) (i : Nat) :
    (x ++ BitVec.ofBool b).getLsbD i = if i = 0 then b else x.getLsbD (i - 1) := by
  rw [BitVec.getLsbD_append]
  cases i <;> simp

theorem State.err_eq (s : State) : s.err = decide (s.errCode ≠ 0) := by
  rw [Bool.eq_iff_iff, decide_eq_true_iff]
  exact bne_iff_ne

/-- The STATUS word from bit 0 up; every bit past the sixth is 0 (10_state.md R36). -/
theorem State.statusWord_getLsbD (s : State) (i : Nat) :
    s.statusWord.getLsbD i = [s.busy, s.done, s.err, s.ovr, s.treeOk, s.mapOk].getD i false := by
  simp only [State.statusWord, append_ofBool_getLsbD]
  match i with
  | 0 | 1 | 2 | 3 | 4 | 5 => rfl
  | n + 6 => simp

/-- IRQ_EN alone is in the CTRL word (10_state.md R34). -/
theorem State.ctrlWord_eq (s : State) : s.ctrlWord = if s.irqEn then 1 else 0 := by
  unfold State.ctrlWord
  cases s.irqEn <;> rfl

/-- OCC counts 1 and SYMV 2 (10_state.md R53, R54). -/
theorem flagsWord_eq (occ symv : Bool) :
    flagsWord occ symv = (if occ then 1 else 0) + (if symv then 2 else 0) := by
  cases occ <;> cases symv <;> rfl

/-- The registers in the order of their offsets (10_state.md R31). -/
def Reg.all : List Reg :=
  [.id, .version, .capText, .capSym, .capBits, .capPath, .capNode, .capCode, .ctrl, .cmd, .status, .errCode, .errInfo,
    .errPos, .textLen, .nsym, .bitCount, .byteCount, .outLen, .nnodes, .root, .cmapCount, .pathLen, .payFlags, .payWeight,
    .paySym, .resFlags, .resWeight, .resSym]

theorem Reg.mem_all (r : Reg) : r ∈ Reg.all := by cases r <;> decide

/-- The map of the statements lists each register's offset and word. -/
theorem registerWords_eq (s : State) : Claims.registerWords s = Reg.all.map fun r => (r.offset, s.readReg r) := by
  unfold Claims.registerWords
  rw [← s.ctrlWord_eq, ← flagsWord_eq]
  rfl

theorem mem_registerWords {s : State} {e : Nat × Word} :
    e ∈ Claims.registerWords s ↔ ∃ r : Reg, (r.offset, s.readReg r) = e := by
  simp [registerWords_eq, Reg.mem_all]

/-- An offset that is not in the map of the statements holds no register. -/
theorem Reg.ofOffset_eq_none {s : State} {o : Nat} (h : o ∉ (Claims.registerWords s).map Prod.fst) :
    Reg.ofOffset o = .none := by
  rw [Option.eq_none_iff_forall_ne_some]
  intro r hr
  exact h (List.mem_map.2 ⟨_, mem_registerWords.2 ⟨r, rfl⟩, Reg.ofOffset_eq_some.1 hr⟩)

/-! ## Writing CTRL and STATUS -/

theorem State.writeStatus_eq (s : State) (v : Word) : s.writeStatus v =
    { s with done := if v.getLsbD 1 then false else s.done, ovr := if v.getLsbD 3 then false else s.ovr } := by
  unfold State.writeStatus
  cases v.getLsbD 1 <;> cases v.getLsbD 3 <;> simp

theorem State.writeCtrl_set {s : State} {v : Word} (h : v.getLsbD 1 = false) :
    s.writeCtrl v = { s with irqEn := v.getLsbD 0 } :=
  if_neg (Bool.eq_false_iff.1 h)

theorem State.writeCtrl_reset {s : State} {v : Word} (h : v.getLsbD 1 = true) : s.writeCtrl v = s.softReset := if_pos h

theorem State.softReset_idle {s : State} (h : s.cmdLatch = .none) : s.softReset = s.resetRegisters s.mem := by
  simp [State.softReset, h]

theorem State.softReset_inFlight {s : State} {c : Word} (h : s.cmdLatch = some c) :
    s.softReset = s.resetRegisters (abortHavoc (decode c) s.mem) := by
  simp [State.softReset, h]

/-- The table of 70_reset_and_hazards.md R362 read by buffer: which commands make it unspecified when they are aborted. -/
theorem abortHavoc_eq (cmd : Decoded) (m : Memory) : abortHavoc cmd m =
    { m with
      freqSym := if cmd ∈ [.command .freq, .command .build] then [] else m.freqSym
      freqCount := if cmd ∈ [.command .freq, .command .build] then [] else m.freqCount
      node := if cmd ∈ [.command .buildf, .command .build, .command .tnew, .command .tsetl, .command .tsetr,
        .command .tsetp] then [] else m.node
      cmap := if cmd ∈ [.command .codemap, .command .encode] then [] else m.cmap
      bit := if cmd ∈ [.command .encode, .command .unpack] then [] else m.bit
      byte := if cmd ∈ [.command .pack] then [] else m.byte
      out := if cmd ∈ [.command .decode] then [] else m.out } := by
  cases cmd with
  | command i => cases i <;> rfl
  | bad c => rfl

end Sys2Proof.Machine

open Sys2Proof Sys2Proof.Machine

/-- Settles O51: the map of the statements is the model's register map, and every read of the register page is either a
register's or a reserved offset's. -/
theorem registerPageReads : Obligations.RegisterPageReads := by
  unfold Obligations.RegisterPageReads
  refine fun s => ⟨fun hidle e he => ?_, fun hidle o ho halign hout => ?_, fun e he hread => ?_⟩
  · obtain ⟨r, rfl⟩ := mem_registerWords.1 he
    exact s.busRead_reg r fun hbusy => by rw [hidle] at hbusy; cases hbusy
  · exact s.busRead_reserved ho halign (Reg.ofOffset_eq_none hout) hidle
  · obtain ⟨r, rfl⟩ := mem_registerWords.1 he
    exact s.busRead_reg r fun _ => r.readableWhileBusy_iff.2 hread

/-- Settles O55: the word is the six flags from bit 5 down to bit 0 under 26 zeros, and a STATUS write takes effect
in every state. -/
theorem statusBitsAndClears : Obligations.StatusBitsAndClears := by
  unfold Obligations.StatusBitsAndClears
  refine fun s => ⟨?_, fun v => ⟨0, ?_⟩⟩
  · have hbit := s.statusWord_getLsbD
    refine ⟨hbit 0, hbit 1, (hbit 2).trans s.err_eq, hbit 3, hbit 4, hbit 5, fun b hb => ?_⟩
    rw [hbit]
    exact List.getD_eq_default _ _ hb
  · have hwrite : s.busWrite 0x028 4 v = (s.writeStatus v).answerOkay := s.busWrite_ctrl_or_status (.inr rfl) v
    rw [hwrite, State.writeStatus_eq]
    rfl

/-- Settles O56: a CTRL write takes effect in every state, and a soft reset is the reset registers over the buffers that
the command in CMDLATCH, if there is one, does not write. -/
theorem ctrlWriteAndSoftReset : Obligations.CtrlWriteAndSoftReset := by
  unfold Obligations.CtrlWriteAndSoftReset
  intro s v
  have hwrite : s.busWrite 0x020 4 v = (s.writeCtrl v).answerOkay := s.busWrite_ctrl_or_status (.inl rfl) v
  rw [hwrite]
  refine ⟨fun hset => ⟨0, ?_⟩, fun hreset => ?_⟩
  · rw [State.writeCtrl_set hset]
    rfl
  · rw [State.writeCtrl_reset hreset]
    cases hlatch : s.cmdLatch with
    | none =>
      rw [State.softReset_idle hlatch]
      refine ⟨s.mem, 0, rfl, fun _ => rfl, fun c hc => ?_⟩
      cases hc
    | some c =>
      rw [State.softReset_inFlight hlatch, abortHavoc_eq]
      refine ⟨_, 0, rfl, fun hc => ?_, fun c' hc => ?_⟩
      · cases hc
      · cases hc
        exact ⟨rfl, rfl, rfl, rfl, rfl, rfl, rfl, rfl, rfl⟩

/-- Settles O11: the state after hard reset is the reset registers over the storage of no specified element. -/
theorem resetMeetsInvariant : Obligations.ResetMeetsInvariant := by
  unfold Obligations.ResetMeetsInvariant
  have hreset : ∀ c : Config, c.wellFormed = true → (State.resetWith c).Inv := fun c hc =>
    State.Inv.resetRegisters (s := State.resetWith c) hc Memory.unspecified_wf (Memory.unspecified_within c)
      fun _ _ h => by cases h
  exact ⟨hreset Config.ref (by decide), hreset⟩
end

section
/-! SUPPORT. The Host port by window: which accesses are bad, what a read and a write do at a good one, and the words of
the windows. -/

namespace Sys2Proof.Machine

/-! ## Windows by number -/

/-- The number of a window (20_memory.md R82). -/
def Window.index : Window → Nat
  | .reg => 0x0
  | .text => 0x1
  | .freq => 0x2
  | .node => 0x3
  | .cmapSym => 0x4
  | .cmapLen => 0x5
  | .cmapCode => 0x6
  | .bitbuf => 0x7
  | .bytebuf => 0x8
  | .out => 0x9
  | .path => 0xA

/-- The map from numbers to windows inverts the map from windows to numbers (20_memory.md R82). -/
theorem Window.ofIndex_eq_some {n : Nat} {w : Window} : Window.ofIndex n = some w ↔ n = w.index := by
  constructor
  · intro h
    unfold Window.ofIndex at h
    split at h <;> cases h <;> rfl
  · rintro rfl
    cases w <;> rfl

theorem Window.index_inj {w w' : Window} (h : w.index = w'.index) : w = w' :=
  Option.some.inj ((Window.ofIndex_eq_some.2 h).symm.trans (Window.ofIndex_eq_some.2 rfl)).symm

theorem Window.ofIndex_eq_none {n : Nat} : Window.ofIndex n = .none ↔ 0xB ≤ n := by
  constructor
  · intro h
    by_contra hn
    interval_cases n <;> cases h
  · intro h
    rw [Option.eq_none_iff_forall_ne_some]
    rintro w hw
    rw [Window.ofIndex_eq_some] at hw
    subst hw
    cases w <;> simp [Window.index] at h

theorem windowOf_eq_some {off : Offset} {w : Window} : windowOf off = some w ↔ Claims.win off = w.index := by
  rw [windowOf_eq, Window.ofIndex_eq_some]
  rfl

theorem windowOf_eq_none {off : Offset} : windowOf off = .none ↔ 0xB ≤ Claims.win off := by
  rw [windowOf_eq, Window.ofIndex_eq_none]
  rfl

theorem inWindow_eq_ofs (off : Offset) : inWindow off = Claims.ofs off := inWindow_eq off

/-- The limits of the statements are the model's. -/
theorem Window.limit_index (c : Config) (w : Window) : Claims.limit c w.index = w.limit c := by
  cases w <;> rfl

/-! ## Bad accesses -/

/-- In a window an access is bad by its size, its alignment or the window's limit. -/
theorem badAccess_of_window {c : Config} {off : Offset} {size : Nat} {w : Window} (hw : Claims.win off = w.index) :
    Claims.BadAccess c off size ↔ size ≠ 4 ∨ off.toNat % 4 ≠ 0 ∨ w.limit c ≤ Claims.ofs off := by
  unfold Claims.BadAccess
  rw [hw, Window.limit_index]
  cases w <;> simp [Window.index, Window.limit]

/-- The error condition of the model is that of the statements (20_memory.md R92). -/
theorem errorCondition_eq_true {c : Config} {off : Offset} {size : Nat} :
    errorCondition c off size = true ↔ Claims.BadAccess c off size := by
  rw [← not_iff_not, Bool.not_eq_true, errorCondition_false]
  cases hw : windowOf off with
  | none => simp [Claims.BadAccess, windowOf_eq_none.1 hw]
  | some w =>
    rw [badAccess_of_window (windowOf_eq_some.1 hw), inWindow_eq_ofs]
    simp

/-- A good access is 4 bytes in a window. -/
theorem window_of_not_badAccess {c : Config} {off : Offset} {size : Nat} (h : ¬ Claims.BadAccess c off size) :
    size = 4 ∧ ∃ w : Window, Claims.win off = w.index := by
  rw [← errorCondition_eq_true, Bool.not_eq_true, errorCondition_false] at h
  obtain ⟨hsize, -, w, hw, -⟩ := h
  exact ⟨hsize, w, windowOf_eq_some.1 hw⟩

/-- The in-window offset of a good access is aligned and below the window's limit. -/
theorem offset_of_not_badAccess {c : Config} {off : Offset} {size : Nat} {w : Window}
    (hgood : ¬ Claims.BadAccess c off size) (hw : Claims.win off = w.index) :
    Claims.ofs off % 4 = 0 ∧ Claims.ofs off < w.limit c := by
  rw [badAccess_of_window hw] at hgood
  unfold Claims.ofs at hgood ⊢
  omega

/-- An aligned offset below its window's limit is a good access. -/
theorem not_badAccess_of_window {c : Config} {off : Offset} {w : Window} (hw : Claims.win off = w.index)
    (halign : Claims.ofs off % 4 = 0) (hlimit : Claims.ofs off < w.limit c) : ¬ Claims.BadAccess c off 4 := by
  rw [badAccess_of_window hw]
  unfold Claims.ofs at halign hlimit ⊢
  omega

/-- The offset of a register is in the register page. -/
theorem register_window {off : Offset} {r : Reg} (h : off.toNat = r.offset) :
    Claims.win off = Window.reg.index ∧ Claims.ofs off = r.offset := by
  have hlt := r.offset_lt
  rw [show Window.reg.index = 0 from rfl, Claims.win, Claims.ofs]
  omega

/-! ## Transactions -/

theorem State.busRead_bad {s : State} {off : Offset} {size : Nat} (h : Claims.BadAccess s.cfg off size) :
    s.busRead off size = s.answerError := by
  rw [State.busRead, if_pos (errorCondition_eq_true.2 h)]

theorem State.busWrite_bad {s : State} {off : Offset} {size : Nat} (h : Claims.BadAccess s.cfg off size) (v : Word) :
    s.busWrite off size v = s.answerError := by
  rw [State.busWrite, if_pos (errorCondition_eq_true.2 h)]

/-- A good read answers one word: a draw where BUSY = 1 hides it, else the word of the window (20_memory.md R90). -/
theorem State.busRead_good {s : State} {off : Offset} {w : Window} (hgood : ¬ Claims.BadAccess s.cfg off 4)
    (hw : Claims.win off = w.index) :
    s.busRead off 4 = s.answerWord
      (if s.busy && !readableWhileBusy w (Claims.ofs off) then { value := 0, known := 0 }
        else s.loadWord w (Claims.ofs off)) := by
  rw [State.busRead, if_neg (by rwa [errorCondition_eq_true])]
  simp only [windowOf_eq_some.2 hw, inWindow_eq_ofs]
  split <;> rfl

/-- A good write sets OVR where BUSY = 1 forbids it, else stores its word (20_memory.md R91). -/
theorem State.busWrite_good {s : State} {off : Offset} {w : Window} (hgood : ¬ Claims.BadAccess s.cfg off 4)
    (hw : Claims.win off = w.index) (v : Word) :
    s.busWrite off 4 v =
      (if s.busy && !writableWhileBusy w (Claims.ofs off) then { s with ovr := true }
        else s.storeWord w (Claims.ofs off) v).answerOkay := by
  rw [State.busWrite, if_neg (by rwa [errorCondition_eq_true])]
  simp only [windowOf_eq_some.2 hw, inWindow_eq_ofs]
  split <;> rfl

theorem State.busRead_idle {s : State} {off : Offset} {w : Window} (hidle : s.busy = false)
    (hgood : ¬ Claims.BadAccess s.cfg off 4) (hw : Claims.win off = w.index) :
    s.busRead off 4 = s.answerWord (s.loadWord w (Claims.ofs off)) := by
  simp [State.busRead_good hgood hw, hidle]

theorem State.busWrite_idle {s : State} {off : Offset} {w : Window} (hidle : s.busy = false)
    (hgood : ¬ Claims.BadAccess s.cfg off 4) (hw : Claims.win off = w.index) (v : Word) :
    s.busWrite off 4 v = (s.storeWord w (Claims.ofs off) v).answerOkay := by
  simp [State.busWrite_good hgood hw, hidle]

/-! ## Writes that are ignored -/

theorem Window.storeWord_readOnly (s : State) {w : Window} (hw : w.index ∈ [0x3, 0x4, 0x5, 0x6, 0x9]) (o : Nat) (v : Word) :
    s.storeWord w o v = s ∧ writableWhileBusy w o = false := by
  cases w with
  | node | cmapSym | cmapLen | cmapCode | out => exact ⟨rfl, rfl⟩
  | reg | text | freq | bitbuf | bytebuf | path => simp [Window.index] at hw

theorem State.writeReg_readOnly (s : State) {r : Reg}
    (hr : r.offset ∉ [0x020, 0x024, 0x028, 0x040, 0x044, 0x048, 0x060, 0x064, 0x068, 0x06C]) (v : Word) :
    s.writeReg v r = s := by
  cases r with
  | ctrl | cmd | status | textLen | nsym | bitCount | pathLen | payFlags | payWeight | paySym => simp [Reg.offset] at hr
  | _ => rfl

/-- A write to the register page outside its writable registers stores nothing (20_memory.md R93). -/
theorem State.storeWord_readOnlyRegister (s : State) {o : Nat}
    (ho : o ∉ [0x020, 0x024, 0x028, 0x040, 0x044, 0x048, 0x060, 0x064, 0x068, 0x06C]) (v : Word) :
    s.storeWord .reg o v = s ∧ writableWhileBusy .reg o = false := by
  constructor
  · simp only [State.storeWord]
    split
    · rename_i r hr
      rw [Reg.ofOffset_eq_some] at hr
      exact s.writeReg_readOnly (hr ▸ ho) v
    · rfl
  · simp only [List.mem_cons, not_or] at ho
    simp [writableWhileBusy, Reg.offset, ho]

end Sys2Proof.Machine

open Sys2Proof Sys2Proof.Machine Sys2Proof.Claims

/-- Settles O49: the model's error condition is that of the statements; past it a read answers a word and a write OKAY. -/
theorem badAccessHasNoEffect : Obligations.BadAccessHasNoEffect := by
  unfold Obligations.BadAccessHasNoEffect
  refine fun s off size v => ⟨fun hbad => ⟨State.busRead_bad hbad, State.busWrite_bad hbad v⟩, fun hgood => ?_⟩
  obtain ⟨rfl, w, hw⟩ := window_of_not_badAccess hgood
  rw [State.busRead_good hgood hw, State.busWrite_good hgood hw]
  obtain ⟨d, hd, -⟩ := s.answerWord_bit
    (if s.busy && !readableWhileBusy w (ofs off) then { value := 0, known := 0 } else s.loadWord w (ofs off))
  exact ⟨⟨d, hd⟩, 0, rfl⟩

/-- Settles O50: a bad read answers ERROR and a good one a word, and neither answer touches more than the counter of draws. -/
theorem readHasNoSideEffect : Obligations.ReadHasNoSideEffect := by
  unfold Obligations.ReadHasNoSideEffect
  intro s off size
  by_cases hbad : BadAccess s.cfg off size
  · exact ⟨_, s.draws, State.busRead_bad hbad, Nat.le_refl _⟩
  · obtain ⟨rfl, w, hw⟩ := window_of_not_badAccess hbad
    rw [State.busRead_good hbad hw]
    obtain ⟨d, draws, hanswer, hle⟩ := s.answerWord_eq _
    exact ⟨_, draws, hanswer, hle⟩

/-- Settles O59: a read-only window or register stores nothing and is not writable while BUSY = 1, so there only OVR is set. -/
theorem readOnlyWriteIsIgnored : Obligations.ReadOnlyWriteIsIgnored := by
  unfold Obligations.ReadOnlyWriteIsIgnored
  intro s off v hgood hro
  obtain ⟨-, w, hw⟩ := window_of_not_badAccess hgood
  have hignored : s.storeWord w (ofs off) v = s ∧ writableWhileBusy w (ofs off) = false := by
    obtain hwin | ⟨hpage, hreg⟩ := hro
    · exact Window.storeWord_readOnly s (hw ▸ hwin) _ v
    · cases Window.index_inj (hw.symm.trans hpage : w.index = Window.reg.index)
      exact s.storeWord_readOnlyRegister hreg v
  obtain ⟨hstore, hbusy⟩ := hignored
  refine ⟨0, ?_⟩
  rw [State.busWrite_good hgood hw, hstore, hbusy]
  cases s.busy <;> rfl
end

section
/-! SUPPORT. The words of the windows: what a read of each window answers, and what a write to each stores. -/

namespace Sys2Proof.Machine

open Sys2Proof.Claims

/-! ## A bus word bit by bit -/

/-- Two words that agree from bit 31 down are equal. -/
theorem word_ext_msbFirst {x y : Word} (h : ∀ t, t < 32 → x.getLsbD (31 - t) = y.getLsbD (31 - t)) : x = y := by
  apply BitVec.eq_of_getLsbD_eq
  intro i hi
  have := h (31 - i) (by omega)
  rwa [show 31 - (31 - i) = i by omega] at this

/-- A word given bit by bit is specified as a whole when each bit is. -/
theorem Loaded.ofBits_specified {f : Nat → Option Bool} {g : Nat → Bool} (h : ∀ t, t < 32 → f t = some (g t)) :
    Loaded.ofBits f = Loaded.all (wordMsbFirst g) := by
  rw [Loaded.ofBits, Loaded.all, Loaded.mk.injEq]
  refine ⟨word_ext_msbFirst fun t ht => ?_, word_ext_msbFirst fun t ht => ?_⟩
  · rw [wordMsbFirst_getLsbD _ _ ht, wordMsbFirst_getLsbD _ _ ht, h t ht]
    rfl
  · rw [wordMsbFirst_getLsbD _ _ ht, h t ht, BitVec.getLsbD_allOnes, Option.isSome_some, eq_comm, decide_eq_true_iff]
    omega

/-- The word a bus answer gives when not every bit is specified: the specified bits, the others from the draw `x`. -/
def Loaded.fill (l : Loaded) (x : Word) : Word := (l.value &&& l.known) ||| (x &&& ~~~l.known)

theorem Loaded.fill_getLsbD (l : Loaded) (x : Word) {b : Nat} (hb : b < 32) :
    (l.fill x).getLsbD b = if l.known.getLsbD b then l.value.getLsbD b else x.getLsbD b := by
  simp only [Loaded.fill, BitVec.getLsbD_or, BitVec.getLsbD_and, BitVec.getLsbD_not, hb]
  cases l.known.getLsbD b <;> simp

theorem Loaded.fill_ofBits (f : Nat → Option Bool) (x : Word) {t : Nat} (ht : t < 32) :
    ((Loaded.ofBits f).fill x).getLsbD (31 - t) = (f t).getD (x.getLsbD (31 - t)) := by
  obtain ⟨hknown, hvalue⟩ := Loaded.ofBits_bit f t ht
  rw [Loaded.fill_getLsbD _ _ (by omega), hknown, hvalue]
  cases f t <;> rfl

/-- A word with an unspecified bit takes one draw (log entry 4). -/
theorem State.answerWord_fill (s : State) {l : Loaded} (h : l.known ≠ BitVec.allOnes 32) :
    s.answerWord l =
      { s with resp := some { response := .okay, rdata := l.fill (Config.freeWord s.draws) }, draws := s.draws + 1 } :=
  if_neg h

/-! ## Answers -/

section
variable {s : State} {off : Offset}

theorem resp_of_specified {v : Word} (hread : s.busRead off 4 = s.answerWord (Loaded.all v)) :
    (s.busRead off 4).resp = some { response := .okay, rdata := v } := by
  rw [hread, State.answerWord_all]

theorem resp_of_element {e : Option Word} {v : Word} (hread : s.busRead off 4 = s.answerWord (Loaded.ofElement e))
    (he : e = some v) : (s.busRead off 4).resp = some { response := .okay, rdata := v } :=
  resp_of_specified (by rw [hread, he]; rfl)

/-- A word given bit by bit is read with its specified bits. -/
theorem resp_of_bits {f : Nat → Option Bool} (hread : s.busRead off 4 = s.answerWord (Loaded.ofBits f)) :
    ∃ d, (s.busRead off 4).resp = some { response := .okay, rdata := d } ∧
      ∀ t b, t < 32 → f t = some b → d.getLsbD (31 - t) = b := by
  obtain ⟨d, hresp, hbits⟩ := s.answerWord_bit (Loaded.ofBits f)
  refine ⟨d, hread ▸ hresp, fun t b ht hb => ?_⟩
  obtain ⟨hknown, hvalue⟩ := Loaded.ofBits_bit f t ht
  rw [hbits _ (by rw [hknown, hb]; rfl), hvalue, hb]
  rfl

/-- The read of an unspecified word element is a draw (20_memory.md R102). -/
theorem drew_of_element {e : Option Word} (hread : s.busRead off 4 = s.answerWord (Loaded.ofElement e))
    (he : e = .none) : Drew s off (Config.freeWord s.draws) := by
  rw [Drew, hread, he]
  exact s.answerWord_draw

/-- A word with an unspecified bit is a draw, which leaves the specified bits alone. -/
theorem drew_of_bits {f : Nat → Option Bool} (hread : s.busRead off 4 = s.answerWord (Loaded.ofBits f)) {t : Nat}
    (ht : t < 32) (hnone : f t = .none) :
    ∃ d, Drew s off d ∧ ∀ t, t < 32 → d.getLsbD (31 - t) = (f t).getD ((Config.freeWord s.draws).getLsbD (31 - t)) := by
  refine ⟨_, hread.trans (s.answerWord_fill fun hall => ?_), fun t ht => Loaded.fill_ofBits f _ ht⟩
  have hknown := (Loaded.ofBits_bit f t ht).1
  rw [hall, hnone, BitVec.getLsbD_allOnes, Option.isSome_none, decide_eq_false_iff_not] at hknown
  omega

end

/-! ## Reading the windows -/

section
variable {s : State} {off : Offset} (hidle : s.busy = false)
include hidle

theorem State.busRead_window {w : Window} (hw : win off = w.index) (halign : ofs off % 4 = 0)
    (hlimit : ofs off < w.limit s.cfg) : s.busRead off 4 = s.answerWord (s.loadWord w (ofs off)) :=
  State.busRead_idle hidle (not_badAccess_of_window hw halign hlimit) hw

theorem State.busRead_register {r : Reg} (h : off.toNat = r.offset) :
    s.busRead off 4 = s.answerWord (Loaded.all (s.readReg r)) := by
  obtain rfl : off = BitVec.ofNat 28 r.offset := by rw [← h, BitVec.ofNat_toNat, BitVec.setWidth_eq]
  rw [State.answerWord_all]
  exact s.busRead_reg r fun hbusy => by rw [hidle] at hbusy; cases hbusy

theorem State.busRead_text {i : Nat} (hw : win off = Window.text.index) (ho : ofs off = 4 * i) (hi : i < s.cfg.nText) :
    s.busRead off 4 = s.answerWord (Loaded.ofElement (Buf.load s.mem.text i)) := by
  rw [State.busRead_window hidle hw (by omega) (by rw [Window.limit]; omega)]
  simp only [State.loadWord, show ofs off / 4 = i by omega]

theorem State.busRead_freqSym {j : Nat} (hw : win off = Window.freq.index) (ho : ofs off = 8 * j) (hj : j < s.cfg.nSym) :
    s.busRead off 4 = s.answerWord (Loaded.ofElement (Buf.load s.mem.freqSym j)) := by
  rw [State.busRead_window hidle hw (by omega) (by rw [Window.limit]; omega)]
  simp only [State.loadWord, show ofs off / 4 % 2 = 0 by omega, if_true, show ofs off / 8 = j by omega]

theorem State.busRead_freqCount {j : Nat} (hw : win off = Window.freq.index) (ho : ofs off = 8 * j + 4)
    (hj : j < s.cfg.nSym) : s.busRead off 4 = s.answerWord (Loaded.ofElement (Buf.load s.mem.freqCount j)) := by
  rw [State.busRead_window hidle hw (by omega) (by rw [Window.limit]; omega)]
  simp only [State.loadWord, show ¬ ofs off / 4 % 2 = 0 by omega, if_false, show ofs off / 8 = j by omega]

theorem State.busRead_node {k q : Nat} (hw : win off = Window.node.index) (ho : ofs off = 32 * k + 4 * q) (hq : q < 8)
    (hk : k < s.cfg.nodeCap) : s.busRead off 4 = s.answerWord (loadNodeWord (Buf.load s.mem.node k) q) := by
  rw [State.busRead_window hidle hw (by omega) (by rw [Window.limit]; omega)]
  simp only [State.loadWord, show ofs off / 32 = k by omega, show ofs off / 4 % 8 = q by omega]

theorem State.busRead_cmapSym {e : Nat} (hw : win off = Window.cmapSym.index) (ho : ofs off = 4 * e) (he : e < s.cfg.nSym) :
    s.busRead off 4 = s.answerWord (Loaded.ofElement ((Buf.load s.mem.cmap e).map (·.sym))) := by
  rw [State.busRead_window hidle hw (by omega) (by rw [Window.limit]; omega)]
  simp only [State.loadWord, show ofs off / 4 = e by omega]

theorem State.busRead_cmapLen {e : Nat} (hw : win off = Window.cmapLen.index) (ho : ofs off = 4 * e) (he : e < s.cfg.nSym) :
    s.busRead off 4 = s.answerWord (Loaded.ofElement ((Buf.load s.mem.cmap e).map (·.len))) := by
  rw [State.busRead_window hidle hw (by omega) (by rw [Window.limit]; omega)]
  simp only [State.loadWord, show ofs off / 4 = e by omega]

/-- Word `w` of entry `e` sits at word `e * CW + w` of the CMAP_CODE window (20_memory.md R85). -/
theorem State.busRead_cmapCode {e w : Nat} (hw : win off = Window.cmapCode.index) (ho : ofs off = 4 * (e * s.cfg.cw + w))
    (he : e < s.cfg.nSym) (hcw : w < s.cfg.cw) :
    s.busRead off 4 = s.answerWord (loadCodeWord s.cfg (Buf.load s.mem.cmap e) w) := by
  have hword : ofs off / 4 = w + s.cfg.cw * e := by rw [ho, Nat.mul_comm e]; omega
  have hlimit : ofs off < 4 * s.cfg.nSym * s.cfg.cw := by
    calc ofs off < 4 * ((e + 1) * s.cfg.cw) := by rw [ho, Nat.add_one_mul e]; omega
      _ ≤ 4 * (s.cfg.nSym * s.cfg.cw) := Nat.mul_le_mul_left 4 (Nat.mul_le_mul_right _ he)
      _ = 4 * s.cfg.nSym * s.cfg.cw := (Nat.mul_assoc ..).symm
  rw [State.busRead_window hidle hw (by omega) hlimit]
  simp only [State.loadWord, hword, Nat.add_mul_div_left _ _ (Nat.zero_lt_of_lt hcw), Nat.div_eq_of_lt hcw, Nat.zero_add,
    Nat.add_mul_mod_self_left, Nat.mod_eq_of_lt hcw]

theorem State.busRead_bitbuf {w : Nat} (hw : win off = Window.bitbuf.index) (ho : ofs off = 4 * w) (hlt : w < s.cfg.nBitw) :
    s.busRead off 4 = s.answerWord (loadBitWord s.cfg s.mem.bit w) := by
  rw [State.busRead_window hidle hw (by omega) (by rw [Window.limit]; omega)]
  simp only [State.loadWord, show ofs off / 4 = w by omega]

theorem State.busRead_bytebuf {w : Nat} (hw : win off = Window.bytebuf.index) (ho : ofs off = 4 * w)
    (hlt : w < s.cfg.nBitw) : s.busRead off 4 = s.answerWord (loadByteWord s.cfg s.mem.byte w) := by
  rw [State.busRead_window hidle hw (by omega) (by rw [Window.limit]; omega)]
  simp only [State.loadWord, show ofs off / 4 = w by omega]

theorem State.busRead_out {k : Nat} (hw : win off = Window.out.index) (ho : ofs off = 4 * k) (hk : k < s.cfg.nOut) :
    s.busRead off 4 = s.answerWord (Loaded.ofElement (Buf.load s.mem.out k)) := by
  rw [State.busRead_window hidle hw (by omega) (by rw [Window.limit]; omega)]
  simp only [State.loadWord, show ofs off / 4 = k by omega]

theorem State.busRead_path {j : Nat} (hw : win off = Window.path.index) (ho : ofs off = 4 * j) (hj : j < s.cfg.nPath) :
    s.busRead off 4 = s.answerWord (Loaded.ofElement (Buf.load s.mem.path j)) := by
  rw [State.busRead_window hidle hw (by omega) (by rw [Window.limit]; omega)]
  simp only [State.loadWord, show ofs off / 4 = j by omega]

end

/-! ## The words of an entry -/

/-- The flag word of a NODE entry: OCC, SYMV, LV and RV from bit 0 up (20_memory.md R86). -/
theorem nodeFlags_eq : ∀ occ symv lv rv : Bool,
    ((0 : BitVec 28) ++ BitVec.ofBool rv ++ BitVec.ofBool lv ++ BitVec.ofBool symv ++ BitVec.ofBool occ : Word) =
      (if occ then 1 else 0) + (if symv then 2 else 0) + (if lv then 4 else 0) + (if rv then 8 else 0) := by decide

/-- The words of a specified NODE entry (20_memory.md R86). -/
theorem loadNodeWord_some (n : Node) (q : Nat) : loadNodeWord (some n) q = Loaded.all
    (if q = 0 then (if n.payload.occ then 1 else 0) + (if n.payload.symv then 2 else 0) + (if n.lv then 4 else 0) +
        (if n.rv then 8 else 0)
      else if q = 1 then n.payload.weight else if q = 2 then n.payload.sym else if q = 3 then n.left
      else if q = 4 then n.right else 0) := by
  match q with
  | 0 => exact congrArg Loaded.all (nodeFlags_eq ..)
  | 1 | 2 | 3 | 4 => rfl
  | _ + 5 => rfl

/-! ## Writing the windows -/

/-- The element a BITBUF write stores at `k`: bit `31 - k % 32` of the word, within N_BITS (20_memory.md R84). -/
theorem load_storeAll_bits (b : Buf Bool) (n w : Nat) (v : Word) (k : Nat) :
    Buf.load (Buf.storeAll b (32 * w) ((bitsMsbFirst v).take (n - 32 * w))) k =
      if k / 32 = w ∧ k < n then some (v.getLsbD (31 - k % 32)) else Buf.load b k := by
  simp only [Buf.load_storeAll, List.length_take, length_bitsMsbFirst, List.getElem_take, getElem_bitsMsbFirst]
  by_cases h : k / 32 = w ∧ k < n
  · rw [dif_pos (by omega), if_pos h, show k - 32 * w = k % 32 by omega]
  · rw [dif_neg (by omega), if_neg h]

/-- The element a BYTEBUF write stores at `k`: byte `k % 4` of the word, bits 31:24 first, within N_BYTES
(20_memory.md R84). -/
theorem load_storeAll_bytes (b : Buf Byte) (n w : Nat) (v : Word) (k : Nat) :
    Buf.load (Buf.storeAll b (4 * w) ((bytesMsbFirst v).take (n - 4 * w))) k =
      if k / 4 = w ∧ k < n then some (v.extractLsb' (24 - 8 * (k % 4)) 8) else Buf.load b k := by
  simp only [Buf.load_storeAll, List.length_take, length_bytesMsbFirst, List.getElem_take]
  by_cases h : k / 4 = w ∧ k < n
  · rw [dif_pos (by omega), if_pos h]
    simp only [bytesMsbFirst, List.getElem_map, List.getElem_range, show k - 4 * w = k % 4 by omega]
  · rw [dif_neg (by omega), if_neg h]

/-- A read does not look at the answer to the transaction before it. -/
theorem State.resp_busRead_answer (t : State) (a : Option BusAnswer) (off : Offset) (size : Nat) :
    (({ t with resp := a } : State).busRead off size).resp = (t.busRead off size).resp := by
  have hload : ∀ w o, ({ t with resp := a } : State).loadWord w o = t.loadWord w o := by
    intro w o
    cases w <;> rfl
  have hanswer : ∀ l, (({ t with resp := a } : State).answerWord l).resp = (t.answerWord l).resp := by
    intro l
    unfold State.answerWord
    split <;> rfl
  have hbusy : ({ t with resp := a } : State).busy = t.busy := rfl
  unfold State.busRead
  split
  · rfl
  · split
    · rfl
    · simp only [hload, hbusy, apply_ite State.resp, hanswer]

theorem resp_after_write {s t : State} {off : Offset} {v : Word} (hwrote : Wrote s off v t) :
    ((s.busWrite off 4 v).busRead off 4).resp = (t.busRead off 4).resp := by
  obtain ⟨d, hwrote⟩ := hwrote
  rw [hwrote, State.resp_busRead_answer]

section
variable {s : State} {off : Offset} (hidle : s.busy = false) (hgood : ¬ BadAccess s.cfg off 4) (v : Word)
include hidle hgood

theorem State.wrote_window {w : Window} (hw : win off = w.index) : Wrote s off v (s.storeWord w (ofs off) v) :=
  ⟨0, State.busWrite_idle hidle hgood hw v⟩

theorem State.wrote_register {r : Reg} (h : off.toNat = r.offset) : Wrote s off v (s.writeReg v r) := by
  obtain ⟨hw, ho⟩ := register_window h
  have hwrote := State.wrote_window hidle hgood v hw
  rwa [State.storeWord, ho, Reg.ofOffset_offset] at hwrote

theorem State.wrote_text {i : Nat} (hw : win off = Window.text.index) (ho : ofs off = 4 * i) :
    ∃ b, Wrote s off v { s with mem := { s.mem with text := b } } ∧
      ∀ k, Buf.load b k = if k = i then some v else Buf.load s.mem.text k := by
  refine ⟨Buf.store s.mem.text i v, ?_, fun k => Buf.load_store _ _ k v⟩
  have hwrote := State.wrote_window hidle hgood v hw
  rwa [State.storeWord, show ofs off / 4 = i by omega] at hwrote

theorem State.wrote_freqSym {j : Nat} (hw : win off = Window.freq.index) (ho : ofs off = 8 * j) :
    ∃ b, Wrote s off v { s with mem := { s.mem with freqSym := b } } ∧
      ∀ k, Buf.load b k = if k = j then some v else Buf.load s.mem.freqSym k := by
  refine ⟨Buf.store s.mem.freqSym j v, ?_, fun k => Buf.load_store _ _ k v⟩
  have hwrote := State.wrote_window hidle hgood v hw
  rwa [State.storeWord, if_pos (by omega), show ofs off / 8 = j by omega] at hwrote

theorem State.wrote_freqCount {j : Nat} (hw : win off = Window.freq.index) (ho : ofs off = 8 * j + 4) :
    ∃ b, Wrote s off v { s with mem := { s.mem with freqCount := b } } ∧
      ∀ k, Buf.load b k = if k = j then some v else Buf.load s.mem.freqCount k := by
  refine ⟨Buf.store s.mem.freqCount j v, ?_, fun k => Buf.load_store _ _ k v⟩
  have hwrote := State.wrote_window hidle hgood v hw
  rwa [State.storeWord, if_neg (by omega), show ofs off / 8 = j by omega] at hwrote

theorem State.wrote_path {j : Nat} (hw : win off = Window.path.index) (ho : ofs off = 4 * j) :
    ∃ b, Wrote s off v { s with mem := { s.mem with path := b } } ∧
      ∀ k, Buf.load b k = if k = j then some v else Buf.load s.mem.path k := by
  refine ⟨Buf.store s.mem.path j v, ?_, fun k => Buf.load_store _ _ k v⟩
  have hwrote := State.wrote_window hidle hgood v hw
  rwa [State.storeWord, show ofs off / 4 = j by omega] at hwrote

theorem State.wrote_bitbuf {w : Nat} (hw : win off = Window.bitbuf.index) (ho : ofs off = 4 * w) :
    ∃ b, Wrote s off v { s with mem := { s.mem with bit := b } } ∧ ∀ k, Buf.load b k =
      if k / 32 = w ∧ k < s.cfg.nBits then some (v.getLsbD (31 - k % 32)) else Buf.load s.mem.bit k := by
  refine ⟨_, ?_, load_storeAll_bits s.mem.bit s.cfg.nBits w v⟩
  have hwrote := State.wrote_window hidle hgood v hw
  rwa [State.storeWord, show ofs off / 4 = w by omega] at hwrote

theorem State.wrote_bytebuf {w : Nat} (hw : win off = Window.bytebuf.index) (ho : ofs off = 4 * w) :
    ∃ b, Wrote s off v { s with mem := { s.mem with byte := b } } ∧ ∀ k, Buf.load b k =
      if k / 4 = w ∧ k < s.cfg.nBytes then some (v.extractLsb' (24 - 8 * (k % 4)) 8) else Buf.load s.mem.byte k := by
  refine ⟨_, ?_, load_storeAll_bytes s.mem.byte s.cfg.nBytes w v⟩
  have hwrote := State.wrote_window hidle hgood v hw
  rwa [State.storeWord, show ofs off / 4 = w by omega] at hwrote

/-! ## Reading back what was written -/

theorem State.readBack_text (hw : win off = Window.text.index) :
    ((s.busWrite off 4 v).busRead off 4).resp = some { response := .okay, rdata := v } := by
  obtain ⟨halign, hlimit⟩ := offset_of_not_badAccess hgood hw
  rw [Window.limit] at hlimit
  obtain ⟨b, hwrote, hb⟩ := State.wrote_text (i := ofs off / 4) hidle hgood v hw (by omega)
  rw [resp_after_write hwrote]
  exact resp_of_element (State.busRead_text (s := { s with mem := { s.mem with text := b } }) hidle hw (by omega)
    (show _ < s.cfg.nText by omega)) ((hb _).trans (if_pos rfl))

theorem State.readBack_freq (hw : win off = Window.freq.index) :
    ((s.busWrite off 4 v).busRead off 4).resp = some { response := .okay, rdata := v } := by
  obtain ⟨halign, hlimit⟩ := offset_of_not_badAccess hgood hw
  rw [Window.limit] at hlimit
  have hj : ofs off / 8 < s.cfg.nSym := by omega
  obtain ho | ho : ofs off = 8 * (ofs off / 8) ∨ ofs off = 8 * (ofs off / 8) + 4 := by omega
  · obtain ⟨b, hwrote, hb⟩ := State.wrote_freqSym hidle hgood v hw ho
    rw [resp_after_write hwrote]
    exact resp_of_element (State.busRead_freqSym (s := { s with mem := { s.mem with freqSym := b } }) hidle hw ho hj)
      ((hb _).trans (if_pos rfl))
  · obtain ⟨b, hwrote, hb⟩ := State.wrote_freqCount hidle hgood v hw ho
    rw [resp_after_write hwrote]
    exact resp_of_element (State.busRead_freqCount (s := { s with mem := { s.mem with freqCount := b } }) hidle hw ho hj)
      ((hb _).trans (if_pos rfl))

theorem State.readBack_path (hw : win off = Window.path.index) :
    ((s.busWrite off 4 v).busRead off 4).resp = some { response := .okay, rdata := v } := by
  obtain ⟨halign, hlimit⟩ := offset_of_not_badAccess hgood hw
  rw [Window.limit] at hlimit
  obtain ⟨b, hwrote, hb⟩ := State.wrote_path (j := ofs off / 4) hidle hgood v hw (by omega)
  rw [resp_after_write hwrote]
  exact resp_of_element (State.busRead_path (s := { s with mem := { s.mem with path := b } }) hidle hw (by omega)
    (show _ < s.cfg.nPath by omega)) ((hb _).trans (if_pos rfl))

theorem State.readBack_bitbuf (hw : win off = Window.bitbuf.index) :
    ∃ d, ((s.busWrite off 4 v).busRead off 4).resp = some { response := .okay, rdata := d } ∧
      ∀ t, t < 32 → d.getLsbD (31 - t) = (decide (32 * (ofs off / 4) + t < s.cfg.nBits) && v.getLsbD (31 - t)) := by
  obtain ⟨halign, hlimit⟩ := offset_of_not_badAccess hgood hw
  rw [Window.limit] at hlimit
  have ho : ofs off = 4 * (ofs off / 4) := by omega
  obtain ⟨b, hwrote, hb⟩ := State.wrote_bitbuf hidle hgood v hw ho
  have hword : loadBitWord s.cfg b (ofs off / 4) = Loaded.all (wordMsbFirst fun t =>
      decide (32 * (ofs off / 4) + t < s.cfg.nBits) && v.getLsbD (31 - t)) := by
    refine Loaded.ofBits_specified fun t ht => ?_
    by_cases hn : 32 * (ofs off / 4) + t < s.cfg.nBits
    · rw [if_pos hn, hb, if_pos (by omega), show (32 * (ofs off / 4) + t) % 32 = t by omega, decide_eq_true hn, Bool.true_and]
    · rw [if_neg hn, decide_eq_false hn, Bool.false_and]
  refine ⟨_, ?_, fun t ht => wordMsbFirst_getLsbD _ t ht⟩
  rw [resp_after_write hwrote]
  exact resp_of_specified ((State.busRead_bitbuf (s := { s with mem := { s.mem with bit := b } }) hidle hw ho
    (show _ < s.cfg.nBitw by omega)).trans (congrArg _ hword))

theorem State.readBack_bytebuf (hw : win off = Window.bytebuf.index) :
    ∃ d, ((s.busWrite off 4 v).busRead off 4).resp = some { response := .okay, rdata := d } ∧
      ∀ t, t < 32 → d.getLsbD (31 - t) = (decide (4 * (ofs off / 4) + t / 8 < s.cfg.nBytes) && v.getLsbD (31 - t)) := by
  obtain ⟨halign, hlimit⟩ := offset_of_not_badAccess hgood hw
  rw [Window.limit] at hlimit
  have ho : ofs off = 4 * (ofs off / 4) := by omega
  obtain ⟨b, hwrote, hb⟩ := State.wrote_bytebuf hidle hgood v hw ho
  have hword : loadByteWord s.cfg b (ofs off / 4) = Loaded.all (wordMsbFirst fun t =>
      decide (4 * (ofs off / 4) + t / 8 < s.cfg.nBytes) && v.getLsbD (31 - t)) := by
    refine Loaded.ofBits_specified fun t ht => ?_
    by_cases hn : 4 * (ofs off / 4) + t / 8 < s.cfg.nBytes
    · rw [if_pos hn, hb, if_pos (by omega), Option.map_some, BitVec.getLsbD_extractLsb', decide_eq_true hn,
        decide_eq_true (by omega : 7 - t % 8 < 8),
        show 24 - 8 * ((4 * (ofs off / 4) + t / 8) % 4) + (7 - t % 8) = 31 - t by omega]
    · rw [if_neg hn, decide_eq_false hn, Bool.false_and]
  refine ⟨_, ?_, fun t ht => wordMsbFirst_getLsbD _ t ht⟩
  rw [resp_after_write hwrote]
  exact resp_of_specified ((State.busRead_bytebuf (s := { s with mem := { s.mem with byte := b } }) hidle hw ho
    (show _ < s.cfg.nBitw by omega)).trans (congrArg _ hword))

/-- A write to a register that leaves the block idle is read back as the register's new word. -/
theorem State.readBack_register {r : Reg} (h : off.toNat = r.offset) (hstill : (s.writeReg v r).busy = false) :
    ((s.busWrite off 4 v).busRead off 4).resp = some { response := .okay, rdata := (s.writeReg v r).readReg r } := by
  rw [resp_after_write (State.wrote_register hidle hgood v h)]
  exact resp_of_specified (State.busRead_register hstill h)

/-- An operand register of 32 bits takes the written word (10_state.md R31). -/
theorem State.readBack_operandRegister
    (hoff : off.toNat ∈ [Reg.textLen, .nsym, .bitCount, .pathLen, .payWeight, .paySym].map Reg.offset) :
    ((s.busWrite off 4 v).busRead off 4).resp = some { response := .okay, rdata := v } := by
  obtain ⟨r, hr, hoff⟩ := List.mem_map.1 hoff
  have hsame : (s.writeReg v r).busy = s.busy ∧ (s.writeReg v r).readReg r = v := by
    simp only [List.mem_cons, List.not_mem_nil, or_false] at hr
    obtain rfl | rfl | rfl | rfl | rfl | rfl := hr <;> exact ⟨rfl, rfl⟩
  rw [State.readBack_register hidle hgood v hoff.symm (hsame.1.trans hidle), hsame.2]

theorem State.readBack_payFlags (hoff : off.toNat = Reg.payFlags.offset) :
    ((s.busWrite off 4 v).busRead off 4).resp = some { response := .okay, rdata := v &&& 3 } := by
  have hword : (v.setWidth 2).setWidth 32 = v &&& 3 := by
    apply BitVec.eq_of_toNat_eq
    rw [BitVec.toNat_setWidth, BitVec.toNat_setWidth, BitVec.toNat_and, Nat.mod_eq_of_lt (by omega : v.toNat % 2 ^ 2 < 2 ^ 32)]
    exact (Nat.and_two_pow_sub_one_eq_mod _ 2).symm
  rw [← hword]
  exact State.readBack_register hidle hgood v hoff hidle

end

end Sys2Proof.Machine

open Sys2Proof Sys2Proof.Machine Sys2Proof.Claims

/-- Settles O58: the word a write stores, element by element, and the reading of the same offset in the state it leaves. -/
theorem readAfterWriteGivesTheWord : Obligations.ReadAfterWriteGivesTheWord := by
  unfold Obligations.ReadAfterWriteGivesTheWord
  intro s off v hidle hgood
  refine ⟨?_, State.readBack_payFlags hidle hgood v, State.readBack_bitbuf hidle hgood v,
    State.readBack_bytebuf hidle hgood v,
    State.wrote_register (r := .textLen) hidle hgood v, State.wrote_register (r := .nsym) hidle hgood v,
    State.wrote_register (r := .bitCount) hidle hgood v, State.wrote_register (r := .pathLen) hidle hgood v,
    State.wrote_register (r := .payFlags) hidle hgood v, State.wrote_register (r := .payWeight) hidle hgood v,
    State.wrote_register (r := .paySym) hidle hgood v,
    fun i => State.wrote_text hidle hgood v, fun j => State.wrote_freqSym hidle hgood v,
    fun j => State.wrote_freqCount hidle hgood v, fun w => State.wrote_bitbuf hidle hgood v,
    fun w => State.wrote_bytebuf hidle hgood v, fun j => State.wrote_path hidle hgood v⟩
  rintro (htext | hfreq | hpath | hreg)
  · exact State.readBack_text hidle hgood v htext
  · exact State.readBack_freq hidle hgood v hfreq
  · exact State.readBack_path hidle hgood v hpath
  · exact State.readBack_operandRegister hidle hgood v hreg
end

section
/-! SUPPORT. The word layouts of 20_memory.md R83 to R87, one group of clauses for each kind of word. -/

namespace Sys2Proof.Machine

open Sys2Proof.Claims

variable {s : State} {off : Offset} (hidle : s.busy = false)
include hidle

/-! ## Bits and bytes -/

/-- A BITBUF word bit by bit: stream bit `i` at bit `31 - i % 32` of word `i / 32` (20_memory.md R84). -/
theorem State.busRead_bit {i : Nat} (hw : win off = Window.bitbuf.index) (ho : ofs off = 4 * (i / 32)) (hi : i < s.cfg.nBits) :
    ∃ f, s.busRead off 4 = s.answerWord (Loaded.ofBits f) ∧ f (i % 32) = Buf.load s.mem.bit i := by
  have hlt : i / 32 < s.cfg.nBitw := by
    unfold Config.nBitw ceilDiv
    omega
  refine ⟨_, State.busRead_bitbuf hidle hw ho hlt, ?_⟩
  rw [show 32 * (i / 32) + i % 32 = i by omega, if_pos hi]

/-- A BYTEBUF word bit by bit: bit `7 - q` of byte `j` at bit `31 - 8 (j % 4) - q` of word `j / 4` (20_memory.md R84). -/
theorem State.busRead_byte {j : Nat} (hw : win off = Window.bytebuf.index) (ho : ofs off = 4 * (j / 4))
    (hj : j < s.cfg.nBytes) :
    ∃ f, s.busRead off 4 = s.answerWord (Loaded.ofBits f) ∧
      ∀ q, q < 8 → f (8 * (j % 4) + q) = (Buf.load s.mem.byte j).map (·.getLsbD (7 - q)) := by
  have hlt : j / 4 < s.cfg.nBitw := by
    unfold Config.nBytes ceilDiv at hj
    unfold Config.nBitw ceilDiv
    omega
  refine ⟨_, State.busRead_bytebuf hidle hw ho hlt, fun q hq => ?_⟩
  rw [show 4 * (j / 4) + (8 * (j % 4) + q) / 8 = j by omega, if_pos hj, show (8 * (j % 4) + q) % 8 = q by omega]

theorem bitWord_specified {i : Nat} {b : Bool} (hw : win off = Window.bitbuf.index) (ho : ofs off = 4 * (i / 32))
    (hi : i < s.cfg.nBits) (hb : Buf.load s.mem.bit i = some b) :
    ∃ d, (s.busRead off 4).resp = some { response := .okay, rdata := d } ∧ d.getLsbD (31 - i % 32) = b := by
  obtain ⟨f, hread, hf⟩ := State.busRead_bit hidle hw ho hi
  obtain ⟨d, hresp, hbits⟩ := resp_of_bits hread
  exact ⟨d, hresp, hbits _ b (by omega) (hf.trans hb)⟩

theorem bitWord_draw {i : Nat} (hw : win off = Window.bitbuf.index) (ho : ofs off = 4 * (i / 32)) (hi : i < s.cfg.nBits)
    (hnone : Buf.load s.mem.bit i = .none) :
    ∃ d, Drew s off d ∧ d.getLsbD (31 - i % 32) = (Config.freeWord s.draws).getLsbD (31 - i % 32) := by
  obtain ⟨f, hread, hf⟩ := State.busRead_bit hidle hw ho hi
  have hlt : i % 32 < 32 := by omega
  obtain ⟨d, hdrew, hbits⟩ := drew_of_bits hread hlt (hf.trans hnone)
  refine ⟨d, hdrew, ?_⟩
  rw [hbits _ hlt, hf, hnone, Option.getD_none]

theorem byteWord_specified {j : Nat} {b : Byte} (hw : win off = Window.bytebuf.index) (ho : ofs off = 4 * (j / 4))
    (hj : j < s.cfg.nBytes) (hb : Buf.load s.mem.byte j = some b) :
    ∃ d, (s.busRead off 4).resp = some { response := .okay, rdata := d } ∧
      ∀ q, q < 8 → d.getLsbD (31 - 8 * (j % 4) - q) = b.getLsbD (7 - q) := by
  obtain ⟨f, hread, hf⟩ := State.busRead_byte hidle hw ho hj
  obtain ⟨d, hresp, hbits⟩ := resp_of_bits hread
  refine ⟨d, hresp, fun q hq => ?_⟩
  rw [Nat.sub_sub]
  exact hbits _ _ (by omega) (by rw [hf q hq, hb]; rfl)

theorem byteWord_draw {j : Nat} (hw : win off = Window.bytebuf.index) (ho : ofs off = 4 * (j / 4)) (hj : j < s.cfg.nBytes)
    (hnone : Buf.load s.mem.byte j = .none) :
    ∃ d, Drew s off d ∧ ∀ q, q < 8 →
      d.getLsbD (31 - 8 * (j % 4) - q) = (Config.freeWord s.draws).getLsbD (31 - 8 * (j % 4) - q) := by
  obtain ⟨f, hread, hf⟩ := State.busRead_byte hidle hw ho hj
  have hunknown : ∀ q, q < 8 → f (8 * (j % 4) + q) = .none := fun q hq => by rw [hf q hq, hnone]; rfl
  obtain ⟨d, hdrew, hbits⟩ := drew_of_bits hread (t := 8 * (j % 4) + 0) (by omega) (hunknown 0 (by decide))
  refine ⟨d, hdrew, fun q hq => ?_⟩
  rw [Nat.sub_sub, hbits _ (by omega), hunknown q hq, Option.getD_none]

/-! ## Entries -/

theorem nodeWord_draw {k q : Nat} (hw : win off = Window.node.index) (ho : ofs off = 32 * k + 4 * q) (hq : q < 8)
    (hk : k < s.cfg.nodeCap) (hnone : Buf.load s.mem.node k = .none) :
    (q = 0 → Drew s off (Config.freeWord s.draws &&& 0xF)) ∧
    (1 ≤ q ∧ q ≤ 4 → Drew s off (Config.freeWord s.draws)) ∧
    (5 ≤ q → (s.busRead off 4).resp = some { response := .okay, rdata := 0 }) := by
  have hread := State.busRead_node hidle hw ho hq hk
  rw [hnone] at hread
  refine ⟨?_, ?_, fun hhigh => ?_⟩
  · rintro rfl
    have hfill := s.answerWord_fill (l := { value := 0, known := 0xFFFFFFF0 }) (by decide)
    refine (hread.trans hfill).trans ?_
    simp [Loaded.fill]
  · rintro ⟨hlow, hhigh⟩
    refine drew_of_element (e := .none) (hread.trans ?_) rfl
    interval_cases q <;> rfl
  · refine resp_of_specified (hread.trans ?_)
    interval_cases q <;> rfl

theorem codeWord_specified {e w : Nat} {x : CmapEntry} (hw : win off = Window.cmapCode.index)
    (ho : ofs off = 4 * (e * s.cfg.cw + w)) (he : e < s.cfg.nSym) (hcw : w < s.cfg.cw) (hx : Buf.load s.mem.cmap e = some x) :
    ∃ d, (s.busRead off 4).resp = some { response := .okay, rdata := d } ∧
      ∀ t, t < 32 → d.getLsbD (31 - t) = (decide (32 * w + t < s.cfg.codeCap) && x.code.getD (32 * w + t) false) := by
  have hread := State.busRead_cmapCode hidle hw ho he hcw
  obtain ⟨d, hresp, hbits⟩ := resp_of_bits hread
  refine ⟨d, hresp, fun t ht => hbits t _ ht ?_⟩
  rw [hx]
  by_cases hcap : 32 * w + t < s.cfg.codeCap
  · rw [if_pos hcap, decide_eq_true hcap, Bool.true_and]
    rfl
  · rw [if_neg hcap, decide_eq_false hcap, Bool.false_and]

/-- Every word of a code has a bit below CODE_CAP, so the word of an unspecified entry is a draw. -/
theorem codeWord_draw {e w : Nat} (hw : win off = Window.cmapCode.index) (ho : ofs off = 4 * (e * s.cfg.cw + w))
    (he : e < s.cfg.nSym) (hcw : w < s.cfg.cw) (hnone : Buf.load s.mem.cmap e = .none) :
    ∃ d, Drew s off d ∧ ∀ t, t < 32 → d.getLsbD (31 - t) =
      (decide (32 * w + t < s.cfg.codeCap) && (Config.freeWord s.draws).getLsbD (31 - t)) := by
  have hread := State.busRead_cmapCode hidle hw ho he hcw
  rw [hnone] at hread
  have hfirst : 32 * w + 0 < s.cfg.codeCap := by
    unfold Config.cw ceilDiv at hcw
    omega
  obtain ⟨d, hdrew, hbits⟩ := drew_of_bits hread (t := 0) (by decide) (if_pos hfirst)
  refine ⟨d, hdrew, fun t ht => ?_⟩
  rw [hbits t ht]
  by_cases hcap : 32 * w + t < s.cfg.codeCap
  · rw [if_pos hcap, decide_eq_true hcap, Bool.true_and]
    rfl
  · rw [if_neg hcap, decide_eq_false hcap, Bool.false_and]
    rfl

end Sys2Proof.Machine

open Sys2Proof Sys2Proof.Machine Sys2Proof.Claims

/-- Settles O60: each clause reads one window's word, whose specified bits are given and whose others are the draw's. -/
theorem windowWordLayouts : Obligations.WindowWordLayouts := by
  unfold Obligations.WindowWordLayouts
  intro s hidle
  refine ⟨fun off i b => bitWord_specified hidle, fun off j b => byteWord_specified hidle, ?_, ?_, ?_, ?_, ?_, ?_, ?_,
    fun off i => bitWord_draw hidle, fun off j => byteWord_draw hidle, fun off k q => nodeWord_draw hidle, ?_, ?_⟩
  · intro off k q n hw ho hq hk hn
    exact resp_of_specified ((State.busRead_node hidle hw ho hq hk).trans (by rw [hn, loadNodeWord_some]))
  · intro off e x hx he
    refine ⟨fun hw ho => ?_, fun hw ho => ?_, fun w hw hcw ho => codeWord_specified hidle hw ho he hcw hx⟩
    · exact resp_of_element (State.busRead_cmapSym hidle hw ho he) (by rw [hx]; rfl)
    · exact resp_of_element (State.busRead_cmapLen hidle hw ho he) (by rw [hx]; rfl)
  · exact fun off i v hw ho hi => resp_of_element (State.busRead_text hidle hw ho hi)
  · exact fun off j v hw ho hj => resp_of_element (State.busRead_freqSym hidle hw ho hj)
  · exact fun off j v hw ho hj => resp_of_element (State.busRead_freqCount hidle hw ho hj)
  · exact fun off k v hw ho hk => resp_of_element (State.busRead_out hidle hw ho hk)
  · exact fun off j v hw ho hj => resp_of_element (State.busRead_path hidle hw ho hj)
  · intro off e he hnone
    refine ⟨?_, fun w hw hcw ho => codeWord_draw hidle hw ho he hcw hnone⟩
    rintro (hw | hw) ho
    · exact drew_of_element (State.busRead_cmapSym hidle hw ho he) (by rw [hnone]; rfl)
    · exact drew_of_element (State.busRead_cmapLen hidle hw ho he) (by rw [hnone]; rfl)
  · rintro off i (⟨hw, ho, hi, hnone⟩ | ⟨hw, ho, hi, hnone⟩ | ⟨hw, ho, hi, hnone⟩ | ⟨hw, ho, hi, hnone⟩ |
      ⟨hw, ho, hi, hnone⟩)
    · exact drew_of_element (State.busRead_text hidle hw ho hi) hnone
    · exact drew_of_element (State.busRead_freqSym hidle hw ho hi) hnone
    · exact drew_of_element (State.busRead_freqCount hidle hw ho hi) hnone
    · exact drew_of_element (State.busRead_out hidle hw ho hi) hnone
    · exact drew_of_element (State.busRead_path hidle hw ho hi) hnone
end

section
/-! SUPPORT. The fault of a command at the first unspecified element of its operand (20_memory.md R102). -/

namespace Sys2Proof.Machine

open Sys2Proof.Claims

/-- An operand whose first unspecified element follows the values `vs`. -/
theorem Buf.slice_of_holds_none {α : Type} {b : Buf α} {vs : List α} {n : Nat} (h : Buf.holds b vs) (hn : vs.length < n)
    (hnone : Buf.load b vs.length = .none) : ∃ rest, Buf.slice b 0 n = vs.map some ++ .none :: rest :=
  ⟨_, by rw [Buf.slice_of_holds_prefix h hn, hnone]⟩

theorem readAll_slice_fault {α : Type} {b : Buf α} {vs : List α} {n : Nat} (buffer : Buffer) (h : Buf.holds b vs)
    (hn : vs.length < n) (hnone : Buf.load b vs.length = .none) :
    readAll buffer 0 (Buf.slice b 0 n) = .fault (.unspecifiedOperand buffer vs.length) := by
  obtain ⟨rest, hslice⟩ := Buf.slice_of_holds_none h hn hnone
  rw [hslice, readAll_fault, Nat.zero_add]

/-! ## Streams and paths -/

theorem execPack_fault {s : State} {vs : List Bool} (hcap : s.bitCount.toNat ≤ s.cfg.nBits)
    (hn : vs.length < s.bitCount.toNat) (h : Buf.holds s.mem.bit vs) (hnone : Buf.load s.mem.bit vs.length = .none) :
    execPack s = .fault (.unspecifiedOperand .bit vs.length) := by
  have hread : readAll .bit 0 s.bitOperand = _ := readAll_slice_fault .bit h hn hnone
  rw [execPack, if_neg (Nat.not_lt.2 hcap), hread]

theorem execUnpack_fault {s : State} {vs : List Byte} (hcap : s.bitCount.toNat ≤ s.cfg.nBits)
    (hn : vs.length < ceilDiv s.bitCount.toNat 8) (h : Buf.holds s.mem.byte vs)
    (hnone : Buf.load s.mem.byte vs.length = .none) : execUnpack s = .fault (.unspecifiedOperand .byte vs.length) := by
  have hread : readAll .byte 0 s.packedOperand = _ := readAll_slice_fault .byte h hn hnone
  rw [execUnpack, if_neg (Nat.not_lt.2 hcap), hread]

theorem State.checkPath_fault {s : State} {ds : List Bool} (allowEmpty : Bool) (hcap : s.pathLen.toNat ≤ s.cfg.nPath)
    (hn : ds.length < s.pathLen.toNat) (h : Buf.holds s.mem.path (digitWords ds))
    (hnone : Buf.load s.mem.path ds.length = .none) :
    s.checkPath allowEmpty = .fault (.unspecifiedOperand .path ds.length) := by
  have hlen : (digitWords ds).length = ds.length := List.length_map _
  have hne : s.pathLen ≠ 0 := by
    intro h0
    rw [h0] at hn
    exact Nat.not_lt_zero _ hn
  rw [← hlen] at hn hnone
  obtain ⟨rest, hslice⟩ := Buf.slice_of_holds_none h hn hnone
  rw [State.checkPath, if_neg (Nat.not_lt.2 hcap), if_neg (fun hc => hne hc.1), State.pathOperand, hslice,
    checkDigits_digitWords, checkDigits, Res.map_fault_eq, Nat.zero_add]

/-! ## Construction -/

theorem tally_fault {s : State} {ts : List Word} (hn : ts.length < s.textLen.toNat) (h : Buf.holds s.mem.text ts)
    (hdistinct : ts.dedup.length ≤ s.cfg.nSym) (hnone : Buf.load s.mem.text ts.length = .none) :
    tally s.cfg.nSym 0 [] s.textOperand = .fault (.unspecifiedOperand .text ts.length) := by
  obtain ⟨rest, hslice⟩ := Buf.slice_of_holds_none h hn hnone
  obtain ⟨t, -, htally⟩ := tally_reads (i := 0) (us := ts) (rest := .none :: rest) FirstSeenTable.nil
    (by rw [List.nil_append]; omega) hdistinct
  rw [State.textOperand, hslice, htally, tally, Nat.zero_add]

/-- From the first entry on, distinct symbols pass BUILDF's check. -/
theorem checkDistinct_nodup {xs : List Word} (h : xs.Nodup) (rest : List (Option Word)) :
    checkDistinct 0 [] (xs.map some ++ rest) = checkDistinct xs.length xs rest := by
  simpa using checkDistinct_distinct (j := 0) (seen := []) (xs := xs) h rest

/-- BUILDF's check of the symbols stops at the first unspecified one. -/
theorem State.checkedTable_fault_sym {s : State} {xs : List Word} (hn : xs.length < s.nsym.toNat)
    (h : Buf.holds s.mem.freqSym xs) (hdistinct : xs.Nodup) (hnone : Buf.load s.mem.freqSym xs.length = .none) :
    s.checkedTable = .fault (.unspecifiedOperand .freq xs.length) := by
  obtain ⟨rest, hslice⟩ := Buf.slice_of_holds_none h hn hnone
  rw [State.checkedTable, State.tableSyms, hslice, checkDistinct_nodup hdistinct, checkDistinct]

/-- Past distinct symbols BUILDF stops at the first unspecified count. -/
theorem State.checkedTable_fault_count {s : State} {xs cs : List Word} (hlen : xs.length = s.nsym.toNat)
    (hsyms : Buf.holds s.mem.freqSym xs) (hdistinct : xs.Nodup) (hn : cs.length < s.nsym.toNat)
    (h : Buf.holds s.mem.freqCount cs) (hnone : Buf.load s.mem.freqCount cs.length = .none) :
    s.checkedTable = .fault (.unspecifiedOperand .freq cs.length) := by
  have hslice : s.tableSyms = xs.map some ++ [] := by
    rw [List.append_nil]
    exact Buf.slice_of_holds hlen hsyms
  have hread : readAll .freq 0 s.tableCounts = _ := readAll_slice_fault .freq h hn hnone
  rw [State.checkedTable, hslice, checkDistinct_nodup hdistinct, checkDistinct, hread]

theorem execBuildf_fault {s : State} {f : Fault} (hne : s.nsym ≠ 0) (hcap : s.nsym.toNat ≤ s.cfg.nSym)
    (hf : s.checkedTable = .fault f) : execBuildf s = .fault f := by
  rw [execBuildf, if_neg hne, if_neg (Nat.not_lt.2 hcap), hf]

/-! ## Encoding and decoding -/

/-- With the code map in the CMAP table, ENCODE's loop reads the spelled symbols, then the unspecified one. -/
theorem encodeWithMap_fault {s : State} {T : Built} {ts : List Word} {ps : List (List Bool)} (hinv : s.Inv)
    (hT : s.holdsBuilt T) (hmap : s.mapOk = true) (hn : ts.length < s.textLen.toNat) (h : Buf.holds s.mem.text ts)
    (hspelled : Spelled T ts ps) (hfit : ps.flatten.length ≤ s.cfg.nBits)
    (hnone : Buf.load s.mem.text ts.length = .none) :
    encodeWithMap s = .fault (.unspecifiedOperand .text ts.length) := by
  obtain ⟨rest, hslice⟩ := Buf.slice_of_holds_none h hn hnone
  obtain ⟨-, hcodes⟩ := hinv.codes_fit hT
  obtain ⟨⟨-, hdistinct⟩, -, -, hmapped⟩ := hT
  obtain ⟨hlen, hwords⟩ := hspelled
  rw [encodeWithMap, hmapped hmap, State.textOperand, hslice,
    encodeText_spelled (by rwa [T.codes_fst]) (fun e he => (hcodes e he).2.2) hlen hwords (by omega), encodeText,
    Res.map_fault_eq, Nat.zero_add]

theorem execEncode_fault {s : State} {T : Built} {ts : List Word} {ps : List (List Bool)} (hinv : s.Inv)
    (htree : s.treeOk = true) (hT : s.holdsBuilt T) (hcap : s.textLen.toNat ≤ s.cfg.nText)
    (hn : ts.length < s.textLen.toNat) (h : Buf.holds s.mem.text ts) (hspelled : Spelled T ts ps)
    (hfit : ps.flatten.length ≤ s.cfg.nBits) (hnone : Buf.load s.mem.text ts.length = .none) :
    execEncode s = .fault (.unspecifiedOperand .text ts.length) := by
  rw [execEncode, if_neg (by simp [htree]), if_neg (Nat.not_lt.2 hcap)]
  split
  · exact encodeWithMap_fault hinv hT ‹_› hn h hspelled hfit hnone
  · obtain ⟨hinv', hT'⟩ := hinv.storeMap htree hT
    rw [hinv.deriveMap hT]
    exact encodeWithMap_fault hinv' hT' rfl hn h hspelled hfit hnone

/-- The first bits of a code word move the cursor and make no symbol. -/
theorem Built.decode_steps {T : Built} {arena : Buf Node} {root : Word} {p q : List Bool} {x : Word}
    (hT : T.heldAt arena root) (hx : (x, p ++ q) ∈ T.codes) (hq : q ≠ []) :
    ∃ k, ∀ start i rest, decodeBits arena root root start i (p.map some ++ rest) =
      decodeBits arena root k start (i + p.length) rest := by
  cases T with
  | single w y =>
    obtain rfl : p = [] := by
      simp only [Built.codes, List.mem_singleton, Prod.mk.injEq, List.append_eq_singleton_iff, hq, and_false, or_false] at hx
      exact hx.2.1
    exact ⟨root, fun _ _ _ => rfl⟩
  | forked w l r =>
    obtain ⟨c, -, hpath, -, -⟩ := Built.codes_path hT hx
    obtain ⟨k, hk, -⟩ := hpath.split
    exact ⟨k, fun _ _ _ => decodeBits_steps (p := []) hT hx hq hk⟩

theorem execDecode_fault {s : State} {T : Built} {ts : List Word} {ps : List (List Bool)} {x : Word} {p q : List Bool}
    (htree : s.treeOk = true) (hT : s.holdsBuilt T) (hcap : s.bitCount.toNat ≤ s.cfg.nBits) (hspelled : Spelled T ts ps)
    (hx : (x, p ++ q) ∈ T.codes) (hq : q ≠ []) (hn : (ps.flatten ++ p).length < s.bitCount.toNat)
    (h : Buf.holds s.mem.bit (ps.flatten ++ p)) (hnone : Buf.load s.mem.bit (ps.flatten ++ p).length = .none) :
    execDecode s = .fault (.unspecifiedOperand .bit (ps.flatten ++ p).length) := by
  obtain ⟨rest, hslice⟩ := Buf.slice_of_holds_none h hn hnone
  obtain ⟨-, hheld, -, -⟩ := hT
  obtain ⟨hlen, hwords⟩ := hspelled
  obtain ⟨k, hsteps⟩ := Built.decode_steps hheld hx hq
  have hloop : decodeBits s.mem.node s.root s.root 0 0 s.bitOperand =
      .fault (.unspecifiedOperand .bit (ps.flatten ++ p).length) := by
    rw [State.bitOperand, hslice, List.map_append, List.append_assoc, Built.decode_spelled hheld hlen hwords, hsteps,
      decodeBits, Res.map_fault_eq, Nat.zero_add, List.length_append]
  rw [execDecode, if_neg (by simp [htree]), if_neg (Nat.not_lt.2 hcap), hloop]

end Sys2Proof.Machine

open Sys2Proof Sys2Proof.Machine Sys2Proof.Claims

/-- Settles O20: each operand is its held values, then the unspecified element; the command's loop reads the values without
an error and stops at that element. -/
theorem unspecifiedOperandIsFault : Obligations.UnspecifiedOperandIsFault := by
  unfold Obligations.UnspecifiedOperandIsFault
  refine ⟨fun s vs => execPack_fault, fun s vs => execUnpack_fault, ?_, ?_, fun s T ts ps => execEncode_fault, ?_, ?_⟩
  · intro s i ds hi hnodes hcap hn h hnone
    have hpath : ∀ allowEmpty, s.checkPath allowEmpty = _ := fun allowEmpty =>
      State.checkPath_fault allowEmpty hcap hn h hnone
    obtain rfl | rfl := hi
    · rw [exec, execTsetp, if_neg hnodes, hpath]
    · rw [exec, execTgetp, if_neg hnodes, hpath]
  · intro s i ts hi hcap hn h hdistinct hnone
    have htally := tally_fault hn h hdistinct hnone
    have hne : s.textLen ≠ 0 := by
      intro h0
      rw [h0] at hn
      exact Nat.not_lt_zero _ hn
    obtain rfl | rfl := hi
    · rw [exec, execFreq, if_neg (Nat.not_lt.2 hcap), htally]
    · rw [exec, execBuild, if_neg (Nat.not_lt.2 hcap), if_neg hne, htally]
  · intro s xs hne hcap hsyms hdistinct
    refine ⟨fun hn hnone => ?_, fun cs hlen hn hcounts hnone => ?_⟩
    · exact execBuildf_fault hne hcap (State.checkedTable_fault_sym hn hsyms hdistinct hnone)
    · exact execBuildf_fault hne hcap (State.checkedTable_fault_count hlen hsyms hdistinct hn hcounts hnone)
  · exact fun s T ts ps x p q _ => execDecode_fault
end

section
/-! SUPPORT. The decoder: the two fields of a command word, and the opcode map with its inverse. -/

namespace Sys2Proof

/-! ## The fields of a word -/

@[simp] theorem splitCommand_joinCommand (f : CommandFields) : splitCommand (joinCommand f) = f := by
  obtain ⟨rsv, opcode⟩ := f
  unfold splitCommand joinCommand
  congr 1
  · exact BitVec.extractLsb'_append_eq_left
  · exact BitVec.extractLsb'_append_eq_right

theorem splitCommand_rsvZero (c : Word) : (splitCommand c).rsvZero = true ↔ c.toNat / 256 = 0 := by
  have hc := c.isLt
  simp only [splitCommand, CommandFields.rsvZero, beq_iff_eq, ← BitVec.toNat_inj, BitVec.extractLsb'_toNat,
    Nat.shiftRight_eq_div_pow, BitVec.ofNat_eq_ofNat, BitVec.toNat_ofNat,
    Nat.zero_mod]
  omega

theorem splitCommand_opcode_toNat (c : Word) : (splitCommand c).opcode.toNat = c.toNat % 256 := by
  simp [splitCommand]

/-! ## The opcode map -/

@[simp] theorem instrOfOpcode_opcodeOf (i : Instr) : instrOfOpcode (opcodeOf i) = some i := by cases i <;> rfl

/-- The map from opcodes to commands inverts the map from commands to opcodes (30_encoding.md R122). -/
theorem instrOfOpcode_eq_some {op : BitVec 8} {i : Instr} : instrOfOpcode op = some i ↔ op = opcodeOf i := by
  constructor
  · intro h
    apply BitVec.eq_of_toNat_eq
    unfold instrOfOpcode at h
    split at h <;> cases h <;> assumption
  · rintro rfl
    exact instrOfOpcode_opcodeOf i

/-- The reserved opcodes (30_encoding.md R124). -/
theorem instrOfOpcode_eq_none {op : BitVec 8} :
    instrOfOpcode op = .none ↔ (0x09 ≤ op.toNat ∧ op.toNat ≤ 0x0F) ∨ 0x17 ≤ op.toNat := by
  unfold instrOfOpcode
  split
  case h_17 =>
    simp only [imp_false, true_iff] at *
    omega
  all_goals simp_all

/-! ## The decoder -/

/-- A word is a command exactly when RSV = 0 and its opcode is assigned to the command (30_encoding.md R123). -/
theorem decode_eq_command {c : Word} {i : Instr} :
    decode c = .command i ↔ (splitCommand c).rsvZero = true ∧ instrOfOpcode (splitCommand c).opcode = some i := by
  unfold decode
  split
  · split <;> simp_all
  · simp_all

/-- Every other word is BAD (30_encoding.md R123). -/
theorem decode_eq_bad {c : Word} :
    decode c = .bad c ↔ (splitCommand c).rsvZero = false ∨ instrOfOpcode (splitCommand c).opcode = .none := by
  unfold decode
  split
  · split <;> simp_all
  · simp_all

/-- BAD carries the word itself. -/
theorem decode_bad_eq {c d : Word} (h : decode c = .bad d) : d = c := by
  unfold decode at h
  split at h
  · split at h
    · cases h
    · exact (Decoded.bad.inj h).symm
  · exact (Decoded.bad.inj h).symm

/-- Decoding the word of a command gives the command back (30_encoding.md R120, R122). -/
theorem decode_encode (i : Instr) : decode (encode i) = .command i := by
  rw [decode_eq_command, encode, splitCommand_joinCommand]
  exact ⟨rfl, instrOfOpcode_opcodeOf i⟩

/-! ## The Engine's turn on a latched word -/

namespace Machine

theorem engineTurn_command {s : State} {c : Word} {i : Instr} (hlatch : s.cmdLatch = some c)
    (hc : decode c = .command i) : engineTurn s = exec i s := by
  simp only [engineTurn, hlatch, hc]

/-- An illegal word completes with BAD_COMMAND (40_command_interface.md R157). -/
theorem engineTurn_bad {s : State} {c : Word} (hlatch : s.cmdLatch = some c) (hc : decode c = .bad c) :
    engineTurn s = .next (s.raise { kind := .badCommand, info := c, pos := 0 }) := by
  simp only [engineTurn, hlatch, hc, execIllegal]

end Machine

end Sys2Proof

open Sys2Proof Sys2Proof.Machine Sys2Proof.Claims

/-- Settles O1: the words are literals, and the decoder runs on each. -/
theorem commandWordsDecode : Obligations.CommandWordsDecode := by
  unfold Obligations.CommandWordsDecode
  decide

/-- Settles O2: the fields of the word are those that were joined, and the opcode map has an inverse. -/
theorem decodeEncodeRoundTrip : Obligations.DecodeEncodeRoundTrip := by
  unfold Obligations.DecodeEncodeRoundTrip
  exact fun i _ => decode_encode i

/-- Settles O3: RSV and OPCODE are the word's quotient and remainder by 256; the opcode map has an inverse, and its
reserved opcodes are the two ranges. -/
theorem decodeIsTotalAndExact : Obligations.DecodeIsTotalAndExact := by
  unfold Obligations.DecodeIsTotalAndExact
  refine ⟨fun c i => ?_, fun c => ?_, fun s c hlatch hbad => ?_⟩
  · rw [decode_eq_command, splitCommand_rsvZero, instrOfOpcode_eq_some, ← BitVec.toNat_inj, splitCommand_opcode_toNat]
  · rw [decode_eq_bad, ← Bool.not_eq_true, splitCommand_rsvZero, instrOfOpcode_eq_none, splitCommand_opcode_toNat]
  · rw [engineTurn_bad hlatch hbad]
    exact ⟨_, rfl, rfl, rfl, rfl⟩
end

section
/-! SUPPORT. Under the invariant and with its operands written no command stops: each reading loop over written elements
answers, and so does every walk inside the forest (40_command_interface.md R159). -/

namespace Sys2Proof.Machine

/-! ## Loops over written operands -/

theorem Buf.slice_of_specified {α : Type} {b : Buf α} {n : Nat} (h : Buf.specified b n) :
    ∃ vs : List α, Buf.slice b 0 n = vs.map some := by
  obtain ⟨vs, hn, hvs⟩ := Buf.specified_iff.1 h
  exact ⟨vs, Buf.slice_of_holds hn hvs⟩

theorem tally_not_fault {nSym i : Nat} {t : Table} {ts : List Word} {f : Fault} :
    tally nSym i t (ts.map some) ≠ .fault f := by
  induction ts generalizing i t with
  | nil => simp [tally]
  | cons x ts ih =>
    simp only [List.map_cons, tally]
    split
    · exact ih
    · split
      · simp
      · exact ih

theorem checkDistinct_not_fault {j : Nat} {seen xs : List Word} {f : Fault} :
    checkDistinct j seen (xs.map some) ≠ .fault f := by
  induction xs generalizing j seen with
  | nil => simp [checkDistinct]
  | cons x xs ih =>
    simp only [List.map_cons, checkDistinct]
    split
    · simp
    · exact ih

theorem checkDigits_not_fault {j : Nat} {ws : List Word} {f : Fault} : checkDigits j (ws.map some) ≠ .fault f := by
  induction ws generalizing j with
  | nil => simp [checkDigits]
  | cons w ws ih =>
    simp only [List.map_cons, checkDigits]
    split
    · rw [Ne, Res.map_fault]
      exact ih
    · split
      · rw [Ne, Res.map_fault]
        exact ih
      · simp

theorem State.checkedTable_not_fault {s : State} {f : Fault} (hsyms : Buf.specified s.mem.freqSym s.nsym.toNat)
    (hcounts : Buf.specified s.mem.freqCount s.nsym.toNat) : s.checkedTable ≠ .fault f := by
  obtain ⟨xs, hxs⟩ := Buf.slice_of_specified hsyms
  obtain ⟨cs, hcs⟩ := Buf.slice_of_specified hcounts
  rw [State.checkedTable, State.tableSyms, State.tableCounts, hxs, readAll_ok.2 hcs]
  split
  · simp only
    split <;> simp
  · simp
  · exact absurd ‹_› checkDistinct_not_fault

theorem State.checkPath_not_fault {s : State} {allowEmpty : Bool} {f : Fault} (h : OperandsWritten s .tgetp) :
    s.checkPath allowEmpty ≠ .fault f := by
  unfold State.checkPath
  split
  · simp
  · split
    · simp
    · rename_i hcap _
      obtain ⟨ws, hws⟩ := Buf.slice_of_specified (h (Nat.not_lt.1 hcap))
      rw [State.pathOperand, hws]
      exact checkDigits_not_fault

/-- On a built tree the decoding loop answers for every bit sequence (45_decode.md R300). -/
theorem Built.decode_not_fault {T : Built} {arena : Buf Node} {root : Word} {bits : List Bool} {f : Fault}
    (hT : T.heldAt arena root) : decodeBits arena root root 0 0 (bits.map some) ≠ .fault f := by
  cases T with
  | single w x =>
    obtain ⟨-, hok⟩ | ⟨k, rest, -, herr⟩ := decode_single hT 0 bits
    · simp [hok]
    · have := herr []
      rw [List.append_nil] at this
      simp [this]
  | forked w l r =>
    obtain ⟨ts, hok, -⟩ | ⟨info, pos, herr⟩ | ⟨hnone, -⟩ :=
      HTree.decode_total hT hT ⟨w, l, r, rfl⟩ 0 0 (bits.map some)
    · simp [hok]
    · simp [herr]
    · simp at hnone

/-! ## Walks inside the forest -/

section
variable {arena : Buf Node} {nn : Nat} {root k : Word} (h : ArenaOk arena nn root)
include h

theorem ArenaOk.loadNode_ok (hk : k.toNat < nn) : ∃ n, loadNode arena k = .ok n := by
  obtain ⟨n, hn⟩ := Option.isSome_iff_exists.1 (h.specified _ hk)
  exact ⟨n, loadNode_of_load hn⟩

theorem ArenaOk.child_lt (hk : k.toNat < nn) {n : Node} (hn : loadNode arena k = .ok n) {d : Bool} {c : Word}
    (hc : n.child d = some c) : c.toNat < nn :=
  (h.links _ d c hk ⟨n, Machine.loadNode_ok.1 hn, hc⟩).1

theorem ArenaOk.nodeAt_not_fault {j : Nat} {ds : List Bool} {f : Fault} (hk : k.toNat < nn) :
    nodeAt arena k j ds ≠ .fault f := by
  induction ds generalizing k j with
  | nil => simp [nodeAt]
  | cons d ds ih =>
    obtain ⟨n, hn⟩ := h.loadNode_ok hk
    cases hc : n.child d with
    | none => simp [nodeAt, hn, hc]
    | some c =>
      simp only [nodeAt, hn, hc]
      exact ih (h.child_lt hk hn hc)

theorem ArenaOk.missingNodes_ok {ds : List Bool} (hk : k.toNat < nn) : ∃ m, missingNodes arena k ds = .ok m := by
  induction ds generalizing k with
  | nil => exact ⟨0, rfl⟩
  | cons d ds ih =>
    obtain ⟨n, hn⟩ := h.loadNode_ok hk
    cases hc : n.child d with
    | none => exact ⟨ds.length + 1, by simp [missingNodes, hn, hc]⟩
    | some c =>
      simp only [missingNodes, hn, hc]
      exact ih (h.child_lt hk hn hc)

theorem ArenaOk.rootChildPayload_ok {d : Bool} (hk : k.toNat < nn) : ∃ p, rootChildPayload arena k d = .ok p := by
  obtain ⟨n, hn⟩ := h.loadNode_ok hk
  cases hc : n.child d with
  | none => exact ⟨Payload.none, by simp [rootChildPayload, hn, hc]⟩
  | some c =>
    obtain ⟨m, hm⟩ := h.loadNode_ok (h.child_lt hk hn hc)
    exact ⟨m.payload, by simp [rootChildPayload, hn, hc, hm]⟩

end

theorem payloadAt_not_fault {s : State} (h : s.Inv) (hne : s.nnodes ≠ 0) {ds : List Bool} {f : Fault} :
    payloadAt s ds ≠ .fault f := by
  have hroot := h.rootFits hne
  unfold payloadAt
  split
  · obtain ⟨n, hn⟩ := h.arena.loadNode_ok (h.arena.path hroot (nodeAt_ok.1 ‹_›))
    simp [hn]
  · simp
  · exact absurd ‹_› (h.arena.nodeAt_not_fault hroot)

/-- TSETP's writes answer once the nodes to create fit (41_tree.md R188). -/
theorem writeAtPath_answers {s : State} (h : s.Inv) (hne : s.nnodes ≠ 0) {ds : List Bool} {m : Nat}
    (hm : missingNodes s.mem.node s.root ds = .ok m) (hfit : s.nnodes.toNat + m ≤ s.cfg.nodeCap) :
    ∃ r, writeAtPath s ds = .ok r := by
  have hb := Config.bounds h.config
  have hcap : s.cfg.nodeCap = 2 * s.cfg.nSym := rfl
  have hroot := h.rootFits hne
  obtain ⟨arena, e, nn, hd, -, hA, he, -⟩ := descendCreate_keeps h.arena hroot hroot hm (by omega) h.nodes
  obtain ⟨n, hn⟩ := hA.loadNode_ok he
  simp only [writeAtPath, hd, setPayload, hn, Res.map_ok_eq]
  exact ⟨_, rfl⟩

/-! ## The commands -/

theorem execFreq_completes {s : State} (h : OperandsWritten s .freq) : ∃ t, execFreq s = .next t := by
  unfold execFreq
  split
  · exact ⟨_, rfl⟩
  · obtain ⟨ts, hts⟩ := Buf.slice_of_specified (h (Nat.not_lt.1 ‹_›))
    rw [State.textOperand, hts]
    split
    · exact ⟨_, rfl⟩
    · exact ⟨_, rfl⟩
    · exact absurd ‹_› tally_not_fault

theorem execBuild_completes {s : State} (h : OperandsWritten s .build) : ∃ t, execBuild s = .next t := by
  unfold execBuild
  split
  · exact ⟨_, rfl⟩
  · obtain ⟨ts, hts⟩ := Buf.slice_of_specified (h (Nat.not_lt.1 ‹_›))
    rw [State.textOperand, hts]
    split
    · exact ⟨_, rfl⟩
    · split
      · exact ⟨_, rfl⟩
      · exact ⟨_, rfl⟩
      · exact absurd ‹_› tally_not_fault

theorem execBuildf_completes {s : State} (h : OperandsWritten s .buildf) : ∃ t, execBuildf s = .next t := by
  unfold execBuildf
  split
  · exact ⟨_, rfl⟩
  · split
    · exact ⟨_, rfl⟩
    · obtain ⟨hsyms, hcounts⟩ := h (Nat.not_lt.1 ‹_›)
      split
      · exact ⟨_, rfl⟩
      · exact ⟨_, rfl⟩
      · exact absurd ‹_› (State.checkedTable_not_fault hsyms hcounts)

theorem execCodemap_completes {s : State} (h : s.Inv) : ∃ t, execCodemap s = .next t := by
  unfold execCodemap
  split
  · exact ⟨_, rfl⟩
  · obtain ⟨T, hT⟩ := h.built (Bool.not_eq_false _ ▸ ‹_›)
    rw [h.deriveMap hT]
    exact ⟨_, rfl⟩

/-- Over a written text and a built tree's code map, ENCODE's loop answers. -/
theorem encodeWithMap_completes {s : State} {T : Built} (hT : s.holdsBuilt T) (hmap : s.mapOk = true)
    (htext : Buf.specified s.mem.text s.textLen.toNat) : ∃ t, encodeWithMap s = .next t := by
  obtain ⟨-, -, -, hmapped⟩ := hT
  obtain ⟨ts, hts⟩ := Buf.slice_of_specified htext
  rw [encodeWithMap, hmapped hmap, State.textOperand, hts]
  obtain ⟨bits, hok, -⟩ | herr | ⟨x, pos, herr⟩ :=
    encodeText_total (nBits := s.cfg.nBits) (cap := s.cfg.codeCap) (i := 0) (c := 0) (m := T.codes) (ts := ts)
  · exact ⟨_, by rw [hok]⟩
  · exact ⟨_, by rw [herr]⟩
  · exact ⟨_, by rw [herr]⟩

theorem execEncode_completes {s : State} (h : s.Inv) (hop : OperandsWritten s .encode) : ∃ t, execEncode s = .next t := by
  unfold execEncode
  split
  · exact ⟨_, rfl⟩
  · rename_i htree
    rw [Bool.not_eq_false] at htree
    obtain ⟨T, hT⟩ := h.built htree
    split
    · exact ⟨_, rfl⟩
    · have htext := hop (Nat.not_lt.1 ‹_›)
      split
      · exact encodeWithMap_completes hT ‹_› htext
      · obtain ⟨-, hT'⟩ := h.storeMap htree hT
        rw [h.deriveMap hT]
        exact encodeWithMap_completes hT' rfl htext

theorem execPack_completes {s : State} (h : OperandsWritten s .pack) : ∃ t, execPack s = .next t := by
  unfold execPack
  split
  · exact ⟨_, rfl⟩
  · obtain ⟨bits, hbits⟩ := Buf.slice_of_specified (h (Nat.not_lt.1 ‹_›))
    rw [State.bitOperand, readAll_ok.2 hbits]
    exact ⟨_, rfl⟩

theorem execUnpack_completes {s : State} (h : OperandsWritten s .unpack) : ∃ t, execUnpack s = .next t := by
  unfold execUnpack
  split
  · exact ⟨_, rfl⟩
  · obtain ⟨bytes, hbytes⟩ := Buf.slice_of_specified (h (Nat.not_lt.1 ‹_›))
    rw [State.packedOperand, readAll_ok.2 hbytes]
    exact ⟨_, rfl⟩

theorem execDecode_completes {s : State} (h : s.Inv) (hop : OperandsWritten s .decode) : ∃ t, execDecode s = .next t := by
  unfold execDecode
  split
  · exact ⟨_, rfl⟩
  · obtain ⟨T, -, hheld, -, -⟩ := h.built (Bool.not_eq_false _ ▸ ‹_›)
    split
    · exact ⟨_, rfl⟩
    · obtain ⟨bits, hbits⟩ := Buf.slice_of_specified (hop (Nat.not_lt.1 ‹_›))
      rw [State.bitOperand, hbits]
      split
      · exact ⟨_, rfl⟩
      · exact ⟨_, rfl⟩
      · exact absurd ‹_› (Built.decode_not_fault hheld)

theorem setRootChild_completes {s : State} (h : s.Inv) (d : Bool) : ∃ t, setRootChild d s = .next t := by
  unfold setRootChild
  split
  · exact ⟨_, rfl⟩
  · split
    · exact ⟨_, rfl⟩
    · have hroot := h.rootFits ‹_›
      obtain ⟨n, hn⟩ := h.arena.loadNode_ok hroot
      rw [(allocLinked_ok (by rintro e; rw [e] at hroot; omega)).2 ⟨n, loadNode_ok.1 hn, rfl⟩]
      exact ⟨_, rfl⟩

theorem getRootChild_completes {s : State} (h : s.Inv) (d : Bool) : ∃ t, getRootChild d s = .next t := by
  unfold getRootChild
  split
  · exact ⟨_, rfl⟩
  · obtain ⟨p, hp⟩ := h.arena.rootChildPayload_ok (d := d) (h.rootFits ‹_›)
    rw [hp]
    exact ⟨_, rfl⟩

theorem execTsetp_completes {s : State} (h : s.Inv) (hop : OperandsWritten s .tsetp) : ∃ t, execTsetp s = .next t := by
  unfold execTsetp
  split
  · exact ⟨_, rfl⟩
  · rename_i hne
    split
    · rename_i ds _
      obtain ⟨m, hm⟩ := h.arena.missingNodes_ok (ds := ds) (h.rootFits hne)
      rw [hm]
      simp only
      split
      · exact ⟨_, rfl⟩
      · obtain ⟨⟨arena, nn⟩, hw⟩ := writeAtPath_answers h hne hm (Nat.not_lt.1 ‹_›)
        rw [hw]
        exact ⟨_, rfl⟩
    · exact ⟨_, rfl⟩
    · exact absurd ‹_› (State.checkPath_not_fault hop)

theorem execTgetp_completes {s : State} (h : s.Inv) (hop : OperandsWritten s .tgetp) : ∃ t, execTgetp s = .next t := by
  unfold execTgetp
  split
  · exact ⟨_, rfl⟩
  · rename_i hne
    split
    · rename_i ds _
      cases hp : payloadAt s ds with
      | ok p => exact ⟨_, rfl⟩
      | err e => exact ⟨_, rfl⟩
      | fault f => exact absurd hp (payloadAt_not_fault h hne)
    · exact ⟨_, rfl⟩
    · exact absurd ‹_› (State.checkPath_not_fault hop)

/-- Under the invariant a command whose operands are written completes (40_command_interface.md R159). -/
theorem State.Inv.exec_completes {s : State} (h : s.Inv) {i : Instr} (hop : OperandsWritten s i) :
    ∃ t, Machine.exec i s = .next t := by
  cases i with
  | nop => exact ⟨_, rfl⟩
  | freq => exact execFreq_completes hop
  | buildf => exact execBuildf_completes hop
  | build => exact execBuild_completes hop
  | codemap => exact execCodemap_completes h
  | encode => exact execEncode_completes h hop
  | pack => exact execPack_completes hop
  | unpack => exact execUnpack_completes hop
  | decode => exact execDecode_completes h hop
  | tnew => exact ⟨_, rfl⟩
  | tsetl => exact setRootChild_completes h false
  | tsetr => exact setRootChild_completes h true
  | tgetl => exact getRootChild_completes h false
  | tgetr => exact getRootChild_completes h true
  | tsetp => exact execTsetp_completes h hop
  | tgetp => exact execTgetp_completes h hop

end Sys2Proof.Machine
end

section
/-! SUPPORT. POLL: what a completion leaves to the loop, and the loop itself (30_encoding.md R132). -/

namespace Sys2Proof.Machine

/-! ## What POLL needs of a completion -/

/-- From `s` the command in flight has completed: CMDLATCH is empty and DONE is set (40_command_interface.md R152), and
the Host's coming events are those of `s`. -/
structure Completed (s t : State) : Prop where
  cmdLatch : t.cmdLatch = .none
  done : t.done = true
  inbox : t.inbox = s.inbox

theorem encodeWithMap_completed {s t : State} (h : encodeWithMap s = .next t) : Completed s t := by
  obtain ⟨bits, -, -, rfl⟩ | ⟨e, -, -, rfl⟩ := encodeWithMap_next h
  · exact ⟨rfl, rfl, rfl⟩
  · exact ⟨rfl, rfl, rfl⟩

theorem setRootChild_completed {d : Bool} {s t : State} (h : setRootChild d s = .next t) : Completed s t := by
  obtain ⟨-, rfl⟩ | ⟨-, -, rfl⟩ | ⟨arena, -, -, -, rfl⟩ := setRootChild_next h
  all_goals exact ⟨rfl, rfl, rfl⟩

theorem getRootChild_completed {d : Bool} {s t : State} (h : getRootChild d s = .next t) : Completed s t := by
  obtain ⟨-, rfl⟩ | ⟨p, -, -, rfl⟩ := getRootChild_next h
  all_goals exact ⟨rfl, rfl, rfl⟩

/-- Every outcome of every command is a completion (40_command_interface.md R152). -/
theorem exec_completed {i : Instr} {s t : State} (h : exec i s = .next t) : Completed s t := by
  cases i with
  | nop => obtain rfl := execNop_next h; exact ⟨rfl, rfl, rfl⟩
  | freq =>
    obtain ⟨-, rfl⟩ | ⟨-, f, -, rfl⟩ | ⟨-, j, -, rfl⟩ := execFreq_next h
    all_goals exact ⟨rfl, rfl, rfl⟩
  | buildf =>
    obtain ⟨e, rfl⟩ | ⟨f, -, -, -, rfl⟩ := execBuildf_next h
    all_goals exact ⟨rfl, rfl, rfl⟩
  | build =>
    obtain ⟨-, rfl⟩ | ⟨-, rfl⟩ | ⟨-, -, f, -, rfl⟩ | ⟨-, -, j, -, rfl⟩ := execBuild_next h
    all_goals exact ⟨rfl, rfl, rfl⟩
  | codemap =>
    obtain ⟨-, rfl⟩ | ⟨m, -, hm, rfl⟩ := execCodemap_next h
    · exact ⟨rfl, rfl, rfl⟩
    · obtain ⟨c, -, -, rfl⟩ := deriveMap_ok.1 hm
      exact ⟨rfl, rfl, rfl⟩
  | encode =>
    obtain ⟨-, rfl⟩ | ⟨-, -, rfl⟩ | ⟨-, -, m, hm, hnext⟩ := execEncode_next h
    · exact ⟨rfl, rfl, rfl⟩
    · exact ⟨rfl, rfl, rfl⟩
    · obtain ⟨hlatch, hdone, hinbox⟩ := encodeWithMap_completed hnext
      split at hm
      · subst hm
        exact ⟨hlatch, hdone, hinbox⟩
      · obtain ⟨c, -, -, rfl⟩ := deriveMap_ok.1 hm
        exact ⟨hlatch, hdone, hinbox⟩
  | pack =>
    obtain ⟨-, rfl⟩ | ⟨bits, -, -, rfl⟩ := execPack_next h
    all_goals exact ⟨rfl, rfl, rfl⟩
  | unpack =>
    obtain ⟨-, rfl⟩ | ⟨bytes, -, -, rfl⟩ := execUnpack_next h
    all_goals exact ⟨rfl, rfl, rfl⟩
  | decode =>
    obtain ⟨-, rfl⟩ | ⟨-, -, rfl⟩ | ⟨-, -, text, -, -, rfl⟩ | ⟨-, -, e, -, -, rfl⟩ := execDecode_next h
    all_goals exact ⟨rfl, rfl, rfl⟩
  | tnew => obtain rfl := execTnew_next h; exact ⟨rfl, rfl, rfl⟩
  | tsetl => exact setRootChild_completed h
  | tsetr => exact setRootChild_completed h
  | tgetl => exact getRootChild_completed h
  | tgetr => exact getRootChild_completed h
  | tsetp =>
    obtain ⟨e, rfl⟩ | ⟨ds, m, arena, nn, -, -, -, -, -, rfl⟩ := execTsetp_next h
    all_goals exact ⟨rfl, rfl, rfl⟩
  | tgetp =>
    obtain ⟨e, rfl⟩ | ⟨ds, p, -, -, -, rfl⟩ := execTgetp_next h
    all_goals exact ⟨rfl, rfl, rfl⟩

/-- The Engine's turn completes the latched word: a command with its operands written, or an illegal word. -/
theorem State.Inv.engineTurn_completes {s : State} (h : s.Inv) {c : Word} (hlatch : s.cmdLatch = some c)
    (hop : ∀ i, decode c = .command i → OperandsWritten s i) : ∃ t, Machine.engineTurn s = .next t ∧ Completed s t := by
  cases hc : decode c with
  | command i =>
    obtain ⟨t, ht⟩ := h.exec_completes (hop i hc)
    exact ⟨t, (engineTurn_command hlatch hc).trans ht, exec_completed ht⟩
  | bad d =>
    obtain rfl := decode_bad_eq hc
    exact ⟨_, engineTurn_bad hlatch hc, rfl, rfl, rfl⟩

/-! ## The loop -/

/-- The operands of a command are no matter of the Host's coming events and the bus answer. -/
theorem OperandsWritten.setInbox_resp {s : State} {i : Instr} (h : OperandsWritten s i) (events : List HostEvent)
    (answer : Option BusAnswer) : OperandsWritten { s with inbox := events, resp := answer } i := by
  cases i <;> exact h

theorem State.busRead_status (s : State) :
    s.busRead statusOffset 4 = { s with resp := some { response := .okay, rdata := s.statusWord } } :=
  s.busRead_reg .status fun _ => rfl

theorem step_poll {s : State} {k : Nat} {rest : List HostEvent} (hinbox : s.inbox = .poll k :: rest) :
    step s = pollTurn { s with inbox := rest } k := by
  simp only [step, hinbox, eventTurn]

/-- POLL ends with its read of STATUS as soon as BUSY = 0. -/
theorem step_poll_idle {s : State} {k : Nat} {rest : List HostEvent} (hinbox : s.inbox = .poll k :: rest)
    (hidle : s.busy = false) :
    step s = .next { s with inbox := rest, resp := some { response := .okay, rdata := s.statusWord } } := by
  have hidle' : ¬ ({ s with inbox := rest } : State).busy = true := Bool.eq_false_iff.1 hidle
  exact ((step_poll hinbox).trans (if_neg hidle')).trans (congrArg Host.Outcome.next (State.busRead_status _))

/-- With its reads used up POLL leaves the step to the Engine, and is still the next event. -/
theorem step_poll_zero {s : State} {rest : List HostEvent} (hinbox : s.inbox = .poll 0 :: rest) (hbusy : s.busy = true) :
    step s = engineTurn s := by
  have hturn : step s = engineTurn { s with inbox := .poll 0 :: rest } := (step_poll hinbox).trans (if_pos hbusy)
  rwa [← hinbox] at hturn

/-- While BUSY = 1 POLL reads STATUS and goes on with one read less. -/
theorem step_poll_succ {s : State} {k : Nat} {rest : List HostEvent} (hinbox : s.inbox = .poll (k + 1) :: rest)
    (hbusy : s.busy = true) :
    step s = .next { s with inbox := .poll k :: rest, resp := some { response := .okay, rdata := s.statusWord } } :=
  ((step_poll hinbox).trans (if_pos hbusy)).trans (congrArg Host.Outcome.next (State.busRead_status _))

theorem run_next {s t : State} (h : step s = .next t) (n : Nat) :
    Host.Core.run Sys2Proof.core (n + 1) s = Host.Core.run Sys2Proof.core n t := by
  have h' : Sys2Proof.core.step s = .next t := h
  simp only [Host.Core.run, h']

/-- While BUSY = 1 a POLL of latency `k` spends `k` reads of STATUS, which change the bus answer only. -/
theorem run_poll_busy (n : Nat) {s : State} {k : Nat} {rest : List HostEvent} (hinbox : s.inbox = .poll k :: rest)
    (hbusy : s.busy = true) :
    ∃ answer, Host.Core.run Sys2Proof.core (k + n) s =
      Host.Core.run Sys2Proof.core n { s with inbox := .poll 0 :: rest, resp := answer } := by
  induction k generalizing s with
  | zero => exact ⟨s.resp, by rw [Nat.zero_add, ← hinbox]⟩
  | succ k ih =>
    rw [Nat.succ_add, run_next (step_poll_succ hinbox hbusy)]
    exact ih rfl hbusy

/-- Its reads used up, POLL ends in two steps: the Engine's turn, and the read of STATUS that finds BUSY = 0. -/
theorem State.Inv.run_poll_zero {s : State} (h : s.Inv) {rest : List HostEvent} (hinbox : s.inbox = .poll 0 :: rest)
    {c : Word} (hlatch : s.cmdLatch = some c) (hop : ∀ i, decode c = .command i → OperandsWritten s i) :
    ∃ t, Host.Core.run Sys2Proof.core 2 s = .next t ∧
      t.inbox = rest ∧ t.busy = false ∧ t.done = true ∧ t.resp = some { response := .okay, rdata := t.statusWord } := by
  have hbusy : s.busy = true := by rw [State.busy, hlatch]; rfl
  obtain ⟨u, hturn, hempty, hdone, hu⟩ := h.engineTurn_completes hlatch hop
  have hidle : u.busy = false := by rw [State.busy, hempty]; rfl
  rw [run_next ((step_poll_zero hinbox hbusy).trans hturn), run_next (step_poll_idle (hu.trans hinbox) hidle)]
  exact ⟨_, rfl, rfl, hidle, hdone, rfl⟩

end Sys2Proof.Machine

open Sys2Proof Sys2Proof.Machine Sys2Proof.Claims

/-- Settles O6: `k` reads while BUSY = 1, the Engine's turn, which completes the command, and the read that finds
BUSY = 0. -/
theorem pollEndsWithCommandComplete : Obligations.PollEndsWithCommandComplete := by
  unfold Obligations.PollEndsWithCommandComplete
  intro s k rest c hinv hinbox hlatch hop
  have hbusy : s.busy = true := by rw [State.busy, hlatch]; rfl
  obtain ⟨answer, hrun⟩ := run_poll_busy 2 hinbox hbusy
  have hinv' : ({ s with inbox := .poll 0 :: rest, resp := answer } : State).Inv :=
    (hinv.setInbox (.poll 0 :: rest)).answer answer s.draws
  rw [hrun]
  exact hinv'.run_poll_zero rfl hlatch fun i hi => (hop i hi).setInbox_resp _ _
end

section
/-! SUPPORT. The command interface: what every completion leaves, whose turn a step is, and the Host port while BUSY = 1. -/

namespace Sys2Proof.Machine

open Sys2Proof.Claims

/-! ## What no command writes -/

/-- The part of a state that the Host alone writes or that stands outside the block (10_state.md R34, R40, R44, R52, R53,
R55, R59). -/
structure HostSide where
  cfg       : Config
  irqEn     : Bool
  ovr       : Bool
  textLen   : Word
  pathLen   : Word
  payFlags  : BitVec 2
  payWeight : Word
  paySym    : Word
  text      : Buf Word
  path      : Buf Word
  inbox     : List HostEvent
  resp      : Option BusAnswer
  draws     : Nat

/-- The Host's side of a state. -/
def State.hostSide (s : State) : HostSide :=
  { cfg := s.cfg, irqEn := s.irqEn, ovr := s.ovr, textLen := s.textLen, pathLen := s.pathLen
    payFlags := s.payFlags, payWeight := s.payWeight, paySym := s.paySym
    text := s.mem.text, path := s.mem.path, inbox := s.inbox, resp := s.resp, draws := s.draws }

/-- `t` is a completion, with success or with an error, of a state with the Host's side of `s`. -/
inductive CompletionOver (s : State) : State → Prop where
  | succeed {u : State} (h : u.hostSide = s.hostSide) : CompletionOver s u.succeed
  | raise {u : State} {e : Err} (h : u.hostSide = s.hostSide) : CompletionOver s (u.raise e)

theorem CompletionOver.of_hostSide {s m t : State} (h : CompletionOver m t) (hm : m.hostSide = s.hostSide) :
    CompletionOver s t := by
  cases h with
  | succeed hu => exact .succeed (hu.trans hm)
  | raise hu => exact .raise (hu.trans hm)

theorem CompletionOver.hostSide {s t : State} (h : CompletionOver s t) : t.hostSide = s.hostSide := by
  cases h with
  | succeed hu => exact hu
  | raise hu => exact hu

/-- The completion writes: CMDLATCH is empty, DONE is set, and the error registers hold a legal code, or 0 throughout
(40_command_interface.md R152, 60_exceptions.md R321). -/
theorem CompletionOver.writes {s t : State} (h : CompletionOver s t) :
    t.cmdLatch = .none ∧ t.done = true ∧ t.errCode.toNat ≤ 0x0C ∧ (t.errCode = 0 → t.errInfo = 0 ∧ t.errPos = 0) := by
  cases h with
  | succeed => exact ⟨rfl, rfl, Nat.zero_le _, fun _ => ⟨rfl, rfl⟩⟩
  | raise => exact ⟨rfl, rfl, ErrorKind.code_le _, fun hzero => absurd hzero (ErrorKind.code_ne_zero _)⟩

theorem deriveMap_hostSide {s m : State} (h : deriveMap s = .ok m) : m.hostSide = s.hostSide := by
  obtain ⟨c, -, -, rfl⟩ := deriveMap_ok.1 h
  rfl

theorem encodeWithMap_completionOver {s t : State} (h : encodeWithMap s = .next t) : CompletionOver s t := by
  obtain ⟨bits, -, -, rfl⟩ | ⟨e, -, -, rfl⟩ := encodeWithMap_next h
  · exact .succeed rfl
  · exact .raise rfl

theorem setRootChild_completionOver {d : Bool} {s t : State} (h : setRootChild d s = .next t) : CompletionOver s t := by
  obtain ⟨-, rfl⟩ | ⟨-, -, rfl⟩ | ⟨arena, -, -, -, rfl⟩ := setRootChild_next h
  · exact .raise rfl
  · exact .raise rfl
  · exact .succeed rfl

theorem getRootChild_completionOver {d : Bool} {s t : State} (h : getRootChild d s = .next t) : CompletionOver s t := by
  obtain ⟨-, rfl⟩ | ⟨p, -, -, rfl⟩ := getRootChild_next h
  · exact .raise rfl
  · exact .succeed rfl

/-- Every outcome of every command is a completion over the Host's side it started from (40_command_interface.md R152). -/
theorem exec_completionOver {i : Instr} {s t : State} (h : exec i s = .next t) : CompletionOver s t := by
  cases i with
  | nop => obtain rfl := execNop_next h; exact .succeed rfl
  | freq =>
    obtain ⟨-, rfl⟩ | ⟨-, f, -, rfl⟩ | ⟨-, j, -, rfl⟩ := execFreq_next h
    · exact .raise rfl
    · exact .succeed rfl
    · exact .raise rfl
  | buildf =>
    obtain ⟨e, rfl⟩ | ⟨f, -, -, -, rfl⟩ := execBuildf_next h
    · exact .raise rfl
    · exact .succeed rfl
  | build =>
    obtain ⟨-, rfl⟩ | ⟨-, rfl⟩ | ⟨-, -, f, -, rfl⟩ | ⟨-, -, j, -, rfl⟩ := execBuild_next h
    · exact .raise rfl
    · exact .raise rfl
    · exact .succeed rfl
    · exact .raise rfl
  | codemap =>
    obtain ⟨-, rfl⟩ | ⟨m, -, hm, rfl⟩ := execCodemap_next h
    · exact .raise rfl
    · exact .succeed (deriveMap_hostSide hm)
  | encode =>
    obtain ⟨-, rfl⟩ | ⟨-, -, rfl⟩ | ⟨-, -, m, hm, hnext⟩ := execEncode_next h
    · exact .raise rfl
    · exact .raise rfl
    · refine (encodeWithMap_completionOver hnext).of_hostSide ?_
      split at hm
      · rw [hm]
      · exact deriveMap_hostSide hm
  | pack =>
    obtain ⟨-, rfl⟩ | ⟨bits, -, -, rfl⟩ := execPack_next h
    · exact .raise rfl
    · exact .succeed rfl
  | unpack =>
    obtain ⟨-, rfl⟩ | ⟨bytes, -, -, rfl⟩ := execUnpack_next h
    · exact .raise rfl
    · exact .succeed rfl
  | decode =>
    obtain ⟨-, rfl⟩ | ⟨-, -, rfl⟩ | ⟨-, -, text, -, -, rfl⟩ | ⟨-, -, e, -, -, rfl⟩ := execDecode_next h
    · exact .raise rfl
    · exact .raise rfl
    · exact .succeed rfl
    · exact .raise rfl
  | tnew => obtain rfl := execTnew_next h; exact .succeed rfl
  | tsetl => exact setRootChild_completionOver h
  | tsetr => exact setRootChild_completionOver h
  | tgetl => exact getRootChild_completionOver h
  | tgetr => exact getRootChild_completionOver h
  | tsetp =>
    obtain ⟨e, rfl⟩ | ⟨ds, m, arena, nn, -, -, -, -, -, rfl⟩ := execTsetp_next h
    · exact .raise rfl
    · exact .succeed rfl
  | tgetp =>
    obtain ⟨e, rfl⟩ | ⟨ds, p, -, -, -, rfl⟩ := execTgetp_next h
    · exact .raise rfl
    · exact .succeed rfl

/-! ## Whose turn a step is -/

/-- An illegal word's completion in the words of the statements. -/
theorem engineTurn_illegal {s : State} {c : Word} (hlatch : s.cmdLatch = some c) (hc : decode c = .bad c) :
    engineTurn s = .next (failed s 0x0C c 0) := engineTurn_bad hlatch hc

theorem engineTurn_idle {s : State} (h : s.cmdLatch = .none) : engineTurn s = .next s := by
  simp only [engineTurn, h]

theorem step_empty {s : State} (hinbox : s.inbox = []) : step s = engineTurn s := by
  simp only [step, hinbox]

theorem step_event {s : State} {e : HostEvent} {rest : List HostEvent} (hinbox : s.inbox = e :: rest) :
    step s = eventTurn { s with inbox := rest } e := by
  simp only [step, hinbox]

theorem step_engine {s : State} {rest : List HostEvent} (hinbox : s.inbox = .engine :: rest) :
    step s = engineTurn { s with inbox := rest } := step_event hinbox

theorem State.busy_of_latched {s : State} {c : Word} (h : s.cmdLatch = some c) : s.busy = true := by
  rw [State.busy, h]
  rfl

/-- A command word placed for the next step is latched as it is (log entry 7). -/
theorem State.withFetchWord_eq (s : State) (c : Word) :
    s.withFetchWord 32 c.toNat = { s with cmdLatch := some c, inbox := .engine :: s.inbox } := by
  have hword : BitVec.ofNat 32 (c.toNat % 2 ^ 32) = c := by rw [Nat.mod_eq_of_lt c.isLt, BitVec.ofNat_toNat, BitVec.setWidth_eq]
  rw [State.withFetchWord, State.latchCommand, hword]

/-! ## The Host port while BUSY = 1 -/

/-- In the register page the in-window offset is the whole offset (20_memory.md R81, R82). -/
theorem ofs_registerPage {off : Offset} (h : win off = Window.reg.index) : ofs off = off.toNat := by
  have hzero : off.toNat / 2 ^ 24 = 0 := h
  unfold ofs
  omega

/-- A word with a defined value while BUSY = 1 is one of the ten registers (40_command_interface.md R154). -/
theorem mem_readableOffsets {off : Offset} {w : Window} (hw : win off = w.index)
    (h : readableWhileBusy w (ofs off) = true) : off.toNat ∈ readableOffsets := by
  cases w with
  | reg =>
    rw [ofs_registerPage hw, readableWhileBusy] at h
    split at h
    · rename_i r hr
      rw [← Reg.ofOffset_eq_some.1 hr]
      exact r.readableWhileBusy_iff.1 h
    · cases h
  | _ => cases h

/-- A write that takes effect while BUSY = 1 is one to CTRL or STATUS (20_memory.md R91). -/
theorem ctrl_or_status_of_writable {off : Offset} {w : Window} (hw : win off = w.index)
    (h : writableWhileBusy w (ofs off) = true) : off.toNat = 0x020 ∨ off.toNat = 0x028 := by
  cases w with
  | reg =>
    rw [ofs_registerPage hw] at h
    exact of_decide_eq_true h
  | _ => cases h

theorem not_badAccess_register (c : Config) {off : Offset} {r : Reg} (h : off.toNat = r.offset) : ¬ BadAccess c off 4 := by
  obtain ⟨hw, ho⟩ := register_window h
  exact not_badAccess_of_window hw (ho ▸ r.offset_aligned) (ho ▸ r.offset_lt)

end Sys2Proof.Machine

open Sys2Proof Sys2Proof.Machine Sys2Proof.Claims

/-- Settles O4: the decoder answers BAD for such a word, and the Engine completes BAD with BAD_COMMAND. -/
theorem illegalWordCompletesWithBadCommand : Obligations.IllegalWordCompletesWithBadCommand := by
  unfold Obligations.IllegalWordCompletesWithBadCommand
  intro s c hlatch hillegal
  obtain ⟨-, hbad, -⟩ := decodeIsTotalAndExact
  exact engineTurn_illegal hlatch ((hbad c).2 hillegal)

/-- Settles O7: every outcome is a completion over a state with the Host's side it started from. -/
theorem completionWritesAndHostSideFrame : Obligations.CompletionWritesAndHostSideFrame := by
  unfold Obligations.CompletionWritesAndHostSideFrame
  intro i s t h
  have hcompletion := exec_completionOver h
  obtain ⟨hlatch, hdone, hcode, hzero⟩ := hcompletion.writes
  refine ⟨hlatch, by rw [State.busy, hlatch]; rfl, hdone, hcode, hzero, ?_⟩
  simpa only [State.hostSide, HostSide.mk.injEq] using hcompletion.hostSide

/-- Settles O8: each reading loop over written elements answers, and so does every walk inside the forest. -/
theorem everyCommandCompletes : Obligations.EveryCommandCompletes := by
  unfold Obligations.EveryCommandCompletes
  exact fun i s hinv hop => hinv.exec_completes hop

/-- Settles O52: a good read at such an offset finds no defined value, so every bit of its word is the draw's. -/
theorem readWhileBusyIsADraw : Obligations.ReadWhileBusyIsADraw := by
  unfold Obligations.ReadWhileBusyIsADraw
  intro s off hbusy hgood hout
  obtain ⟨-, w, hw⟩ := window_of_not_badAccess hgood
  have hhidden : readableWhileBusy w (ofs off) = false :=
    Bool.eq_false_iff.2 fun h => hout (mem_readableOffsets hw h)
  rw [State.busRead_good hgood hw, hbusy, hhidden]
  exact s.answerWord_draw

/-- Settles O53: a good write elsewhere than to CTRL and STATUS is not carried out, and a bad one only gets its answer. -/
theorem writeWhileBusyOnlySetsOvr : Obligations.WriteWhileBusyOnlySetsOvr := by
  unfold Obligations.WriteWhileBusyOnlySetsOvr
  refine ⟨fun s off v hbusy hgood hctrl hstatus => ?_, fun s off size v _ hbad => ?_⟩
  · obtain ⟨-, w, hw⟩ := window_of_not_badAccess hgood
    have hforbidden : writableWhileBusy w (ofs off) = false :=
      Bool.eq_false_iff.2 fun h => (ctrl_or_status_of_writable hw h).elim hctrl hstatus
    rw [State.busWrite_good hgood hw, hbusy, hforbidden]
    exact ⟨0, rfl⟩
  · rw [State.busWrite_bad hbad]
    exact ⟨rfl, rfl⟩

/-- Settles O5: the head of the inbox says whose turn the step is, and the Engine's turn runs the decoded word. -/
theorem stepRunsTheLatchedCommand : Obligations.StepRunsTheLatchedCommand := by
  unfold Obligations.StepRunsTheLatchedCommand
  refine ⟨fun s c i hlatch hc => ?command, fun s c hlatch hc => ?illegal, fun s hlatch => ?idle, fun s i => ?fetched,
    fun s rest => ?host⟩
  case command =>
    have hbusy := State.busy_of_latched hlatch
    exact ⟨fun hinbox => (step_empty hinbox).trans (engineTurn_command hlatch hc),
      fun rest hinbox => (step_engine hinbox).trans (engineTurn_command hlatch hc),
      fun rest hinbox => (step_poll_zero hinbox hbusy).trans (engineTurn_command hlatch hc)⟩
  case illegal =>
    have hbusy := State.busy_of_latched hlatch
    exact ⟨fun hinbox => (step_empty hinbox).trans (engineTurn_illegal hlatch hc),
      fun rest hinbox => (step_engine hinbox).trans (engineTurn_illegal hlatch hc),
      fun rest hinbox => (step_poll_zero hinbox hbusy).trans (engineTurn_illegal hlatch hc)⟩
  case idle =>
    exact ⟨fun hinbox => (step_empty hinbox).trans (engineTurn_idle hlatch),
      fun rest hinbox => (step_engine hinbox).trans (engineTurn_idle hlatch)⟩
  case fetched =>
    rw [State.withFetchWord_eq, step_engine rfl]
    exact engineTurn_command rfl (decode_encode i)
  case host =>
    refine ⟨fun off size hinbox => step_event hinbox, fun off size v hinbox => step_event hinbox,
      fun hinbox => step_event hinbox, fun k hinbox hidle => ?_, fun k hinbox hbusy => ?_⟩
    · rw [step_poll_idle hinbox hidle]
      exact congrArg Host.Outcome.next (State.busRead_status { s with inbox := rest }).symm
    · rw [step_poll_succ hinbox hbusy]
      exact congrArg Host.Outcome.next (State.busRead_status { s with inbox := .poll k :: rest }).symm

/-- Settles O9: success is the completion writes with no error. -/
theorem nopOnlyCompletes : Obligations.NopOnlyCompletes := by
  unfold Obligations.NopOnlyCompletes
  exact fun s => congrArg Host.Outcome.next s.succeed_eq

/-- Settles O54: CMD is a register, and its write while BUSY = 0 is the acceptance of the word. -/
theorem commandAcceptance : Obligations.CommandAcceptance := by
  unfold Obligations.CommandAcceptance
  intro s c hidle
  have hcmd : (0x024 : Offset).toNat = Reg.cmd.offset := rfl
  exact State.wrote_register hidle (not_badAccess_register s.cfg hcmd) c hcmd
end

section
/-! SUPPORT. Reading the tree: the child of ROOT, the path checks, and the walk of TGETP (41_tree.md R185 to R187, R189). -/

namespace Sys2Proof.Machine

open Sys2Proof.Claims

/-! ## The child of ROOT -/

/-- The two get commands of a child, by the child's digit. -/
theorem exec_getChild (d : Bool) (s : State) : exec (if d then .tgetr else .tgetl) s = getRootChild d s := by
  cases d <;> rfl

/-- An absent child is no error: the result is `NONE`. -/
theorem getRootChild_absent {s : State} {n : Node} {d : Bool} (hne : s.nnodes ≠ 0)
    (hn : Buf.load s.mem.node s.root.toNat = some n) (hc : n.child d = .none) :
    getRootChild d s = .next (succeeded { s with res := Payload.none }) := by
  rw [getRootChild, if_neg hne, rootChildPayload, loadNode_of_load hn]
  simp only [hc]
  rfl

theorem getRootChild_present {s : State} {n m : Node} {d : Bool} {c : Word} (hne : s.nnodes ≠ 0)
    (hn : Buf.load s.mem.node s.root.toNat = some n) (hc : n.child d = some c)
    (hm : Buf.load s.mem.node c.toNat = some m) :
    getRootChild d s = .next (succeeded { s with res := m.payload }) := by
  rw [getRootChild, if_neg hne, rootChildPayload, loadNode_of_load hn]
  simp only [hc, loadNode_of_load hm]
  rfl

/-! ## The path checks -/

theorem State.checkPath_overflow {s : State} (allowEmpty : Bool) (hcap : s.cfg.nPath < s.pathLen.toNat) :
    s.checkPath allowEmpty = .err (overflow .path 0) := if_pos hcap

theorem State.checkPath_empty {s : State} (h : s.pathLen = 0) :
    s.checkPath false = .err { kind := .emptyPath, info := 0, pos := 0 } := by
  have hcap : ¬ s.cfg.nPath < s.pathLen.toNat := by rw [h]; exact Nat.not_lt_zero _
  rw [State.checkPath, if_neg hcap, if_pos ⟨h, rfl⟩]

/-- Past the length checks only the digits count. -/
theorem State.checkPath_digits {s : State} {allowEmpty : Bool} (hcap : s.pathLen.toNat ≤ s.cfg.nPath)
    (hne : allowEmpty = true ∨ s.pathLen ≠ 0) : s.checkPath allowEmpty = checkDigits 0 s.pathOperand := by
  rw [State.checkPath, if_neg (Nat.not_lt.2 hcap), if_neg]
  rintro ⟨hlen, hallow⟩
  rw [hallow] at hne
  exact hne.elim Bool.false_ne_true (· hlen)

/-- The first word that is no digit, after the digits `ds`. -/
theorem State.checkPath_badDigit {s : State} {ds : List Bool} {w : Word} (allowEmpty : Bool)
    (hcap : s.pathLen.toNat ≤ s.cfg.nPath) (hlt : ds.length < s.pathLen.toNat)
    (hds : Buf.holds s.mem.path (digitWords ds)) (hw : Buf.load s.mem.path ds.length = some w) (h0 : w ≠ 0) (h1 : w ≠ 1) :
    s.checkPath allowEmpty = .err { kind := .invalidDigit, info := w, pos := BitVec.ofNat 32 ds.length } := by
  have hne : s.pathLen ≠ 0 := fun h => Nat.not_lt_zero ds.length (by rwa [h] at hlt)
  have hlen : (digitWords ds).length = ds.length := List.length_map _
  rw [State.checkPath_digits hcap (.inr hne), State.pathOperand, Buf.slice_of_holds_prefix hds (hlen ▸ hlt), hlen, hw,
    checkDigits_digitWords, checkDigits, if_neg h0, if_neg h1, Res.map_err_eq, Nat.zero_add]

/-- The path operand as digits: what every walk of TSETP and TGETP starts from. -/
theorem State.checkPath_ok {s : State} {allowEmpty : Bool} {ds : List Bool} : s.checkPath allowEmpty = .ok ds ↔
    s.pathLen.toNat ≤ s.cfg.nPath ∧ (allowEmpty = true ∨ s.pathLen ≠ 0) ∧
      Operand s.mem.path s.pathLen (digitWords ds) := by
  constructor
  · intro h
    by_cases hcap : s.pathLen.toNat ≤ s.cfg.nPath
    · by_cases hne : allowEmpty = true ∨ s.pathLen ≠ 0
      · rw [State.checkPath_digits hcap hne, checkDigits_ok] at h
        exact ⟨hcap, hne, Buf.holds_of_slice h⟩
      · rw [not_or, Bool.not_eq_true, not_not] at hne
        obtain ⟨rfl, hlen⟩ := hne
        rw [State.checkPath_empty hlen] at h
        cases h
    · rw [State.checkPath_overflow _ (Nat.not_le.1 hcap)] at h
      cases h
  · rintro ⟨hcap, hne, hlen, hds⟩
    rw [State.checkPath_digits hcap hne, checkDigits_ok]
    exact Buf.slice_of_holds hlen hds

theorem execTsetp_checkPath_err {s : State} {e : Err} (hne : s.nnodes ≠ 0) (h : s.checkPath false = .err e) :
    execTsetp s = .next (s.raise e) := by
  rw [execTsetp, if_neg hne, h]

theorem execTgetp_checkPath_err {s : State} {e : Err} (hne : s.nnodes ≠ 0) (h : s.checkPath true = .err e) :
    execTgetp s = .next ((s.setRes Payload.none).raise e) := by
  rw [execTgetp, if_neg hne, h]
  rfl

/-! ## The walk of TGETP -/

theorem payloadAt_of_path {s : State} {ds : List Bool} {k : Word} {n : Node} (hp : PathTo s.mem.node s.root ds k)
    (hn : Buf.load s.mem.node k.toNat = some n) : payloadAt s ds = .ok n.payload := by
  simp only [payloadAt, nodeAt_ok.2 hp, loadNode_of_load hn, Res.map_ok_eq]

theorem payloadAt_missing {s : State} {pre post : List Bool} {d : Bool} {k : Word} {n : Node}
    (hp : PathTo s.mem.node s.root pre k) (hn : Buf.load s.mem.node k.toNat = some n) (hd : n.child d = .none) :
    payloadAt s (pre ++ d :: post) =
      .err { kind := .outOfBounds, info := if d then 1 else 0, pos := BitVec.ofNat 32 pre.length } := by
  simp only [payloadAt, nodeAt_err hp hn hd, Nat.zero_add]

/-- TGETP once its checks have passed: it answers what the walk finds. -/
theorem execTgetp_walk {s : State} {ds : List Bool} (hne : s.nnodes ≠ 0) (h : s.checkPath true = .ok ds) :
    execTgetp s = s.answerGet (payloadAt s ds) := by
  rw [execTgetp, if_neg hne, h]

theorem execTgetp_path {s : State} {ds : List Bool} {k : Word} {n : Node} (hne : s.nnodes ≠ 0)
    (h : s.checkPath true = .ok ds) (hp : PathTo s.mem.node s.root ds k) (hn : Buf.load s.mem.node k.toNat = some n) :
    execTgetp s = .next (succeeded { s with res := n.payload }) := by
  rw [execTgetp_walk hne h, payloadAt_of_path hp hn]
  rfl

/-! ## What the get commands leave -/

theorem getRootChild_frame {d : Bool} {s t : State} (h : getRootChild d s = .next t) :
    t = failed { s with res := t.res } t.errCode t.errInfo t.errPos := by
  obtain ⟨-, rfl⟩ | ⟨p, -, -, rfl⟩ := getRootChild_next h
  · rfl
  · rfl

theorem execTgetp_frame {s t : State} (h : execTgetp s = .next t) :
    t = failed { s with res := t.res } t.errCode t.errInfo t.errPos := by
  obtain ⟨e, rfl⟩ | ⟨ds, p, -, -, -, rfl⟩ := execTgetp_next h
  · rfl
  · rfl

end Sys2Proof.Machine

open Sys2Proof Sys2Proof.Machine Sys2Proof.Claims

/-- Settles O15: a get command ends in its answer, which is a completion over another RES. -/
theorem frameOfGetCommands : Obligations.FrameOfGetCommands := by
  unfold Obligations.FrameOfGetCommands
  rintro i s t (rfl | rfl | rfl) h
  · exact getRootChild_frame (d := false) h
  · exact getRootChild_frame (d := true) h
  · exact execTgetp_frame h

/-- Settles O23: ROOT's child is absent or present. -/
theorem getChildReturnsPayload : Obligations.GetChildReturnsPayload := by
  unfold Obligations.GetChildReturnsPayload
  intro s n d hne hn
  rw [exec_getChild]
  refine ⟨fun habsent => getRootChild_absent hne hn ?_, fun m hpresent hm => getRootChild_present hne hn ?_ hm⟩
  · cases d <;> exact if_neg (Bool.eq_false_iff.1 habsent)
  · cases d <;> exact if_pos hpresent

/-- Settles O24: each check's error is that of the path operand, before any walk. -/
theorem pathChecksInOrder : Obligations.PathChecksInOrder := by
  unfold Obligations.PathChecksInOrder
  intro s hne
  refine ⟨fun hcap => ?overflow, fun hlen => ?empty, fun ds w hcap hlt hds hw h0 h1 => ?badDigit⟩
  case overflow =>
    exact ⟨execTsetp_checkPath_err hne (State.checkPath_overflow _ hcap),
      execTgetp_checkPath_err hne (State.checkPath_overflow _ hcap)⟩
  case empty => exact execTsetp_checkPath_err hne (State.checkPath_empty hlen)
  case badDigit =>
    exact ⟨execTsetp_checkPath_err hne (State.checkPath_badDigit _ hcap hlt hds hw h0 h1),
      execTgetp_checkPath_err hne (State.checkPath_badDigit _ hcap hlt hds hw h0 h1)⟩

/-- Settles O25: the checks pass, and the walk ends at the node of the path or at the first missing child. -/
theorem tgetpFollowsThePath : Obligations.TgetpFollowsThePath := by
  unfold Obligations.TgetpFollowsThePath
  intro s ds hne hcap hop
  have hcheck : s.checkPath true = .ok ds := State.checkPath_ok.2 ⟨hcap, .inl rfl, hop⟩
  refine ⟨fun k n hp hn => execTgetp_path hne hcheck hp hn, ?_⟩
  rintro pre d post k n rfl hp hn hd
  refine (execTgetp_walk hne hcheck).trans ?_
  rw [payloadAt_missing hp hn hd]
  rfl
end

section
/-! SUPPORT. Editing the tree: what TNEW, TSETL, TSETR and TSETP write, and what TGETL, TGETR and TGETP then read
(41_tree.md R181 to R184, R188, R191). -/

namespace Sys2Proof.Machine

open Sys2Proof.Claims

/-! ## Writes of the arena -/

/-- An index past NNODES does not wrap (42_construction.md R233). -/
theorem toNat_add_ofNat {k : Word} {n : Nat} (h : k.toNat + n < 2 ^ 32) :
    (k + BitVec.ofNat 32 n).toNat = k.toNat + n := by
  rw [BitVec.toNat_add, BitVec.toNat_ofNat, Nat.add_mod_mod, Nat.mod_eq_of_lt h]

/-- Allocating and linking writes the new entry and its parent, whatever the arena holds. -/
theorem allocLinked_load_ne {arena arena' : Buf Node} {nn parent : Word} {d : Bool} {p : Payload}
    (h : allocLinked arena nn parent d p = .ok arena') {k : Nat} (hk : k ≠ nn.toNat) (hk' : k ≠ parent.toNat) :
    Buf.load arena' k = Buf.load arena k := by
  unfold allocLinked at h
  obtain ⟨n, -, rfl⟩ := link_ok.1 h
  rw [Buf.load_store_ne _ _ hk', Buf.load_store_ne _ _ hk]

/-- TSETP's writes: the walk's, and the payload of the node it ends at. -/
theorem writeAtPath_ok {s : State} {ds : List Bool} {arena : Buf Node} {nn : Word} :
    writeAtPath s ds = .ok (arena, nn) ↔ ∃ arena' e n, descendCreate s.mem.node s.nnodes s.root ds = .ok (arena', nn, e) ∧
      Buf.load arena' e.toNat = some n ∧ arena = Buf.store arena' e.toNat { n with payload := s.pay } := by
  unfold writeAtPath
  cases hd : descendCreate s.mem.node s.nnodes s.root ds with
  | ok r =>
    obtain ⟨arena', nn', e⟩ := r
    simp only [setPayload, Res.map_ok, loadNode_ok, Res.ok.injEq, Prod.mk.injEq]
    constructor
    · rintro ⟨_, ⟨n, hn, rfl⟩, rfl, rfl⟩
      exact ⟨arena', e, n, ⟨rfl, rfl, rfl⟩, hn, rfl⟩
    · rintro ⟨_, _, n, ⟨rfl, rfl, rfl⟩, hn, rfl⟩
      exact ⟨_, ⟨n, hn, rfl⟩, rfl, rfl⟩
  | err e => exact absurd hd descendCreate_not_err
  | fault f => simp

/-! ## What an edit leaves unchanged -/

/-- `t` differs from `s` at most in the completion registers, the arena, NNODES, ROOT, TREE_OK, MAP_OK and CMAP_COUNT. -/
def EditsTreeOnly (s t : State) : Prop :=
  t = failed { s with mem := { s.mem with node := t.mem.node }, nnodes := t.nnodes, root := t.root, treeOk := t.treeOk
                      mapOk := t.mapOk, cmapCount := t.cmapCount } t.errCode t.errInfo t.errPos

theorem EditsTreeOnly.raise (s : State) (e : Err) : EditsTreeOnly s (s.raise e) := rfl

theorem EditsTreeOnly.edit (s : State) (arena : Buf Node) (nn : Word) :
    EditsTreeOnly s (s.storeArena arena nn).markEdited.succeed := rfl

theorem execTnew_frame {s t : State} (h : execTnew s = .next t) :
    EditsTreeOnly s t ∧ ∀ k, k ≠ 0 → Buf.load t.mem.node k = Buf.load s.mem.node k := by
  obtain rfl := execTnew_next h
  exact ⟨rfl, fun k hk => Buf.load_store_ne _ _ hk⟩

theorem setRootChild_frame {d : Bool} {s t : State} (h : setRootChild d s = .next t) :
    EditsTreeOnly s t ∧ t.root = s.root ∧
      ∀ k, k ≠ s.nnodes.toNat → k ≠ s.root.toNat → Buf.load t.mem.node k = Buf.load s.mem.node k := by
  obtain ⟨-, rfl⟩ | ⟨-, -, rfl⟩ | ⟨arena, -, -, harena, rfl⟩ := setRootChild_next h
  · exact ⟨.raise s _, rfl, fun _ _ _ => rfl⟩
  · exact ⟨.raise s _, rfl, fun _ _ _ => rfl⟩
  · exact ⟨.edit s _ _, rfl, fun k hk hk' => allocLinked_load_ne harena hk hk'⟩

theorem execTsetp_frame {s t : State} (h : execTsetp s = .next t) : EditsTreeOnly s t ∧ t.root = s.root := by
  obtain ⟨e, rfl⟩ | ⟨ds, m, arena, nn, -, -, -, -, -, rfl⟩ := execTsetp_next h
  · exact ⟨.raise s e, rfl⟩
  · exact ⟨.edit s _ _, rfl⟩

/-- TSETP writes the last node of the path that exists and the entries it allocates, whatever the arena holds. -/
theorem execTsetp_load_ne {s t : State} (h : execTsetp s = .next t) {ds : List Bool} {m : Nat} {a : Word}
    (hds : s.checkPath false = .ok ds) (hm : missingNodes s.mem.node s.root ds = .ok m)
    (ha : PathTo s.mem.node s.root (ds.take (ds.length - m)) a) (hcap : s.cfg.nodeCap < 2 ^ 32) {k : Nat}
    (hk : k ≠ a.toNat) (hnew : ¬ (s.nnodes.toNat ≤ k ∧ k < s.nnodes.toNat + m)) :
    Buf.load t.mem.node k = Buf.load s.mem.node k := by
  obtain ⟨e, rfl⟩ | ⟨ds', m', arena, nn, -, hds', hm', hfit, hw, rfl⟩ := execTsetp_next h
  · rfl
  · cases hds.symm.trans hds'
    cases hm.symm.trans hm'
    obtain ⟨arena', e, n, hd, -, rfl⟩ := writeAtPath_ok.1 hw
    obtain ⟨he, hframe⟩ := descendCreate_frame hm ha hd (by omega)
    have hke : k ≠ e.toNat := by
      obtain rfl | he := he
      · exact hk
      · omega
    exact (Buf.load_store_ne _ _ hke).trans (hframe k hk hnew)

theorem State.raise_errCode_ne_zero (s : State) (e : Err) : (s.raise e).errCode ≠ 0 := e.kind.code_ne_zero

/-- A failed edit is a completion of the state it started from (60_exceptions.md R325). -/
theorem setRootChild_failed {d : Bool} {s t : State} (h : setRootChild d s = .next t) (herr : t.errCode ≠ 0) :
    ∃ e, t = s.raise e := by
  obtain ⟨-, rfl⟩ | ⟨-, -, rfl⟩ | ⟨arena, -, -, -, rfl⟩ := setRootChild_next h
  · exact ⟨_, rfl⟩
  · exact ⟨_, rfl⟩
  · exact absurd rfl herr

theorem execTsetp_failed {s t : State} (h : execTsetp s = .next t) (herr : t.errCode ≠ 0) : ∃ e, t = s.raise e := by
  obtain hraise | ⟨ds, m, arena, nn, -, -, -, -, -, rfl⟩ := execTsetp_next h
  · exact hraise
  · exact absurd rfl herr

/-! ## TSETL and TSETR -/

/-- The two set commands of a child, by the child's digit. -/
theorem exec_setChild (d : Bool) (s : State) : exec (if d then .tsetr else .tsetl) s = setRootChild d s := by
  cases d <;> rfl

theorem setRootChild_success {s : State} {n : Node} (d : Bool) (hne : s.nnodes ≠ 0) (hcap : s.nnodes.toNat ≠ s.cfg.nodeCap)
    (hroot : s.root.toNat < s.nnodes.toNat) (hn : Buf.load s.mem.node s.root.toNat = some n) :
    setRootChild d s = .next (s.storeArena (Buf.store (Buf.store s.mem.node s.nnodes.toNat (Node.fresh s.pay))
      s.root.toNat (n.setChild d s.nnodes)) (s.nnodes + 1)).markEdited.succeed := by
  have hfresh : s.root ≠ s.nnodes := fun h => Nat.lt_irrefl _ (h ▸ hroot)
  rw [setRootChild, if_neg hne, if_neg hcap, (allocLinked_ok hfresh).2 ⟨n, hn, rfl⟩]

/-- A successful set of a child leaves it as ROOT's child, a fresh entry with the payload operand. -/
theorem State.Inv.setRootChild_child {s t : State} {d : Bool} (h : s.Inv) (ht : Machine.setRootChild d s = .next t)
    (hok : t.errCode = 0) : t.nnodes ≠ 0 ∧ ∃ n, Buf.load t.mem.node t.root.toNat = some n ∧
      n.child d = some s.nnodes ∧ Buf.load t.mem.node s.nnodes.toNat = some (Node.fresh s.pay) := by
  obtain ⟨-, rfl⟩ | ⟨-, -, rfl⟩ | ⟨arena, hne, hcap, harena, rfl⟩ := setRootChild_next ht
  · exact absurd hok (State.raise_errCode_ne_zero _ _)
  · exact absurd hok (State.raise_errCode_ne_zero _ _)
  · have hroot := h.rootFits hne
    have hfresh : s.root ≠ s.nnodes := fun e => Nat.lt_irrefl _ (e ▸ hroot)
    obtain ⟨n, -, rfl⟩ := (allocLinked_ok hfresh).1 harena
    have hb := Config.bounds h.config
    have hfit := h.nodesFit
    have hcap2 : s.cfg.nodeCap = 2 * s.cfg.nSym := rfl
    have hnn : (s.nnodes + 1).toNat = s.nnodes.toNat + 1 := toNat_add_ofNat (n := 1) (by omega)
    refine ⟨fun h0 => ?_, n.setChild d s.nnodes, Buf.load_store_self _ _ _, ?_, ?_⟩
    · have h0' : s.nnodes + 1 = 0 := h0
      rw [h0'] at hnn
      exact absurd hnn (Nat.succ_ne_zero _).symm
    · rw [Node.child_setChild, if_pos rfl]
    · exact (Buf.load_store_ne _ _ (by omega)).trans (Buf.load_store_self _ _ _)

/-! ## TSETP -/

/-- The path operand of a shorter PATH_LEN. -/
theorem operand_take {b : Buf Word} {len l : Word} {ds : List Bool} (h : Operand b len (digitWords ds))
    (hl : l.toNat ≤ len.toNat) : Operand b l (digitWords (ds.take l.toNat)) := by
  obtain ⟨hlen, hds⟩ := h
  have htake : digitWords (ds.take l.toNat) = (digitWords ds).take l.toNat := List.map_take
  rw [htake]
  refine ⟨by rw [List.length_take]; omega, fun j hj => ?_⟩
  rw [List.getElem_take]
  exact hds j _

/-- Every node on the way to a specified node is specified. -/
theorem PathTo.load_of_append {arena : Buf Node} {k e : Word} {p q : List Bool} {n : Node} (h : PathTo arena k (p ++ q) e)
    (hn : Buf.load arena e.toNat = some n) : ∃ c m, PathTo arena k p c ∧ Buf.load arena c.toNat = some m := by
  obtain ⟨c, hp, hq⟩ := h.split
  cases q with
  | nil => cases hq; exact ⟨_, n, hp, hn⟩
  | cons d q =>
    obtain ⟨_, ⟨m, hm, -⟩, -⟩ := hq
    exact ⟨c, m, hp, hm⟩

theorem execTsetp_overflow {s : State} {ds : List Bool} {m : Nat} (hne : s.nnodes ≠ 0) (hds : s.checkPath false = .ok ds)
    (hm : missingNodes s.mem.node s.root ds = .ok m) (hcap : s.cfg.nodeCap < s.nnodes.toNat + m) :
    execTsetp s = .next (s.raise (overflow .node 0)) := by
  rw [execTsetp, if_neg hne, hds]
  simp only [hm, if_pos hcap]

theorem execTsetp_success {s : State} {ds : List Bool} {m : Nat} {arena : Buf Node} {nn : Word} (hne : s.nnodes ≠ 0)
    (hds : s.checkPath false = .ok ds) (hm : missingNodes s.mem.node s.root ds = .ok m)
    (hfit : s.nnodes.toNat + m ≤ s.cfg.nodeCap) (hw : writeAtPath s ds = .ok (arena, nn)) :
    execTsetp s = .next (s.storeArena arena nn).markEdited.succeed := by
  rw [execTsetp, if_neg hne, hds]
  simp only [hm, if_neg (Nat.not_lt.2 hfit), hw]

/-- A path that exists: its end takes the payload operand, and nothing is allocated. -/
theorem writeAtPath_existing {s : State} {ds : List Bool} {a : Word} {n : Node} (hp : PathTo s.mem.node s.root ds a)
    (hn : Buf.load s.mem.node a.toNat = some n) :
    writeAtPath s ds = .ok (Buf.store s.mem.node a.toNat { n with payload := s.pay }, s.nnodes) := by
  have hd := descendCreate_existing (nn := s.nnodes) (post := []) hp
  rw [List.append_nil] at hd
  exact writeAtPath_ok.2 ⟨_, _, n, hd, hn, rfl⟩

/-- A path that ends at `a` for want of the child `d`: `a` is linked to the first new entry, each new entry to the next,
and the last one takes the payload operand. -/
theorem writeAtPath_created {s : State} {pre rest : List Bool} {d : Bool} {a : Word} {n : Node}
    (hp : PathTo s.mem.node s.root pre a) (ha : a.toNat < s.nnodes.toNat) (hn : Buf.load s.mem.node a.toNat = some n)
    (hd : n.child d = .none) (hfit : s.nnodes.toNat + (rest.length + 1) < 2 ^ 32) :
    ∃ arena, writeAtPath s (pre ++ d :: rest) = .ok (arena, s.nnodes + BitVec.ofNat 32 (rest.length + 1)) ∧
      Buf.load arena a.toNat = some (n.setChild d s.nnodes) ∧
      (∀ j (h : j < rest.length), Buf.load arena (s.nnodes.toNat + j) =
        some ((Node.fresh Payload.none).setChild rest[j] (s.nnodes + BitVec.ofNat 32 (j + 1)))) ∧
      Buf.load arena (s.nnodes.toNat + rest.length) = some (Node.fresh s.pay) := by
  obtain ⟨arena, hwalk, hlink, hchain, hlast, -⟩ := descendCreate_created ha hn hd hfit
  have hend : (s.nnodes + BitVec.ofNat 32 rest.length).toNat = s.nnodes.toNat + rest.length :=
    toNat_add_ofNat (by omega)
  refine ⟨_, writeAtPath_ok.2 ⟨arena, _, _, (descendCreate_existing hp).trans hwalk, by rw [hend]; exact hlast, rfl⟩, ?_⟩
  rw [hend]
  refine ⟨?_, fun j hj => ?_, Buf.load_store_self _ _ _⟩
  · rw [Buf.load_store_ne _ _ (by omega), hlink]
  · rw [Buf.load_store_ne _ _ (by omega), hchain j hj]

/-- After TSETP the whole path leads to a node with the payload operand. -/
theorem State.Inv.writeAtPath_path {s : State} {ds : List Bool} {m : Nat} {arena : Buf Node} {nn : Word} (h : s.Inv)
    (hne : s.nnodes ≠ 0) (hm : missingNodes s.mem.node s.root ds = .ok m) (hfit : s.nnodes.toNat + m ≤ s.cfg.nodeCap)
    (hw : writeAtPath s ds = .ok (arena, nn)) :
    nn ≠ 0 ∧ ∃ e n, PathTo arena s.root ds e ∧ Buf.load arena e.toNat = some n ∧ n.payload = s.pay := by
  have hb := Config.bounds h.config
  have hcap : s.cfg.nodeCap = 2 * s.cfg.nSym := rfl
  have hroot := h.rootFits hne
  obtain ⟨arena', e, nn', hd, hnn, -, -, -, -, -, -, hpath⟩ := descendCreate_keeps h.arena hroot hroot hm (by omega) h.nodes
  obtain ⟨arena₂, e₂, n, hd₂, hn, rfl⟩ := writeAtPath_ok.1 hw
  cases hd.symm.trans hd₂
  refine ⟨fun h0 => ?_, e, _, (PathTo.setPayload hn).2 hpath, Buf.load_store_self _ _ _, rfl⟩
  rw [h0] at hnn
  have hzero : (0 : Word).toNat = 0 := rfl
  omega

/-- After a successful TSETP the path operand is the path to a node with the payload operand. -/
theorem State.Inv.execTsetp_path {s t : State} (h : s.Inv) (ht : Machine.execTsetp s = .next t) (hok : t.errCode = 0) :
    t.nnodes ≠ 0 ∧ ∃ ds e n, t.pathLen.toNat ≤ t.cfg.nPath ∧ Operand t.mem.path t.pathLen (digitWords ds) ∧
      PathTo t.mem.node t.root ds e ∧ Buf.load t.mem.node e.toNat = some n ∧ n.payload = s.pay := by
  obtain ⟨e, rfl⟩ | ⟨ds, m, arena, nn, hne, hds, hm, hfit, hw, rfl⟩ := execTsetp_next ht
  · exact absurd hok (State.raise_errCode_ne_zero _ _)
  · obtain ⟨hcap, -, hop⟩ := State.checkPath_ok.1 hds
    obtain ⟨hnn, e, n, hp, hn, hpay⟩ := h.writeAtPath_path hne hm hfit hw
    exact ⟨hnn, ds, e, n, hcap, hop, hp, hn, hpay⟩

end Sys2Proof.Machine

open Sys2Proof Sys2Proof.Machine Sys2Proof.Claims

/-- Settles O16: each edit is the state it started from, or another arena with the flags of an edit. -/
theorem frameOfTreeEdits : Obligations.FrameOfTreeEdits := by
  unfold Obligations.FrameOfTreeEdits
  intro i s t hi h
  obtain rfl | hchild | rfl : i = .tnew ∨ (∃ d : Bool, i = if d then .tsetr else .tsetl) ∨ i = .tsetp := by
    obtain rfl | rfl | rfl | rfl := hi
    · exact .inl rfl
    · exact .inr (.inl ⟨false, rfl⟩)
    · exact .inr (.inl ⟨true, rfl⟩)
    · exact .inr (.inr rfl)
  · obtain ⟨hframe, hload⟩ := execTnew_frame h
    exact ⟨hframe, fun hi => absurd rfl hi, fun _ => hload, by simp, nofun⟩
  · obtain ⟨d, rfl⟩ := hchild
    rw [exec_setChild] at h
    obtain ⟨hframe, hroot, hload⟩ := setRootChild_frame h
    exact ⟨hframe, fun _ => hroot, by cases d <;> nofun, fun _ => hload, by cases d <;> nofun⟩
  · obtain ⟨hframe, hroot⟩ := execTsetp_frame h
    refine ⟨hframe, fun _ => hroot, nofun, by simp, ?_⟩
    intro _ ds m a hds hm ha hcap k hk hnew
    exact execTsetp_load_ne h hds hm (nodeAt_ok.1 ha) hcap hk hnew

/-- Settles O22: ROOT is an allocated entry, so the new entry is another one. -/
theorem setChildAllocatesAndLinks : Obligations.SetChildAllocatesAndLinks := by
  unfold Obligations.SetChildAllocatesAndLinks
  intro s n d hne hcap hroot hn
  rw [exec_setChild]
  exact ⟨_, setRootChild_success d hne hcap hroot hn,
    (Buf.load_store_ne _ _ (Nat.ne_of_gt hroot)).trans (Buf.load_store_self _ _ _), Buf.load_store_self _ _ _,
    rfl, rfl, rfl, rfl, rfl, rfl⟩

/-- Settles O26: the existing part of the path creates nothing; the rest is the chain that the walk allocates. -/
theorem tsetpCreatesThePath : Obligations.TsetpCreatesThePath := by
  unfold Obligations.TsetpCreatesThePath
  intro s pre post a n hinv hne hlen hop hnonempty hp hn hd
  have hb := Config.bounds hinv.config
  have hcap2 : s.cfg.nodeCap = 2 * s.cfg.nSym := rfl
  have hpathLen : s.pathLen ≠ 0 := by
    intro h0
    have hlength := hop.1
    rw [h0] at hlength
    exact hnonempty (List.map_eq_nil_iff.1 (List.length_eq_zero_iff.1 hlength))
  have hcheck : s.checkPath false = .ok (pre ++ post) := State.checkPath_ok.2 ⟨hlen, .inr hpathLen, hop⟩
  have hmissing := missingNodes_path hp hn hd
  refine ⟨fun hcap => execTsetp_overflow hne hcheck hmissing hcap, fun hfit => ?_⟩
  cases post with
  | nil =>
    rw [List.append_nil] at hcheck hmissing
    refine ⟨_, execTsetp_success hne hcheck hmissing hfit (writeAtPath_existing hp hn), rfl, rfl, rfl, rfl, rfl, rfl,
      fun _ => Buf.load_store_self _ _ _, nofun, fun j h => absurd h (Nat.not_lt_zero _),
      fun h => absurd rfl h⟩
  | cons d rest =>
    rw [List.length_cons] at hfit
    have ha := hinv.arena.path (hinv.rootFits hne) hp
    obtain ⟨arena, hw, hlink, hchain, hlast⟩ := writeAtPath_created (rest := rest) hp ha hn (hd d rest rfl) (by omega)
    refine ⟨_, execTsetp_success hne hcheck hmissing hfit hw, rfl, ?nnodes, rfl, rfl, rfl, rfl, ?_, ?link, ?chain, ?last⟩
    case nnodes => exact toNat_add_ofNat (by omega)
    case link =>
      intro d' rest' h
      cases h
      exact hlink
    case chain =>
      intro j hj
      have hword : BitVec.ofNat 32 (s.nnodes.toNat + j + 1) = s.nnodes + BitVec.ofNat 32 (j + 1) := by
        rw [Nat.add_assoc, BitVec.ofNat_add, BitVec.ofNat_toNat, BitVec.setWidth_eq]
      rw [hword]
      exact hchain j (Nat.lt_of_succ_lt_succ hj)
    case last => exact fun _ => hlast
    · exact nofun

/-- Settles O27: the set child is ROOT's child, the set path exists afterwards and so does every shorter one, and a failed
set is a completion of the state it started from. -/
theorem treeCommandLaws : Obligations.TreeCommandLaws := by
  unfold Obligations.TreeCommandLaws
  refine ⟨fun s t d hinv ht hok => ?child, fun s t hinv ht hok => ?path, frameOfGetCommands, fun i s t hi ht herr => ?failed⟩
  case child =>
    rw [exec_setChild] at ht
    obtain ⟨hne, n, hn, hc, hm⟩ := hinv.setRootChild_child ht hok
    rw [exec_getChild]
    exact getRootChild_present hne hn hc hm
  case path =>
    obtain ⟨hne, ds, e, n, hcap, hop, hp, hn, hpay⟩ := hinv.execTsetp_path ht hok
    refine ⟨?_, fun l hl => ?_⟩
    · rw [← hpay]
      exact execTgetp_path hne (State.checkPath_ok.2 ⟨hcap, .inl rfl, hop⟩) hp hn
    · rw [← List.take_append_drop l.toNat ds] at hp
      obtain ⟨c, m, hc, hm⟩ := hp.load_of_append hn
      have hcheck : ({ t with pathLen := l } : State).checkPath true = .ok (ds.take l.toNat) :=
        State.checkPath_ok.2 ⟨by show l.toNat ≤ t.cfg.nPath; omega, .inl rfl, operand_take hop (Nat.le_of_lt hl)⟩
      exact ⟨_, execTgetp_path hne hcheck hc hm, rfl⟩
  case failed =>
    have hraise : ∃ e, t = s.raise e := by
      obtain rfl | rfl | rfl := hi
      · exact setRootChild_failed (d := false) ht herr
      · exact setRootChild_failed (d := true) ht herr
      · exact execTsetp_failed ht herr
    obtain ⟨e, rfl⟩ := hraise
    exact ⟨rfl, rfl, rfl, rfl, rfl⟩

/-- Settles O21: entry 0 is fresh, with the payload operand in its normal form. -/
theorem tnewMakesTheRoot : Obligations.TnewMakesTheRoot := by
  unfold Obligations.TnewMakesTheRoot
  exact fun s => ⟨_, rfl, Buf.load_store_self _ _ _, rfl, rfl, rfl, rfl, rfl, rfl⟩
end

section
/-! SUPPORT. FREQ, BUILDF and BUILD: what each makes of the operand it finds held, and the table a success builds from
(42_construction.md R220 to R226). -/

namespace Sys2Proof.Machine

open Sys2Proof.Claims

/-! ## Held operands -/

/-- An operand that goes on with `x` after the values `vs`. -/
theorem Buf.slice_of_holds_next {α : Type} {b : Buf α} {vs : List α} {x : α} {n : Nat} (h : Buf.holds b (vs ++ [x]))
    (hn : vs.length < n) : ∃ rest, Buf.slice b 0 n = vs.map some ++ some x :: rest := by
  have hvs : Buf.holds b vs := fun j hj => by
    have hload := h j (by rw [List.length_append]; omega)
    rwa [List.getElem_append_left hj] at hload
  have hx : Buf.load b vs.length = some x := by simpa using h vs.length (by simp)
  exact ⟨_, by rw [Buf.slice_of_holds_prefix hvs hn, hx]⟩

theorem Buf.holds_unique {α : Type} {b : Buf α} {vs ws : List α} (hlen : vs.length = ws.length) (hv : Buf.holds b vs)
    (hw : Buf.holds b ws) : vs = ws :=
  List.ext_getElem hlen fun j h h' => Option.some.inj ((hv j h).symm.trans (hw j h'))

theorem Buf.load_of_holds {α : Type} {b : Buf α} {vs : List α} (h : Buf.holds b vs) (j : Nat) (v : α)
    (hj : vs[j]? = some v) : Buf.load b j = some v := by
  obtain ⟨hlt, rfl⟩ := List.getElem?_eq_some_iff.1 hj
  exact h j hlt

/-! ## Tables -/

/-- The table operand of BUILDF (30_encoding.md R126). -/
structure State.HoldsTable (s : State) (f : Table) : Prop where
  length : f.length = s.nsym.toNat
  syms : Buf.holds s.mem.freqSym (f.map Prod.fst)
  counts : Buf.holds s.mem.freqCount (f.map Prod.snd)

/-- A table that passes BUILDF's checks (42_construction.md R223). -/
structure LegalTable (nSym : Nat) (f : Table) : Prop where
  nonempty : f ≠ []
  fits : f.length ≤ nSym
  distinct : (f.map Prod.fst).Nodup
  total : (f.map fun e => e.2.toNat).sum < 2 ^ 32

/-- The nodes of a legal table have word indices (42_construction.md R233). -/
theorem LegalTable.bound {c : Config} {f : Table} (hc : c.wellFormed = true) (h : LegalTable c.nSym f) :
    2 * f.length < 2 ^ 32 := by
  have hb := Config.bounds hc
  have hfits := h.fits
  omega

theorem State.HoldsTable.unique {s : State} {f g : Table} (hf : s.HoldsTable f) (hg : s.HoldsTable g) : f = g := by
  have hlen : f.length = g.length := hf.length.trans hg.length.symm
  have hsyms := Buf.holds_unique (by simpa using hlen) hf.syms hg.syms
  have hcounts := Buf.holds_unique (by simpa using hlen) hf.counts hg.counts
  exact List.ext_getElem hlen fun j h h' => Prod.ext
    (by simpa [h, h'] using congrArg (·[j]?) hsyms) (by simpa [h, h'] using congrArg (·[j]?) hcounts)

theorem State.storeFreq_holdsTable (s : State) {f : Table} (h : f.length < 2 ^ 32) : (s.storeFreq f).HoldsTable f where
  length := by rw [State.storeFreq_nsym, BitVec.toNat_ofNat, Nat.mod_eq_of_lt h]
  syms := Buf.holds_storeAll _ _
  counts := Buf.holds_storeAll _ _

theorem FirstSeenTable.length_le {ts : List Word} {f : Table} (h : FirstSeenTable ts f) : f.length ≤ ts.length := by
  rw [h.length_eq]
  exact (List.dedup_sublist ts).length_le

/-- The table FREQ makes of a text is legal for BUILDF, but for an empty text (42_construction.md R226). -/
theorem State.tally_legalTable {s : State} {f : Table} (hf : tally s.cfg.nSym 0 [] s.textOperand = .ok f)
    (hne : s.textLen ≠ 0) : LegalTable s.cfg.nSym f := by
  obtain ⟨hdistinct, hfits, htotal, hnonempty⟩ := State.tally_textOperand_ok hf
  exact ⟨hnonempty hne, hfits, hdistinct, by omega⟩

theorem State.checkedTable_legalTable {s : State} {f : Table} (hne : s.nsym ≠ 0) (hcap : s.nsym.toNat ≤ s.cfg.nSym)
    (hf : s.checkedTable = .ok f) : LegalTable s.cfg.nSym f ∧ s.HoldsTable f := by
  obtain ⟨hlen, hsyms, hcounts, hdistinct, htotal⟩ := State.checkedTable_ok hf
  refine ⟨⟨?_, by omega, hdistinct, htotal⟩, ⟨hlen, hsyms, hcounts⟩⟩
  rintro rfl
  exact hne (BitVec.eq_of_toNat_eq hlen.symm)

/-! ## The reading loops -/

theorem State.textOperand_of_operand {s : State} {ts : List Word} (h : Operand s.mem.text s.textLen ts) :
    s.textOperand = ts.map some := Buf.slice_of_holds h.1 h.2

/-- A held text whose distinct symbols fit is counted to its end. -/
theorem State.tally_of_operand {s : State} {ts : List Word} (h : Operand s.mem.text s.textLen ts)
    (hd : ts.dedup.length ≤ s.cfg.nSym) :
    ∃ f, tally s.cfg.nSym 0 [] s.textOperand = .ok f ∧ FirstSeenTable ts f := by
  obtain ⟨f, hf, htally⟩ := tally_reads (i := 0) (us := ts) (rest := []) FirstSeenTable.nil
    (by rw [List.nil_append, h.1]; omega) hd
  exact ⟨f, by rw [State.textOperand_of_operand h, ← List.append_nil (ts.map some), htally, tally], hf⟩

/-- The first symbol past N_SYM distinct ones stops the count. -/
theorem State.tally_overflow {s : State} {ts : List Word} {x : Word} (hn : ts.length < s.textLen.toNat)
    (h : Buf.holds s.mem.text (ts ++ [x])) (hd : ts.dedup.length = s.cfg.nSym) (hx : x ∉ ts) :
    tally s.cfg.nSym 0 [] s.textOperand = .err (overflow .sym ts.length) := by
  obtain ⟨rest, hslice⟩ := Buf.slice_of_holds_next h hn
  obtain ⟨f, hf, htally⟩ := tally_reads (i := 0) (us := ts) (rest := some x :: rest) FirstSeenTable.nil
    (by rw [List.nil_append]; omega) hd.le
  rw [State.textOperand, hslice, htally, tally_full hf hd hx, Nat.zero_add]

/-- The first repeated symbol stops BUILDF's check, whatever follows it and whatever the counts. -/
theorem State.checkedTable_repeated {s : State} {xs : List Word} {x : Word} (hn : xs.length < s.nsym.toNat)
    (h : Buf.holds s.mem.freqSym (xs ++ [x])) (hdistinct : xs.Nodup) (hx : x ∈ xs) :
    s.checkedTable = .err { kind := .badTable, info := x, pos := BitVec.ofNat 32 xs.length } := by
  obtain ⟨rest, hslice⟩ := Buf.slice_of_holds_next h hn
  rw [State.checkedTable, State.tableSyms, hslice, checkDistinct_nodup hdistinct, checkDistinct, if_pos hx]

/-- Past distinct symbols BUILDF's check stops at a total of more than 32 bits. -/
theorem State.checkedTable_overflow {s : State} {f : Table} (h : s.HoldsTable f) (hdistinct : (f.map Prod.fst).Nodup)
    (htotal : 0xFFFFFFFF < (f.map fun e => e.2.toNat).sum) : s.checkedTable = .err (overflow .weight 0) := by
  have hsyms : s.tableSyms = (f.map Prod.fst).map some ++ [] := by
    rw [List.append_nil]
    exact Buf.slice_of_holds (by simpa using h.length) h.syms
  have hcounts : s.tableCounts = (f.map Prod.snd).map some := Buf.slice_of_holds (by simpa using h.length) h.counts
  have htotal' : 0xFFFFFFFF < totalCount (f.map Prod.snd) := by
    rw [totalCount, List.map_map]
    exact htotal
  rw [State.checkedTable, hsyms, checkDistinct_nodup hdistinct, checkDistinct, readAll_ok.2 hcounts]
  exact if_pos htotal'

/-! ## The commands on an operand -/

theorem execFreq_of_tally {s : State} {f : Table} (hcap : s.textLen.toNat ≤ s.cfg.nText)
    (hf : tally s.cfg.nSym 0 [] s.textOperand = .ok f) : execFreq s = .next (s.storeFreq f).succeed := by
  rw [execFreq, if_neg (Nat.not_lt.2 hcap), hf]

theorem execBuild_of_tally {s : State} {f : Table} (hcap : s.textLen.toNat ≤ s.cfg.nText) (hne : s.textLen ≠ 0)
    (hf : tally s.cfg.nSym 0 [] s.textOperand = .ok f) :
    execBuild s = .next ((s.storeFreq f).construct f).succeed := by
  rw [execBuild, if_neg (Nat.not_lt.2 hcap), if_neg hne, hf]

theorem execBuildf_checked {s : State} (hne : s.nsym ≠ 0) (hcap : s.nsym.toNat ≤ s.cfg.nSym) {e : Err}
    (h : s.checkedTable = .err e) : execBuildf s = .next (s.raise e) := by
  rw [execBuildf, if_neg hne, if_neg (Nat.not_lt.2 hcap), h]

/-- BUILDF completes on a held legal table (42_construction.md R223). -/
theorem execBuildf_of_table {s : State} {f : Table} (hf : LegalTable s.cfg.nSym f) (h : s.HoldsTable f) :
    execBuildf s = .next (s.construct f).succeed := by
  have hne : s.nsym ≠ 0 := by
    intro h0
    have hlen := h.length
    rw [h0] at hlen
    exact hf.nonempty (List.length_eq_zero_iff.1 hlen)
  have hcap : ¬ s.cfg.nSym < s.nsym.toNat := by
    rw [← h.length]
    exact Nat.not_lt.2 hf.fits
  rw [execBuildf, if_neg hne, if_neg hcap,
    State.checkedTable_of_holds h.length h.syms h.counts hf.distinct (Nat.le_of_lt_succ hf.total)]

/-- BUILDF after FREQ builds what BUILD builds: the table of a text is legal (42_construction.md R226). -/
theorem execBuild_eq_execBuildf {s : State} {f : Table} (hc : s.cfg.wellFormed = true)
    (hcap : s.textLen.toNat ≤ s.cfg.nText) (hne : s.textLen ≠ 0) (hf : tally s.cfg.nSym 0 [] s.textOperand = .ok f) :
    execBuild s = execBuildf (s.storeFreq f).succeed := by
  have hlegal := State.tally_legalTable hf hne
  have hbound := hlegal.bound hc
  obtain ⟨hlen, hsyms, hcounts⟩ := s.storeFreq_holdsTable (f := f) (by omega)
  rw [execBuild_of_tally hcap hne hf, execBuildf_of_table (s := (s.storeFreq f).succeed) hlegal ⟨hlen, hsyms, hcounts⟩]
  rfl

/-! ## What a success says -/

theorem execFreq_success {s t : State} (h : execFreq s = .next t) (hok : t.errCode = 0) :
    ∃ f, s.textLen.toNat ≤ s.cfg.nText ∧ tally s.cfg.nSym 0 [] s.textOperand = .ok f ∧ t = (s.storeFreq f).succeed := by
  obtain ⟨-, rfl⟩ | ⟨hcap, f, hf, rfl⟩ | ⟨-, i, -, rfl⟩ := execFreq_next h
  · exact absurd hok (State.raise_errCode_ne_zero _ _)
  · exact ⟨f, hcap, hf, rfl⟩
  · exact absurd hok (State.raise_errCode_ne_zero _ _)

/-- A successful BUILD counts the text and builds from its table. -/
theorem execBuild_success {s t : State} (h : execBuild s = .next t) (hok : t.errCode = 0) :
    ∃ f, tally s.cfg.nSym 0 [] s.textOperand = .ok f ∧ LegalTable s.cfg.nSym f ∧
      t = ((s.storeFreq f).construct f).succeed := by
  obtain ⟨-, rfl⟩ | ⟨-, rfl⟩ | ⟨-, hne, f, hf, rfl⟩ | ⟨-, -, i, -, rfl⟩ := execBuild_next h
  · exact absurd hok (State.raise_errCode_ne_zero _ _)
  · exact absurd hok (State.raise_errCode_ne_zero _ _)
  · exact ⟨f, hf, State.tally_legalTable hf hne, rfl⟩
  · exact absurd hok (State.raise_errCode_ne_zero _ _)

/-- A successful BUILDF builds from the table it holds. -/
theorem execBuildf_success {s t : State} (h : execBuildf s = .next t) (hok : t.errCode = 0) :
    ∃ f, s.HoldsTable f ∧ LegalTable s.cfg.nSym f ∧ t = (s.construct f).succeed := by
  obtain ⟨e, rfl⟩ | ⟨f, hne, hcap, hf, rfl⟩ := execBuildf_next h
  · exact absurd hok (State.raise_errCode_ne_zero _ _)
  · obtain ⟨hlegal, hheld⟩ := State.checkedTable_legalTable hne hcap hf
    exact ⟨f, hheld, hlegal, rfl⟩

/-! ## What the commands leave unchanged -/

/-- A new table leaves the entries at NSYM and above (42_construction.md R220). -/
theorem State.storeFreq_load_above (s : State) {f : Table} (h : f.length < 2 ^ 32) {j : Nat}
    (hj : (s.storeFreq f).nsym.toNat ≤ j) :
    Buf.load (s.storeFreq f).mem.freqSym j = Buf.load s.mem.freqSym j ∧
      Buf.load (s.storeFreq f).mem.freqCount j = Buf.load s.mem.freqCount j := by
  rw [← (s.storeFreq_holdsTable h).length] at hj
  exact ⟨Buf.load_storeAll_outside _ _ _ _ (.inr (by simpa using hj)),
    Buf.load_storeAll_outside _ _ _ _ (.inr (by simpa using hj))⟩

section

variable {nSym : Nat} {f : Table} (s : State) (h : LegalTable nSym f) (hbound : 2 * f.length < 2 ^ 32)
include h hbound

theorem State.construct_nnodes_toNat : (s.construct f).nnodes.toNat = (builtNodes f).length := by
  have hlen := builtNodes_length_le h.nonempty
  rw [State.construct_nnodes, BitVec.toNat_ofNat, Nat.mod_eq_of_lt (by omega)]

theorem State.construct_root_toNat : (s.construct f).root.toNat = (builtNodes f).length - 1 := by
  have hlen := builtNodes_length_le h.nonempty
  rw [State.construct_root, BitVec.toNat_ofNat, Nat.mod_eq_of_lt (by omega)]

/-- A construction leaves the entries past its nodes (42_construction.md R223). -/
theorem State.construct_load_above {k : Nat} (hk : (s.construct f).nnodes.toNat ≤ k) :
    Buf.load (s.construct f).mem.node k = Buf.load s.mem.node k := by
  rw [State.construct_nnodes_toNat s h hbound] at hk
  exact Buf.load_storeAll_outside _ _ _ _ (.inr (by omega))

end

/-- The arena a construction leaves holds its nodes from NODE[0] on. -/
theorem State.construct_holds (s : State) (f : Table) : Buf.holds (s.construct f).mem.node (builtNodes f) :=
  Buf.holds_storeAll _ _

end Sys2Proof.Machine

open Sys2Proof Sys2Proof.Machine Sys2Proof.Claims

/-- Settles O28: the loop reads the whole text, and the table it makes is stored as FREQ. -/
theorem freqMakesFirstSeenTable : Obligations.FreqMakesFirstSeenTable := by
  unfold Obligations.FreqMakesFirstSeenTable
  intro s ts hop hcap hd
  obtain ⟨f, htally, hf⟩ := State.tally_of_operand hop hd
  have hlen : f.length < 2 ^ 32 := by
    have hle := hf.length_le
    rw [hop.1] at hle
    omega
  obtain ⟨hnsym, hsyms, hcounts⟩ := s.storeFreq_holdsTable hlen
  exact ⟨_, f, execFreq_of_tally hcap htally, rfl, hf, hnsym.symm, hsyms, hcounts⟩

/-- Settles O29: the loop stops at the first symbol that finds the table full. -/
theorem tooManySymbolsOverflow : Obligations.TooManySymbolsOverflow := by
  unfold Obligations.TooManySymbolsOverflow
  intro s i ts x hi hcap hn htext hd hx
  have htally := State.tally_overflow hn htext hd hx
  obtain rfl | rfl := hi
  · rw [exec, execFreq, if_neg (Nat.not_lt.2 hcap), htally]
    rfl
  · have hne : s.textLen ≠ 0 := fun h0 => Nat.not_lt_zero _ (h0 ▸ hn)
    rw [exec, execBuild, if_neg (Nat.not_lt.2 hcap), if_neg hne, htally]
    rfl

/-- Settles O31: the symbols are checked first, entry by entry, and then the total of the counts. -/
theorem buildfOperandChecks : Obligations.BuildfOperandChecks := by
  unfold Obligations.BuildfOperandChecks
  intro s hne hcap
  refine ⟨fun xs x hn hsyms hdistinct hx => ?_, fun f hlen hsyms hcounts hdistinct htotal => ?_⟩
  · exact execBuildf_checked hne hcap (State.checkedTable_repeated hn hsyms hdistinct hx)
  · exact execBuildf_checked hne hcap (State.checkedTable_overflow ⟨hlen, hsyms, hcounts⟩ hdistinct htotal)

/-- Settles O30: both build from the table of the text, which is legal. -/
theorem buildIsFreqThenBuildf : Obligations.BuildIsFreqThenBuildf := by
  unfold Obligations.BuildIsFreqThenBuildf
  refine ⟨fun s t hc ht hok hne => ?_, fun s ts hc hop hnonempty hcap hd => ?_⟩
  · obtain ⟨f, hcap, hf, rfl⟩ := execFreq_success ht hok
    exact execBuild_eq_execBuildf hc hcap hne hf
  · obtain ⟨f, hf, -⟩ := State.tally_of_operand hop hd
    have hne : s.textLen ≠ 0 := by
      intro h0
      have hlen := hop.1
      rw [h0] at hlen
      exact hnonempty (List.length_eq_zero_iff.1 hlen)
    have hbuild := execBuild_of_tally hcap hne hf
    exact ⟨_, _, execFreq_of_tally hcap hf, rfl, hbuild, (execBuild_eq_execBuildf hc hcap hne hf).symm.trans hbuild,
      rfl, rfl, rfl, rfl⟩

/-- Settles O17: each command completes over the state, over a new FREQ table, over new nodes, or over both. -/
theorem frameOfConstruction : Obligations.FrameOfConstruction := by
  unfold Obligations.FrameOfConstruction
  intro i s t hi hc ht
  have hb := Config.bounds hc
  obtain rfl | rfl | rfl := hi
  case inl =>
    obtain ⟨-, rfl⟩ | ⟨-, f, hf, rfl⟩ | ⟨-, i, -, rfl⟩ := execFreq_next ht
    · exact ⟨rfl, fun _ => ⟨rfl, rfl, rfl, rfl, rfl, rfl⟩, nofun, fun _ _ _ => ⟨rfl, rfl⟩, fun _ _ _ _ => rfl⟩
    · obtain ⟨-, hfits, -, -⟩ := State.tally_textOperand_ok hf
      exact ⟨rfl, fun _ => ⟨rfl, rfl, rfl, rfl, rfl, rfl⟩, nofun,
        fun _ j => s.storeFreq_load_above (by omega), fun _ _ _ _ => rfl⟩
    · exact ⟨rfl, fun _ => ⟨rfl, rfl, rfl, rfl, rfl, rfl⟩, nofun,
        fun hok => absurd hok (State.raise_errCode_ne_zero _ _), fun _ _ _ _ => rfl⟩
  case inr.inl =>
    obtain ⟨e, rfl⟩ | ⟨f, hne, hcap, hf, rfl⟩ := execBuildf_next ht
    · exact ⟨rfl, nofun, fun _ => ⟨rfl, rfl, rfl⟩, fun _ _ _ => ⟨rfl, rfl⟩, fun _ _ _ _ => rfl⟩
    · obtain ⟨hlegal, -⟩ := State.checkedTable_legalTable hne hcap hf
      exact ⟨rfl, nofun, fun _ => ⟨rfl, rfl, rfl⟩, fun _ _ _ => ⟨rfl, rfl⟩,
        fun _ k hk _ => s.construct_load_above hlegal (hlegal.bound hc) hk⟩
  case inr.inr =>
    obtain ⟨-, rfl⟩ | ⟨-, rfl⟩ | ⟨-, hne, f, hf, rfl⟩ | ⟨-, -, i, -, rfl⟩ := execBuild_next ht
    · exact ⟨rfl, nofun, nofun, fun _ _ _ => ⟨rfl, rfl⟩, fun _ _ _ _ => rfl⟩
    · exact ⟨rfl, nofun, nofun, fun _ _ _ => ⟨rfl, rfl⟩, fun _ _ _ _ => rfl⟩
    · have hlegal := State.tally_legalTable hf hne
      have hbound := hlegal.bound hc
      exact ⟨rfl, nofun, nofun, fun _ j => s.storeFreq_load_above (by omega),
        fun _ k hk _ => (s.storeFreq f).construct_load_above hlegal hbound hk⟩
    · exact ⟨rfl, nofun, nofun, fun hok => absurd hok (State.raise_errCode_ne_zero _ _),
        fun _ _ _ _ => rfl⟩
end

section
/-! SUPPORT. The arena that holds the nodes of a construction: its rounds in terms of the entries, its shape, and that
it depends on the table only (42_construction.md R222, R224, R225, R227, R228). -/

namespace Sys2Proof.Machine

open Sys2Proof.Claims

theorem weightOf_of_load {arena : Buf Node} {k : Nat} {n : Node} (h : Buf.load arena k = some n) :
    weightOf arena k = n.payload.weight.toNat := by
  rw [weightOf, h]
  rfl

/-- An arena that holds a built tree has the tree's weight at ROOT. -/
theorem Built.weightOf_root {T : Built} {arena : Buf Node} {root : Word} (h : T.heldAt arena root) :
    weightOf arena root.toNat = T.weight.toNat := by
  cases T with
  | single w x =>
    obtain ⟨a, hroot, -⟩ := h
    exact weightOf_of_load hroot
  | forked w l r =>
    obtain ⟨a, b, hroot, -, -⟩ := h
    exact weightOf_of_load hroot

/-- The internal nodes of a construction, one a round. -/
abbrev roundNodes (f : Table) : List Node := combineAll (f.length - 1) (firstKeys f) f.length

/-- A construction makes a node that is no leaf. -/
theorem builtNodes_length_gt {f : Table} (h : f ≠ []) : f.length < (builtNodes f).length := by
  match f, h with
  | [_], _ => exact Nat.one_lt_two
  | _ :: _ :: _, _ =>
    rw [builtNodes_length_many (by simp)]
    simp only [List.length_cons]
    omega

/-! ## The rounds -/

/-- The indices that exist at round `r`: those of the leaves and of the nodes of the rounds before. -/
theorem lt_iff_exists_key {f : Table} (h2 : 2 ≤ f.length) {r k : Nat} (hr : r ≤ f.length - 1) : k < f.length + r ↔
    ∃ w, (w, k) ∈ firstKeys f ∨
      ∃ i n, i < r ∧ (roundNodes f)[i]? = some n ∧ (w, k) = (n.payload.weight, f.length + i) := by
  have hlen : (roundNodes f).length = f.length - 1 := combineAll_length (by rw [length_firstKeys]; omega)
  constructor
  · intro hk
    by_cases hleaf : k < f.length
    · exact ⟨f[k].2, .inl (mem_firstKeys.2 ⟨f[k], List.getElem?_eq_getElem hleaf, rfl⟩)⟩
    · have hi : k - f.length < (roundNodes f).length := by omega
      exact ⟨(roundNodes f)[k - f.length].payload.weight, .inr ⟨k - f.length, _, by omega, List.getElem?_eq_getElem hi,
        Prod.ext rfl (Nat.add_sub_cancel' (Nat.not_lt.1 hleaf)).symm⟩⟩
  · rintro ⟨w, hfirst | ⟨i, n, hi, -, hkey⟩⟩
    · obtain ⟨e, he, -⟩ := mem_firstKeys.1 hfirst
      obtain ⟨hj, -⟩ := List.getElem?_eq_some_iff.1 he
      exact Nat.lt_add_right r hj
    · cases hkey
      omega

section

variable {f : Table} {arena : Buf Node} (h2 : 2 ≤ f.length) (hA : Buf.holds arena (builtNodes f))
include h2 hA

theorem load_builtLeaf {j : Nat} (hj : j < f.length) : Buf.load arena j = some (Node.leaf f[j].2 f[j].1) :=
  Buf.load_of_holds hA j _ (builtNodes_leaf h2 j hj)

theorem load_roundNode {i : Nat} {n : Node} (hn : (roundNodes f)[i]? = some n) :
    Buf.load arena (f.length + i) = some n :=
  Buf.load_of_holds hA _ n (by rw [builtNodes_round h2]; exact hn)

/-- The key of an item in the working collection is the weight and index of its entry. -/
theorem weightOf_of_inColl {r : Nat} {x : Key} (hx : InColl (firstKeys f) f.length (roundNodes f) r x) :
    weightOf arena x.2 = x.1.toNat := by
  obtain ⟨hfirst | ⟨i, n, -, hn, rfl⟩, -⟩ := hx
  · obtain ⟨e, he, hw⟩ := mem_firstKeys.1 hfirst
    obtain ⟨hj, rfl⟩ := List.getElem?_eq_some_iff.1 he
    rw [weightOf_of_load (load_builtLeaf h2 hA hj), hw]
    rfl
  · exact weightOf_of_load (load_roundNode h2 hA hn)

variable (hbound : 2 * f.length < 2 ^ 32)
include hbound

theorem childIs_roundNode {i : Nat} (hi : i < f.length - 1) {d : Bool} {c : Word} :
    childIs arena (f.length + i) d c ↔ ∃ n, (roundNodes f)[i]? = some n ∧ c = if d then n.right else n.left := by
  obtain ⟨a, b, hn, -⟩ := construct_round h2 hbound hi
  simp only [childIs, load_roundNode h2 hA hn, hn, Option.some.injEq, exists_eq_left', combined_child]
  cases d <;> simp [combined, eq_comm]

/-- An index that no node of the rounds before has as a child, by the links in the arena and by the link fields. -/
theorem no_child_iff {r k : Nat} (hr : r ≤ f.length - 1) (hk : k < 2 ^ 32) :
    (∀ i d c, i < r → childIs arena (f.length + i) d c → c.toNat ≠ k) ↔
      ∀ i n, i < r → (roundNodes f)[i]? = some n → n.left ≠ BitVec.ofNat 32 k ∧ n.right ≠ BitVec.ofNat 32 k := by
  have hword : ∀ c : Word, c.toNat ≠ k ↔ c ≠ BitVec.ofNat 32 k := fun c => by
    rw [Ne, Ne, BitVec.toNat_eq, BitVec.toNat_ofNat, Nat.mod_eq_of_lt hk]
  constructor
  · intro h i n hi hn
    have hchild := fun d => h i d _ hi ((childIs_roundNode h2 hA hbound (by omega)).2 ⟨n, hn, rfl⟩)
    exact ⟨(hword _).1 (hchild false), (hword _).1 (hchild true)⟩
  · intro h i d c hi hc
    obtain ⟨n, hn, rfl⟩ := (childIs_roundNode h2 hA hbound (by omega)).1 hc
    obtain ⟨hleft, hright⟩ := h i n hi hn
    cases d
    · exact (hword _).2 hleft
    · exact (hword _).2 hright

/-- The working collection, by indices in the arena and by keys. -/
theorem inCollection_iff {r k : Nat} (hr : r ≤ f.length - 1) :
    InCollection arena f.length r k ↔ ∃ w, InColl (firstKeys f) f.length (roundNodes f) r (w, k) := by
  have hexists := lt_iff_exists_key h2 hr (k := k)
  constructor
  · rintro ⟨hk, hfree⟩
    obtain ⟨w, hw⟩ := hexists.1 hk
    exact ⟨w, hw, (no_child_iff h2 hA hbound hr (by omega)).1 hfree⟩
  · rintro ⟨w, hw, hfree⟩
    have hk := hexists.2 ⟨w, hw⟩
    exact ⟨hk, (no_child_iff h2 hA hbound hr (by omega)).2 hfree⟩

/-- Each round takes the two items of least key and makes their parent, the first one on the left
(42_construction.md R224 step 3). -/
theorem removedInRound (htotal : (f.map fun e => e.2.toNat).sum < 2 ^ 32) {r : Nat} (hr : r < f.length - 1) :
    ∃ a b, RemovedInRound arena f.length r a b ∧
      Buf.load arena (f.length + r) = some
        ⟨⟨true, false, BitVec.ofNat 32 (weightOf arena a + weightOf arena b), 0⟩,
          true, true, BitVec.ofNat 32 a, BitVec.ofNat 32 b⟩ ∧
      weightOf arena a + weightOf arena b < 2 ^ 32 := by
  obtain ⟨a, b, hn, ha, hb, hab, hleast, hnext, -, -, hsum⟩ := construct_round h2 hbound hr
  have hwa := weightOf_of_inColl h2 hA ha
  have hwb := weightOf_of_inColl h2 hA hb
  have hin : ∀ k, InCollection arena f.length r k ↔ _ := fun k => inCollection_iff h2 hA hbound hr.le
  have hbefore : ∀ {x y : Key}, InColl (firstKeys f) f.length (roundNodes f) r x →
      InColl (firstKeys f) f.length (roundNodes f) r y → Key.less x y = true → KeyBefore arena x.2 y.2 := by
    intro x y hx hy hless
    rw [KeyBefore, weightOf_of_inColl h2 hA hx, weightOf_of_inColl h2 hA hy, ← BitVec.lt_def, ← BitVec.toNat_eq]
    exact Key.less_iff.1 hless
  refine ⟨a.2, b.2, ⟨(hin _).2 ⟨a.1, ha⟩, (hin _).2 ⟨b.1, hb⟩, hab, fun x hx hxa => ?_, fun x hx hxa hxb => ?_⟩, ?_, ?_⟩
  · obtain ⟨w, hw⟩ := (hin x).1 hx
    exact hbefore ha hw (hleast (w, x) hw hxa)
  · obtain ⟨w, hw⟩ := (hin x).1 hx
    exact hbefore hb hw (hnext (w, x) hw hxa hxb)
  · rw [hwa, hwb, BitVec.ofNat_add, BitVec.ofNat_toNat, BitVec.ofNat_toNat, BitVec.setWidth_eq, BitVec.setWidth_eq]
    exact load_roundNode h2 hA hn
  · rw [hwa, hwb, ← hsum htotal]
    exact BitVec.isLt _

end

/-! ## The shape -/

theorem LegalTable.eq_singleton {nSym : Nat} {f : Table} (hf : LegalTable nSym f) (h2 : ¬ 2 ≤ f.length) :
    ∃ e, f = [e] := by
  have hpos := List.length_pos_iff.2 hf.nonempty
  exact List.length_eq_one_iff.1 (by omega)

section

variable {nSym : Nat} {f : Table} {arena : Buf Node} (hf : LegalTable nSym f) (hA : Buf.holds arena (builtNodes f))
include hf hA

/-- Entries below the table's length are leaves, one an entry. -/
theorem load_leaf {j : Nat} (hj : j < f.length) : Buf.load arena j = some (Node.leaf f[j].2 f[j].1) := by
  by_cases h2 : 2 ≤ f.length
  · exact load_builtLeaf h2 hA hj
  · obtain ⟨e, rfl⟩ := hf.eq_singleton h2
    obtain rfl : j = 0 := by simpa using hj
    exact Buf.load_of_holds hA 0 _ rfl

/-- Entries from the table's length on are internal nodes; only the degenerate tree's has no right child. -/
theorem load_internal (hbound : 2 * f.length < 2 ^ 32) {k : Nat} (hk : f.length ≤ k) (hlt : k < (builtNodes f).length) :
    ∃ n, Buf.load arena k = some n ∧ n.payload.symv = false ∧ n.lv = true ∧ (n.rv = true ↔ 2 ≤ f.length) ∧
      n.payload.weight.toNat = weightOf arena n.left.toNat + (if n.rv then weightOf arena n.right.toNat else 0) := by
  by_cases h2 : 2 ≤ f.length
  · rw [builtNodes_length_many h2] at hlt
    obtain ⟨a, b, ⟨⟨ha, -⟩, ⟨hb, -⟩, -⟩, hload, hfit⟩ :=
      removedInRound h2 hA hbound hf.total (r := k - f.length) (by omega)
    rw [Nat.add_sub_cancel' hk] at hload
    refine ⟨_, hload, rfl, rfl, by simp [h2], ?_⟩
    simp only [BitVec.toNat_ofNat, if_true, Nat.mod_eq_of_lt hfit, Nat.mod_eq_of_lt (show a < 2 ^ 32 by omega),
      Nat.mod_eq_of_lt (show b < 2 ^ 32 by omega)]
  · obtain ⟨e, rfl⟩ := hf.eq_singleton h2
    obtain rfl : k = 1 := by
      rw [builtNodes_one] at hlt
      simp only [List.length_cons, List.length_nil] at hk hlt
      omega
    have hleaf : weightOf arena 0 = e.2.toNat := weightOf_of_load (Buf.load_of_holds hA 0 _ rfl)
    exact ⟨_, Buf.load_of_holds hA 1 _ rfl, rfl, rfl, by simp, by simp [hleaf]⟩

/-- Every node but the last has a parent after it. -/
theorem built_parent (hbound : 2 * f.length < 2 ^ 32) {k : Nat} (hk : k + 1 < (builtNodes f).length) :
    ∃ k' d, k < k' ∧ k' < (builtNodes f).length ∧ childIs arena k' d (BitVec.ofNat 32 k) := by
  by_cases h2 : 2 ≤ f.length
  · rw [builtNodes_length_many h2] at hk ⊢
    obtain ⟨r, a, b, hn, hr, hab⟩ := combineAll_consumes (rounds := f.length - 1) (next := f.length) (q := firstKeys f)
      (by rw [length_firstKeys]; omega) (by omega) (k := k) (by rw [firstKeys_snd, List.mem_range]; omega)
    obtain ⟨d, hd⟩ : ∃ d : Bool, childIs arena (f.length + r) d (BitVec.ofNat 32 k) := by
      obtain rfl | rfl := hab
      · exact ⟨false, (childIs_roundNode h2 hA hbound hr).2 ⟨_, hn, rfl⟩⟩
      · exact ⟨true, (childIs_roundNode h2 hA hbound hr).2 ⟨_, hn, rfl⟩⟩
    obtain ⟨-, -, -, -, -, -, -, hlt, -⟩ := built_child h2 hbound (Buf.load_of_holds hA)
      (by rw [builtNodes_length_many h2]; omega) hd
    rw [BitVec.toNat_ofNat, Nat.mod_eq_of_lt (by omega)] at hlt
    exact ⟨f.length + r, d, hlt, by omega, hd⟩
  · obtain ⟨e, rfl⟩ := hf.eq_singleton h2
    obtain rfl : k = 0 := by
      rw [builtNodes_one] at hk
      simp only [List.length_cons, List.length_nil] at hk
      omega
    exact ⟨1, false, by omega, hk, _, Buf.load_of_holds hA 1 _ rfl, rfl⟩

/-- Every node is reached from the last one (42_construction.md R228). -/
theorem built_reached (hbound : 2 * f.length < 2 ^ 32) {k : Nat} (hk : k < (builtNodes f).length) :
    ∃ ds, PathTo arena (BitVec.ofNat 32 ((builtNodes f).length - 1)) ds (BitVec.ofNat 32 k) := by
  have hlen := builtNodes_length_le hf.nonempty
  induction hm : (builtNodes f).length - k using Nat.strong_induction_on generalizing k with
  | _ m ih =>
    by_cases hlast : k + 1 < (builtNodes f).length
    · obtain ⟨k', d, hlt, hk', hchild⟩ := built_parent hf hA hbound hlast
      obtain ⟨ds, hds⟩ := ih _ (by omega) hk' rfl
      have hword : (BitVec.ofNat 32 k').toNat = k' := by rw [BitVec.toNat_ofNat, Nat.mod_eq_of_lt (by omega)]
      exact ⟨ds ++ [d], hds.append ⟨_, by rw [hword]; exact hchild, rfl⟩⟩
    · obtain rfl : k = (builtNodes f).length - 1 := by omega
      exact ⟨[], rfl⟩

/-- ROOT's weight is the table's total (42_construction.md R228). -/
theorem built_rootWeight (hbound : 2 * f.length < 2 ^ 32) {root : Word}
    (hroot : root = BitVec.ofNat 32 ((builtNodes f).length - 1)) :
    weightOf arena root.toNat = (f.map fun e => e.2.toNat).sum := by
  obtain ⟨T, -, hT, -, -, hweight⟩ := built_of_table hf.nonempty hf.distinct hf.total hbound (Buf.load_of_holds hA)
  rw [← hroot] at hT
  rw [Built.weightOf_root hT, hweight]

end

/-! ## Arenas with the same entries -/

section

variable {A B : Buf Node} {nn : Nat} {root : Word} (hA : ArenaOk A nn root)
  (hAB : ∀ j, j < nn → Buf.load A j = Buf.load B j)
include hA hAB

/-- A path depends on the allocated entries only. -/
theorem PathTo.congr_arena {k c : Word} {ds : List Bool} (hk : k.toNat < nn) : PathTo A k ds c ↔ PathTo B k ds c := by
  induction ds generalizing k with
  | nil => exact Iff.rfl
  | cons d ds ih =>
    have hchild : ∀ k', childIs A k.toNat d k' ↔ childIs B k.toNat d k' := fun k' => by
      rw [childIs, childIs, hAB _ hk]
    constructor
    · rintro ⟨k', hk', hp⟩
      exact ⟨k', (hchild k').1 hk', (ih (hA.links _ _ _ hk hk').1).1 hp⟩
    · rintro ⟨k', hk', hp⟩
      have hk'' := (hchild k').2 hk'
      exact ⟨k', hk'', (ih (hA.links _ _ _ hk hk'').1).2 hp⟩

/-- The tree at an allocated entry depends on the allocated entries only. -/
theorem treesEqual_of_agree {k : Word} (hk : k.toNat < nn) : TreesEqual A k B k := by
  intro ds
  have hpath := fun c => PathTo.congr_arena hA hAB hk (ds := ds) (c := c)
  refine ⟨fun c hc => ⟨c, (hpath c).1 hc, ?_⟩, fun c hc => ⟨c, (hpath c).2 hc⟩⟩
  rw [payloadOf, payloadOf, hAB _ (hA.path hk hc)]

end

/-! ## After a construction -/

section

variable {nSym : Nat} {f : Table} (s : State) (hf : LegalTable nSym f) (hbound : 2 * f.length < 2 ^ 32)
include hf hbound

theorem State.construct_root_lt : (s.construct f).root.toNat < (s.construct f).nnodes.toNat := by
  have hlen := builtNodes_length_le hf.nonempty
  rw [s.construct_root_toNat hf hbound, s.construct_nnodes_toNat hf hbound]
  omega

theorem State.construct_arenaOk :
    ArenaOk (s.construct f).mem.node (s.construct f).nnodes.toNat (s.construct f).root := by
  rw [s.construct_nnodes_toNat hf hbound]
  exact arenaOk_of_table hf.nonempty hbound (Buf.load_of_holds (s.construct_holds f))

/-- Constructions from one table leave the same entries below NNODES, and so equal trees (42_construction.md R227). -/
theorem State.construct_deterministic (s' : State) :
    (∀ k, k < (s.construct f).nnodes.toNat →
      Buf.load (s.construct f).mem.node k = Buf.load (s'.construct f).mem.node k) ∧
    TreesEqual (s.construct f).mem.node (s.construct f).root (s'.construct f).mem.node (s'.construct f).root := by
  have hagree : ∀ k, k < (s.construct f).nnodes.toNat →
      Buf.load (s.construct f).mem.node k = Buf.load (s'.construct f).mem.node k := by
    intro k hk
    rw [s.construct_nnodes_toNat hf hbound] at hk
    rw [s.construct_holds f k hk, s'.construct_holds f k hk]
  exact ⟨hagree, treesEqual_of_agree (s.construct_arenaOk hf hbound) hagree (s.construct_root_lt hf hbound)⟩

end

/-- A successful BUILDF or BUILD is a construction from the legal table that FREQ then holds, whose total after BUILD is
the text's length (42_construction.md R221, R223, R226). -/
theorem exec_construction_success {i : Instr} {s t : State} (hi : i = .buildf ∨ i = .build)
    (hc : s.cfg.wellFormed = true) (ht : exec i s = .next t) (hok : t.errCode = 0) :
    ∃ (m : State) (f : Table), LegalTable s.cfg.nSym f ∧ m.HoldsTable f ∧ t = (m.construct f).succeed ∧
      (i = .build → (f.map fun e => e.2.toNat).sum = s.textLen.toNat) := by
  obtain rfl | rfl := hi
  · obtain ⟨f, hheld, hlegal, rfl⟩ := execBuildf_success ht hok
    exact ⟨s, f, hlegal, hheld, rfl, nofun⟩
  · obtain ⟨f, hf, hlegal, rfl⟩ := execBuild_success ht hok
    obtain ⟨-, -, htotal, -⟩ := State.tally_textOperand_ok hf
    have hbound := hlegal.bound hc
    exact ⟨s.storeFreq f, f, hlegal, s.storeFreq_holdsTable (by omega), rfl, fun _ => htotal⟩

end Sys2Proof.Machine

open Sys2Proof Sys2Proof.Machine Sys2Proof.Claims

/-- Settles O32: the nodes are the leaves, then one node a round, or the two nodes of the degenerate tree. -/
theorem buildfConstructsByLeastKeys : Obligations.BuildfConstructsByLeastKeys := by
  unfold Obligations.BuildfConstructsByLeastKeys
  intro s f hc hnonempty hlen hfits hsyms hcounts hdistinct htotal
  have hf : LegalTable s.cfg.nSym f := ⟨hnonempty, hfits, hdistinct, Nat.lt_succ_of_le htotal⟩
  have hbound := hf.bound hc
  have hA := s.construct_holds f
  refine ⟨_, execBuildf_of_table hf ⟨hlen, hsyms, hcounts⟩, rfl, rfl, rfl, rfl, fun j hj => load_leaf hf hA hj,
    ?single, fun h2 => ⟨?root, ?nnodes, fun r hr => removedInRound h2 hA hbound hf.total hr⟩⟩
  case single =>
    rintro e rfl
    exact ⟨rfl, rfl, hA 1 Nat.one_lt_two⟩
  case root =>
    have hroot := s.construct_root_toNat hf hbound
    rw [builtNodes_length_many h2, Nat.sub_sub] at hroot
    exact hroot
  case nnodes =>
    have hnnodes := s.construct_nnodes_toNat hf hbound
    rw [builtNodes_length_many h2] at hnnodes
    exact hnnodes

/-- Settles O33: the shape of the nodes of a legal table, with ROOT the last of them. -/
theorem builtTreeShape : Obligations.BuiltTreeShape := by
  unfold Obligations.BuiltTreeShape
  intro i s t hinv hi ht hok
  obtain ⟨m, f, hf, hheld, rfl, htext⟩ := exec_construction_success hi hinv.config ht hok
  have hbound := hf.bound hinv.config
  have hA := m.construct_holds f
  have hnnodes : (m.construct f).succeed.nnodes.toNat = _ := m.construct_nnodes_toNat hf hbound
  have hnsym : (m.construct f).succeed.nsym.toNat = f.length := hheld.length.symm
  have hweight : weightOf (m.construct f).mem.node (m.construct f).root.toNat = _ :=
    built_rootWeight hf hA hbound rfl
  rw [hnsym, hnnodes]
  refine ⟨fun k hk => ?reached, fun ds c hp => ?inside, fun k hk => ⟨_, load_leaf hf hA hk, rfl, rfl, rfl, rfl⟩, ?root,
    fun k hk hlt => load_internal hf hA hbound hk hlt, ⟨f, rfl, hheld.syms, hheld.counts, hweight⟩,
    fun hbuild => hweight.trans (htext hbuild)⟩
  case reached =>
    obtain ⟨ds, hds⟩ := built_reached hf hA hbound hk
    have hlen := builtNodes_length_le hf.nonempty
    exact ⟨ds, _, hds, by rw [BitVec.toNat_ofNat, Nat.mod_eq_of_lt (by omega)]⟩
  case inside =>
    rw [← hnnodes]
    exact (m.construct_arenaOk hf hbound).path (m.construct_root_lt hf hbound) hp
  case root =>
    have hroot : (m.construct f).succeed.root.toNat = _ := m.construct_root_toNat hf hbound
    have hlen := builtNodes_length_gt hf.nonempty
    rw [hroot]
    omega

/-- Settles O34: the operand determines the table, and the table the nodes. -/
theorem constructionIsDeterministic : Obligations.ConstructionIsDeterministic := by
  unfold Obligations.ConstructionIsDeterministic
  refine ⟨fun s s' t t' ts hcfg hc hop hop' ht ht' hok hok' => ?_,
    fun s s' t t' f hcfg hc hlen hlen' hsyms hcounts hsyms' hcounts' ht ht' hok hok' => ?_⟩
  · obtain ⟨f, hf, hlegal, rfl⟩ := execBuild_success ht hok
    obtain ⟨f', hf', -, rfl⟩ := execBuild_success ht' hok'
    rw [State.textOperand_of_operand hop] at hf
    rw [State.textOperand_of_operand hop', ← hcfg] at hf'
    cases hf.symm.trans hf'
    exact ⟨rfl, rfl, (s.storeFreq f).construct_deterministic hlegal (hlegal.bound hc) (s'.storeFreq f)⟩
  · obtain ⟨g, hg, hlegal, rfl⟩ := execBuildf_success ht hok
    obtain ⟨g', hg', -, rfl⟩ := execBuildf_success ht' hok'
    obtain rfl := hg.unique ⟨hlen, hsyms, hcounts⟩
    obtain rfl := hg'.unique ⟨hlen', hsyms', hcounts'⟩
    exact ⟨rfl, rfl, s.construct_deterministic hlegal (hlegal.bound hc) s'⟩
end

section
/-! SUPPORT. The code map in the CMAP table, its code words, and the walk of TGETP along one (43_codemap_encode.md R250 to
R256). -/

namespace Sys2Proof.Machine

open Sys2Proof.Claims

/-! ## The stored map -/

/-- A map that fits the CMAP table has a word for its length (42_construction.md R233). -/
theorem mapFits_length_lt {c : Config} {m : List Code} (hc : c.wellFormed = true) (h : mapFits c m = true) :
    m.length < 2 ^ 32 := by
  have hb := Config.bounds hc
  simp only [mapFits, Bool.and_eq_true, decide_eq_true_eq] at h
  omega

theorem State.storeMap_cmapCount_toNat (s : State) {m : List Code} (h : m.length < 2 ^ 32) :
    (s.storeMap m).cmapCount.toNat = m.length := by
  rw [State.storeMap_cmapCount, BitVec.toNat_ofNat, Nat.mod_eq_of_lt h]

/-- A derivation leaves the CMAP entries at CMAP_COUNT and above (43_codemap_encode.md R251). -/
theorem State.storeMap_load_above (s : State) {m : List Code} (h : m.length < 2 ^ 32) {e : Nat}
    (he : (s.storeMap m).cmapCount.toNat ≤ e) : Buf.load (s.storeMap m).mem.cmap e = Buf.load s.mem.cmap e := by
  rw [s.storeMap_cmapCount_toNat h] at he
  exact Buf.load_storeAll_outside _ _ _ _ (.inr (by simpa using he))

/-- CODEMAP on a built tree stores its code map. -/
theorem State.Inv.execCodemap_eq {s : State} {T : Built} (h : s.Inv) (htree : s.treeOk = true) (hT : s.holdsBuilt T) :
    Machine.execCodemap s = .next (s.storeMap T.codes).succeed := by
  rw [Machine.execCodemap, if_neg (by simp [htree]), h.deriveMap hT]

theorem State.Inv.codes_length_lt {s : State} {T : Built} (h : s.Inv) (hT : s.holdsBuilt T) : T.codes.length < 2 ^ 32 := by
  obtain ⟨-, -, hsize, -⟩ := hT
  exact mapFits_length_lt h.config (Built.mapFits (hsize ▸ h.nodesFit))

/-! ## The entries -/

/-- The code word of an entry, as the statements read it, is the path it was made from. -/
theorem cmapEntry_take {cap : Nat} {m : Code} (h : m.2.length < 2 ^ 32) :
    (cmapEntry cap m).code.take (cmapEntry cap m).len.toNat = m.2 := by
  rw [cmapEntry_len h]
  exact padCode_take cap m.2

theorem padCode_getD_of_le {cap t : Nat} {p : List Bool} (h : p.length ≤ t) : (padCode cap p).getD t false = false := by
  rw [padCode, List.getD_append_right _ _ _ _ h, List.getD_eq_getElem?_getD,
    List.getElem?_getD_replicate_default_eq]

/-- While MAP_OK = 1 each CMAP entry below CMAP_COUNT is that of a leaf, left to right. -/
theorem State.holdsBuilt.load_cmap {s : State} {T : Built} (hT : s.holdsBuilt T) (hmap : s.mapOk = true) {e : Nat}
    (he : e < s.cmapCount.toNat) :
    ∃ h : e < T.codes.length, Buf.load s.mem.cmap e = some (cmapEntry s.cfg.codeCap T.codes[e]) := by
  obtain ⟨-, -, -, hmapped⟩ := hT
  obtain ⟨hlen, hheld⟩ := Buf.holds_of_slice (vs := T.codes.map (cmapEntry s.cfg.codeCap))
    ((hmapped hmap).trans (by rw [List.map_map]; rfl))
  have he' : e < (T.codes.map (cmapEntry s.cfg.codeCap)).length := by omega
  exact ⟨by simpa using he', by rw [hheld e he', List.getElem_map]⟩

/-- An entry of the map is a code of the tree, spelled out to its length. -/
theorem State.Inv.mem_codes_of_load {s : State} {T : Built} (h : s.Inv) (hT : s.holdsBuilt T) (hmap : s.mapOk = true)
    {e : Nat} (he : e < s.cmapCount.toNat) {x : CmapEntry} (hx : Buf.load s.mem.cmap e = some x) :
    (x.sym, x.code.take x.len.toNat) ∈ T.codes ∧ (x.code.take x.len.toNat).length = x.len.toNat := by
  obtain ⟨hlt, hload⟩ := hT.load_cmap hmap he
  obtain rfl := Option.some.inj (hx.symm.trans hload)
  have hcode := List.getElem_mem hlt
  obtain ⟨-, hcodes⟩ := h.codes_fit hT
  obtain ⟨-, -, hbound⟩ := hcodes _ hcode
  rw [cmapEntry_take hbound, cmapEntry_len hbound]
  exact ⟨hcode, rfl⟩

/-! ## Code words side by side -/

theorem Diverge.lexBefore {a b : List Bool} (h : Diverge a b) : LexBefore a b := by
  obtain ⟨u, v, w, rfl, rfl⟩ := h
  induction u with
  | nil => exact .inl ⟨rfl, rfl⟩
  | cons d u ih => exact .inr ⟨rfl, ih⟩

/-- Two entries of a code map part at a digit, the earlier going left, and have different symbols. -/
theorem Built.codes_apart {T : Built} (hT : T.sound) {e e' : Nat} (he : e < T.codes.length) (he' : e' < T.codes.length)
    (hne : e ≠ e') :
    ¬ T.codes[e].2 <+: T.codes[e'].2 ∧ T.codes[e].1 ≠ T.codes[e'].1 ∧
      (e < e' → LexBefore T.codes[e].2 T.codes[e'].2) := by
  have hdiverge := List.pairwise_iff_getElem.1 T.codes_diverge
  obtain ⟨-, hdistinct⟩ := hT
  rw [← T.codes_fst] at hdistinct
  refine ⟨?_, fun hsym => hne ?_, fun hlt => (hdiverge e e' he he' hlt).lexBefore⟩
  · obtain hlt | hgt := Nat.lt_or_gt_of_ne hne
    · exact (hdiverge e e' he he' hlt).not_prefix.1
    · exact (hdiverge e' e he' he hgt).not_prefix.2
  · exact (hdistinct.getElem_inj_iff (hi := by simpa using he) (hj := by simpa using he')).1 (by simpa using hsym)

/-! ## TGETP at a code word -/

theorem Built.size_pos (T : Built) : 0 < T.size := by
  have hsize := T.size_le
  have hleaves := T.entries_pos
  omega

theorem State.holdsBuilt.nnodes_ne_zero {s : State} {T : Built} (hT : s.holdsBuilt T) : s.nnodes ≠ 0 := by
  obtain ⟨-, -, hsize, -⟩ := hT
  intro h0
  rw [h0] at hsize
  exact T.size_pos.ne' hsize

/-- TGETP along a code word ends at the leaf of its symbol (43_codemap_encode.md R253). -/
theorem execTgetp_codeWord {s : State} {T : Built} {x : Word} {p : List Bool} (hT : T.heldAt s.mem.node s.root)
    (hne : s.nnodes ≠ 0) (hx : (x, p) ∈ T.codes) (hcap : s.pathLen.toNat ≤ s.cfg.nPath)
    (hlen : p.length = s.pathLen.toNat) (hpath : Buf.holds s.mem.path (digitWords p)) :
    ∃ w, (x, w) ∈ T.entries ∧ execTgetp s = .next (succeeded { s with res := ⟨true, true, w, x⟩ }) := by
  obtain ⟨k, w, hwalk, hleaf, hentry⟩ := Built.codes_path hT hx
  have hcheck : s.checkPath true = .ok p := State.checkPath_ok.2 ⟨hcap, .inl rfl, (List.length_map _).trans hlen, hpath⟩
  exact ⟨w, hentry, execTgetp_path hne hcheck hwalk hleaf⟩

/-- A construction from a legal table leaves a built tree over the entries of the table (42_construction.md R228). -/
theorem State.construct_holdsBuilt (s : State) {nSym : Nat} {f : Table} (hf : LegalTable nSym f)
    (hbound : 2 * f.length < 2 ^ 32) : ∃ T : Built, (s.construct f).holdsBuilt T ∧ T.entries.Perm f := by
  obtain ⟨T, hsound, hheld, hsize, hentries, -⟩ :=
    built_of_table hf.nonempty hf.distinct hf.total hbound (Buf.load_of_holds (s.construct_holds f))
  exact ⟨T, ⟨hsound, hheld, hsize.trans (s.construct_nnodes_toNat hf hbound).symm, nofun⟩, hentries⟩

/-- After BUILDF or BUILD the block holds a built tree over the table that FREQ then holds. -/
theorem State.Inv.holdsBuilt_of_construction {i : Instr} {s t : State} {f : Table} (h : s.Inv)
    (hi : i = .buildf ∨ i = .build) (ht : Machine.exec i s = .next t) (hok : t.errCode = 0) (hf : t.HoldsTable f) :
    t.treeOk = true ∧ ∃ T : Built, t.holdsBuilt T ∧ T.entries.Perm f := by
  obtain ⟨m, g, hlegal, ⟨hlen, hsyms, hcounts⟩, rfl, -⟩ := exec_construction_success hi h.config ht hok
  obtain rfl := hf.unique ⟨hlen, hsyms, hcounts⟩
  exact ⟨rfl, m.construct_holdsBuilt hlegal (hlegal.bound h.config)⟩

end Sys2Proof.Machine

open Sys2Proof Sys2Proof.Machine Sys2Proof.Claims

/-- Settles O35: the walk over a built tree records its code map, which fits the CMAP table. -/
theorem codemapWritesTheMap : Obligations.CodemapWritesTheMap := by
  unfold Obligations.CodemapWritesTheMap
  intro s T hinv htree hT
  exact ⟨_, hinv.execCodemap_eq htree hT, rfl, rfl, htree, s.storeMap_cmapCount_toNat (hinv.codes_length_lt hT),
    Buf.holds_storeAll _ _⟩

/-- Settles O36: the entries are the leaves from left to right, and the paths to two leaves part at a fork. -/
theorem codeWordsArePrefixFree : Obligations.CodeWordsArePrefixFree := by
  unfold Obligations.CodeWordsArePrefixFree
  intro s hinv hmap e he
  obtain ⟨T, hT⟩ := hinv.built (hinv.mapNeedsTree hmap)
  obtain ⟨hsound, -, -, -⟩ := id hT
  obtain ⟨-, hcodes⟩ := hinv.codes_fit hT
  obtain ⟨hlt, hload⟩ := hT.load_cmap hmap he
  obtain ⟨hne, hcap, hbound⟩ := hcodes _ (List.getElem_mem hlt)
  refine ⟨_, hload, ?_, ?_, padCode_length hcap, fun t ht => ?_, fun e' he' hee' => ?_⟩
  · rw [cmapEntry_len hbound]
    exact List.length_pos_iff.2 hne
  · rw [cmapEntry_len hbound]
    exact hcap
  · rw [cmapEntry_len hbound] at ht
    exact padCode_getD_of_le ht
  · obtain ⟨hlt', hload'⟩ := hT.load_cmap hmap he'
    obtain ⟨-, -, hbound'⟩ := hcodes _ (List.getElem_mem hlt')
    refine ⟨_, hload', ?_⟩
    rw [cmapEntry_take hbound, cmapEntry_take hbound']
    exact Built.codes_apart hsound hlt hlt' hee'

/-- Settles O37: the entry's code word is the path to its symbol's leaf, and the leaves of a construction are the entries of
its table. -/
theorem codeWordLeadsToItsSymbol : Obligations.CodeWordLeadsToItsSymbol := by
  unfold Obligations.CodeWordLeadsToItsSymbol
  refine ⟨fun s T e x hinv hmap hT he hx hlen hcap hpath => ?_,
    fun i s t u f e x path hinv hi ht hok hlen hsyms hcounts hu he hx hcap hpath => ?_⟩
  · obtain ⟨hcode, hword⟩ := hinv.mem_codes_of_load hT hmap he hx
    obtain ⟨-, hheld, -, -⟩ := id hT
    exact execTgetp_codeWord hheld hT.nnodes_ne_zero hcode hcap (by rw [hword, hlen]) hpath
  · obtain ⟨htree, T, hT, hentries⟩ := hinv.holdsBuilt_of_construction hi ht hok ⟨hlen, hsyms, hcounts⟩
    have htinv := hinv.exec ht
    obtain ⟨huinv, huT⟩ := htinv.storeMap htree hT
    obtain rfl := Host.Outcome.next.inj ((htinv.execCodemap_eq htree hT).symm.trans hu)
    obtain ⟨hcode, hword⟩ := huinv.mem_codes_of_load huT rfl he hx
    obtain ⟨-, hheld, -, -⟩ := id hT
    obtain ⟨w, hw, hget⟩ := execTgetp_codeWord
      (s := { (t.storeMap T.codes).succeed with
        pathLen := x.len, mem := { (t.storeMap T.codes).succeed.mem with path := path } })
      hheld hT.nnodes_ne_zero hcode hcap hword hpath
    exact ⟨w, hentries.mem_iff.1 hw, hget⟩
end

section
/-! SUPPORT. ENCODE: the derivation of the map it may start with, and its loop over a spelled text (43_codemap_encode.md R260
to R262). -/

namespace Sys2Proof.Machine

open Sys2Proof.Claims

/-! ## With the map and without -/

/-- ENCODE past its checks is its execution phase over a state with the tree's code map in it, the text as before: the
state itself while MAP_OK = 1, and else the one that the derivation leaves. -/
theorem State.Inv.execEncode_eq {s : State} {T : Built} (h : s.Inv) (htree : s.treeOk = true) (hT : s.holdsBuilt T)
    (hcap : s.textLen.toNat ≤ s.cfg.nText) :
    ∃ m : State, Machine.execEncode s = Machine.encodeWithMap m ∧ m.Inv ∧ m.holdsBuilt T ∧ m.mapOk = true ∧
      m.treeOk = true ∧ m.cfg = s.cfg ∧ m.textOperand = s.textOperand := by
  rw [Machine.execEncode, if_neg (by simp [htree]), if_neg (Nat.not_lt.2 hcap)]
  split
  · exact ⟨s, rfl, h, hT, ‹_›, htree, rfl, rfl⟩
  · obtain ⟨hinv, hT'⟩ := h.storeMap htree hT
    rw [h.deriveMap hT]
    exact ⟨_, rfl, hinv, hT', rfl, htree, rfl, rfl⟩

/-- The execution phase does not look at the completion registers, and writes them all. -/
theorem encodeWithMap_complete (s : State) (code : BitVec 8) (info pos : Word) :
    encodeWithMap (s.complete code info pos) = encodeWithMap s := rfl

/-! ## The loop -/

/-- Over spelled symbols that fit the loop appends their code words, and goes on with the rest of the text. -/
theorem State.Inv.encodeText_spelled {s : State} {T : Built} (h : s.Inv) (hT : s.holdsBuilt T) (hmap : s.mapOk = true)
    {ts : List Word} {ps : List (List Bool)} (hspelled : Spelled T ts ps) (hfit : ps.flatten.length ≤ s.cfg.nBits)
    (rest : List (Option Word)) :
    encodeText s.cfg.nBits s.mapOperand 0 0 (ts.map some ++ rest) =
      (encodeText s.cfg.nBits s.mapOperand ts.length ps.flatten.length rest).map (ps.flatten ++ ·) := by
  obtain ⟨-, hcodes⟩ := h.codes_fit hT
  obtain ⟨⟨-, hdistinct⟩, -, -, hmapped⟩ := hT
  obtain ⟨hlen, hwords⟩ := hspelled
  rw [hmapped hmap, Machine.encodeText_spelled (by rwa [T.codes_fst]) (fun e he => (hcodes e he).2.2) hlen hwords (by omega),
    Nat.zero_add, Nat.zero_add]

/-- The loop stops at a symbol that has no code word. -/
theorem encodeText_unknown {s : State} {T : Built} (hT : s.holdsBuilt T) (hmap : s.mapOk = true) {x : Word}
    (hx : ∀ p, (x, p) ∉ T.codes) (i c : Nat) (rest : List (Option Word)) :
    encodeText s.cfg.nBits s.mapOperand i c (some x :: rest) =
      .err { kind := .unknownSymbol, info := x, pos := BitVec.ofNat 32 i } := by
  obtain ⟨-, -, -, hmapped⟩ := hT
  rw [hmapped hmap, encodeText, lookup_missing hx]

/-- The loop stops at a symbol whose code word passes N_BITS. -/
theorem State.Inv.encodeText_overflow {s : State} {T : Built} (h : s.Inv) (hT : s.holdsBuilt T) (hmap : s.mapOk = true)
    {x : Word} {p : List Bool} (hx : (x, p) ∈ T.codes) (i : Nat) {c : Nat} (hc : s.cfg.nBits < c + p.length)
    (rest : List (Option Word)) :
    encodeText s.cfg.nBits s.mapOperand i c (some x :: rest) = .err (overflow .bits 0) := by
  obtain ⟨-, hcodes⟩ := h.codes_fit hT
  obtain ⟨-, -, hbound⟩ := hcodes _ hx
  obtain ⟨⟨-, hdistinct⟩, -, -, hmapped⟩ := hT
  rw [hmapped hmap, encodeText, lookup_found (by rwa [T.codes_fst]) hx]
  exact if_pos (by rwa [cmapEntry_len hbound])

theorem encodeWithMap_ok {s : State} {bits : List Bool}
    (h : encodeText s.cfg.nBits s.mapOperand 0 0 s.textOperand = .ok bits) :
    encodeWithMap s = .next (s.storeBits bits).succeed := by
  rw [encodeWithMap, h]

theorem encodeWithMap_err {s : State} {e : Err} (h : encodeText s.cfg.nBits s.mapOperand 0 0 s.textOperand = .err e) :
    encodeWithMap s = .next (s.abandonBits.raise e) := by
  rw [encodeWithMap, h]

/-! ## What ENCODE leaves unchanged -/

theorem State.storeBits_bitCount_toNat (s : State) {bits : List Bool} (h : bits.length < 2 ^ 32) :
    (s.storeBits bits).bitCount.toNat = bits.length := by
  rw [State.storeBits_bitCount, BitVec.toNat_ofNat, Nat.mod_eq_of_lt h]

/-- The BIT elements at BIT_COUNT and above keep their contents (43_codemap_encode.md R260). -/
theorem State.storeBits_load_above (s : State) {bits : List Bool} (h : bits.length < 2 ^ 32) {j : Nat}
    (hj : (s.storeBits bits).bitCount.toNat ≤ j) : Buf.load (s.storeBits bits).mem.bit j = Buf.load s.mem.bit j := by
  rw [s.storeBits_bitCount_toNat h] at hj
  exact Buf.load_storeAll_outside _ _ _ _ (.inr (by omega))

/-- The execution phase is a completion over another BIT and BIT_COUNT; a success keeps BIT at BIT_COUNT and above. -/
theorem encodeWithMap_frame {s t : State} (hc : s.cfg.wellFormed = true) (h : encodeWithMap s = .next t) :
    ∃ (count : Word) (bit : Buf Bool) (code : BitVec 8) (info pos : Word),
      t = failed { s with bitCount := count, mem := { s.mem with bit := bit } } code info pos ∧
      (code = 0 → ∀ j, count.toNat ≤ j → Buf.load bit j = Buf.load s.mem.bit j) := by
  obtain ⟨bits, -, hfit, rfl⟩ | ⟨e, -, -, rfl⟩ := encodeWithMap_next h
  · have hb := Config.bounds hc
    exact ⟨_, _, _, _, _, rfl, fun _ _ => s.storeBits_load_above (by omega)⟩
  · exact ⟨_, _, _, _, _, rfl, fun hok => absurd hok (ErrorKind.code_ne_zero _)⟩

end Sys2Proof.Machine

open Sys2Proof Sys2Proof.Machine Sys2Proof.Claims

/-- Settles O18: CODEMAP completes over the state or over another map, ENCODE over either with another bit sequence. -/
theorem frameOfMapAndEncode : Obligations.FrameOfMapAndEncode := by
  unfold Obligations.FrameOfMapAndEncode
  intro i s t hi hc ht
  obtain rfl | rfl := hi
  case inl =>
    obtain ⟨-, rfl⟩ | ⟨m, -, hm, rfl⟩ := execCodemap_next ht
    · exact ⟨rfl, fun _ => ⟨rfl, rfl⟩, nofun, fun _ _ _ _ => rfl, nofun⟩
    · obtain ⟨c, -, hfit, rfl⟩ := deriveMap_ok.1 hm
      exact ⟨rfl, fun _ => ⟨rfl, rfl⟩, nofun,
        fun _ _ _ => s.storeMap_load_above (mapFits_length_lt hc hfit), nofun⟩
  case inr =>
    obtain ⟨-, rfl⟩ | ⟨-, -, rfl⟩ | ⟨-, -, m, hm, hnext⟩ := execEncode_next ht
    · exact ⟨rfl, nofun, fun _ _ => ⟨rfl, rfl, rfl⟩, fun _ _ _ _ => rfl,
        fun _ hok => absurd hok (State.raise_errCode_ne_zero _ _)⟩
    · exact ⟨rfl, nofun, fun _ _ => ⟨rfl, rfl, rfl⟩, fun _ _ _ _ => rfl,
        fun _ hok => absurd hok (State.raise_errCode_ne_zero _ _)⟩
    · split at hm
      · subst hm
        obtain ⟨count, bit, code, info, pos, rfl, hbits⟩ := encodeWithMap_frame hc hnext
        exact ⟨rfl, nofun, fun _ _ => ⟨rfl, rfl, rfl⟩, fun _ _ _ _ => rfl, fun _ => hbits⟩
      · rename_i hmap
        obtain ⟨c, -, hfit, rfl⟩ := deriveMap_ok.1 hm
        obtain ⟨count, bit, code, info, pos, rfl, hbits⟩ := encodeWithMap_frame (s := s.storeMap c) hc hnext
        exact ⟨rfl, nofun, fun _ h => absurd h hmap,
          fun _ _ _ => s.storeMap_load_above (mapFits_length_lt hc hfit), fun _ => hbits⟩

/-- Settles O38: with the map in place the loop reads the whole text. -/
theorem encodeConcatenatesCodeWords : Obligations.EncodeConcatenatesCodeWords := by
  unfold Obligations.EncodeConcatenatesCodeWords
  intro s T ts ps hinv htree hT hop hcap hspelled hfit
  obtain ⟨m, heq, hminv, hmT, hmap, hmtree, hcfg, htext⟩ := hinv.execEncode_eq htree hT hcap
  have hb := Config.bounds hinv.config
  have hloop : encodeText m.cfg.nBits m.mapOperand 0 0 m.textOperand = .ok ps.flatten := by
    rw [htext, State.textOperand_of_operand hop, ← List.append_nil (ts.map some),
      hminv.encodeText_spelled hmT hmap hspelled (hcfg ▸ hfit), encodeText, Res.map_ok_eq, List.append_nil]
  exact ⟨_, heq.trans (encodeWithMap_ok hloop), rfl, m.storeBits_bitCount_toNat (by omega), Buf.holds_storeAll _ _, hmap,
    hmtree, hmT⟩

/-- Settles O39: the loop reads the spelled symbols and stops at the next one. -/
theorem encodeReportsFirstFailure : Obligations.EncodeReportsFirstFailure := by
  unfold Obligations.EncodeReportsFirstFailure
  intro s T ts ps x hinv htree hT hcap hn htext hspelled hfit
  obtain ⟨m, heq, hminv, hmT, hmap, -, hcfg, hmtext⟩ := hinv.execEncode_eq htree hT hcap
  obtain ⟨rest, hslice⟩ := Buf.slice_of_holds_next htext hn
  have hoperand : m.textOperand = ts.map some ++ some x :: rest := hmtext.trans hslice
  have hloop := hminv.encodeText_spelled hmT hmap hspelled (hcfg ▸ hfit) (some x :: rest)
  rw [← hoperand] at hloop
  refine ⟨fun hx => ?unknown, fun p hx hlong => ?overflow⟩
  case unknown =>
    rw [encodeText_unknown hmT hmap hx, Res.map_err_eq] at hloop
    have hpos : (BitVec.ofNat 32 ts.length).toNat = ts.length := by
      rw [BitVec.toNat_ofNat, Nat.mod_eq_of_lt (by omega)]
    exact ⟨_, heq.trans (encodeWithMap_err hloop), rfl, rfl, hpos, rfl, rfl, hmap, hmT⟩
  case overflow =>
    rw [hminv.encodeText_overflow hmT hmap hx _ (hcfg ▸ hlong), Res.map_err_eq] at hloop
    exact ⟨_, heq.trans (encodeWithMap_err hloop), rfl, rfl, rfl, rfl, rfl, hmap, hmT⟩

/-- Settles O40: both run the execution phase on the derived map, which no completion register touches. -/
theorem encodeDerivesTheMap : Obligations.EncodeDerivesTheMap := by
  unfold Obligations.EncodeDerivesTheMap
  intro s t hmap hcap ht hok
  obtain ⟨-, rfl⟩ | ⟨m, htree, hm, rfl⟩ := execCodemap_next ht
  · exact absurd hok (State.raise_errCode_ne_zero _ _)
  · obtain ⟨c, -, -, rfl⟩ := deriveMap_ok.1 hm
    have htree' : ¬ s.treeOk = false := by simp [htree]
    have hcap' : ¬ s.cfg.nText < s.textLen.toNat := Nat.not_lt.2 hcap
    calc execEncode s = encodeWithMap (s.storeMap c) := by
          rw [execEncode, if_neg htree', if_neg hcap', if_neg (by simp [hmap]), hm]
      _ = encodeWithMap (s.storeMap c).succeed := (encodeWithMap_complete _ _ _ _).symm
      _ = execEncode (s.storeMap c).succeed := ((if_neg htree').trans ((if_neg hcap').trans (if_pos rfl))).symm
end

section
/-! SUPPORT. PACK and UNPACK on the operand they find held, the bytes of the one and the bits of the other (44_pack.md R280
to R283). -/

namespace Sys2Proof.Machine

open Sys2Proof.Claims

theorem ceilDiv_eight (n : Nat) : ceilDiv n 8 = (n + 7) / 8 := rfl

/-! ## The commands on an operand -/

theorem execPack_of_operand {s : State} {bits : List Bool} (h : Operand s.mem.bit s.bitCount bits)
    (hcap : s.bitCount.toNat ≤ s.cfg.nBits) :
    execPack s = .next { s with
      byteCount := BitVec.ofNat 32 (ceilDiv s.bitCount.toNat 8)
      mem := { s.mem with byte := Buf.storeAll s.mem.byte 0 (packedBytes s.cfg.nBytes bits) } }.succeed := by
  obtain ⟨hlen, hbits⟩ := h
  rw [execPack, if_neg (Nat.not_lt.2 hcap), State.bitOperand, readAll_ok.2 (Buf.slice_of_holds hlen hbits)]

theorem execUnpack_of_holds {s : State} {bytes : List Byte} (hlen : bytes.length = ceilDiv s.bitCount.toNat 8)
    (h : Buf.holds s.mem.byte bytes) (hcap : s.bitCount.toNat ≤ s.cfg.nBits) :
    execUnpack s = .next { s with
      mem := { s.mem with bit := Buf.storeAll s.mem.bit 0 (unpackedBits bytes s.bitCount.toNat) } }.succeed := by
  rw [execUnpack, if_neg (Nat.not_lt.2 hcap), State.packedOperand, readAll_ok.2 (Buf.slice_of_holds hlen h)]

/-! ## The bytes of PACK -/

/-- PACK writes the bytes that hold stream bits, and the rest of their last BYTEBUF word as far as BYTE goes. -/
theorem lt_packedBytes_length {nBytes : Nat} {bits : List Bool} {j : Nat} : j < (packedBytes nBytes bits).length ↔
    j < ceilDiv bits.length 8 ∨ (j < 4 * ((bits.length + 31) / 32) ∧ j < nBytes) := by
  rw [packedBytes_length]
  unfold ceilDiv
  omega

section
variable (b : Buf Byte) (nBytes : Nat) (bits : List Bool) {j : Nat}

theorem load_packedBytes (hj : j < ceilDiv bits.length 8) :
    Buf.load (Buf.storeAll b 0 (packedBytes nBytes bits)) j = some (packedByte bits j) := by
  rw [Buf.load_storeAll_inside _ _ _ (lt_packedBytes_length.2 (.inl hj)), packedBytes_getElem, if_pos hj]

theorem load_packedBytes_padding (hj : ceilDiv bits.length 8 ≤ j) (hword : j < 4 * ((bits.length + 31) / 32))
    (hcap : j < nBytes) : Buf.load (Buf.storeAll b 0 (packedBytes nBytes bits)) j = some 0 := by
  rw [Buf.load_storeAll_inside _ _ _ (lt_packedBytes_length.2 (.inr ⟨hword, hcap⟩)), packedBytes_getElem,
    if_neg (Nat.not_lt.2 hj)]

theorem load_packedBytes_above (hj : 4 * ((bits.length + 31) / 32) ≤ j) :
    Buf.load (Buf.storeAll b 0 (packedBytes nBytes bits)) j = Buf.load b j := by
  have hout : ¬ j < (packedBytes nBytes bits).length := by
    rw [lt_packedBytes_length, ceilDiv_eight]
    omega
  exact Buf.load_storeAll_outside _ _ _ _ (.inr (by omega))

end

/-! ## The bits of UNPACK -/

/-- The unpacked bits, 0 past the end, which is what PACK reads as padding. -/
theorem unpackedBits_getD (bytes : List Byte) (n i : Nat) : (unpackedBits bytes n).getD i false =
    (decide (i < n) && (bytes.getD (i / 8) 0).getLsbD (7 - i % 8)) := by
  by_cases hi : i < n
  · rw [List.getD_eq_getElem _ _ (by rwa [unpackedBits_length]), unpackedBits_getElem, decide_eq_true hi, Bool.true_and]
  · rw [List.getD_eq_default _ _ (by rw [unpackedBits_length]; omega), decide_eq_false hi, Bool.false_and]

/-- Packing the first `n` bits of bytes remakes each byte, its bits from stream bit `n` on replaced by 0. -/
theorem packedByte_unpackedBits (bytes : List Byte) (n : Nat) {j q : Nat} (hj : j < bytes.length) (hq : q < 8) :
    (packedByte (unpackedBits bytes n) j).getLsbD (7 - q) =
      (decide (8 * j + q < n) && bytes[j].getLsbD (7 - q)) := by
  have hbyte : (8 * j + q) / 8 = j := by omega
  have hbit : (8 * j + q) % 8 = q := by omega
  rw [packedByte_getLsbD _ _ _ hq, unpackedBits_getD, hbyte, hbit, List.getD_eq_getElem _ _ hj]

end Sys2Proof.Machine

open Sys2Proof Sys2Proof.Machine Sys2Proof.Claims

/-- Settles O19: every outcome is a completion over the buffer and the count the command writes, and a success stores from
element 0 up to the bound. -/
theorem frameOfStreamCommands : Obligations.FrameOfStreamCommands := by
  unfold Obligations.FrameOfStreamCommands
  refine ⟨fun s t ht => ?pack, fun s t ht => ?unpack, fun s t ht => ?decode⟩
  case pack =>
    obtain ⟨-, rfl⟩ | ⟨bits, -, hbits, rfl⟩ := execPack_next ht
    · exact ⟨rfl, fun _ _ => rfl⟩
    · obtain ⟨hlen, -⟩ := Buf.holds_of_slice hbits
      exact ⟨rfl, fun j hj => load_packedBytes_above _ _ _ (hlen ▸ hj)⟩
  case unpack =>
    obtain ⟨-, rfl⟩ | ⟨bytes, -, -, rfl⟩ := execUnpack_next ht
    · exact ⟨rfl, fun _ _ => rfl⟩
    · exact ⟨rfl, fun j hj => Buf.load_storeAll_outside _ _ _ _ (.inr (by rwa [unpackedBits_length, Nat.zero_add]))⟩
  case decode =>
    obtain ⟨-, rfl⟩ | ⟨-, -, rfl⟩ | ⟨-, -, text, -, hlen, rfl⟩ | ⟨-, -, e, -, -, rfl⟩ := execDecode_next ht
    · exact ⟨rfl, fun _ _ _ => rfl⟩
    · exact ⟨rfl, fun _ _ _ => rfl⟩
    · have hcount : (BitVec.ofNat 32 text.length).toNat = text.length := by
        rw [BitVec.toNat_ofNat, Nat.mod_eq_of_lt (by omega)]
      refine ⟨rfl, fun _ j (hj : (BitVec.ofNat 32 text.length).toNat ≤ j) => ?_⟩
      exact Buf.load_storeAll_outside _ _ _ _ (.inr (by rwa [hcount, ← Nat.zero_add text.length] at hj))
    · exact ⟨rfl, fun hok => absurd hok (State.raise_errCode_ne_zero _ _)⟩

/-- Settles O41: PACK reads the whole operand, and each byte it stores is a packed one or padding. -/
theorem packGroupsBitsIntoBytes : Obligations.PackGroupsBitsIntoBytes := by
  unfold Obligations.PackGroupsBitsIntoBytes
  intro s bits hop hcap
  have ⟨hlen, _⟩ := hop
  have hcount : (BitVec.ofNat 32 (ceilDiv s.bitCount.toNat 8)).toNat = (bits.length + 7) / 8 := by
    rw [BitVec.toNat_ofNat, ceilDiv_eight, Nat.mod_eq_of_lt (by omega), hlen]
  exact ⟨_, execPack_of_operand hop hcap, rfl, rfl, rfl, hcount,
    fun j hj => ⟨_, load_packedBytes _ _ _ hj, fun _ hq => packedByte_getLsbD bits j _ hq⟩,
    fun _ hj hword hlt => load_packedBytes_padding _ _ _ hj hword hlt⟩

/-- Settles O42: UNPACK reads the whole operand and stores its bits from BIT[0] on. -/
theorem unpackSpreadsBytesIntoBits : Obligations.UnpackSpreadsBytesIntoBits := by
  unfold Obligations.UnpackSpreadsBytesIntoBits
  intro s bytes hlen hbytes hcap
  refine ⟨_, execUnpack_of_holds hlen hbytes hcap, rfl, rfl, rfl, rfl, fun i hi => ?_⟩
  rw [← unpackedBits_getElem bytes s.bitCount.toNat i (by rwa [unpackedBits_length])]
  exact Buf.holds_storeAll _ _ i _

/-- Settles O43: the bytes PACK stores are the operand of UNPACK, and the bits UNPACK stores that of PACK; the composites of
the two maps are `unpackedBits_packed` and `packedByte_unpackedBits`. -/
theorem unpackUndoesPack : Obligations.UnpackUndoesPack := by
  unfold Obligations.UnpackUndoesPack
  refine ⟨fun s bits hop hcap => ?unpackAfterPack, fun s bytes hlen hbytes hcap => ?packAfterUnpack⟩
  case unpackAfterPack =>
    have ⟨hlen, _⟩ := hop
    refine ⟨_, execPack_of_operand hop hcap, rfl, fun r hcount hagree hrcap => ?_⟩
    have hpacked : Buf.holds r.mem.byte ((List.range (ceilDiv bits.length 8)).map (packedByte bits)) := fun j hj => by
      have hj' : j < ceilDiv bits.length 8 := by simpa using hj
      rw [hagree j (hlen ▸ hj'), List.getElem_map, List.getElem_range]
      exact load_packedBytes _ _ _ hj'
    refine ⟨_, execUnpack_of_holds (by simp [hcount, hlen]) hpacked (hcount ▸ hrcap), rfl, hcount ▸ hlen, ?_⟩
    rw [hcount, ← hlen, unpackedBits_packed]
    exact Buf.holds_storeAll _ _
  case packAfterUnpack =>
    refine ⟨_, _, execUnpack_of_holds hlen hbytes hcap,
      execPack_of_operand ⟨unpackedBits_length _ _, Buf.holds_storeAll _ _⟩ hcap, rfl, fun j hj => ?_⟩
    have hj' : j < ceilDiv (unpackedBits bytes s.bitCount.toNat).length 8 := by
      rwa [unpackedBits_length, ceilDiv_eight, ← hlen]
    exact ⟨_, load_packedBytes _ _ _ hj', fun q hq => packedByte_unpackedBits _ _ hj hq⟩
end

section
/-! SUPPORT. DECODE over the bits it finds held, and what ENCODE, PACK and UNPACK leave of a block for it (45_decode.md R300 to
R305). -/

namespace Sys2Proof.Machine

open Sys2Proof.Claims

/-! ## The loop -/

/-- ROOT is no child, so a path of one step or more does not end there. -/
theorem ArenaOk.path_ne_root {arena : Buf Node} {nn : Nat} {root k e : Word} {p : List Bool} (h : ArenaOk arena nn root)
    (hk : k.toNat < nn) (hp : PathTo arena k p e) (hne : p ≠ []) : e ≠ root := by
  obtain ⟨ds, d, rfl⟩ := List.eq_nil_or_concat p |>.resolve_left hne
  rw [List.concat_eq_append] at hp
  obtain ⟨m, hm, c, hc, rfl⟩ := hp.split
  exact (h.links _ _ _ (h.path hk hm) hc).2

/-- A stream that ends inside a code word is TRUNCATED_STREAM there (45_decode.md R304). -/
theorem Built.decode_truncated {T : Built} {arena : Buf Node} {nn : Nat} {root x : Word} {p q : List Bool}
    (hA : ArenaOk arena nn root) (hroot : root.toNat < nn) (hT : T.heldAt arena root) (hx : (x, p ++ q) ∈ T.codes)
    (hp : p ≠ []) (hq : q ≠ []) (i : Nat) :
    decodeBits arena root root i i (p.map some) =
      .err { kind := .truncatedStream, info := BitVec.ofNat 32 p.length, pos := BitVec.ofNat 32 i } := by
  cases T with
  | single w y =>
    simp [Built.codes, List.append_eq_singleton_iff, hp, hq] at hx
  | forked w l r =>
    obtain ⟨c, -, hpath, -, -⟩ := Built.codes_path hT hx
    obtain ⟨k, hk, -⟩ := hpath.split
    have hne := hA.path_ne_root hroot hk hp
    have hsteps := decodeBits_steps (p := []) (root := root) (start := i) (i := i) (rest := []) hT hx hq hk
    rw [List.append_nil] at hsteps
    rw [hsteps, decodeBits, if_neg hne, Nat.add_sub_cancel_left]

/-- A fork has both children, so no bit is CORRUPT_STREAM (45_decode.md R302). -/
theorem Built.decode_forked_err {w : Word} {l r : HTree} {arena : Buf Node} {root : Word} {bits : List (Option Bool)}
    {e : Err} (hT : (Built.forked w l r).heldAt arena root) (h : decodeBits arena root root 0 0 bits = .err e) :
    e.kind = .truncatedStream := by
  obtain ⟨ts, hok, -⟩ | ⟨info, pos, herr⟩ | ⟨-, f, hfault⟩ := HTree.decode_total hT hT ⟨w, l, r, rfl⟩ 0 0 bits
  · cases hok.symm.trans h
  · cases herr.symm.trans h
    rfl
  · cases hfault.symm.trans h

section

variable {w x root : Word} {arena : Buf Node} (hT : (Built.single w x).heldAt arena root)
include hT

/-- The degenerate tree has no right child. -/
theorem decode_single_one (start i : Nat) (rest : List (Option Bool)) :
    decodeBits arena root root start i (some true :: rest) =
      .err { kind := .corruptStream, info := 1, pos := BitVec.ofNat 32 i } := by
  obtain ⟨a, hroot, -⟩ := hT
  rw [decodeBits, loadNode_of_load hroot]
  rfl

theorem decode_single_zero (start i : Nat) (rest : List (Option Bool)) :
    decodeBits arena root root start i (some false :: rest) =
      (decodeBits arena root root (i + 1) (i + 1) rest).map (x :: ·) :=
  Built.decode_code hT (List.mem_singleton_self _)

/-- On the degenerate tree the first 1 is CORRUPT_STREAM (45_decode.md R302). -/
theorem decode_single_zeros_one (k i : Nat) (rest : List (Option Bool)) :
    decodeBits arena root root i i ((List.replicate k false).map some ++ some true :: rest) =
      .err { kind := .corruptStream, info := 1, pos := BitVec.ofNat 32 (i + k) } := by
  induction k generalizing i with
  | zero => exact decode_single_one hT i i rest
  | succ k ih =>
    rw [List.replicate_succ, List.map_cons, List.cons_append, decode_single_zero hT, ih, Res.map_err_eq,
      Nat.add_right_comm, Nat.add_assoc]

/-- On the degenerate tree every error is at a 1. -/
theorem decode_single_err {i : Nat} {bits : List (Option Bool)} {e : Err}
    (h : decodeBits arena root root i i bits = .err e) :
    ∃ k, bits[k]? = some (some true) ∧ e.info = 1 ∧ e.pos = BitVec.ofNat 32 (i + k) := by
  induction bits generalizing i with
  | nil => simp [decodeBits] at h
  | cons o bits ih =>
    match o with
    | .none => cases h
    | some true =>
      cases (decode_single_one hT i i bits).symm.trans h
      exact ⟨0, rfl, rfl, rfl⟩
    | some false =>
      rw [decode_single_zero hT, Res.map_err] at h
      obtain ⟨k, hk, hinfo, hpos⟩ := ih h
      exact ⟨k + 1, hk, hinfo, by rw [hpos, Nat.add_right_comm, Nat.add_assoc]⟩

end

/-! ## The command -/

theorem execDecode_err {s : State} {e : Err} (htree : s.treeOk = true) (hcap : s.bitCount.toNat ≤ s.cfg.nBits)
    (h : decodeBits s.mem.node s.root s.root 0 0 s.bitOperand = .err e) :
    execDecode s = .next (s.abandonOut.raise e) := by
  rw [execDecode, if_neg (by simp [htree]), if_neg (Nat.not_lt.2 hcap), h]

/-- DECODE of code words completes with their symbols, on any block that holds the tree and the bits. -/
theorem execDecode_spelled {s : State} {T : Built} {ts : List Word} {ps : List (List Bool)} (htree : s.treeOk = true)
    (hT : T.heldAt s.mem.node s.root) (hspelled : Spelled T ts ps) (hop : Operand s.mem.bit s.bitCount ps.flatten)
    (hcap : s.bitCount.toNat ≤ s.cfg.nBits) :
    ∃ t, execDecode s = .next t ∧ t.errCode = 0 ∧ Operand t.mem.out t.outLen ts := by
  obtain ⟨hlen, hbits⟩ := hop
  obtain ⟨hwords, hcodes⟩ := hspelled
  have hloop : decodeBits s.mem.node s.root s.root 0 0 s.bitOperand = .ok ts := by
    rw [State.bitOperand, Buf.slice_of_holds hlen hbits, ← List.append_nil (ps.flatten.map some),
      Built.decode_spelled hT hwords hcodes, decodeBits, if_pos rfl, Res.map_ok_eq, List.append_nil]
  have hle : ts.length ≤ s.bitCount.toNat := by simpa [State.bitOperand] using decodeBits_length hloop
  have hcount : (BitVec.ofNat 32 ts.length).toNat = ts.length := by
    rw [BitVec.toNat_ofNat, Nat.mod_eq_of_lt (by omega)]
  rw [execDecode, if_neg (by simp [htree]), if_neg (Nat.not_lt.2 hcap), hloop]
  exact ⟨_, rfl, rfl, hcount.symm, Buf.holds_storeAll _ _⟩

/-- CORRUPT_STREAM is an error of DECODE's loop; the checks before it raise others (45_decode.md R300). -/
theorem execDecode_corrupt {s t : State} (h : execDecode s = .next t) (hcode : t.errCode = 0x06) :
    ∃ e : Err, decodeBits s.mem.node s.root s.root 0 0 s.bitOperand = .err e ∧ e.kind = .corruptStream ∧
      t.errInfo = e.info ∧ t.errPos = e.pos := by
  obtain ⟨-, rfl⟩ | ⟨-, -, rfl⟩ | ⟨-, -, text, -, -, rfl⟩ | ⟨-, -, e, herr, hkind, rfl⟩ := execDecode_next h
  · exact absurd (show notBuilt.kind.code = 0x06 from hcode) (by decide)
  · exact absurd (show ErrorKind.overflow.code = 0x06 from hcode) (by decide)
  · exact absurd (show (0 : BitVec 8) = 0x06 from hcode) (by decide)
  · refine ⟨e, herr, hkind.resolve_right fun htrunc => ?_, rfl, rfl⟩
    have hcode' : e.kind.code = 0x06 := hcode
    rw [htrunc] at hcode'
    exact absurd hcode' (by decide)

end Sys2Proof.Machine

open Sys2Proof Sys2Proof.Machine Sys2Proof.Claims

/-- Settles O44: the loop emits a symbol at the end of each code word, and is back at ROOT after the last. -/
theorem decodeReadsCodeWords : Obligations.DecodeReadsCodeWords := by
  unfold Obligations.DecodeReadsCodeWords
  intro s T ts ps _ htree hT hspelled hop hcap
  obtain ⟨-, hheld, -, -⟩ := hT
  obtain ⟨t, ht, hok, hlen, hout⟩ := execDecode_spelled htree hheld hspelled hop hcap
  exact ⟨t, ht, hok, hlen.symm, hout⟩

/-- Settles O45: past the whole code words the other bits lead from ROOT to a node that is not ROOT. -/
theorem trailingPrefixIsTruncated : Obligations.TrailingPrefixIsTruncated := by
  unfold Obligations.TrailingPrefixIsTruncated
  intro s T ts ps x p q hinv htree hT hspelled hx hp hq hop hcap
  have hroot := hinv.rootFits hT.nnodes_ne_zero
  obtain ⟨-, hheld, -, -⟩ := hT
  obtain ⟨hlen, hbits⟩ := hop
  obtain ⟨hwords, hcodes⟩ := hspelled
  have hloop : decodeBits s.mem.node s.root s.root 0 0 s.bitOperand = .err
      { kind := .truncatedStream, info := BitVec.ofNat 32 p.length, pos := BitVec.ofNat 32 ps.flatten.length } := by
    rw [State.bitOperand, Buf.slice_of_holds hlen hbits, List.map_append, Built.decode_spelled hheld hwords hcodes,
      Built.decode_truncated hinv.arena hroot hheld hx hp hq, Res.map_err_eq, Nat.zero_add]
  exact execDecode_err htree hcap hloop

/-- Settles O46: at a fork both children are there, and the degenerate tree lacks the right one only. -/
theorem corruptStreamOnlyOnDegenerateTree : Obligations.CorruptStreamOnlyOnDegenerateTree := by
  unfold Obligations.CorruptStreamOnlyOnDegenerateTree
  refine ⟨fun s t w l r _ _ hT ht hcode => ?forked, fun s w x k _ htree hT hcap hk hbits => ?firstOne,
    fun s t w x _ _ hT ht hcode => ?onlyOne⟩
  case forked =>
    obtain ⟨-, hheld, -, -⟩ := hT
    obtain ⟨e, herr, hkind, -, -⟩ := execDecode_corrupt ht hcode
    cases hkind.symm.trans (Built.decode_forked_err hheld herr)
  case firstOne =>
    obtain ⟨-, hheld, -, -⟩ := hT
    obtain ⟨rest, hslice⟩ := Buf.slice_of_holds_next hbits (by rwa [List.length_replicate])
    have hloop := decode_single_zeros_one hheld k 0 rest
    rw [← hslice, Nat.zero_add] at hloop
    exact execDecode_err htree hcap hloop
  case onlyOne =>
    obtain ⟨-, hheld, -, -⟩ := hT
    obtain ⟨e, herr, -, hinfo, hpos⟩ := execDecode_corrupt ht hcode
    obtain ⟨k, hk, hone, hat⟩ := decode_single_err hheld herr
    obtain ⟨hlt, hload⟩ := List.getElem?_eq_some_iff.1 hk
    have hlt' : k < s.bitCount.toNat := by simpa [State.bitOperand] using hlt
    have hk32 : t.errPos.toNat = k := by
      rw [hpos, hat, Nat.zero_add, BitVec.toNat_ofNat, Nat.mod_eq_of_lt (by omega)]
    rw [hk32, hinfo]
    exact ⟨hone, by simpa [State.bitOperand] using hload⟩
end

section
/-! SUPPORT. The round trip: the tree BUILD leaves spells its text, and ENCODE, PACK and UNPACK leave the tree for DECODE
(45_decode.md R303, 70_reset_and_hazards.md R371). -/

namespace Sys2Proof.Machine

open Sys2Proof.Claims

/-! ## The text and its code words -/

/-- A text of symbols that have code words is spelled by some of them. -/
theorem exists_spelled {T : Built} {ts : List Word} (h : ∀ x ∈ ts, ∃ p, (x, p) ∈ T.codes) : ∃ ps, Spelled T ts ps := by
  induction ts with
  | nil => exact ⟨[], rfl, nofun⟩
  | cons x ts ih =>
    obtain ⟨⟨p, hp⟩, hts⟩ := List.forall_mem_cons.1 h
    obtain ⟨ps, hlen, hcodes⟩ := ih hts
    exact ⟨p :: ps, congrArg (· + 1) hlen, List.forall_mem_cons.2 ⟨hp, hcodes⟩⟩

theorem State.textLen_ne_zero {s : State} {ts : List Word} (hop : Operand s.mem.text s.textLen ts) (hne : ts ≠ []) :
    s.textLen ≠ 0 := by
  obtain ⟨hlen, -⟩ := hop
  intro h0
  rw [h0] at hlen
  exact hne (List.length_eq_zero_iff.1 hlen)

/-- A count that reads a held text to its end makes the text's table (42_construction.md R221). -/
theorem State.firstSeenTable_of_tally {s : State} {ts : List Word} {f : Table} (hop : Operand s.mem.text s.textLen ts)
    (hf : tally s.cfg.nSym 0 [] s.textOperand = .ok f) : FirstSeenTable ts f := by
  rw [State.textOperand_of_operand hop] at hf
  obtain ⟨us, hus, hseen, -⟩ := tally_ok FirstSeenTable.nil (Nat.zero_le _)
    (by rw [List.length_map, hop.1, List.length_nil]; omega) hf
  obtain rfl := List.map_injective_iff.2 (Option.some_injective _) hus
  exact hseen

/-- A successful BUILD of a text leaves a built tree that spells the text (42_construction.md R226, R228). -/
theorem State.Inv.execBuild_spelled {s t : State} {ts : List Word} (h : s.Inv) (hop : Operand s.mem.text s.textLen ts)
    (ht : Machine.execBuild s = .next t) (hok : t.errCode = 0) :
    ∃ f T ps, LegalTable s.cfg.nSym f ∧ t = ((s.storeFreq f).construct f).succeed ∧ t.holdsBuilt T ∧ Spelled T ts ps := by
  obtain ⟨f, hf, hlegal, rfl⟩ := execBuild_success ht hok
  obtain ⟨T, hT, hentries⟩ := (s.storeFreq f).construct_holdsBuilt hlegal (hlegal.bound h.config)
  obtain ⟨ps, hps⟩ : ∃ ps, Spelled T ts ps := exists_spelled fun x hx => by
    have hentry : x ∈ T.codes.map Prod.fst := by
      rw [T.codes_fst, (hentries.map Prod.fst).mem_iff]
      exact ((State.firstSeenTable_of_tally hop hf).symbols x).2 hx
    obtain ⟨⟨y, p⟩, hp, rfl⟩ := List.mem_map.1 hentry
    exact ⟨p, hp⟩
  exact ⟨f, T, ps, hlegal, rfl, hT, hps⟩

/-- Two blocks that build from one table hold one tree (42_construction.md R227). -/
theorem State.construct_heldAt {s : State} (s' : State) {nSym : Nat} {f : Table} {T : Built} (hf : LegalTable nSym f)
    (hbound : 2 * f.length < 2 ^ 32) (hT : T.heldAt (s.construct f).mem.node (s.construct f).root) :
    T.heldAt (s'.construct f).mem.node (s'.construct f).root := by
  obtain ⟨hagree, -⟩ := s.construct_deterministic hf hbound s'
  exact Built.heldAt_congr (s.construct_arenaOk hf hbound) (s.construct_root_lt hf hbound)
    (fun k hk => (hagree k hk).symm) hT

/-! ## Encoding -/

section

variable {s : State} {T : Built} {ts : List Word} {ps : List (List Bool)} (h : s.Inv) (htree : s.treeOk = true)
  (hT : s.holdsBuilt T) (hop : Operand s.mem.text s.textLen ts) (hcap : s.textLen.toNat ≤ s.cfg.nText)
  (hspelled : Spelled T ts ps)
include h htree hT hop hcap hspelled

/-- ENCODE of a spelled text is OVERFLOW BITS when its code words do not fit (43_codemap_encode.md R260). -/
theorem State.Inv.execEncode_overflow (hlong : s.cfg.nBits < ps.flatten.length) :
    ∃ t, Machine.execEncode s = .next t ∧ t.errCode = 0x08 ∧ t.errInfo = 4 := by
  obtain ⟨m, heq, hminv, hmT, hmap, -, hcfg, htext⟩ := h.execEncode_eq htree hT hcap
  obtain ⟨-, hcodes⟩ := hminv.codes_fit hmT
  obtain ⟨⟨-, hdistinct⟩, -, -, hmapped⟩ := hmT
  obtain ⟨hlen, hwords⟩ := hspelled
  have hloop : encodeText m.cfg.nBits m.mapOperand 0 0 m.textOperand = .err (overflow .bits 0) := by
    rw [htext, State.textOperand_of_operand hop, ← List.append_nil (ts.map some), hmapped hmap]
    exact encodeText_overflows (by rwa [T.codes_fst]) (fun e he => (hcodes e he).2.2) hlen hwords (Nat.zero_le _)
      (by rwa [Nat.zero_add, hcfg])
  exact ⟨_, heq.trans (encodeWithMap_err hloop), rfl, rfl⟩

/-- A successful ENCODE of a spelled text leaves its code words in BIT. -/
theorem State.Inv.execEncode_success {t : State} (ht : Machine.execEncode s = .next t) (hok : t.errCode = 0) :
    ps.flatten.length ≤ s.cfg.nBits ∧ Operand t.mem.bit t.bitCount ps.flatten := by
  by_cases hfit : ps.flatten.length ≤ s.cfg.nBits
  · obtain ⟨t', ht', -, hcount, hbits, -⟩ := encodeConcatenatesCodeWords s T ts ps h htree hT hop hcap hspelled hfit
    obtain rfl := Host.Outcome.next.inj (ht.symm.trans ht')
    exact ⟨hfit, hcount.symm, hbits⟩
  · obtain ⟨t', ht', hcode, -⟩ := h.execEncode_overflow htree hT hop hcap hspelled (Nat.not_le.1 hfit)
    obtain rfl := Host.Outcome.next.inj (ht.symm.trans ht')
    exact absurd (hok.symm.trans hcode) (by decide)

end

/-- ENCODE past its checks: a success has checked TEXT_LEN. -/
theorem execEncode_textLen_le {s t : State} (h : execEncode s = .next t) (hok : t.errCode = 0) :
    s.textLen.toNat ≤ s.cfg.nText := by
  obtain ⟨-, rfl⟩ | ⟨-, -, rfl⟩ | ⟨-, hcap, -⟩ := execEncode_next h
  · exact absurd hok (State.raise_errCode_ne_zero _ _)
  · exact absurd hok (State.raise_errCode_ne_zero _ _)
  · exact hcap

/-! ## What the streams leave of the block -/

/-- What BUILDF makes its tree from and what it makes is the same in two blocks: the capacities, the FREQ table, TREE_OK and
the arena. -/
structure SameBuild (s t : State) : Prop where
  cfg : t.cfg = s.cfg
  treeOk : t.treeOk = s.treeOk
  nsym : t.nsym = s.nsym
  root : t.root = s.root
  freqSym : t.mem.freqSym = s.mem.freqSym
  freqCount : t.mem.freqCount = s.mem.freqCount
  node : t.mem.node = s.mem.node

theorem State.HoldsTable.of_agree {s t : State} {f : Table} (h : s.HoldsTable f) (hnsym : t.nsym = s.nsym)
    (hagree : ∀ j, j < s.nsym.toNat → Buf.load t.mem.freqSym j = Buf.load s.mem.freqSym j ∧
      Buf.load t.mem.freqCount j = Buf.load s.mem.freqCount j) : t.HoldsTable f where
  length := hnsym ▸ h.length
  syms := fun j hj => (hagree j (by simpa [h.length] using hj)).1.trans (h.syms j hj)
  counts := fun j hj => (hagree j (by simpa [h.length] using hj)).2.trans (h.counts j hj)

theorem SameBuild.holdsTable {s t : State} {f : Table} (h : SameBuild s t) (hf : s.HoldsTable f) : t.HoldsTable f :=
  hf.of_agree h.nsym fun _ _ => by rw [h.freqSym, h.freqCount]; exact ⟨rfl, rfl⟩

theorem execEncode_sameBuild {s t : State} (hc : s.cfg.wellFormed = true) (h : execEncode s = .next t) : SameBuild s t := by
  obtain ⟨hframe, -⟩ := frameOfMapAndEncode .encode s t (.inr rfl) hc h
  rw [hframe]
  exact ⟨rfl, rfl, rfl, rfl, rfl, rfl, rfl⟩

theorem execPack_sameBuild {s t : State} (h : execPack s = .next t) : SameBuild s t ∧ t.bitCount = s.bitCount := by
  obtain ⟨hpack, -, -⟩ := frameOfStreamCommands
  obtain ⟨hframe, -⟩ := hpack s t h
  rw [hframe]
  exact ⟨⟨rfl, rfl, rfl, rfl, rfl, rfl, rfl⟩, rfl⟩

theorem execUnpack_sameBuild {s t : State} (h : execUnpack s = .next t) : SameBuild s t ∧ t.bitCount = s.bitCount := by
  obtain ⟨-, hunpack, -⟩ := frameOfStreamCommands
  obtain ⟨hframe, -⟩ := hunpack s t h
  rw [hframe]
  exact ⟨⟨rfl, rfl, rfl, rfl, rfl, rfl, rfl⟩, rfl⟩

/-! ## From the packed bytes back to the text -/

/-- A block that holds the tree, the bit count and the bytes that PACK made of code words unpacks and decodes them to their
symbols, whatever its other bytes (44_pack.md R283, 45_decode.md R303). -/
theorem unpack_decode_packed {s t r : State} {T : Built} {ts : List Word} {ps : List (List Bool)}
    (hop : Operand s.mem.bit s.bitCount ps.flatten) (hcap : s.bitCount.toNat ≤ s.cfg.nBits) (hpack : execPack s = .next t)
    (hspelled : Spelled T ts ps) (htree : r.treeOk = true) (hT : T.heldAt r.mem.node r.root) (hcfg : r.cfg = s.cfg)
    (hcount : r.bitCount = s.bitCount)
    (hbytes : ∀ j, j < (s.bitCount.toNat + 7) / 8 → Buf.load r.mem.byte j = Buf.load t.mem.byte j) :
    t.errCode = 0 ∧ ∃ u v, execUnpack r = .next u ∧ u.errCode = 0 ∧
      execDecode u = .next v ∧ v.errCode = 0 ∧ Operand v.mem.out v.outLen ts := by
  obtain ⟨hback, -⟩ := unpackUndoesPack
  obtain ⟨t', ht', hok, hunpack⟩ := hback s ps.flatten hop hcap
  obtain rfl := Host.Outcome.next.inj (hpack.symm.trans ht')
  obtain ⟨u, hu, huok, huop⟩ := hunpack r hcount hbytes (hcfg ▸ hcap)
  obtain ⟨hsame, hucount⟩ := execUnpack_sameBuild hu
  obtain ⟨v, hv, hvok, hout⟩ := execDecode_spelled (s := u) (hsame.treeOk.trans htree)
    (by rwa [hsame.node, hsame.root]) hspelled huop (by rwa [hucount, hcount, hsame.cfg, hcfg])
  exact ⟨hok, u, v, hu, huok, hv, hvok, hout⟩

end Sys2Proof.Machine

open Sys2Proof Sys2Proof.Machine Sys2Proof.Claims

/-- Settles O47: BUILD leaves a tree that spells the text, ENCODE stores its code words or finds no room for them, and both
ways to DECODE bring it those code words. -/
theorem encodeDecodeRoundTrip : Obligations.EncodeDecodeRoundTrip := by
  unfold Obligations.EncodeDecodeRoundTrip
  intro s ts hinv hop hnonempty hcap hd
  obtain ⟨g, hg, -⟩ := State.tally_of_operand hop hd
  have hbuild := execBuild_of_tally hcap (State.textLen_ne_zero hop hnonempty) hg
  have hinv1 := hinv.execBuild hbuild
  obtain ⟨f, T, ps, -, heq, hT, hspelled⟩ := hinv.execBuild_spelled hop hbuild rfl
  by_cases hfit : ps.flatten.length ≤ s.cfg.nBits
  case pos =>
    obtain ⟨s2, hencode, hok, hcount, hbits, -, htree, -, hheld, -⟩ :=
      encodeConcatenatesCodeWords _ T ts ps hinv1 rfl hT hop hcap hspelled hfit
    have hcfg2 := (execEncode_sameBuild hinv1.config hencode).cfg
    have hop2 : Operand s2.mem.bit s2.bitCount ps.flatten := ⟨hcount.symm, hbits⟩
    have hcap2 : s2.bitCount.toNat ≤ s2.cfg.nBits := by rwa [hcount, hcfg2]
    obtain ⟨s3, hpack⟩ : ∃ s3, execPack s2 = .next s3 := ⟨_, execPack_of_operand hop2 hcap2⟩
    obtain ⟨h23, hcount3⟩ := execPack_sameBuild hpack
    obtain ⟨hpackOk, s4, s5, hunpack, hunpackOk, hdecode⟩ := unpack_decode_packed hop2 hcap2 hpack hspelled
      (h23.treeOk.trans htree) (by rwa [h23.node, h23.root]) h23.cfg hcount3 fun _ _ => rfl
    exact ⟨_, T, ps, s2, hbuild, rfl, hT, hspelled, hencode, fun hlong => absurd hfit (Nat.not_le.2 hlong), fun _ =>
      ⟨hok, execDecode_spelled htree hheld hspelled hop2 hcap2,
        s3, s4, s5, hpack, hpackOk, hunpack, hunpackOk, hdecode⟩⟩
  case neg =>
    obtain ⟨s2, hencode, hcode, hinfo⟩ :=
      hinv1.execEncode_overflow rfl hT hop hcap hspelled (Nat.not_le.1 hfit)
    exact ⟨_, T, ps, s2, hbuild, rfl, hT, hspelled, hencode, fun _ => ⟨hcode, hinfo⟩, fun hle => absurd hle hfit⟩

/-- Settles O48: the second block builds from the table of the first, so it holds the tree that spelled the text. -/
theorem secondBlockDecodesTheStream : Obligations.SecondBlockDecodesTheStream := by
  unfold Obligations.SecondBlockDecodesTheStream
  intro s r s1 s2 s3 r1 ts bytes hinv hrinv hcfg hop hbuild hok1 hencode hok2 hpack hok3 hnsym hfreq hbuildf hbytes
  have hinv1 := hinv.exec hbuild
  obtain ⟨f, T, ps, hlegal, rfl, hT, hspelled⟩ := hinv.execBuild_spelled hop hbuild hok1
  have hbound := hlegal.bound hinv.config
  have hcap := execEncode_textLen_le hencode hok2
  obtain ⟨hfit, hop2⟩ := hinv1.execEncode_success rfl hT hop hcap hspelled hencode hok2
  have h12 := execEncode_sameBuild hinv1.config hencode
  obtain ⟨h23, hcount⟩ := execPack_sameBuild hpack
  have htable : State.HoldsTable ((s.storeFreq f).construct f).succeed f :=
    (s.storeFreq_holdsTable (by omega)).of_agree rfl fun _ _ => ⟨rfl, rfl⟩
  have htable' : r.HoldsTable f := (h23.holdsTable (h12.holdsTable htable)).of_agree hnsym hfreq
  obtain rfl := Host.Outcome.next.inj ((execBuildf_of_table (hcfg ▸ hlegal) htable').symm.trans hbuildf)
  obtain ⟨-, hheld, -, -⟩ := hT
  have hcap2 : s2.bitCount.toNat ≤ s2.cfg.nBits := by
    rw [← hop2.1, h12.cfg]
    exact hfit
  obtain ⟨-, r2, r3, hunpack, -, hdecode⟩ := unpack_decode_packed
    (r := { (r.construct f).succeed with bitCount := s3.bitCount, mem := { (r.construct f).succeed.mem with byte := bytes } })
    hop2 hcap2 hpack hspelled rfl (State.construct_heldAt r hlegal hbound hheld) (hcfg.trans h12.cfg.symm) hcount
    (hcount ▸ hbytes)
  exact ⟨r2, r3, hunpack, hdecode⟩
end

section
/-! SUPPORT. The irq output at an acceptance, at a STATUS write and at a reset (60_exceptions.md R330). -/

namespace Sys2Proof.Machine

/-- irq is low while DONE is clear, whatever IRQ_EN. -/
theorem State.irq_of_not_done {s : State} (h : s.done = false) : s.irq = false := by
  rw [State.irq, h, Bool.and_false]

theorem State.resetRegisters_irq (s : State) (m : Memory) : (s.resetRegisters m).irq = false := State.irq_of_not_done rfl

theorem State.softReset_irq (s : State) : s.softReset.irq = false := by
  cases hlatch : s.cmdLatch with
  | none => rw [State.softReset_idle hlatch, State.resetRegisters_irq]
  | some c => rw [State.softReset_inFlight hlatch, State.resetRegisters_irq]

/-- After a completion irq is IRQ_EN, which the command has left as it was. -/
theorem exec_irq {i : Instr} {s t : State} (h : exec i s = .next t) : t.irq = s.irqEn := by
  have hcompletion := exec_completionOver h
  obtain ⟨-, hdone, -, -⟩ := hcompletion.writes
  have hirqEn : t.irqEn = s.irqEn := congrArg HostSide.irqEn hcompletion.hostSide
  rw [State.irq, hdone, hirqEn, Bool.and_true]

end Sys2Proof.Machine

open Sys2Proof Sys2Proof.Machine Sys2Proof.Claims

/-- Settles O10: a completion sets DONE and keeps IRQ_EN; an acceptance, a STATUS write with bit 1 set and a reset clear
DONE. -/
theorem irqIsEnabledDone : Obligations.IrqIsEnabledDone := by
  unfold Obligations.IrqIsEnabledDone
  refine ⟨fun s => rfl, fun i s t => exec_irq, fun s c hidle => ?accept, fun s v hclear => ?status,
    fun s => ⟨s.resetRegisters_irq _, s.softReset_irq⟩⟩
  case accept =>
    obtain ⟨d, hwrite⟩ := commandAcceptance s c (by rw [State.busy, hidle, Option.isSome_none])
    rw [hwrite]
    exact State.irq_of_not_done rfl
  case status =>
    obtain ⟨-, hstatus⟩ := statusBitsAndClears s
    obtain ⟨d, hwrite⟩ := hstatus v
    rw [hwrite]
    exact State.irq_of_not_done (if_pos hclear)
end

section
/-! SUPPORT. What a failed command leaves, command by command (60_exceptions.md R325): the error of a check that comes before
any write leaves the state as it was, and one of an execution phase the buffer of that phase abandoned. -/

namespace Sys2Proof.Machine

open Sys2Proof.Claims

/-! ## The completion registers of an error -/

@[simp] theorem State.raise_errCode (s : State) (e : Err) : (s.raise e).errCode = e.kind.code := rfl

@[simp] theorem State.raise_errInfo (s : State) (e : Err) : (s.raise e).errInfo = e.info := rfl

/-! ## Commands that write only on success -/

/-- An error raised on a state, in the words of the statements. -/
theorem eq_failed_of_raise {s t : State} (h : ∃ e, t = s.raise e) : t = failed s t.errCode t.errInfo t.errPos := by
  obtain ⟨e, rfl⟩ := h
  rfl

theorem execBuildf_failed {s t : State} (h : execBuildf s = .next t) (herr : t.errCode ≠ 0) : ∃ e, t = s.raise e := by
  obtain hraise | ⟨f, -, -, -, rfl⟩ := execBuildf_next h
  · exact hraise
  · exact absurd rfl herr

theorem execCodemap_failed {s t : State} (h : execCodemap s = .next t) (herr : t.errCode ≠ 0) : ∃ e, t = s.raise e := by
  obtain ⟨-, rfl⟩ | ⟨m, -, -, rfl⟩ := execCodemap_next h
  · exact ⟨_, rfl⟩
  · exact absurd rfl herr

theorem execPack_failed {s t : State} (h : execPack s = .next t) (herr : t.errCode ≠ 0) : ∃ e, t = s.raise e := by
  obtain ⟨-, rfl⟩ | ⟨bits, -, -, rfl⟩ := execPack_next h
  · exact ⟨_, rfl⟩
  · exact absurd rfl herr

theorem execUnpack_failed {s t : State} (h : execUnpack s = .next t) (herr : t.errCode ≠ 0) : ∃ e, t = s.raise e := by
  obtain ⟨-, rfl⟩ | ⟨bytes, -, -, rfl⟩ := execUnpack_next h
  · exact ⟨_, rfl⟩
  · exact absurd rfl herr

/-! ## The get commands -/

theorem getRootChild_failed {d : Bool} {s t : State} (h : getRootChild d s = .next t) (herr : t.errCode ≠ 0) :
    ∃ e, t = (s.setRes Payload.none).raise e := by
  obtain ⟨-, rfl⟩ | ⟨p, -, -, rfl⟩ := getRootChild_next h
  · exact ⟨_, rfl⟩
  · exact absurd rfl herr

theorem execTgetp_failed {s t : State} (h : execTgetp s = .next t) (herr : t.errCode ≠ 0) :
    ∃ e, t = (s.setRes Payload.none).raise e := by
  obtain hraise | ⟨ds, p, -, -, -, rfl⟩ := execTgetp_next h
  · exact hraise
  · exact absurd rfl herr

/-! ## FREQ and BUILD -/

/-- `t` is `s` after an error of the count of a text: a check's, or OVERFLOW SYM with the table abandoned
(42_construction.md R220, R226). -/
inductive CountFailed (s : State) : State → Prop where
  | check {e : Err} (h : e.info ≠ Resource.sym.id) : CountFailed s (s.raise e)
  | full (i : Nat) : CountFailed s (s.abandonFreq.raise (overflow .sym i))

theorem execFreq_failed {s t : State} (h : execFreq s = .next t) (herr : t.errCode ≠ 0) : CountFailed s t := by
  obtain ⟨-, rfl⟩ | ⟨-, f, -, rfl⟩ | ⟨-, i, -, rfl⟩ := execFreq_next h
  · exact .check (by decide)
  · exact absurd rfl herr
  · exact .full i

theorem execBuild_failed {s t : State} (h : execBuild s = .next t) (herr : t.errCode ≠ 0) : CountFailed s t := by
  obtain ⟨-, rfl⟩ | ⟨-, rfl⟩ | ⟨-, -, f, -, rfl⟩ | ⟨-, -, i, -, rfl⟩ := execBuild_next h
  · exact .check (by decide)
  · exact .check (by decide)
  · exact absurd rfl herr
  · exact .full i

theorem CountFailed.effects {s t : State} (h : CountFailed s t) :
    if t.errCode = 0x08 ∧ t.errInfo = 2 then
      t = failed { s with nsym := 0, mem := { s.mem with freqSym := [], freqCount := [] } } 0x08 2 t.errPos
    else t = failed s t.errCode t.errInfo t.errPos := by
  cases h with
  | check hinfo =>
    rw [if_neg fun hsym => hinfo hsym.2]
    rfl
  | full i =>
    rw [if_pos ⟨rfl, rfl⟩]
    rfl

/-! ## ENCODE -/

theorem execCodemap_of_deriveMap {s m : State} (htree : s.treeOk = true) (h : deriveMap s = .ok m) :
    execCodemap s = .next (succeeded m) := by
  rw [execCodemap, if_neg (by simp [htree]), h]
  rfl

theorem encodeWithMap_failed {s t : State} (h : encodeWithMap s = .next t) (herr : t.errCode ≠ 0) :
    ∃ e, (e = overflow .bits 0 ∨ e.kind = .unknownSymbol) ∧ t = s.abandonBits.raise e := by
  obtain ⟨bits, -, -, rfl⟩ | ⟨e, -, he, rfl⟩ := encodeWithMap_next h
  · exact absurd rfl herr
  · exact ⟨e, he, rfl⟩

/-- The two errors of ENCODE's execution phase, as the completion registers show them. -/
theorem encodeErr_code {e : Err} (h : e = overflow .bits 0 ∨ e.kind = .unknownSymbol) :
    e.kind.code = 0x05 ∨ (e.kind.code = 0x08 ∧ e.info = 4) := by
  obtain rfl | h := h
  · exact .inr ⟨rfl, rfl⟩
  · exact .inl (by rw [h]; rfl)

/-- A failed ENCODE: an error of a check leaves the state; one of the execution phase leaves the map and abandons the bits
(43_codemap_encode.md R260). -/
theorem execEncode_failed {s t : State} (h : execEncode s = .next t) (herr : t.errCode ≠ 0) :
    if t.errCode = 0x05 ∨ (t.errCode = 0x08 ∧ t.errInfo = 4) then
      ∃ m, (s.mapOk = true → m = s) ∧ (s.mapOk = false → exec .codemap s = .next (succeeded m)) ∧
        t = failed { m with bitCount := 0, mem := { m.mem with bit := [] } } t.errCode t.errInfo t.errPos
    else t = failed s t.errCode t.errInfo t.errPos := by
  obtain ⟨-, rfl⟩ | ⟨-, -, rfl⟩ | ⟨htree, -, m, hm, hphase⟩ := execEncode_next h
  · rw [State.raise_errCode, State.raise_errInfo, if_neg (by decide)]
    rfl
  · rw [State.raise_errCode, State.raise_errInfo, if_neg (by decide)]
    rfl
  · obtain ⟨e, he, rfl⟩ := encodeWithMap_failed hphase herr
    rw [State.raise_errCode, State.raise_errInfo, if_pos (encodeErr_code he)]
    refine ⟨m, fun hmap => ?_, fun hmap => ?_, rfl⟩
    · rwa [if_pos hmap] at hm
    · rw [if_neg (by simp [hmap])] at hm
      exact execCodemap_of_deriveMap htree hm

/-! ## DECODE -/

/-- A failed DECODE: an error of a check leaves the state; one of the bit stream abandons the output (45_decode.md R300). -/
theorem execDecode_failed {s t : State} (h : execDecode s = .next t) (herr : t.errCode ≠ 0) :
    if t.errCode = 0x06 ∨ t.errCode = 0x07 then
      t = failed { s with outLen := 0, mem := { s.mem with out := [] } } t.errCode t.errInfo t.errPos
    else t = failed s t.errCode t.errInfo t.errPos := by
  obtain ⟨-, rfl⟩ | ⟨-, -, rfl⟩ | ⟨-, -, text, -, -, rfl⟩ | ⟨-, -, e, -, hkind, rfl⟩ := execDecode_next h
  · rw [State.raise_errCode, if_neg (by decide)]
    rfl
  · rw [State.raise_errCode, if_neg (by decide)]
    rfl
  · exact absurd rfl herr
  · have hcode : e.kind.code = 0x06 ∨ e.kind.code = 0x07 := hkind.imp (congrArg ErrorKind.code) (congrArg ErrorKind.code)
    exact (if_pos hcode).mpr rfl

end Sys2Proof.Machine

open Sys2Proof Sys2Proof.Machine Sys2Proof.Claims

/-- Settles O14: NOP and TNEW raise no error, and what each other command does when it fails is its own lemma. -/
theorem failedCommandEffects : Obligations.FailedCommandEffects := by
  unfold Obligations.FailedCommandEffects
  intro i s t h herr
  cases i with
  | nop => obtain rfl := execNop_next h; exact herr rfl
  | tnew => obtain rfl := execTnew_next h; exact herr rfl
  | buildf => exact eq_failed_of_raise (execBuildf_failed h herr)
  | codemap => exact eq_failed_of_raise (execCodemap_failed h herr)
  | pack => exact eq_failed_of_raise (execPack_failed h herr)
  | unpack => exact eq_failed_of_raise (execUnpack_failed h herr)
  | tsetl | tsetr => exact eq_failed_of_raise (setRootChild_failed h herr)
  | tsetp => exact eq_failed_of_raise (execTsetp_failed h herr)
  | tgetl | tgetr => exact eq_failed_of_raise (getRootChild_failed h herr)
  | tgetp => exact eq_failed_of_raise (execTgetp_failed h herr)
  | freq => exact (execFreq_failed h herr).effects
  | build => exact (execBuild_failed h herr).effects
  | encode => exact execEncode_failed h herr
  | decode => exact execDecode_failed h herr

/-- Settles O13: each is the first check of its command, or the second one past the first; the path checks are those of
`check_path`. -/
theorem firstChecksReportTheirError : Obligations.FirstChecksReportTheirError := by
  unfold Obligations.FirstChecksReportTheirError
  refine ⟨fun s i hi hcap => ?text, fun s h => ?emptyText, fun s h => ?emptyTable, fun s hcap => ?table,
    fun s i hi h => ?notBuilt, fun s htree hcap => ?encodeText, fun s i hi hcap => ?bits, fun s htree hcap => ?decodeBits,
    fun s i hi h => ?setNoTree, fun s i hi h => ?getNoTree, fun s i hi hne hcap => ?nodes, fun s hne hcap => ?path,
    fun s hne h => ?emptyPath⟩
  case text => obtain rfl | rfl := hi <;> exact if_pos hcap
  case emptyText =>
    have hcap : ¬ s.cfg.nText < s.textLen.toNat := by rw [h]; exact Nat.not_lt_zero _
    exact (if_neg hcap).trans (if_pos h)
  case emptyTable => exact if_pos h
  case table =>
    have hne : s.nsym ≠ 0 := fun h0 => Nat.not_lt_zero _ (h0 ▸ hcap)
    exact (if_neg hne).trans (if_pos hcap)
  case notBuilt => obtain rfl | rfl | rfl := hi <;> exact if_pos h
  case encodeText => exact (if_neg (by simp [htree])).trans (if_pos hcap)
  case bits => obtain rfl | rfl := hi <;> exact if_pos hcap
  case decodeBits => exact (if_neg (by simp [htree])).trans (if_pos hcap)
  case setNoTree => obtain rfl | rfl | rfl := hi <;> exact if_pos h
  case getNoTree => obtain rfl | rfl | rfl := hi <;> exact if_pos h
  case nodes => obtain rfl | rfl := hi <;> exact (if_neg hne).trans (if_pos hcap)
  case path =>
    exact ⟨execTsetp_checkPath_err hne (State.checkPath_overflow _ hcap),
      execTgetp_checkPath_err hne (State.checkPath_overflow _ hcap)⟩
  case emptyPath => exact execTsetp_checkPath_err hne (State.checkPath_empty h)
end

section
/-! SUPPORT. What a hard reset leaves: the reset registers over storage with no specified element (70_reset_and_hazards.md
R360). -/

namespace Sys2Proof.Machine

theorem State.resetRegisters_ctrlWord (s : State) (m : Memory) : (s.resetRegisters m).ctrlWord = 0 := State.ctrlWord_eq _

/-- No flag of STATUS is set after a reset: the block is idle, with nothing done, failed, overrun or built. -/
theorem State.resetRegisters_statusWord (s : State) (m : Memory) : (s.resetRegisters m).statusWord = 0 := by
  have hflags : [(s.resetRegisters m).busy, (s.resetRegisters m).done, (s.resetRegisters m).err, (s.resetRegisters m).ovr,
      (s.resetRegisters m).treeOk, (s.resetRegisters m).mapOk] = List.replicate 6 false := rfl
  refine BitVec.eq_of_getLsbD_eq fun i _ => ?_
  rw [State.statusWord_getLsbD, hflags, List.getD_eq_getElem?_getD, List.getElem?_getD_replicate_default_eq]
  exact BitVec.getLsbD_zero.symm

/-- Every buffer of the storage after hard reset is empty, so no element of it is specified. -/
theorem Memory.load_unspecified (i : Nat) :
    Buf.load Memory.unspecified.text i = .none ∧ Buf.load Memory.unspecified.freqSym i = .none ∧
    Buf.load Memory.unspecified.freqCount i = .none ∧ Buf.load Memory.unspecified.node i = .none ∧
    Buf.load Memory.unspecified.cmap i = .none ∧ Buf.load Memory.unspecified.bit i = .none ∧
    Buf.load Memory.unspecified.byte i = .none ∧ Buf.load Memory.unspecified.out i = .none ∧
    Buf.load Memory.unspecified.path i = .none :=
  ⟨Buf.load_nil i, Buf.load_nil i, Buf.load_nil i, Buf.load_nil i, Buf.load_nil i, Buf.load_nil i, Buf.load_nil i,
    Buf.load_nil i, Buf.load_nil i⟩

end Sys2Proof.Machine

open Sys2Proof Sys2Proof.Machine

/-- Settles O57: the step is the hard reset of the state whose event is taken, and the registers that are no bits of CTRL,
STATUS or irq are fields at their reset value. -/
theorem hardResetValues : Obligations.HardResetValues := by
  unfold Obligations.HardResetValues
  intro s rest hinbox
  have hctrl := State.resetRegisters_ctrlWord { s with inbox := rest } Memory.unspecified
  have hstatus := State.resetRegisters_statusWord { s with inbox := rest } Memory.unspecified
  have hirq := State.resetRegisters_irq { s with inbox := rest } Memory.unspecified
  refine ⟨State.hardReset { s with inbox := rest }, step_event hinbox, rfl, rfl, hctrl, hstatus, hirq, ?fields⟩
  case fields =>
    exact ⟨rfl, rfl, rfl, rfl, rfl, rfl, rfl, rfl, rfl, rfl, rfl, rfl, rfl, rfl, rfl, rfl, rfl, Memory.load_unspecified⟩
end
